-- ==== Sys2Proof/Word.lean ====
section
/-! DEFINITION. The word types of the block and of what it reaches (rules R20, R35, R55, R75, R112). -/

namespace Sys2Proof

/-- One byte of CPU-visible memory (R75). -/
abbrev Byte := BitVec 8

/-- A PHY register, or the data of one MII transaction (R45, R75). -/
abbrev Half := BitVec 16

/-- A device register or a descriptor word (R35, R75). -/
abbrev Word := BitVec 32

/-- A CPU address (R55). -/
abbrev Addr := BitVec 64

/-- A command word as the host delivers it (R112). -/
abbrev CmdWord := BitVec 96

end Sys2Proof
end

