-- ==== Sys2Proof/Config.lean ====
section
/-! DEFINITION. The configuration record `Cfg` as raw data (rules R7 to R9), the reference configuration `CFG_REF`,
and the free values: constants without a body, of which no proof can see a value.
Which raw configurations are accepted is said in `WellFormed.lean`. -/

namespace Sys2Proof

/-- A field `NAME = (lo, width)` of a word (R9). -/
structure Field where
  lo    : Nat
  width : Nat
deriving DecidableEq, Repr

/-- The two descriptor rings (R50, R51). -/
inductive Ring where
  | tx
  | rx
deriving DecidableEq, Repr

/-- The two words of a descriptor slot: word 0 holds the control fields, word 1 the buffer pointer (R50, R51). -/
inductive DescWord where
  | control
  | pointer
deriving DecidableEq, Repr

/-- The device registers the block drives (R36 to R44). -/
inductive Reg where
  | moder
  | intSource
  | intMask
  | miiCommand
  | miiAddress
  | miiTxData
  | miiRxData
  | miiStatus
  | macAddr0
  | macAddr1
deriving DecidableEq, Repr

/-- A location of the device register block: a register, or a word of a descriptor slot (R55, first row). -/
inductive Loc where
  | reg  (r : Reg)
  | desc (ring : Ring) (word : DescWord) (slot : Nat)
deriving DecidableEq, Repr

/-- `Layout`: register offsets from `MMIO_BASE`, field positions, and the PHY register numbers and values (R9). -/
structure Layout where
  moder         : Nat
  rxen          : Field
  txen          : Field
  intSource     : Nat
  txPendingMask : Word
  rxPendingMask : Word
  intMask       : Nat
  miiCommand    : Nat
  rstat         : Field
  wctrldata     : Field
  miiAddress    : Nat
  fiad          : Field
  rgad          : Field
  miiTxData     : Nat
  ctrldata      : Field
  miiRxData     : Nat
  prsd          : Field
  miiStatus     : Nat
  busy          : Field
  macAddr0      : Nat
  macAddr1      : Nat
  txDescBase    : Nat
  rxDescBase    : Nat
  descStride    : Nat
  len           : Field
  own           : Field
  irq           : Field
  wrap          : Field
  pad           : Field
  crc           : Field
  phyRegCtrl    : BitVec 5
  phyReset      : Field
  phyResetCmd   : Half
  phyModeValue  : Half
  phyRegStatus  : BitVec 5
  phyLink       : Field
deriving DecidableEq, Repr

/-- `IRQ_POLICY`: which ring directions are unmasked (R7, R243). -/
inductive IrqPolicy where
  | txrx
  | rxOnly
deriving DecidableEq, Repr

/-- `MAC[0..5]`, the 6-byte MAC address, `m0` the first byte on the wire (R7, R71). -/
structure MacAddr where
  m0 : Byte
  m1 : Byte
  m2 : Byte
  m3 : Byte
  m4 : Byte
  m5 : Byte
deriving DecidableEq, Repr

/-- `Cfg` as raw data: every parameter of R7, in the order of its table. -/
structure CfgData where
  nTx             : Nat
  nRx             : Nat
  slotSize        : Nat
  resetRetries    : Nat
  linkRetries     : Nat
  linkPollDelayUs : Nat
  phyAddr         : BitVec 5
  irqLine         : Nat
  mac             : MacAddr
  mmioBase        : Addr
  mmioSize        : Nat
  poolValid       : Bool
  localBase       : Addr
  deviceBase      : Addr
  crcPolicy       : Bool
  irqPolicy       : IrqPolicy
  phyRegIrq       : BitVec 5
  phyIrqValue     : Half
  layout          : Layout
deriving DecidableEq, Repr

/-- The default `Layout` of R9 (and R78) for a TX ring of `nTx` slots. -/
def Layout.default (nTx : Nat) : Layout where
  moder         := 0x00
  rxen          := ⟨0, 1⟩
  txen          := ⟨1, 1⟩
  intSource     := 0x04
  txPendingMask := 0x01#32
  rxPendingMask := 0x04#32
  intMask       := 0x08
  miiCommand    := 0x2C
  rstat         := ⟨1, 1⟩
  wctrldata     := ⟨2, 1⟩
  miiAddress    := 0x30
  fiad          := ⟨0, 5⟩
  rgad          := ⟨8, 5⟩
  miiTxData     := 0x34
  ctrldata      := ⟨0, 16⟩
  miiRxData     := 0x38
  prsd          := ⟨0, 16⟩
  miiStatus     := 0x3C
  busy          := ⟨1, 1⟩
  macAddr0      := 0x40
  macAddr1      := 0x44
  txDescBase    := 0x400
  rxDescBase    := 0x400 + 8 * nTx
  descStride    := 8
  len           := ⟨16, 16⟩
  own           := ⟨15, 1⟩
  irq           := ⟨14, 1⟩
  wrap          := ⟨13, 1⟩
  pad           := ⟨12, 1⟩
  crc           := ⟨11, 1⟩
  phyRegCtrl    := 0#5
  phyReset      := ⟨15, 1⟩
  phyResetCmd   := 0x8000#16
  phyModeValue  := 0x2100#16
  phyRegStatus  := 1#5
  phyLink       := ⟨2, 1⟩

/-- The reference configuration `CFG_REF` (last column of R7). -/
def cfgRefData : CfgData where
  nTx             := 64
  nRx             := 64
  slotSize        := 2048
  resetRetries    := 20
  linkRetries     := 100
  linkPollDelayUs := 100000
  phyAddr         := 1#5
  irqLine         := 0
  mac             := ⟨0x02#8, 0x00#8, 0x00#8, 0x00#8, 0x00#8, 0x01#8⟩
  mmioBase        := 0x10000000#64
  mmioSize        := 0x800
  poolValid       := true
  localBase       := 0x80100000#64
  deviceBase      := 0x80100000#64
  crcPolicy       := true
  irqPolicy       := .txrx
  phyRegIrq       := 0x1B#5
  phyIrqValue     := 0x0100#16
  layout          := Layout.default 64

/-! ## Free values

R63 and entry U11: the content of the device at reset is unknown, so each of these is a constant without a body.
See `notes/assumptions/3.md`, `4.md` and `5.md`. -/

/-- What a device register holds at reset (R63). -/
opaque Config.resetReg : Reg → Word

/-- What a descriptor word holds at reset (R63). -/
opaque Config.resetDesc : Ring → DescWord → Nat → Word

/-- What a PHY register holds at reset, by the key `32 * PHY address + register number` (R63). -/
opaque Config.resetPhy : Nat → Half

/-- What a byte of CPU-visible memory holds that nothing has written since reset, by its address (R63, U7). -/
opaque Config.resetByte : Nat → Byte

/-- The hardware's position in a ring at reset (R59, R63). -/
opaque Config.resetPos : Ring → Nat

/-- The bytes of the frame that arrives when the counter of free values stands at `n`, of frames that arrive without end
(R278). -/
opaque Config.arrivingFrame : Nat → List Byte

/-- The length reported with that frame (R101). -/
opaque Config.arrivingLength : Nat → Half

/-- The uninterpreted bits of word 0 that come with that frame (R100). -/
opaque Config.arrivingBits : Nat → Word

/-- The host's answer to the `n`-th buffer request for which `Env.rxBuffers` holds none: any destination and any
capacity (R271, U23, U24). -/
opaque Config.freeRxBuffer : Nat → Addr × Nat

end Sys2Proof
end

