-- ==== Sys2Proof/Syntax.lean ====
section
/-! DEFINITION. The thirteen operations of the opcode map (rule R115), with the operands of their formats (R113).
The pseudo-operation `INIT` (R124) has no opcode and no constructor: it is the list `initOps`. -/

namespace Sys2Proof

/-- The block's operations, one constructor per row of `spec/opcode_table.json`, in the table's order. Operands stand in
the order `a`, `b` of R123, as the unsigned integers of R114. -/
inductive Instr where
  /-- `RING_INIT` (R194). -/
  | ringInit
  /-- `SETUP_TX_SLOT i, addr` (R191). -/
  | setupTxSlot (i : Nat) (addr : Nat)
  /-- `SETUP_RX_SLOT j, addr` (R192). -/
  | setupRxSlot (j : Nat) (addr : Nat)
  /-- `MAC_ADDR_WRITE` (R241). -/
  | macAddrWrite
  /-- `IRQ_MASK_SET` (R243). -/
  | irqMaskSet
  /-- `BRINGUP` (R160). -/
  | bringup
  /-- `MAC_ENABLE` (R246). -/
  | macEnable
  /-- `TRANSMIT len, src` (R213). -/
  | transmit (len : Nat) (src : Nat)
  /-- `RECEIVE_READY` (R218). -/
  | receiveReady
  /-- `RECEIVE_LENGTH` (R219). -/
  | receiveLength
  /-- `RECEIVE max_len, dst` (R221). -/
  | receive (maxLen : Nat) (dst : Nat)
  /-- `MAC_ADDRESS` (R225). -/
  | macAddress
  /-- `DISPATCH` (R270). -/
  | dispatch
deriving DecidableEq, Repr

/-- The expansion of the pseudo-operation `INIT` (R124). -/
def initOps : List Instr := [.ringInit, .macAddrWrite, .irqMaskSet, .bringup, .macEnable]

end Sys2Proof
end

