-- ==== Sys2Proof/WellFormed.lean ====
section
/-! DEFINITION. Which operations can stand in a command word (rules R112, R114), and which configurations are accepted
(rules R7, R9, R23, R73, R226, R303; entry U17). A configuration that breaks a constraint has no `Cfg`, so it is
given no meaning. -/

namespace Sys2Proof

/-- The operands fit the fields `a` (24 bits) and `b` (64 bits) of the command word (R112). -/
def operandsFit (a b : Nat) : Bool := decide (a < 2 ^ 24) && decide (b < 2 ^ 64)

/-- An operation that some command word can carry. -/
def Instr.wf : Instr → Bool
  | .ringInit => true
  | .setupTxSlot i addr => operandsFit i addr
  | .setupRxSlot j addr => operandsFit j addr
  | .macAddrWrite => true
  | .irqMaskSet => true
  | .bringup => true
  | .macEnable => true
  | .transmit len src => operandsFit len src
  | .receiveReady => true
  | .receiveLength => true
  | .receive maxLen dst => operandsFit maxLen dst
  | .macAddress => true
  | .dispatch => true

/-- A field lies inside a word of `n` bits and is not empty. -/
def Field.inside (n : Nat) (f : Field) : Bool := decide (0 < f.width) && decide (f.lo + f.width ≤ n)

/-- Two fields share no bit (R9: "fields of one word do not overlap"). -/
def Field.apart (f g : Field) : Bool := decide (f.lo + f.width ≤ g.lo) || decide (g.lo + g.width ≤ f.lo)

/-- No two fields of the list overlap. -/
def Field.allApart : List Field → Bool
  | [] => true
  | f :: fs => fs.all (fun g => f.apart g) && Field.allApart fs

/-- The offsets of the ten named registers. -/
def Layout.regOffsets (L : Layout) : List Nat :=
  [L.moder, L.intSource, L.intMask, L.miiCommand, L.miiAddress, L.miiTxData, L.miiRxData, L.miiStatus, L.macAddr0,
    L.macAddr1]

/-- R9: "every offset is a multiple of 4" (the stride too, so that every descriptor word is aligned, R73). -/
def Layout.aligned (L : Layout) : Bool :=
  L.regOffsets.all (fun o => o % 4 == 0) && L.txDescBase % 4 == 0 && L.rxDescBase % 4 == 0 && L.descStride % 4 == 0

/-- The word at `off` lies outside the area of `size` bytes at `base`. -/
def Layout.outside (base size off : Nat) : Bool := decide (off + 4 ≤ base) || decide (base + size ≤ off)

/-- R9: "all named registers and both descriptor areas are disjoint". A slot's two words are apart from the next
slot's because the stride holds both. -/
def Layout.disjoint (L : Layout) (nTx nRx : Nat) : Bool :=
  decide (8 ≤ L.descStride) && decide L.regOffsets.Nodup
    && L.regOffsets.all (Layout.outside L.txDescBase (L.descStride * nTx))
    && L.regOffsets.all (Layout.outside L.rxDescBase (L.descStride * nRx))
    && (decide (L.txDescBase + L.descStride * nTx ≤ L.rxDescBase)
      || decide (L.rxDescBase + L.descStride * nRx ≤ L.txDescBase))

/-- R9: registers and descriptor areas "lie below `MMIO_SIZE`". -/
def Layout.below (L : Layout) (nTx nRx size : Nat) : Bool :=
  L.regOffsets.all (fun o => decide (o + 4 ≤ size)) && decide (L.txDescBase + L.descStride * nTx ≤ size)
    && decide (L.rxDescBase + L.descStride * nRx ≤ size)

/-- The fields of descriptor word 0 (R50; RX has the first four, R51). -/
def Layout.descFields (L : Layout) : List Field := [L.len, L.own, L.irq, L.wrap, L.pad, L.crc]

/-- The one-bit fields, those `bit(F)` and the flag tests are used with (R10), inside 32-bit words. -/
def Layout.bitFields (L : Layout) : List Field :=
  [L.rxen, L.txen, L.rstat, L.wctrldata, L.busy, L.own, L.irq, L.wrap, L.pad, L.crc]

/-- R9's constraints on fields: none overlaps another of its word, each lies in its word, the three widths R9 fixes, one
bit for each flag, and room for the 5-bit PHY address and register number of R55. R9 names no constraint on the two
pending masks, which are no fields: any two masks are accepted, even ones that share bits (DESIGN CHOICE,
notes/assumptions/26.md). -/
def Layout.fieldsOk (L : Layout) : Bool :=
  L.bitFields.all (fun f => f.inside 32 && f.width == 1)
    && [L.fiad, L.rgad, L.ctrldata, L.prsd, L.len].all (Field.inside 32)
    && Field.allApart [L.rxen, L.txen] && Field.allApart [L.rstat, L.wctrldata] && Field.allApart [L.fiad, L.rgad]
    && Field.allApart L.descFields
    && L.len.width == 16 && L.ctrldata.width == 16 && L.prsd.width == 16
    && decide (5 ≤ L.fiad.width) && decide (5 ≤ L.rgad.width)

/-- The PHY bits lie in a 16-bit register, "fields of one word do not overlap" where the two registers are one (R9), and
`PHY_RESET_CMD` "has the `PHY_RESET` bit set" (R161). -/
def Layout.phyOk (L : Layout) : Bool :=
  [L.phyReset, L.phyLink].all (fun f => f.inside 16 && f.width == 1) && L.phyResetCmd.getLsbD L.phyReset.lo
    && (L.phyRegCtrl != L.phyRegStatus || L.phyReset.apart L.phyLink)

/-- The ranges of R7 (decisions D5, D6), with R23's bound on the retry parameters and R226's bound on the pool. -/
def CfgData.rangesOk (c : CfgData) : Bool :=
  decide (1 ≤ c.nTx) && decide (c.nTx ≤ 2 ^ 24 - 1) && decide (1 ≤ c.nRx) && decide (c.nRx ≤ 2 ^ 24 - 1)
    && decide (1 ≤ c.slotSize) && decide (c.slotSize ≤ 65535) && c.slotSize % 4 == 0
    && decide (1 ≤ c.resetRetries) && decide (c.resetRetries < 2 ^ 32)
    && decide (1 ≤ c.linkRetries) && decide (c.linkRetries < 2 ^ 32)

/-- Base addresses are multiples of 4 (R7, R73, R74), and the pool does not wrap the CPU address space (R226). -/
def CfgData.basesOk (c : CfgData) : Bool :=
  c.mmioBase.toNat % 4 == 0 && c.localBase.toNat % 4 == 0 && c.deviceBase.toNat % 4 == 0
    && decide (c.localBase.toNat + (c.nTx + c.nRx) * c.slotSize ≤ 2 ^ 64)

/-- A raw configuration that meets every constraint of R7 and R9, and whose offsets are the 32-bit offsets of R226. -/
def CfgData.wf (c : CfgData) : Bool :=
  c.rangesOk && c.basesOk && c.layout.aligned && c.layout.disjoint c.nTx c.nRx
    && c.layout.below c.nTx c.nRx c.mmioSize && c.layout.fieldsOk && c.layout.phyOk
    && c.layout.below c.nTx c.nRx (2 ^ 32)

/-- `Cfg` (R7): a configuration together with its well-formedness, so that an ill-formed one cannot be built
(R303; U17: "the model's configuration type carries the constraints as proofs"). -/
structure Cfg extends CfgData where
  ok : toCfgData.wf = true
deriving DecidableEq, Repr

/-- `CFG_REF` is well-formed. -/
def cfgRef : Cfg := { toCfgData := cfgRefData, ok := by decide }

end Sys2Proof
end

