-- ==== Sys2Proof/Decode.lean ====
section
/-! DEFINITION. The decoder of command words, total on all 96 bits and rejecting by name (rules R112 to R115, R118), and
the encoder, from the same opcode map. -/

namespace Sys2Proof

/-! ## Fields of the command word (R112) -/

/-- `op`, bits 95:88. -/
def opField (w : CmdWord) : BitVec 8 := w.extractLsb' 88 8

/-- `a`, bits 87:64. -/
def aField (w : CmdWord) : BitVec 24 := w.extractLsb' 64 24

/-- `b`, bits 63:0. -/
def bField (w : CmdWord) : BitVec 64 := w.extractLsb' 0 64

/-- The command word with these fields. -/
def mkCmd (op : BitVec 8) (a : BitVec 24) (b : BitVec 64) : CmdWord := op ++ a ++ b

/-- The command word carried as three 32-bit words `W0`, `W1`, `W2`: `W1` holds the low half of `b`, `W2` the high half
(R112). -/
def cmdOfWords (w0 w1 w2 : Word) : CmdWord := w0 ++ w2 ++ w1

/-! ## The decoder -/

/-- Why a command word decodes to no operation (R118). -/
inductive Reject where
  /-- `op` is not one of the thirteen values of R115, nor reserved. -/
  | unknownOpcode
  /-- `op` is one of 0x80 to 0xFF, "reserved for later versions and illegal now". -/
  | reservedOpcode
  /-- The format is Z and `a` or `b` is not 0. -/
  | operandNotZero
deriving DecidableEq, Repr

/-- Format Z: both operands must be 0 (R113). -/
def formatZ (i : Instr) (a b : Nat) : Except Reject Instr :=
  if a = 0 ∧ b = 0 then .ok i else .error .operandNotZero

/-- The opcode map (R115), on the fields as unsigned integers (R114). -/
def decodeFields (op a b : Nat) : Except Reject Instr :=
  match op with
  | 0x01 => formatZ .ringInit a b
  | 0x02 => .ok (.setupTxSlot a b)
  | 0x03 => .ok (.setupRxSlot a b)
  | 0x04 => formatZ .macAddrWrite a b
  | 0x05 => formatZ .irqMaskSet a b
  | 0x06 => formatZ .bringup a b
  | 0x07 => formatZ .macEnable a b
  | 0x10 => .ok (.transmit a b)
  | 0x11 => formatZ .receiveReady a b
  | 0x12 => formatZ .receiveLength a b
  | 0x13 => .ok (.receive a b)
  | 0x14 => formatZ .macAddress a b
  | 0x20 => formatZ .dispatch a b
  | _ => if 0x80 ≤ op then .error .reservedOpcode else .error .unknownOpcode

/-- The operation of a command word, or why there is none (R118). -/
def decode (w : CmdWord) : Except Reject Instr := decodeFields (opField w).toNat (aField w).toNat (bField w).toNat

/-! ## The encoder -/

/-- The opcode of an operation (R115). -/
def opcode : Instr → BitVec 8
  | .ringInit => 0x01
  | .setupTxSlot _ _ => 0x02
  | .setupRxSlot _ _ => 0x03
  | .macAddrWrite => 0x04
  | .irqMaskSet => 0x05
  | .bringup => 0x06
  | .macEnable => 0x07
  | .transmit _ _ => 0x10
  | .receiveReady => 0x11
  | .receiveLength => 0x12
  | .receive _ _ => 0x13
  | .macAddress => 0x14
  | .dispatch => 0x20

/-- The operands `a` and `b` of an operation, 0 in format Z (R113, R123). -/
def operands : Instr → Nat × Nat
  | .ringInit => (0, 0)
  | .setupTxSlot i addr => (i, addr)
  | .setupRxSlot j addr => (j, addr)
  | .macAddrWrite => (0, 0)
  | .irqMaskSet => (0, 0)
  | .bringup => (0, 0)
  | .macEnable => (0, 0)
  | .transmit len src => (len, src)
  | .receiveReady => (0, 0)
  | .receiveLength => (0, 0)
  | .receive maxLen dst => (maxLen, dst)
  | .macAddress => (0, 0)
  | .dispatch => (0, 0)

/-- The command word of a well-formed operation (R112). -/
def encode (i : Instr) : CmdWord :=
  mkCmd (opcode i) (BitVec.ofNat 24 (operands i).1) (BitVec.ofNat 64 (operands i).2)

/-! ## The opcode table, as `spec/opcode_table.json` prints it -/

/-- A row: the bits under `mask` are those of `pat`. -/
structure OpRow where
  pat  : CmdWord
  mask : CmdWord
deriving DecidableEq, Repr

/-- A word matches a row. -/
def OpRow.matches (r : OpRow) (w : CmdWord) : Bool := decide (w &&& r.mask = r.pat)

/-- The row of an operation. -/
def opRow : Instr → OpRow
  | .ringInit => ⟨0x010000000000000000000000#96, 0xFFFFFFFFFFFFFFFFFFFFFFFF#96⟩
  | .setupTxSlot _ _ => ⟨0x020000000000000000000000#96, 0xFF0000000000000000000000#96⟩
  | .setupRxSlot _ _ => ⟨0x030000000000000000000000#96, 0xFF0000000000000000000000#96⟩
  | .macAddrWrite => ⟨0x040000000000000000000000#96, 0xFFFFFFFFFFFFFFFFFFFFFFFF#96⟩
  | .irqMaskSet => ⟨0x050000000000000000000000#96, 0xFFFFFFFFFFFFFFFFFFFFFFFF#96⟩
  | .bringup => ⟨0x060000000000000000000000#96, 0xFFFFFFFFFFFFFFFFFFFFFFFF#96⟩
  | .macEnable => ⟨0x070000000000000000000000#96, 0xFFFFFFFFFFFFFFFFFFFFFFFF#96⟩
  | .transmit _ _ => ⟨0x100000000000000000000000#96, 0xFF0000000000000000000000#96⟩
  | .receiveReady => ⟨0x110000000000000000000000#96, 0xFFFFFFFFFFFFFFFFFFFFFFFF#96⟩
  | .receiveLength => ⟨0x120000000000000000000000#96, 0xFFFFFFFFFFFFFFFFFFFFFFFF#96⟩
  | .receive _ _ => ⟨0x130000000000000000000000#96, 0xFF0000000000000000000000#96⟩
  | .macAddress => ⟨0x140000000000000000000000#96, 0xFFFFFFFFFFFFFFFFFFFFFFFF#96⟩
  | .dispatch => ⟨0x200000000000000000000000#96, 0xFFFFFFFFFFFFFFFFFFFFFFFF#96⟩

/-! ## The host's question -/

/-- A command word from its number, bit 0 the least significant bit of `cmd` (R112): the bits above `nbits` are 0. A
command word is one word of 96 bits, so there is no order of words to lay out. -/
def tableWord (nbits w : Nat) : CmdWord := BitVec.ofNat 96 (w % 2 ^ nbits)

/-- What the decoder reads from the opcode table's word `w`. -/
def decodeTableWord (nbits w : Nat) : Option Instr :=
  match decode (tableWord nbits w) with
  | .ok i => some i
  | .error _ => none

end Sys2Proof
end

