-- ==== Sys2Proof/Machine/State.lean ====
section
/-! DEFINITION. The state of the block, of the device it drives and of what the outside world will do, as plain data
(file `10_state.md`; `INVENTORY.md`, heading State, lists every field with its rule), the reasons a step can stop, and the
state after reset. -/

namespace Sys2Proof.Machine

/-! ## The block's working registers (R20 to R30) -/

/-- The sequencer state `ST`, written `pc` (R26). The reserved value 7 is left out (U10). -/
inductive SeqState where
  | idle
  | resetIssued
  | resetPolling
  | configWritten
  | linkPolling
  | linkUp
  | failed
deriving DecidableEq, Repr

/-- The four fatal errors (R260). -/
inductive FatalErr where
  | phyResetFailed
  | phyLinkFailed
  | poolAcquisitionFailed
  | deviceAddrRange
deriving DecidableEq, Repr

/-- `FLG` (R28): bits 0, 1 and 2. Bits 7:3 read as 0 and are left out (U10). -/
structure Flags where
  rings   : Bool
  run     : Bool
  macaddr : Bool
deriving DecidableEq, Repr

/-- The working registers of R20, and `RESULT` (R30). `err = none` is `ERR = 0`: no fatal error since reset (R27). -/
structure Block where
  txc    : BitVec 24
  rxc    : BitVec 24
  rt     : BitVec 32
  lt     : BitVec 32
  md     : Half
  pc     : SeqState
  err    : Option FatalErr
  flg    : Flags
  result : BitVec 64
deriving DecidableEq, Repr

/-! ## The device -/

/-- Words or halves by number, in one canonical form: numbers strictly rising. -/
abbrev Store (α : Type) := List (Nat × α)

/-- CPU-visible memory (R55), by address, in one canonical form (`Memory.wf`). -/
abbrev Memory := List Host.Cell

/-- Whether an MII transaction reads or writes the PHY register (R90). -/
inductive MiiDir where
  | read
  | write
deriving DecidableEq, Repr

/-- A transaction in progress, with what the engine latched when it started (R58, R90). -/
structure MiiTxn where
  dir  : MiiDir
  phy  : BitVec 5
  reg  : BitVec 5
  data : Half
deriving DecidableEq, Repr

/-- The PHY of the reference environment `SimEnv` (R103): its reset bit first reads 0 on control-register read number
`resetReads` after a reset write, its link bit first reads 1 on status-register read number `linkReads`; `none` is the
infinity of R103. `down` and `up` are the status words it returns. -/
structure PhySim where
  resetReads  : Option Nat
  linkReads   : Option Nat
  down        : Half
  up          : Half
  ctrlReads   : Nat
  statusReads : Nat
deriving DecidableEq, Repr

/-- The MAC and the PHY as the block sees them: the device registers (R36 to R44), the descriptor rings by slot number
(R50, R51), the MII engine (R58), the PHY registers (R61), and the DMA engines' positions (R59). -/
structure Device where
  moder          : Word
  intSource      : Word
  intMask        : Word
  miiCommand     : Word
  miiAddress     : Word
  miiTxData      : Word
  miiRxData      : Word
  /-- `MIISTATUS` but for its `BUSY` field, which is 1 exactly while `mii` holds a transaction (R43). -/
  miiStatusOther : Word
  macAddr0       : Word
  macAddr1       : Word
  txControl      : Store Word
  txPointer      : Store Word
  rxControl      : Store Word
  rxPointer      : Store Word
  mii            : Option MiiTxn
  phy            : Store Half
  /-- `none`: the PHY's registers change only as `DevAct.phySet` says; `some`: the PHY of `SimEnv`. -/
  phySim         : Option PhySim
  txPos          : Nat
  rxPos          : Nat
deriving DecidableEq, Repr

/-! ## The outside world -/

/-- One step of a device-side agent (R6, R90 to R101). -/
inductive DevAct where
  /-- The MII engine completes its transaction; `other` gives `MIIRX_DATA`'s bits outside `PRSD` (R90, U2). -/
  | miiComplete (other : Word)
  /-- The bits of `MIISTATUS` outside `BUSY` change (U13). -/
  | miiStatusBits (v : Word)
  /-- A PHY changes one of its registers by itself: its reset bit, its link bit, any other (R94, R95). -/
  | phySet (phy reg : BitVec 5) (v : Half)
  /-- The bits of `MODER` outside `TXEN` and `RXEN` change (R36, U13). -/
  | moderBits (v : Word)
  /-- The MAC sets bits of `INT_SOURCE` (R37, R265). -/
  | intRaise (v : Word)
  /-- The TX engine has sent the slot it is at; `other` gives word 0's uninterpreted bits (R97). -/
  | txConsume (other : Word)
  /-- The RX engine has written one byte of a frame that is arriving (R100). -/
  | rxByte (offset : Nat) (b : Byte)
  /-- A frame has arrived: its bytes, the length reported, word 0's uninterpreted bits (R100, R101). -/
  | rxFill (frame : List Byte) (len : Half) (other : Word)
deriving DecidableEq, Repr

/-- What the host does between operations (R110, R300, R322). -/
inductive HostAct where
  /-- It gives the block a command word (R110). -/
  | command (w : CmdWord)
  /-- It resets the block (R300). R301 and R305 leave to host and platform how the MAC is disabled before that; no action
  of the model disables it, so once `MAC_ENABLE` has succeeded every reset is refused (DESIGN CHOICE,
  notes/assumptions/27.md). -/
  | reset
  /-- It writes a byte of its own memory (R102, R306). -/
  | write (a : Addr) (b : Byte)
deriving DecidableEq, Repr

/-- What the outside world is going to do. `schedule`: for each coming bus event, what the device-side agents do just
before it; when it is empty, they do nothing more, but that the MII engine completes whatever it has in progress if
`miiCompletes` (R93) and never does if not (R316), and that frames arrive without end during a drain if `rxEndless` (R278;
see `arrivalsEndless` and `State.withArrival`). `host`: the host's coming actions, oldest first. `rxBuffers`: its coming
answers to `Ask RxBuffer`. `freeTick`: the model's own counter, which numbers the free answers and the free frames. -/
structure Env where
  schedule     : List (List DevAct)
  miiCompletes : Bool
  rxEndless    : Bool
  host         : List HostAct
  rxBuffers    : List (Addr × Nat)
  freeTick     : Nat
deriving DecidableEq, Repr

/-- What an observer sees (R321): the command words accepted, the bus events and host events of R12 with their values,
and each `RESULT`. Register accesses carry the offset from `MMIO_BASE`. -/
inductive Event where
  | command (w : CmdWord)
  | mmioRead (off : Nat) (v : Word)
  | mmioWrite (off : Nat) (v : Word)
  | memRead (a : Addr) (b : Byte)
  | memWrite (a : Addr) (b : Byte)
  | delay (us : Nat)
  | askRxBuffer (len : Nat) (dst : Addr) (cap : Nat)
  | frameReceived (dst : Addr) (n : Nat)
  | txSlotFreed
  | linkStateUp
  | irqAck (line : Nat)
  | log (text : String) (value : Nat)
  | result (v : BitVec 64)
deriving DecidableEq, Repr

/-! ## The state -/

/-- The machine. `cfg` is the configuration, which no step changes (R64); `trace` is what has been observed since the
start, NEWEST FIRST. `pass` is a dispatch pass that has not ended yet, by the word it read from the source: frames arrive
without end, its drain goes on in the coming steps, and the block accepts no command meanwhile (R110, R278, R321). -/
structure State where
  cfg   : Cfg
  blk   : Block
  dev   : Device
  mem   : Memory
  env   : Env
  pass  : Option Word
  trace : List Event
deriving DecidableEq, Repr

/-- Why the machine stops. -/
inductive Fault where
  /-- Raised by the busy-wait of `BRINGUP` alone (`execBringup`), when the MII engine has a transaction in progress and
  will never complete it: the operation never returns and no later command is accepted (R316, U14: stuck). Safe: the
  model stops where the hardware goes on reading the busy flag for ever, and no result is claimed for it. -/
  | miiNeverCompletes
deriving DecidableEq, Repr

/-- What has no meaning in the model. -/
inductive Refusal where
  /-- Raised by `exec` for an operation without a meaning; no arm uses it. Safe. -/
  | notModelled (mnemonic : String)
  /-- Raised by `step` when the host resets the block while the MAC is enabled, which it must not do (R301, R305, U18:
  refuse). Safe. -/
  | resetWhileMacEnabled
  /-- Raised by `step` when the host writes a byte of the buffer pool, which it must not do (R306, U19: refuse). Safe. -/
  | hostWritesPool
deriving DecidableEq, Repr

/-! ## Reset -/

/-- The working registers at reset (R62). -/
def Block.reset : Block where
  txc    := 0
  rxc    := 0
  rt     := 0
  lt     := 0
  md     := 0
  pc     := .idle
  err    := none
  flg    := ⟨false, false, false⟩
  result := 0

/-- The device at first power-up: unknown content (R63), but for the two enables of `MODER`, which are clear as R305
demands (bits 1 and 0 in `CFG_REF`), and the bits of `MIISTATUS` outside `BUSY`, which are 0 (notes/assumptions/3.md); no
transaction in progress; and the PHY of the reference environment with `r = k = 1` (notes/assumptions/7.md). -/
def Device.reset : Device where
  moder          := Config.resetReg .moder &&& 0xFFFFFFFC#32
  intSource      := Config.resetReg .intSource
  intMask        := Config.resetReg .intMask
  miiCommand     := Config.resetReg .miiCommand
  miiAddress     := Config.resetReg .miiAddress
  miiTxData      := Config.resetReg .miiTxData
  miiRxData      := Config.resetReg .miiRxData
  miiStatusOther := 0x00000000#32
  macAddr0       := Config.resetReg .macAddr0
  macAddr1       := Config.resetReg .macAddr1
  txControl      := []
  txPointer      := []
  rxControl      := []
  rxPointer      := []
  mii            := none
  phy            := []
  phySim         := some { resetReads := some 1, linkReads := some 1, down := 0x7849#16, up := 0x786D#16,
                           ctrlReads := 0, statusReads := 0 }
  txPos          := Config.resetPos .tx
  rxPos          := Config.resetPos .rx

/-- The machine right after reset (R62, R63, R300), in the reference configuration, with nothing scheduled outside. -/
def State.reset : State where
  cfg   := cfgRef
  blk   := Block.reset
  dev   := Device.reset
  mem   := []
  env   := { schedule := [], miiCompletes := true, rxEndless := false, host := [], rxBuffers := [], freeTick := 0 }
  pass  := none
  trace := []

end Sys2Proof.Machine
end

