-- ==== Sys2Proof/Machine/Fields.lean ====
section
/-! DEFINITION. Bit fields (rule R10) and ring arithmetic (rule R11). -/

namespace Sys2Proof.Machine

/-- `2^w - 1`, the mask of a field before it is shifted into place. -/
def Field.mask (n : Nat) (f : Field) : BitVec n := BitVec.ofNat n (2 ^ f.width - 1)

/-- `get(v, F)` (R10). -/
def Field.get {n : Nat} (f : Field) (v : BitVec n) : BitVec n := (v >>> f.lo) &&& Field.mask n f

/-- `set(v, F, x)` (R10); it truncates `x` to the field's width. -/
def Field.set {n : Nat} (f : Field) (v x : BitVec n) : BitVec n :=
  (v &&& ~~~(Field.mask n f <<< f.lo)) ||| ((x &&& Field.mask n f) <<< f.lo)

/-- `bit(F)` (R10). -/
def Field.bit (n : Nat) (f : Field) : BitVec n := 1#n <<< f.lo

/-- A one-bit field reads 1. -/
def Field.test {n : Nat} (f : Field) (v : BitVec n) : Bool := decide (Field.get f v = 1#n)

/-- A Boolean policy as the value of a one-bit field. -/
def bitOf (n : Nat) (b : Bool) : BitVec n := if b then 1#n else 0#n

/-- `next(c, N) = (c + 1) mod N` (R11). -/
def ringNext (c : BitVec 24) (n : Nat) : BitVec 24 := BitVec.ofNat 24 ((c.toNat + 1) % n)

end Sys2Proof.Machine
end

