-- ==== Sys2Proof/Machine/Operands.lean ====
section
/-! DEFINITION. Operands and addresses: what an operand stands for (R114), the offsets and buffer addresses the block
computes from a slot index (R12, R190), the values it composes from its configuration (R71, R225, R243), and the operand
checks of R122. -/

namespace Sys2Proof.Machine

/-! ## Addresses -/

/-- A command's operand `b` as a CPU address (R114). -/
def addrOf (b : Nat) : Addr := BitVec.ofNat 64 b

/-- Byte `k` of a buffer is at `buffer + k` (R72), computed in 64 bits; past the top it wraps (U6: "A total model may
wrap addresses modulo 2^64"). -/
def byteAt (base : Addr) (k : Nat) : Addr := base + BitVec.ofNat 64 k

/-- The number of slots of a ring (R7). -/
def ringDepth (c : Cfg) : Ring → Nat
  | .tx => c.nTx
  | .rx => c.nRx

/-- `DescW0(ring, i)` and `DescW1(ring, i)` (R12); below 2^32 by the well-formedness of `Cfg` (R226). -/
def descOffset (L : Layout) (r : Ring) (w : DescWord) (i : Nat) : Nat :=
  (match r with
    | .tx => L.txDescBase
    | .rx => L.rxDescBase) + L.descStride * i
    + (match w with
      | .control => 0
      | .pointer => 4)

/-- The offset of a location from `MMIO_BASE` (R9). -/
def locOffset (L : Layout) : Loc → Nat
  | .reg .moder => L.moder
  | .reg .intSource => L.intSource
  | .reg .intMask => L.intMask
  | .reg .miiCommand => L.miiCommand
  | .reg .miiAddress => L.miiAddress
  | .reg .miiTxData => L.miiTxData
  | .reg .miiRxData => L.miiRxData
  | .reg .miiStatus => L.miiStatus
  | .reg .macAddr0 => L.macAddr0
  | .reg .macAddr1 => L.macAddr1
  | .desc r w i => descOffset L r w i

/-- The CPU address of a register-block offset (R12, R55). -/
def mmioAddr (c : Cfg) (off : Nat) : Addr := c.mmioBase + BitVec.ofNat 64 off

/-- The pool slot bound to a descriptor: TX descriptor `i` to slot `i`, RX descriptor `j` to slot `N_TX + j` (R190). -/
def poolSlot (c : Cfg) : Ring → Nat → Nat
  | .tx, i => i
  | .rx, j => c.nTx + j

/-- `TxBufLocal(i)`, `RxBufLocal(j)`: the CPU address of a slot's packet buffer (R12). -/
def bufLocal (c : Cfg) (r : Ring) (i : Nat) : Addr := c.localBase + BitVec.ofNat 64 (poolSlot c r i * c.slotSize)

/-- `TxBufDev(i)`, `RxBufDev(j)`: its device address, as the 32-bit pointer word holds it (R12, R226). -/
def bufDev (c : Cfg) (r : Ring) (i : Nat) : Word :=
  BitVec.ofNat 32 (c.deviceBase.toNat + poolSlot c r i * c.slotSize)

/-- `(N_TX + N_RX) * SLOT_SIZE`, the size of the buffer pool (R7, R190). -/
def poolSize (c : Cfg) : Nat := (c.nTx + c.nRx) * c.slotSize

/-- The CPU address of the byte at a device address: the fixed pairing of the pool's two views (R79). -/
def localOfDevice (c : Cfg) (p : Word) : Addr := c.localBase + (p.zeroExtend 64 - c.deviceBase)

/-- A CPU address inside the buffer pool (R55). -/
def inPool (c : Cfg) (a : Addr) : Bool :=
  decide (c.localBase.toNat ≤ a.toNat) && decide (a.toNat < c.localBase.toNat + poolSize c)

/-! ## Operand checks (R122) -/

/-- What a check says of the operands. -/
inductive OperandCheck where
  | good
  | badOperand
  | addressRange
deriving DecidableEq, Repr

/-- `addr = DEVICE_BASE + m * SLOT_SIZE` for some `0 <= m < N_TX + N_RX` (R122). -/
def isPoolSlotAddr (c : Cfg) (addr : Nat) : Bool :=
  decide (c.deviceBase.toNat ≤ addr) && (addr - c.deviceBase.toNat) % c.slotSize == 0
    && decide ((addr - c.deviceBase.toNat) / c.slotSize < c.nTx + c.nRx)

/-- The checks of `SETUP_TX_SLOT` and `SETUP_RX_SLOT`: index, then 32-bit address, then in-pool (R122). -/
def checkSlotOperands (c : Cfg) (r : Ring) (i addr : Nat) : OperandCheck :=
  if ringDepth c r ≤ i then .badOperand
  else if 2 ^ 32 ≤ addr then .addressRange
  else if isPoolSlotAddr c addr then .good
  else .badOperand

/-- The check of `TRANSMIT`: `1 <= a <= SLOT_SIZE` (R122). -/
def checkTransmitLength (c : Cfg) (len : Nat) : OperandCheck :=
  if 1 ≤ len ∧ len ≤ c.slotSize then .good else .badOperand

/-! ## Values composed from the configuration -/

/-- The value written to `MAC_ADDR0` (R71). -/
def macAddr0Value (m : MacAddr) : Word := m.m2 ++ m.m3 ++ m.m4 ++ m.m5

/-- The value written to `MAC_ADDR1` (R71). -/
def macAddr1Value (m : MacAddr) : Word := 0#16 ++ m.m0 ++ m.m1

/-- The value `MAC_ADDRESS` returns (R117, R225). -/
def macValue (m : MacAddr) : BitVec 48 := m.m0 ++ m.m1 ++ m.m2 ++ m.m3 ++ m.m4 ++ m.m5

/-- The value `IRQ_MASK_SET` writes (R243). -/
def irqMaskValue (c : Cfg) : Word :=
  match c.irqPolicy with
  | .txrx => c.layout.rxPendingMask ||| c.layout.txPendingMask
  | .rxOnly => c.layout.rxPendingMask

/-- The value `MiiSelect` writes to `MIIADDRESS` (R141). -/
def miiSelectValue (c : Cfg) (reg : BitVec 5) : Word :=
  Field.set c.layout.rgad (Field.set c.layout.fiad 0#32 (c.phyAddr.zeroExtend 32)) (reg.zeroExtend 32)

/-- The descriptor word `TRANSMIT` writes, from the word it read (R213, R215). -/
def txControlValue (c : Cfg) (w : Word) (len : Nat) : Word :=
  let w2 := Field.set c.layout.pad w 1
  let w2 := Field.set c.layout.crc w2 (bitOf 32 c.crcPolicy)
  let w2 := Field.set c.layout.len w2 (BitVec.ofNat 32 len)
  let w2 := Field.set c.layout.own w2 1
  Field.set c.layout.irq w2 1

end Sys2Proof.Machine
end

