-- ==== Sys2Proof/Machine/Store.lean ====
section
/-! DEFINITION. Sparse stores by number: looking an entry up and setting one, keeping the numbers strictly rising, so
that equal stores are equal lists. Memory is such a store by address. -/

namespace Sys2Proof.Machine

/-- The entry listed under `k`, if there is one. -/
def Store.find? {α : Type} (k : Nat) : Store α → Option α
  | [] => none
  | (k', v) :: l => if k' = k then some v else Store.find? k l

/-- Sets the entry `k` to `v`, in its place by number. -/
def Store.insert {α : Type} (k : Nat) (v : α) : Store α → Store α
  | [] => [(k, v)]
  | (k', v') :: l =>
    if k < k' then (k, v) :: (k', v') :: l
    else if k = k' then (k, v) :: l
    else (k', v') :: Store.insert k v l

/-- Every number listed is above `k`, and they rise strictly. -/
def Store.risingFrom {α : Type} (k : Nat) : Store α → Bool
  | [] => true
  | (k', _) :: l => decide (k < k') && Store.risingFrom k' l

/-- The canonical form: numbers strictly rising. -/
def Store.wf {α : Type} : Store α → Bool
  | [] => true
  | (k, _) :: l => Store.risingFrom k l

/-- Memory's canonical form: addresses strictly rising and inside the 64-bit address space (R55). An address that is
not listed has no value in the store, so an entry never equals one; what a read of it gives is `Memory.read`. -/
def Memory.wf (m : Memory) : Bool := Store.wf m && m.all (fun c => decide (c.1 < 2 ^ 64))

/-- What the byte at `a` reads as: the last value written (R102), or, of a byte nothing has written, an arbitrary one
(R63, U7). The ONE definition of what an unlisted address reads as. -/
def Memory.read (m : Memory) (a : Addr) : Byte := (Store.find? a.toNat m).getD (Config.resetByte a.toNat)

/-- Writes the byte at `a`. -/
def Memory.write (a : Addr) (b : Byte) (m : Memory) : Memory := Store.insert a.toNat b m

end Sys2Proof.Machine
end

