-- ==== Sys2Proof/Machine/Agents.lean ====
section
/-! DEFINITION. The device-side agents by their contracts: what the register block answers and does (R35 to R44, R77), the
MII engine (R90 to R93), the PHY (R94, R95, R103), and the two DMA engines (R96 to R101). -/

namespace Sys2Proof.Machine

/-! ## Descriptor words -/

/-- A descriptor word; one that nothing has written holds its unknown reset content (R63). -/
def Device.desc (d : Device) (r : Ring) (w : DescWord) (i : Nat) : Word :=
  (Store.find? i
    (match r, w with
      | .tx, .control => d.txControl
      | .tx, .pointer => d.txPointer
      | .rx, .control => d.rxControl
      | .rx, .pointer => d.rxPointer)).getD (Config.resetDesc r w i)

/-- Writes a descriptor word. -/
def Device.setDesc (d : Device) (r : Ring) (w : DescWord) (i : Nat) (v : Word) : Device :=
  match r, w with
  | .tx, .control => { d with txControl := Store.insert i v d.txControl }
  | .tx, .pointer => { d with txPointer := Store.insert i v d.txPointer }
  | .rx, .control => { d with rxControl := Store.insert i v d.rxControl }
  | .rx, .pointer => { d with rxPointer := Store.insert i v d.rxPointer }

/-! ## The PHY -/

/-- PHY registers are numbered by 5-bit PHY address and 5-bit register number (R55). -/
def phyKey (phy reg : BitVec 5) : Nat := 32 * phy.toNat + reg.toNat

/-- The content of a PHY register. -/
def Device.phyReg (d : Device) (phy reg : BitVec 5) : Half :=
  (Store.find? (phyKey phy reg) d.phy).getD (Config.resetPhy (phyKey phy reg))

/-- Sets a PHY register. -/
def Device.setPhyReg (d : Device) (phy reg : BitVec 5) (v : Half) : Device :=
  { d with phy := Store.insert (phyKey phy reg) v d.phy }

/-- `r` (or `k`) has been reached: read number `n` is the one named, or a later one; never when it is infinite (R103). -/
def reached (bound : Option Nat) (n : Nat) : Bool :=
  match bound with
  | none => false
  | some b => decide (b ≤ n)

/-- A write transaction has reached the PHY: it stores the value (R90), and a reset write starts the reset over (R94);
in `SimEnv` the reads of the control register are counted from it (R103). -/
def Device.phyStore (c : Cfg) (d : Device) (phy reg : BitVec 5) (v : Half) : Device :=
  let d1 := d.setPhyReg phy reg v
  match d1.phySim with
  | none => d1
  | some p =>
    if phy = c.phyAddr ∧ reg = c.layout.phyRegCtrl ∧ Field.test c.layout.phyReset v then
      { d1 with phySim := some { p with ctrlReads := 0 } }
    else d1

/-- A read of the control register reaches the PHY of `SimEnv`: the `r`-th after a reset write, and later ones, find the
reset bit clear (R103). -/
def Device.simReadCtrl (c : Cfg) (p : PhySim) (d : Device) : Device :=
  let n := p.ctrlReads + 1
  let d1 := { d with phySim := some { p with ctrlReads := n } }
  if reached p.resetReads n then
    d1.setPhyReg c.phyAddr c.layout.phyRegCtrl (Field.set c.layout.phyReset (d.phyReg c.phyAddr c.layout.phyRegCtrl) 0)
  else d1

/-- A read of the status register reaches the PHY of `SimEnv`: the `k`-th and later ones find the link up (R103). The rest
of the word is `down` or `up`; in a layout with one register for control and status it is what that register holds
(notes/assumptions/7.md). -/
def Device.simReadStatus (c : Cfg) (p : PhySim) (d : Device) : Device :=
  let n := p.statusReads + 1
  let up := reached p.linkReads n
  let word :=
    if c.layout.phyRegStatus = c.layout.phyRegCtrl then d.phyReg c.phyAddr c.layout.phyRegStatus
    else if up then p.up
    else p.down
  ({ d with phySim := some { p with statusReads := n } } : Device).setPhyReg c.phyAddr c.layout.phyRegStatus
    (Field.set c.layout.phyLink word (bitOf 16 up))

/-- A read transaction reaches the PHY of `SimEnv` (R103). In a layout with one register for control and status a read of
it is both: it counts twice, for the reset bit and for the link bit. -/
def Device.simRead (c : Cfg) (p : PhySim) (d : Device) (reg : BitVec 5) : Device :=
  let d1 := if reg = c.layout.phyRegCtrl then d.simReadCtrl c p else d
  if reg = c.layout.phyRegStatus then d1.simReadStatus c (d1.phySim.getD p) else d1

/-- A read transaction has reached the PHY: what the PHY does about it. The PHY that `DevAct.phySet` drives does nothing
(R94, R95: no effect of a read is given, no latching is assumed). -/
def Device.phyLoad (c : Cfg) (d : Device) (phy reg : BitVec 5) : Device :=
  match d.phySim with
  | none => d
  | some p => if phy = c.phyAddr then d.simRead c p reg else d

/-! ## The MII engine -/

/-- A write to `MIICOMMAND`: with `WCTRLDATA` or `RSTAT` set and the engine idle it starts a transaction, latching the
address and, to write, the data (R90). Written while a transaction is in progress it has no defined effect, and the block
never does it (R92, U1): the model starts nothing. -/
def Device.miiCommandWrite (c : Cfg) (d : Device) (v : Word) : Device :=
  let d1 := { d with miiCommand := v }
  let txn (dir : MiiDir) : MiiTxn :=
    { dir := dir
      phy := (Field.get c.layout.fiad d.miiAddress).truncate 5
      reg := (Field.get c.layout.rgad d.miiAddress).truncate 5
      data := (Field.get c.layout.ctrldata d.miiTxData).truncate 16 }
  if d.mii.isSome then d1
  else if Field.test c.layout.wctrldata v then { d1 with mii := some (txn .write) }
  else if Field.test c.layout.rstat v then { d1 with mii := some (txn .read) }
  else d1

/-- The engine completes the transaction in progress, if there is one (R90): it moves the data, then clears `BUSY`.
`other` gives `MIIRX_DATA`'s bits outside `PRSD` after a read. -/
def Device.miiFinish (c : Cfg) (other : Word) (d : Device) : Device :=
  match d.mii with
  | none => d
  | some t =>
    match t.dir with
    | .write => { d.phyStore c t.phy t.reg t.data with mii := none }
    | .read =>
      let d1 := d.phyLoad c t.phy t.reg
      { d1 with
        miiRxData := Field.set c.layout.prsd other ((d1.phyReg t.phy t.reg).zeroExtend 32)
        mii := none }

/-! ## The register block -/

/-- The two enables of `MODER` (R36). -/
def macTxOn (L : Layout) (d : Device) : Bool := Field.test L.txen d.moder

/-- See `macTxOn`. -/
def macRxOn (L : Layout) (d : Device) : Bool := Field.test L.rxen d.moder

/-- What a read of a location gives, without side effect (R77). -/
def Device.get (L : Layout) (d : Device) : Loc → Word
  | .reg .moder => d.moder
  | .reg .intSource => d.intSource
  | .reg .intMask => d.intMask
  | .reg .miiCommand => d.miiCommand
  | .reg .miiAddress => d.miiAddress
  | .reg .miiTxData => d.miiTxData
  | .reg .miiRxData => d.miiRxData
  | .reg .miiStatus => Field.set L.busy d.miiStatusOther (bitOf 32 d.mii.isSome)
  | .reg .macAddr0 => d.macAddr0
  | .reg .macAddr1 => d.macAddr1
  | .desc r w i => d.desc r w i

/-- What a write of a location does (R77). Setting an enable of `MODER` that was clear starts that DMA engine, at slot 0
(R96, R99). `INT_SOURCE` is write-1-to-clear (R37). `MIIRX_DATA` and `MIISTATUS` are read only and the block never writes
them (R42, R43): a write would change nothing. -/
def Device.put (c : Cfg) (d : Device) : Loc → Word → Device
  | .reg .moder, v =>
    { d with
      moder := v
      txPos := if !macTxOn c.layout d && Field.test c.layout.txen v then 0 else d.txPos
      rxPos := if !macRxOn c.layout d && Field.test c.layout.rxen v then 0 else d.rxPos }
  | .reg .intSource, v => { d with intSource := d.intSource &&& ~~~v }
  | .reg .intMask, v => { d with intMask := v }
  | .reg .miiCommand, v => d.miiCommandWrite c v
  | .reg .miiAddress, v => { d with miiAddress := v }
  | .reg .miiTxData, v => { d with miiTxData := v }
  | .reg .miiRxData, _ => d
  | .reg .miiStatus, _ => d
  | .reg .macAddr0, v => { d with macAddr0 := v }
  | .reg .macAddr1, v => { d with macAddr1 := v }
  | .desc r w i, v => d.setDesc r w i v

/-! ## The DMA engines -/

/-- The bits of `v` that some field of the list covers. -/
def coveredBits (fs : List Field) : Word := fs.foldr (fun f m => Field.mask 32 f <<< f.lo ||| m) 0

/-- `v` with its bits outside the fields replaced by `other`'s. -/
def withOtherBits (fs : List Field) (v other : Word) : Word :=
  (v &&& coveredBits fs) ||| (other &&& ~~~coveredBits fs)

/-- The fields of word 0 that have a meaning; the bits outside are "other bits" (R50, R51). -/
def controlFields (L : Layout) : Ring → List Field
  | .tx => [L.len, L.own, L.irq, L.wrap, L.pad, L.crc]
  | .rx => [L.len, L.own, L.irq, L.wrap]

/-- Where a DMA engine goes after slot `i`: slot 0 after a slot with `WRAP`, else the next (R96, R99). -/
def posAfter (L : Layout) (w : Word) (i : Nat) : Nat := if Field.test L.wrap w then 0 else i + 1

/-- Word 0 as the TX engine leaves it: `OWN` clear, other bits anything, the rest as it was (R97). -/
def consumedControl (L : Layout) (w other : Word) : Word :=
  withOtherBits (controlFields L .tx) (Field.set L.own w 0) other

/-- Word 0 as the RX engine leaves it: `OWN` clear, `LEN` the length reported, other bits anything, `IRQ` and `WRAP` as
they were (R100). -/
def filledControl (L : Layout) (w : Word) (len : Half) (other : Word) : Word :=
  withOtherBits (controlFields L .rx) (Field.set L.own (Field.set L.len w (len.zeroExtend 32)) 0) other

/-- The TX engine finishes the slot it is at (R96, R97): only with MAC transmit enabled, and only a slot it owns. R97 does not
say whether word 0 and the pending bit change at one moment: here they do (DESIGN CHOICE, notes/assumptions/25.md), and every
bit of the mask is set (DEDUCED, notes/assumptions/15.md). -/
def Device.txConsume (c : Cfg) (other : Word) (d : Device) : Device :=
  let w := d.desc .tx .control d.txPos
  if macTxOn c.layout d && Field.test c.layout.own w then
    { d.setDesc .tx .control d.txPos (consumedControl c.layout w other) with
      intSource := if Field.test c.layout.irq w then d.intSource ||| c.layout.txPendingMask else d.intSource
      txPos := posAfter c.layout w d.txPos }
  else d

/-- The RX engine may use the slot it is at: MAC receive enabled and the slot its own (R99, R100). -/
def Device.rxMayFill (c : Cfg) (d : Device) : Bool :=
  macRxOn c.layout d && Field.test c.layout.own (d.desc .rx .control d.rxPos)

/-- The RX engine hands over the slot it is at (R100). R100 does not say whether word 0 and the pending bit change at one
moment: here they do (DESIGN CHOICE, notes/assumptions/25.md), and every bit of the mask is set (DEDUCED,
notes/assumptions/15.md). -/
def Device.rxHandOver (c : Cfg) (len : Half) (other : Word) (d : Device) : Device :=
  let w := d.desc .rx .control d.rxPos
  { d.setDesc .rx .control d.rxPos (filledControl c.layout w len other) with
    intSource := if Field.test c.layout.irq w then d.intSource ||| c.layout.rxPendingMask else d.intSource
    rxPos := posAfter c.layout w d.rxPos }

/-- The CPU address at which the RX engine stores byte `k` of the frame that is arriving: at word 1's device address
(R79, R100). -/
def rxByteAddr (c : Cfg) (d : Device) (k : Nat) : Addr :=
  byteAt (localOfDevice c (d.desc .rx .pointer d.rxPos)) k

/-- Writes the bytes of a list from byte number `k` of a buffer on. -/
def Memory.writeBytes (base : Addr) : Nat → List Byte → Memory → Memory
  | _, [], m => m
  | k, b :: bs, m => Memory.writeBytes base (k + 1) bs (Memory.write (byteAt base k) b m)

/-! ## One step of an agent -/

/-- What a step of a device-side agent does to the device and to memory. A step whose agent cannot take it does nothing
(a frame that finds the RX engine's slot not empty is not stored, R99, U16). The RX engine stores into the slot's own
buffer of `SLOT_SIZE` bytes only (R14, R100; notes/assumptions/10.md). -/
def devAct (c : Cfg) (a : DevAct) (d : Device) (m : Memory) : Device × Memory :=
  match a with
  | .miiComplete other => (d.miiFinish c other, m)
  | .miiStatusBits v => ({ d with miiStatusOther := v }, m)
  | .phySet phy reg v => (d.setPhyReg phy reg v, m)
  | .moderBits v => ({ d with moder := withOtherBits [c.layout.rxen, c.layout.txen] d.moder v }, m)
  | .intRaise v => ({ d with intSource := d.intSource ||| v }, m)
  | .txConsume other => (d.txConsume c other, m)
  | .rxByte k b =>
    if d.rxMayFill c && decide (k < c.slotSize) then (d, Memory.write (rxByteAddr c d k) b m) else (d, m)
  | .rxFill frame len other =>
    if d.rxMayFill c then
      (d.rxHandOver c len other,
        Memory.writeBytes (localOfDevice c (d.desc .rx .pointer d.rxPos)) 0 (frame.take c.slotSize) m)
    else (d, m)

/-- The steps of a list, in order. -/
def devActs (c : Cfg) : List DevAct → Device → Memory → Device × Memory
  | [], d, m => (d, m)
  | a :: as, d, m => devActs c as (devAct c a d m).1 (devAct c a d m).2

end Sys2Proof.Machine
end

