-- ==== Sys2Proof/Machine/Flags.lean ====
section
/-! DEFINITION. Codes and flags: the numbers of the states, errors and statuses (R26, R117, R260), the result word (R30),
the flag word (R28), the interrupt flags (R37, R266), and the state gates (R121). The block has no condition codes (R29). -/

namespace Sys2Proof.Machine

/-! ## Numbers -/

/-- The 3-bit value of `ST` (R26). -/
def seqCode : SeqState → BitVec 3
  | .idle => 0
  | .resetIssued => 1
  | .resetPolling => 2
  | .configWritten => 3
  | .linkPolling => 4
  | .linkUp => 5
  | .failed => 6

/-- The code of a fatal error (R260). -/
def fatalCode : FatalErr → BitVec 8
  | .phyResetFailed => 1
  | .phyLinkFailed => 2
  | .poolAcquisitionFailed => 3
  | .deviceAddrRange => 4

/-- The message of a fatal error (R260). -/
def fatalMessage : FatalErr → String
  | .phyResetFailed => "PHY reset failed"
  | .phyLinkFailed => "PHY duplex/speed setup failed"
  | .poolAcquisitionFailed => "buffer pool acquisition failed"
  | .deviceAddrRange => "device address exceeds 32 bits"

/-- The two errors of the PHY sequence, after which `pc` is `Failed` (R262). -/
def fatalOfPhy : FatalErr → Bool
  | .phyResetFailed => true
  | .phyLinkFailed => true
  | .poolAcquisitionFailed => false
  | .deviceAddrRange => false

/-- The 8-bit value of `ERR` (R27). -/
def errCode : Option FatalErr → BitVec 8
  | none => 0
  | some e => fatalCode e

/-- The 8-bit value of `FLG` (R28). -/
def flagWord (f : Flags) : BitVec 8 := 0#5 ++ bitOf 1 f.macaddr ++ bitOf 1 f.run ++ bitOf 1 f.rings

/-! ## The result word -/

/-- The statuses (R117). -/
inductive Status where
  | ok
  | retry
  | illegalOp
  | illegalState
  | badOperand
  | fatal
deriving DecidableEq, Repr

/-- The 8-bit value of a status (R117). -/
def statusCode : Status → BitVec 8
  | .ok => 0x00
  | .retry => 0x01
  | .illegalOp => 0x80
  | .illegalState => 0x81
  | .badOperand => 0x82
  | .fatal => 0xFF

/-- `RESULT = status[63:56] ++ 0x00 ++ value[47:0]` (R117). -/
def resultWord (st : Status) (value : BitVec 48) : BitVec 64 := statusCode st ++ 0#8 ++ value

/-! ## Interrupt flags -/

/-- `INT_SOURCE` shows RX-pending (R37). -/
def rxPending (L : Layout) (s : Word) : Bool := decide (s &&& L.rxPendingMask ≠ 0)

/-- `INT_SOURCE` shows TX-pending (R37). -/
def txPending (L : Layout) (s : Word) : Bool := decide (s &&& L.txPendingMask ≠ 0)

/-- The level of the MAC's interrupt line (R60, R266). The host turns a delivery into one `DISPATCH`. -/
def irqLine (d : Device) : Bool := decide (d.intSource &&& d.intMask ≠ 0)

/-! ## State gates (R121) -/

/-- `RING_INIT`, `SETUP_TX_SLOT`, `SETUP_RX_SLOT`: `FLG.RINGS = 0`. -/
def gateRingsOpen (b : Block) : Bool := !b.flg.rings

/-- `MAC_ADDR_WRITE`, `IRQ_MASK_SET`: `FLG.RUN = 0`. -/
def gateBeforeRun (b : Block) : Bool := !b.flg.run

/-- `BRINGUP`: `pc = Idle`. -/
def gateIdle (b : Block) : Bool := decide (b.pc = .idle)

/-- `MAC_ENABLE`: `pc = LinkUp`, `FLG.RINGS = 1`, `FLG.MACADDR = 1`, `FLG.RUN = 0`. -/
def gateEnable (b : Block) : Bool := decide (b.pc = .linkUp) && b.flg.rings && b.flg.macaddr && !b.flg.run

/-- The data path and `DISPATCH`: `FLG.RUN = 1`. -/
def gateRun (b : Block) : Bool := b.flg.run

/-- The whole table of R121. -/
def stateGate : Instr → Block → Bool
  | .ringInit, b => gateRingsOpen b
  | .setupTxSlot _ _, b => gateRingsOpen b
  | .setupRxSlot _ _, b => gateRingsOpen b
  | .macAddrWrite, b => gateBeforeRun b
  | .irqMaskSet, b => gateBeforeRun b
  | .bringup, b => gateIdle b
  | .macEnable, b => gateEnable b
  | .transmit _ _, b => gateRun b
  | .receiveReady, b => gateRun b
  | .receiveLength, b => gateRun b
  | .receive _ _, b => gateRun b
  | .macAddress, _ => true
  | .dispatch, b => gateRun b

end Sys2Proof.Machine
end

