-- ==== Sys2Proof/Machine/Ops.lean ====
section
/-! DEFINITION. The primitives of R12 over the state, one bus event or host event each; the end of an operation (R30);
fatal entry (R262) and the only way out of a fatal error, the reset of the block (R263, R300); the checks common to every
operation (R119 to R121); and the byte-by-byte frame copy (R72). -/

namespace Sys2Proof.Machine

/-! ## Field updates of the state -/

def State.setBlk (b : Block) (s : State) : State := { s with blk := b }
def State.setDev (d : Device) (s : State) : State := { s with dev := d }
def State.setMem (m : Memory) (s : State) : State := { s with mem := m }
def State.setEnv (e : Env) (s : State) : State := { s with env := e }
def State.setPass (p : Option Word) (s : State) : State := { s with pass := p }

/-- Adds an event to what has been observed (R321). -/
def State.log (e : Event) (s : State) : State := { s with trace := e :: s.trace }

/-! ## The device-side agents between two bus events (R12) -/

/-- The device-side agents take the steps scheduled before the coming primitive of R12's table: they do so before every one of
them, a `Delay`, an `Emit` and an `Ask` too (notes/assumptions/12.md). -/
def State.tick (s : State) : State :=
  match s.env.schedule with
  | [] => s
  | acts :: rest =>
    let p := devActs s.cfg acts s.dev s.mem
    ((s.setDev p.1).setMem p.2).setEnv { s.env with schedule := rest }

/-- The MII engine completes what it has in progress, as the engine of `SimEnv` does (R103): `MIIRX_DATA` holds the value
read and nothing else. -/
def State.settle (s : State) : State := s.setDev (s.dev.miiFinish s.cfg 0)

/-- As `State.tick`, before a read of `MIISTATUS`: once nothing more is scheduled, the MII engine completes whatever it
has in progress (R93), unless it never does (R316). -/
def State.statusTick (s : State) : State :=
  match s.env.schedule with
  | [] => if s.env.miiCompletes then s.settle else s
  | _ :: _ => s.tick

/-- The state in which a read of `l` is answered. -/
def State.readTick (l : Loc) (s : State) : State :=
  match l with
  | .reg .miiStatus => s.statusTick
  | _ => s.tick

/-! ## Bus events -/

/-- What `MmioRead` of `l` returns (R12). -/
def State.mmioVal (l : Loc) (s : State) : Word := (s.readTick l).dev.get s.cfg.layout l

/-- `MmioRead` of `l` (R12). -/
def State.mmioRead (l : Loc) (s : State) : State :=
  (s.readTick l).log (.mmioRead (locOffset s.cfg.layout l) (s.mmioVal l))

/-- `MmioWrite` of `v` to `l` (R12). -/
def State.mmioWrite (l : Loc) (v : Word) (s : State) : State :=
  (s.tick.setDev (s.tick.dev.put s.cfg l v)).log (.mmioWrite (locOffset s.cfg.layout l) v)

/-- What `MemRead` of the byte at `a` returns (R12). -/
def State.memVal (a : Addr) (s : State) : Byte := Memory.read s.tick.mem a

/-- `MemRead` of the byte at `a` (R12). -/
def State.memRead (a : Addr) (s : State) : State := s.tick.log (.memRead a (s.memVal a))

/-- `MemWrite` of `b` to the byte at `a` (R12). -/
def State.memWrite (a : Addr) (b : Byte) (s : State) : State :=
  (s.tick.setMem (Memory.write a b s.tick.mem)).log (.memWrite a b)

/-- `Delay(us)`: an event without effect of its own on the state (R12, R281, R320). -/
def State.delay (us : Nat) (s : State) : State := s.tick.log (.delay us)

/-- `Emit(e)` (R12). -/
def State.emit (e : Event) (s : State) : State := s.tick.log e

/-- The host's answer to `Ask RxBuffer`: its next scripted one, or any one (R322: it answers every request). -/
def State.rxBufferAnswer (s : State) : Addr × Nat :=
  match s.env.rxBuffers with
  | [] => Config.freeRxBuffer s.env.freeTick
  | a :: _ => a

/-- The outside world once the host has given that answer. -/
def Env.answered (e : Env) : Env :=
  match e.rxBuffers with
  | [] => { e with freeTick := e.freeTick + 1 }
  | _ :: rest => { e with rxBuffers := rest }

/-- `Ask RxBuffer(len)` (R12, R271). -/
def State.askRxBuffer (len : Nat) (s : State) : State :=
  (s.tick.setEnv s.tick.env.answered).log (.askRxBuffer len s.rxBufferAnswer.1 s.rxBufferAnswer.2)

/-! ## The end of an operation -/

/-- `return (status, value)`: writes `RESULT` (R12, R30, R117). -/
def State.finish (st : Status) (value : BitVec 48) (s : State) : State :=
  (s.setBlk { s.blk with result := resultWord st value }).log (.result (resultWord st value))

/-- `raise Fatal(code)` (R262): records the code, puts `pc` to `Failed` if the PHY sequence is what failed, logs the
message, and ends the operation with `(FATAL, code)`. It accesses no register and no memory; the log is an `Emit`, before which
the agents have their turn (R12; notes/assumptions/12.md). -/
def State.raiseFatal (e : FatalErr) (s : State) : State :=
  let b := { s.blk with err := some e, pc := if fatalOfPhy e then .failed else s.blk.pc }
  ((s.setBlk b).emit (.log (fatalMessage e) (fatalCode e).toNat)).finish .fatal ((fatalCode e).zeroExtend 48)

/-- Reset of the block (R300, R301): the working registers take their reset values; no bus event; the device, the memory
and the host's side stay as they are, and no operation is in progress (R302). There is no other return from a fatal error
(R263). -/
def State.blockReset (s : State) : State := (s.setBlk Block.reset).setPass none

/-! ## Checks common to every operation -/

/-- Steps 2 and 3 of R119, then the rest of the operation: the fatal gate (R120) and the state gate (R121). -/
def guarded (gate : Bool) (rest : State → Host.Outcome State Fault Refusal) (s : State) :
    Host.Outcome State Fault Refusal :=
  match s.blk.err with
  | some e => .next (s.finish .fatal ((fatalCode e).zeroExtend 48))
  | none => if gate then rest s else .next (s.finish .illegalState 0)

/-- Step 4 of R119: the operand check (R122), then the execution. -/
def checked (check : OperandCheck) (run : State → State) (s : State) : Host.Outcome State Fault Refusal :=
  match check with
  | .good => .next (run s)
  | .badOperand => .next (s.finish .badOperand 0)
  | .addressRange => .next (s.raiseFatal .deviceAddrRange)

/-! ## Frame copy -/

/-- Copies byte `k`: one `MemRead`, then one `MemWrite` (R72). -/
def State.copyByte (src dst : Addr) (k : Nat) (s : State) : State :=
  (s.memRead (byteAt src k)).memWrite (byteAt dst k) (s.memVal (byteAt src k))

/-- Copies the `n` bytes at `src` to `dst`, in ascending order (R72). -/
def State.copyBytes (src dst : Addr) : Nat → State → State
  | 0, s => s
  | n + 1, s => (State.copyBytes src dst n s).copyByte src dst n

end Sys2Proof.Machine
end

