-- ==== Sys2Proof/Machine/Mii.lean ====
section
/-! DEFINITION. The MII transaction primitive (file `40_mii_transactions.md`). A procedure answers `none` when it never
returns: its busy-wait reads the busy flag for ever (R142, R316). -/

namespace Sys2Proof.Machine

/-- `MiiSelect(reg)` (R141). -/
def miiSelect (reg : BitVec 5) (s : State) : State := s.mmioWrite (.reg .miiAddress) (miiSelectValue s.cfg reg)

/-- At most `n` turns of the loop of `WaitIdle` (R142): read `MIISTATUS` until `BUSY` reads 0. -/
def waitIdleTurns : Nat → State → Option State
  | 0, _ => none
  | n + 1, s =>
    if Field.test s.cfg.layout.busy (s.mmioVal (.reg .miiStatus)) then
      waitIdleTurns n (s.mmioRead (.reg .miiStatus))
    else some (s.mmioRead (.reg .miiStatus))

/-- `WaitIdle()` (R142). It has no bound of its own: one turn for each scheduled step of the agents and one more. After
the last of them either the engine completes (R93) or nothing ever changes again, and the loop never ends. -/
def waitIdle (s : State) : Option State := waitIdleTurns (s.env.schedule.length + 1) s

/-- `Pulse(C)`: the command bit set, then clear (R143). -/
def pulse (c : Field) (s : State) : State :=
  (s.mmioWrite (.reg .miiCommand) (Field.bit 32 c)).mmioWrite (.reg .miiCommand) 0

/-- `Trigger(C)`: wait, pulse, wait (R144). -/
def trigger (c : Field) (s : State) : Option State := (waitIdle s).bind fun s1 => waitIdle (pulse c s1)

/-- `MiiWrite(reg, data)` (R145). -/
def miiWrite (reg : BitVec 5) (data : Half) (s : State) : Option State :=
  trigger s.cfg.layout.wctrldata
    ((miiSelect reg s).mmioWrite (.reg .miiTxData) (Field.set s.cfg.layout.ctrldata 0 (data.zeroExtend 32)))

/-- The last two steps of `MiiRead`: read `MIIRX_DATA` and keep its `PRSD` field in `MD` (R146). -/
def loadMd (s : State) : State :=
  let v := s.mmioVal (.reg .miiRxData)
  let s1 := s.mmioRead (.reg .miiRxData)
  s1.setBlk { s1.blk with md := (Field.get s.cfg.layout.prsd v).truncate 16 }

/-- `MiiRead(reg)` (R146); the value it returns is `MD`. -/
def miiRead (reg : BitVec 5) (s : State) : Option State :=
  (trigger s.cfg.layout.rstat (miiSelect reg s)).map loadMd

end Sys2Proof.Machine
end

