-- ==== Sys2Proof/Machine/Bringup.lean ====
section
/-! DEFINITION. `BRINGUP`: the PHY bring-up sequencer (file `41_phy_bringup.md`). -/

namespace Sys2Proof.Machine

/-- A transition of `pc` (R12). -/
def toState (st : SeqState) (s : State) : State := s.setBlk { s.blk with pc := st }

/-- What one attempt of reset polling leaves when its read has returned: `RT` counts it, `pc` is `ResetPolling`
(R162). -/
def countReset (s : State) : State := s.setBlk { s.blk with rt := s.blk.rt + 1, pc := .resetPolling }

/-- What one attempt of link polling leaves when its read has returned (R168). -/
def countLink (s : State) : State := s.setBlk { s.blk with lt := s.blk.lt + 1 }

/-- The reset polling loop with `n` attempts left (R162, R163): `true` when a read showed the reset bit clear, `false`
when no attempt is left (R164). -/
def resetPoll : Nat → State → Option (Bool × State)
  | 0, s => some (false, s)
  | n + 1, s =>
    (miiRead s.cfg.layout.phyRegCtrl s).bind fun s1 =>
      if Field.test s1.cfg.layout.phyReset s1.blk.md then resetPoll n (countReset s1) else some (true, countReset s1)

/-- The delay of one link poll, omitted when it is 0 (R168). -/
def pollDelay (s : State) : State :=
  if 0 < s.cfg.linkPollDelayUs then s.delay s.cfg.linkPollDelayUs else s

/-- The link polling loop with `n` attempts left (R168): `true` when a read showed the link up (R169), `false` when no
attempt is left (R170). -/
def linkPoll : Nat → State → Option (Bool × State)
  | 0, s => some (false, s)
  | n + 1, s =>
    (miiRead s.cfg.layout.phyRegStatus (pollDelay s)).bind fun s1 =>
      if Field.test s1.cfg.layout.phyLink s1.blk.md then some (true, countLink s1) else linkPoll n (countLink s1)

/-- Step 1, `Idle → ResetIssued` (R161). -/
def issueReset (s : State) : Option State :=
  (miiWrite s.cfg.layout.phyRegCtrl s.cfg.layout.phyResetCmd s).map fun s1 =>
    s1.setBlk { s1.blk with pc := .resetIssued, rt := 0 }

/-- Step 4, `ResetPolling → ConfigWritten` (R165, R166), and `ConfigWritten → LinkPolling` (R167). -/
def writeConfig (s : State) : Option State :=
  (miiWrite s.cfg.phyRegIrq s.cfg.phyIrqValue s).bind fun s1 =>
    (miiWrite s1.cfg.layout.phyRegCtrl s1.cfg.layout.phyModeValue s1).map fun s2 =>
      let s3 := toState .configWritten s2
      s3.setBlk { s3.blk with lt := 0, pc := .linkPolling }

/-- Step 6, `LinkPolling → LinkUp` (R169). -/
def linkIsUp (s : State) : State :=
  (((toState .linkUp s).emit (.log "PHY link up, status" s.blk.md.toNat)).emit .linkStateUp).finish .ok
    (s.blk.md.zeroExtend 48)

/-- Steps 5 and 6, the link polling and its two ends (R168 to R170). -/
def pollLink (s : State) : Option State :=
  (linkPoll s.cfg.linkRetries s).map fun p => if p.1 then linkIsUp p.2 else p.2.raiseFatal .phyLinkFailed

/-- The whole of `BRINGUP` (R160); `none` when it never returns. -/
def bringup (s : State) : Option State :=
  (issueReset s).bind fun s1 =>
    (resetPoll s1.cfg.resetRetries s1).bind fun p =>
      if p.1 then (writeConfig p.2).bind pollLink else some (p.2.raiseFatal .phyResetFailed)

/-- `BRINGUP` (R160). -/
def execBringup (s : State) : Host.Outcome State Fault Refusal :=
  guarded (gateIdle s.blk)
    (fun s =>
      match bringup s with
      | none => .fault .miiNeverCompletes
      | some t => .next t)
    s

end Sys2Proof.Machine
end

