-- ==== Sys2Proof/Machine/Construction.lean ====
section
/-! DEFINITION. The construction operations: the descriptor rings (file `42_ring_setup.md`) and the MAC (file
`44_construction_ops.md`). -/

namespace Sys2Proof.Machine

/-! ## Descriptor rings -/

/-- `SetupTx(i, addr)`: clear the slot, write the buffer pointer (R191). -/
def setupTx (i : Nat) (addr : Word) (s : State) : State :=
  (s.mmioWrite (.desc .tx .control i) 0).mmioWrite (.desc .tx .pointer i) addr

/-- `SetupRx(j, addr)`: clear the slot, write the buffer pointer, set irq-enable, mark empty last (R81, R192). -/
def setupRx (j : Nat) (addr : Word) (s : State) : State :=
  let L := s.cfg.layout
  (((s.mmioWrite (.desc .rx .control j) 0).mmioWrite (.desc .rx .pointer j) addr).mmioWrite (.desc .rx .control j)
    (Field.bit 32 L.irq)).mmioWrite (.desc .rx .control j) (Field.bit 32 L.irq ||| Field.bit 32 L.own)

/-- Sets up the TX slots below `n`, in ascending order, each with its own buffer (R194). -/
def setupTxBelow : Nat → State → State
  | 0, s => s
  | n + 1, s => let t := setupTxBelow n s; setupTx n (bufDev t.cfg .tx n) t

/-- Sets up the RX slots below `n`, in ascending order, each with its own buffer (R194). -/
def setupRxBelow : Nat → State → State
  | 0, s => s
  | n + 1, s => let t := setupRxBelow n s; setupRx n (bufDev t.cfg .rx n) t

/-- The TX half of `RING_INIT`: every slot, then the wrap flag on the last (R194, R196). -/
def initTxRing (s : State) : State :=
  (setupTxBelow s.cfg.nTx s).mmioWrite (.desc .tx .control (s.cfg.nTx - 1)) (Field.bit 32 s.cfg.layout.wrap)

/-- The RX half of `RING_INIT` (R194, R196). -/
def initRxRing (s : State) : State :=
  let L := s.cfg.layout
  (setupRxBelow s.cfg.nRx s).mmioWrite (.desc .rx .control (s.cfg.nRx - 1))
    (Field.bit 32 L.irq ||| Field.bit 32 L.own ||| Field.bit 32 L.wrap)

/-- `PoolCheck()` on unbounded integers: the error it raises, if any (R193). -/
def poolCheck (c : Cfg) : Option FatalErr :=
  if !c.poolValid then some .poolAcquisitionFailed
  else if 2 ^ 32 < c.deviceBase.toNat + poolSize c then some .deviceAddrRange
  else none

/-- Sets `FLG.RINGS` (R28). -/
def setRings (s : State) : State := s.setBlk { s.blk with flg := { s.blk.flg with rings := true } }

/-- The execution of `RING_INIT` (R194). -/
def ringInit (s : State) : State :=
  match poolCheck s.cfg with
  | some e => s.raiseFatal e
  | none => (setRings (initRxRing (initTxRing s))).finish .ok 0

/-- `RING_INIT` (R194). -/
def execRingInit (s : State) : Host.Outcome State Fault Refusal :=
  guarded (gateRingsOpen s.blk) (fun s => .next (ringInit s)) s

/-- `SETUP_TX_SLOT i, addr` (R191). -/
def execSetupTxSlot (i addr : Nat) (s : State) : Host.Outcome State Fault Refusal :=
  guarded (gateRingsOpen s.blk)
    (fun s =>
      checked (checkSlotOperands s.cfg .tx i addr)
        (fun s => (setupTx i (BitVec.ofNat 32 addr) s).finish .ok 0) s)
    s

/-- `SETUP_RX_SLOT j, addr` (R192). -/
def execSetupRxSlot (j addr : Nat) (s : State) : Host.Outcome State Fault Refusal :=
  guarded (gateRingsOpen s.blk)
    (fun s =>
      checked (checkSlotOperands s.cfg .rx j addr)
        (fun s => (setupRx j (BitVec.ofNat 32 addr) s).finish .ok 0) s)
    s

/-! ## The MAC -/

/-- Sets `FLG.MACADDR` (R28). -/
def setMacaddr (s : State) : State := s.setBlk { s.blk with flg := { s.blk.flg with macaddr := true } }

/-- The execution of `MAC_ADDR_WRITE` (R241). -/
def macAddrWrite (s : State) : State :=
  (setMacaddr ((s.mmioWrite (.reg .macAddr0) (macAddr0Value s.cfg.mac)).mmioWrite (.reg .macAddr1)
    (macAddr1Value s.cfg.mac))).finish .ok 0

/-- `MAC_ADDR_WRITE` (R241). -/
def execMacAddrWrite (s : State) : Host.Outcome State Fault Refusal :=
  guarded (gateBeforeRun s.blk) (fun s => .next (macAddrWrite s)) s

/-- The execution of `IRQ_MASK_SET` (R243). -/
def irqMaskSet (s : State) : State := (s.mmioWrite (.reg .intMask) (irqMaskValue s.cfg)).finish .ok 0

/-- `IRQ_MASK_SET` (R243). -/
def execIrqMaskSet (s : State) : Host.Outcome State Fault Refusal :=
  guarded (gateBeforeRun s.blk) (fun s => .next (irqMaskSet s)) s

/-- The value `MAC_ENABLE` writes to `MODER`, from the one it read (R246). -/
def enabledModer (L : Layout) (v : Word) : Word := Field.set L.rxen (Field.set L.txen v 1) 1

/-- Sets `FLG.RUN` (R28). -/
def setRun (s : State) : State := s.setBlk { s.blk with flg := { s.blk.flg with run := true } }

/-- The execution of `MAC_ENABLE` (R246). -/
def macEnable (s : State) : State :=
  (setRun ((s.mmioRead (.reg .moder)).mmioWrite (.reg .moder)
    (enabledModer s.cfg.layout (s.mmioVal (.reg .moder))))).finish .ok 0

/-- `MAC_ENABLE` (R246). -/
def execMacEnable (s : State) : Host.Outcome State Fault Refusal :=
  guarded (gateEnable s.blk) (fun s => .next (macEnable s)) s

end Sys2Proof.Machine
end

