-- ==== Sys2Proof/Machine/DataPath.lean ====
section
/-! DEFINITION. The ring data path: `TRANSMIT`, `RECEIVE_READY`, `RECEIVE_LENGTH`, `RECEIVE`, `MAC_ADDRESS` (file
`43_ring_datapath.md`). -/

namespace Sys2Proof.Machine

/-! ## Transmit -/

/-- Word 0 of the TX slot at `TXC`. -/
def txSlot (s : State) : Loc := .desc .tx .control s.blk.txc.toNat

/-- The accepted case of `TRANSMIT`, `w` the word read and `s` the state after that read: copy the frame, write the
descriptor, advance the cursor, return the slot used (R213). -/
def transmitFrame (w : Word) (len : Nat) (src : Addr) (s : State) : State :=
  let t := s.blk.txc
  let s1 := s.copyBytes src (bufLocal s.cfg .tx t.toNat) len
  let s2 := s1.mmioWrite (.desc .tx .control t.toNat) (txControlValue s.cfg w len)
  (s2.setBlk { s2.blk with txc := ringNext t s2.cfg.nTx }).finish .ok (t.zeroExtend 48)

/-- The execution of `TRANSMIT` (R213): inspect the slot at `TXC`; retry with no side effect (R214) or send. -/
def transmit (len : Nat) (src : Addr) (s : State) : State :=
  let w := s.mmioVal (txSlot s)
  let s1 := s.mmioRead (txSlot s)
  if Field.test s.cfg.layout.own w then s1.finish .retry 0 else transmitFrame w len src s1

/-- `TRANSMIT len, src` (R213). -/
def execTransmit (len src : Nat) (s : State) : Host.Outcome State Fault Refusal :=
  guarded (gateRun s.blk)
    (fun s => checked (checkTransmitLength s.cfg len) (transmit len (addrOf src)) s)
    s

/-! ## Receive -/

/-- Word 0 of the RX slot at `RXC`. -/
def rxSlot (s : State) : Loc := .desc .rx .control s.blk.rxc.toNat

/-- A frame is ready when the slot's empty bit reads 0 (R218). -/
def frameReady (L : Layout) (w : Word) : Bool := !Field.test L.own w

/-- `RECEIVE_READY` (R218). -/
def execReceiveReady (s : State) : Host.Outcome State Fault Refusal :=
  guarded (gateRun s.blk)
    (fun s =>
      .next ((s.mmioRead (rxSlot s)).finish .ok (bitOf 48 (frameReady s.cfg.layout (s.mmioVal (rxSlot s))))))
    s

/-- `RECEIVE_LENGTH` (R219). -/
def execReceiveLength (s : State) : Host.Outcome State Fault Refusal :=
  guarded (gateRun s.blk)
    (fun s =>
      .next ((s.mmioRead (rxSlot s)).finish .ok
        ((Field.get s.cfg.layout.len (s.mmioVal (rxSlot s))).zeroExtend 48)))
    s

/-- The number of bytes the receive procedure copies: `min(LEN, cap)` (R222). -/
def receiveCount (s : State) (cap : Nat) : Nat :=
  min (Field.get s.cfg.layout.len (s.mmioVal (rxSlot s))).toNat cap

/-- `RxReceive(dst, cap)` (R222); it returns `receiveCount`. -/
def rxReceive (dst : Addr) (cap : Nat) (s : State) : State :=
  let r := s.blk.rxc
  let w := s.mmioVal (rxSlot s)
  let s1 := s.mmioRead (rxSlot s)
  let s2 := s1.copyBytes (bufLocal s.cfg .rx r.toNat) dst (receiveCount s cap)
  let s3 := s2.mmioWrite (.desc .rx .control r.toNat) (Field.set s.cfg.layout.own w 1)
  s3.setBlk { s3.blk with rxc := ringNext r s3.cfg.nRx }

/-- `RECEIVE max_len, dst` (R221). The host's precondition is not tested; without it the procedure runs as it is written
(U5; notes/assumptions/11.md). -/
def execReceive (maxLen dst : Nat) (s : State) : Host.Outcome State Fault Refusal :=
  guarded (gateRun s.blk)
    (fun s =>
      .next ((rxReceive (addrOf dst) maxLen s).finish .ok (BitVec.ofNat 48 (receiveCount s maxLen))))
    s

/-! ## MAC address -/

/-- `MAC_ADDRESS` (R225). -/
def execMacAddress (s : State) : Host.Outcome State Fault Refusal :=
  guarded true (fun s => .next (s.finish .ok (macValue s.cfg.mac))) s

end Sys2Proof.Machine
end

