-- ==== Sys2Proof/Machine/Interrupt.lean ====
section
/-! DEFINITION. `DISPATCH`: the interrupt service pass (file `60_exceptions.md`, section 3). -/

namespace Sys2Proof.Machine

/-- One frame of the drain, after its ready check read `w`: ask for a buffer, receive into it, deliver (R271). -/
def drainFrame (w : Word) (s : State) : State :=
  let a := s.rxBufferAnswer
  let s1 := s.askRxBuffer (Field.get s.cfg.layout.len w).toNat
  (rxReceive a.1 a.2 s1).emit (.frameReceived a.1 (receiveCount s1 a.2))

/-- Arrivals without end (R278): nothing more is scheduled, frames keep coming, and the empty slot that the drain is about
to check is the one the RX engine is at, so that the engine fills it first; and so again with each slot handed back. -/
def arrivalsEndless (s : State) : Bool :=
  s.env.rxEndless && s.env.schedule.isEmpty && s.dev.rxMayFill s.cfg && decide (s.dev.rxPos = s.blk.rxc.toNat)

/-- The next of the frames that arrive without end: the RX engine fills its slot with it just before the coming bus event.
What frame it is, the length reported and word 0's uninterpreted bits are free values (R100, R101). -/
def State.withArrival (s : State) : State :=
  let k := s.env.freeTick
  s.setEnv
    { s.env with
      schedule := [[.rxFill (Config.arrivingFrame k) (Config.arrivingLength k) (Config.arrivingBits k)]]
      freeTick := k + 1 }

/-- At most `n` turns of the loop of `RxDrain` (R271), and whether the drain has ended; it has not when the check that comes
next finds a frame again because frames arrive without end (R278). -/
def drainTurns : Nat → State → Bool × State
  | 0, s => (false, s)
  | n + 1, s =>
    if arrivalsEndless s then (false, s)
    else if Field.test s.cfg.layout.own (s.mmioVal (rxSlot s)) then (true, s.mmioRead (rxSlot s))
    else drainTurns n (drainFrame (s.mmioVal (rxSlot s)) (s.mmioRead (rxSlot s)))

/-- The frames that the schedule still brings. -/
def arrivals (e : Env) : Nat :=
  (e.schedule.map (List.countP fun a => match a with
    | .rxFill _ _ _ => true
    | _ => false)).sum

/-- `RxDrain()` (R271), up to its end or to the first of the frames that arrive without end. The loop has no bound of its own:
the turns allowed are more than the frames there can be, a frame in every slot and one for each arrival still scheduled
(R278). -/
def rxDrain (s : State) : Bool × State := drainTurns (s.cfg.nRx + arrivals s.env + 2) s

/-- The end of a pass, after the drain, `v` the value read from the source (R270): notify; clear by writing back the value
read (R273); acknowledge (R274). -/
def dispatchEnd (v : Word) (s : State) : State :=
  let s1 := if txPending s.cfg.layout v then s.emit .txSlotFreed else s
  (((s1.mmioWrite (.reg .intSource) v).emit (.irqAck s.cfg.irqLine)).finish .ok 0).setPass none

/-- A pass from its drain on: the drain and, if it ends, the end of the pass; if it does not, the pass goes on in the next
step (R278, R321). -/
def drainPass (v : Word) (s : State) : State :=
  if (rxDrain s).1 then dispatchEnd v (rxDrain s).2 else (rxDrain s).2.setPass (some v)

/-- The execution of `DISPATCH` (R270): read the source once; drain; end the pass. -/
def dispatchPass (s : State) : State :=
  let v := s.mmioVal (.reg .intSource)
  let s1 := s.mmioRead (.reg .intSource)
  if rxPending s.cfg.layout v then drainPass v s1 else dispatchEnd v s1

/-- The pass that read `v` goes on (R278, R321): the next of the frames without end arrives, and the drain takes it. -/
def continuePass (v : Word) (s : State) : State := drainPass v (if arrivalsEndless s then s.withArrival else s)

/-- `DISPATCH` (R270). -/
def execDispatch (s : State) : Host.Outcome State Fault Refusal :=
  guarded (gateRun s.blk) (fun s => .next (dispatchPass s)) s

end Sys2Proof.Machine
end

