-- ==== Sys2Proof/Machine/Dispatch.lean ====
section
/-! DEFINITION. What each operation does: one arm per constructor. -/

namespace Sys2Proof.Machine

/-- The meaning of an operation, from the fatal gate on (steps 2 to 5 of R119). -/
def exec (i : Instr) (s : State) : Host.Outcome State Fault Refusal :=
  match i with
  | .ringInit => Sys2Proof.Machine.execRingInit s
  | .setupTxSlot slot addr => Sys2Proof.Machine.execSetupTxSlot slot addr s
  | .setupRxSlot slot addr => Sys2Proof.Machine.execSetupRxSlot slot addr s
  | .macAddrWrite => Sys2Proof.Machine.execMacAddrWrite s
  | .irqMaskSet => Sys2Proof.Machine.execIrqMaskSet s
  | .bringup => Sys2Proof.Machine.execBringup s
  | .macEnable => Sys2Proof.Machine.execMacEnable s
  | .transmit len src => Sys2Proof.Machine.execTransmit len src s
  | .receiveReady => Sys2Proof.Machine.execReceiveReady s
  | .receiveLength => Sys2Proof.Machine.execReceiveLength s
  | .receive maxLen dst => Sys2Proof.Machine.execReceive maxLen dst s
  | .macAddress => Sys2Proof.Machine.execMacAddress s
  | .dispatch => Sys2Proof.Machine.execDispatch s

end Sys2Proof.Machine
end

