-- ==== Sys2Proof/Machine/Step.lean ====
section
/-! DEFINITION. One step: the host's next action (rules R110, R300, R306, R321, R322). A command is decoded and executed
to completion (R13, R119); a dispatch pass that frames without end keep from completing takes a step for each of them (R278,
R321), and the host's actions wait (R110). -/

namespace Sys2Proof.Machine

/-- The block takes the command word from its port (R110, R321). -/
def acceptCommand (w : CmdWord) (rest : List HostAct) (s : State) : State :=
  (s.setEnv { s.env with host := rest }).log (.command w)

/-- A command word, once taken: decoded, then executed; one that decodes to no operation is answered `ILLEGAL_OP`, in
every state (R118, R119). -/
def runCommand (w : CmdWord) (s : State) : Host.Outcome State Fault Refusal :=
  match decode w with
  | .ok i => exec i s
  | .error _ => .next (s.finish .illegalOp 0)

/-- One action of the host. With none coming, the block waits (R302, R321). -/
def hostStep (s : State) : Host.Outcome State Fault Refusal :=
  match s.env.host with
  | [] => .next s
  | .command w :: rest => runCommand w (acceptCommand w rest s)
  | .reset :: rest =>
    if macTxOn s.cfg.layout s.dev || macRxOn s.cfg.layout s.dev then .refused .resetWhileMacEnabled
    else .next (s.setEnv { s.env with host := rest }).blockReset
  | .write a b :: rest =>
    if inPool s.cfg a then .refused .hostWritesPool
    else .next ((s.setEnv { s.env with host := rest }).setMem (Memory.write a b s.mem))

/-- One step: a dispatch pass that has not ended goes on (R13, R321); else the host's next action. -/
def step (s : State) : Host.Outcome State Fault Refusal :=
  match s.pass with
  | some v => .next (continuePass v s)
  | none => hostStep s

/-- The state in which the block accepts a command, and the host's next action is to give the command word `w`. A command
comes from the host's port, not from an address space (R87), so nothing else is placed anywhere (notes/assumptions/8.md). -/
def State.withFetchWord (s : State) (nbits w : Nat) : State :=
  (s.setEnv { s.env with host := .command (tableWord nbits w) :: s.env.host }).setPass none

end Sys2Proof.Machine
end

