-- ==== Sys2Proof/Machine/Init.lean ====
section
/-! DEFINITION. The pseudo-operation `INIT` (rule R124): the host gives the operations of `initOps` one after another and
stops at the first whose status is not `OK`. -/

namespace Sys2Proof.Machine

/-- The status field of `RESULT` is `OK` (R30, R117). -/
def statusIsOk (s : State) : Bool := decide (s.blk.result.extractLsb' 56 8 = statusCode .ok)

/-- The host gives operations in order and stops at the first whose status is not `OK` (R124). -/
def runWhileOk : List Instr → State → Host.Outcome State Fault Refusal
  | [], s => .next s
  | i :: is, s =>
    match exec i s with
    | .next t => if statusIsOk t then runWhileOk is t else .next t
    | .fault f => .fault f
    | .refused r => .refused r

/-- `INIT` (R124). -/
def runInit (s : State) : Host.Outcome State Fault Refusal := runWhileOk initOps s

end Sys2Proof.Machine
end

