-- ==== Sys2Proof/Safety.lean ====
section
/-! DEFINITION. What counts as a safe run, in the terms the statements use: the whole-machine rules of the spec as predicates
of a state, each with the rule it writes down. -/

namespace Sys2Proof.Machine

/-! ## Conditions on the outside world -/

/-- No device-side agent does anything scheduled during the coming operation: "absent hardware activity" (R191, R195). -/
def Quiet (s : State) : Prop := s.env.schedule = []

/-- What the device-side agents do in their turn before the `n`-th primitive from now on, the first being number 0 (R12). -/
def turnBefore (n : Nat) (s : State) : List DevAct := s.env.schedule[n]?.getD []

/-- The MII engine is idle, and it completes every transaction (R93). -/
def EngineReady (s : State) : Prop := s.dev.mii = none ∧ s.env.miiCompletes = true

/-- MAC transmit and receive are both disabled (R305). -/
def MacOff (s : State) : Prop := macTxOn s.cfg.layout s.dev = false ∧ macRxOn s.cfg.layout s.dev = false

/-! ## Descriptor slots -/

/-- The slot belongs to the hardware (R14: ready on TX, empty on RX). -/
def owned (s : State) (r : Ring) (i : Nat) : Bool := Field.test s.cfg.layout.own (s.dev.desc r .control i)

/-- The slot carries the wrap flag. -/
def wraps (s : State) (r : Ring) (i : Nat) : Bool := Field.test s.cfg.layout.wrap (s.dev.desc r .control i)

/-- The hardware's position in a ring (R59). -/
def hwPos (s : State) : Ring → Nat
  | .tx => s.dev.txPos
  | .rx => s.dev.rxPos

/-! ## The working registers between operations -/

/-- What holds of the working registers between operations: the cursors are in range (R20) and 0 until the block runs (R21,
R22, R62); the counters are within their bounds (R23, R24); `pc` is `Idle`, `LinkUp` or `Failed` (R26), `Failed` exactly
after a PHY error (R262); a running block has been constructed and has no error (R28, R121); and the reserved bits of
`RESULT` are 0 (R30). -/
structure BlockSafe (c : Cfg) (b : Block) : Prop where
  txc_lt          : b.txc.toNat < c.nTx
  rxc_lt          : b.rxc.toNat < c.nRx
  cursors_zero    : b.flg.run = false → b.txc = 0 ∧ b.rxc = 0
  rt_le           : b.rt.toNat ≤ c.resetRetries
  lt_le           : b.lt.toNat ≤ c.linkRetries
  at_rest         : b.pc = .idle ∨ b.pc = .linkUp ∨ b.pc = .failed
  failed_iff      : b.pc = .failed ↔ b.err = some .phyResetFailed ∨ b.err = some .phyLinkFailed
  run_constructed : b.flg.run = true → b.pc = .linkUp ∧ b.flg.rings = true ∧ b.flg.macaddr = true ∧ b.err = none
  result_reserved : b.result.extractLsb' 48 8 = 0

/-! ## The rings -/

/-- The single-wrap invariant (R52) and the pointer invariant (R53), from `RING_INIT` on. -/
structure RingsSafe (s : State) : Prop where
  single_wrap : s.blk.flg.rings = true → ∀ r i, i < ringDepth s.cfg r → wraps s r i = decide (i + 1 = ringDepth s.cfg r)
  pointers    : s.blk.flg.rings = true → ∀ r i, i < ringDepth s.cfg r → s.dev.desc r .pointer i = bufDev s.cfg r i

/-- The MAC is enabled exactly when the block runs (R247, R305), and until then every TX slot is the block's and every RX
slot the hardware's (R195). -/
structure MacSafe (s : State) : Prop where
  enabled_iff : ∀ on, s.blk.flg.run = on → macTxOn s.cfg.layout s.dev = on ∧ macRxOn s.cfg.layout s.dev = on
  owned_tx    : s.blk.flg.rings = true → s.blk.flg.run = false → ∀ i, i < s.cfg.nTx → owned s .tx i = false
  owned_rx    : s.blk.flg.rings = true → s.blk.flg.run = false → ∀ i, i < s.cfg.nRx → owned s .rx i = true

/-- The invariant of the whole machine between operations. -/
structure Safe (s : State) : Prop where
  block : BlockSafe s.cfg s.blk
  rings : RingsSafe s
  mac   : MacSafe s

/-- Slot `i` is one of the `p` slots of a ring of `n` from slot `c` on, in ring order. -/
def inStretch (n c p i : Nat) : Prop := ∃ k, k < p ∧ i = (c + k) % n

/-- The TX ring invariant (R217): the ready slots are exactly the `p` slots that end just before `TXC`, and the hardware is
at the first of them, or at `TXC` when there is none. -/
def TxRingOrdered (s : State) : Prop :=
  s.blk.flg.run = true →
    hwPos s .tx < s.cfg.nTx ∧
    ∃ p, p ≤ s.cfg.nTx ∧ s.blk.txc.toNat = (hwPos s .tx + p) % s.cfg.nTx
      ∧ ∀ i, i < s.cfg.nTx → (owned s .tx i = true ↔ inStretch s.cfg.nTx (hwPos s .tx) p i)

/-- The RX ring invariant (R224): the slots with a frame are exactly the `p` slots from `RXC` on, up to the hardware's
position. -/
def RxRingOrdered (s : State) : Prop :=
  s.blk.flg.run = true →
    hwPos s .rx < s.cfg.nRx ∧
    ∃ p, p ≤ s.cfg.nRx ∧ hwPos s .rx = (s.blk.rxc.toNat + p) % s.cfg.nRx
      ∧ ∀ i, i < s.cfg.nRx → (owned s .rx i = false ↔ inStretch s.cfg.nRx s.blk.rxc.toNat p i)

/-- A dispatch pass that frames without end keep from completing (R278, R321): it has not ended, nothing but those frames is
scheduled, every RX slot is the hardware's, and the RX engine stands at the slot that the next ready check reads. -/
structure PassWithoutEnd (s : State) : Prop where
  safe    : Safe s
  running : s.blk.flg.run = true
  going   : s.pass.isSome = true
  quiet   : Quiet s
  endless : s.env.rxEndless = true
  empty   : ∀ j, j < s.cfg.nRx → owned s .rx j = true
  here    : s.dev.rxPos = s.blk.rxc.toNat

/-- The host keeps its duty in giving this command: `RECEIVE` only when the current RX slot holds a frame (R221, R310). -/
def dutyKept (i : Instr) (s : State) : Prop :=
  match i with
  | .receive _ _ => owned s .rx s.blk.rxc.toNat = false
  | _ => True

/-! ## Canonical form -/

/-- Every store of the device, and memory, is in its canonical form. -/
structure StoresCanonical (s : State) : Prop where
  mem       : Memory.wf s.mem = true
  txControl : Store.wf s.dev.txControl = true
  txPointer : Store.wf s.dev.txPointer = true
  rxControl : Store.wf s.dev.rxControl = true
  rxPointer : Store.wf s.dev.rxPointer = true
  phy       : Store.wf s.dev.phy = true

/-! ## What an operation leaves alone -/

/-- Two devices agree on everything that only the block writes (R306): the mask, the MII command, address and write-data
registers, the MAC address, every buffer pointer; and on whether each direction of the MAC is enabled. -/
structure SameDriverRegs (L : Layout) (d e : Device) : Prop where
  intMask    : e.intMask = d.intMask
  miiCommand : e.miiCommand = d.miiCommand
  miiAddress : e.miiAddress = d.miiAddress
  miiTxData  : e.miiTxData = d.miiTxData
  macAddr0   : e.macAddr0 = d.macAddr0
  macAddr1   : e.macAddr1 = d.macAddr1
  txPointer  : e.txPointer = d.txPointer
  rxPointer  : e.rxPointer = d.rxPointer
  txOn       : macTxOn L e = macTxOn L d
  rxOn       : macRxOn L e = macRxOn L d

/-- Two devices agree on both descriptor rings and on the hardware's positions in them. -/
structure SameRings (d e : Device) : Prop where
  txControl : e.txControl = d.txControl
  txPointer : e.txPointer = d.txPointer
  rxControl : e.rxControl = d.rxControl
  rxPointer : e.rxPointer = d.rxPointer
  txPos     : e.txPos = d.txPos
  rxPos     : e.rxPos = d.rxPos

/-- The part of `RESULT` and the event that an operation leaves which does nothing else: the word `r` is written and
seen. -/
def answered (r : BitVec 64) (s : State) : State :=
  { s with blk := { s.blk with result := r }, trace := .result r :: s.trace }

/-- `RESULT` for status `OK` and a value (R117). -/
def okWord (v : BitVec 48) : BitVec 64 := 0x0000#16 ++ v

/-- What a fatal error leaves (R262): its code in `ERR` and in `RESULT`, `pc` at `Failed` for the two PHY errors, the
message logged; nothing else. -/
def raised (e : FatalErr) (s : State) : State :=
  { s with
    blk :=
      { s.blk with
        err := some e
        pc := if e = .phyResetFailed ∨ e = .phyLinkFailed then .failed else s.blk.pc
        result := 0xFF#8 ++ 0x000000000000#48 ++ fatalCode e }
    trace := .result (0xFF#8 ++ 0x000000000000#48 ++ fatalCode e) :: .log (fatalMessage e) (fatalCode e).toNat :: s.trace }

/-- What has been observed since `s0` is `evs`, the newest first, and then the result. -/
def observed (s0 : State) (evs : List Event) (t : State) : Prop := t.trace = .result t.blk.result :: (evs ++ s0.trace)

/-! ## Observations -/

/-- The write of `v` to a location. -/
def writeEvent (c : Cfg) (l : Loc) (v : Word) : Event := .mmioWrite (locOffset c.layout l) v

/-- The read of `v` from a location. -/
def readEvent (c : Cfg) (l : Loc) (v : Word) : Event := .mmioRead (locOffset c.layout l) v

/-- The events of a frame copy from byte `k` on, the newest first: for each byte in ascending order, its read and then its
write (R72). -/
def copyEvents (src dst : Addr) : Nat → List Byte → List Event
  | _, [] => []
  | k, b :: bs => copyEvents src dst (k + 1) bs ++ [.memWrite (byteAt dst k) b, .memRead (byteAt src k) b]

/-- Memory after the first `n` bytes have been copied, in ascending order, one at a time (R72). -/
def copiedMem (src dst : Addr) : Nat → Memory → Memory
  | 0, m => m
  | n + 1, m => Memory.write (byteAt dst n) (Memory.read (copiedMem src dst n m) (byteAt src n)) (copiedMem src dst n m)

/-- The bus events of `RING_INIT`, oldest first (R194). -/
def ringInitEvents (c : Cfg) : List Event :=
  (List.range c.nTx).flatMap (fun i =>
      [writeEvent c (.desc .tx .control i) 0, writeEvent c (.desc .tx .pointer i) (bufDev c .tx i)])
    ++ [writeEvent c (.desc .tx .control (c.nTx - 1)) (Field.bit 32 c.layout.wrap)]
    ++ (List.range c.nRx).flatMap (fun j =>
      [writeEvent c (.desc .rx .control j) 0, writeEvent c (.desc .rx .pointer j) (bufDev c .rx j),
        writeEvent c (.desc .rx .control j) (Field.bit 32 c.layout.irq),
        writeEvent c (.desc .rx .control j) (Field.bit 32 c.layout.irq ||| Field.bit 32 c.layout.own)])
    ++ [writeEvent c (.desc .rx .control (c.nRx - 1))
        (Field.bit 32 c.layout.irq ||| Field.bit 32 c.layout.own ||| Field.bit 32 c.layout.wrap)]

/-- The reads of one `WaitIdle`, the newest first: the last shows the busy flag clear, every earlier one set (R142). -/
def IsWait (c : Cfg) (evs : List Event) : Prop :=
  ∃ (v : Word) (vs : List Word), evs = readEvent c (.reg .miiStatus) v :: vs.map (readEvent c (.reg .miiStatus))
    ∧ Field.test c.layout.busy v = false ∧ ∀ u ∈ vs, Field.test c.layout.busy u = true

/-- The events of `MiiWrite(reg, data)`, the newest first: select, data, wait, pulse, wait (R145). -/
def IsMiiWrite (c : Cfg) (reg : BitVec 5) (data : Half) (evs : List Event) : Prop :=
  ∃ r1 r2, IsWait c r1 ∧ IsWait c r2
    ∧ evs = r2
      ++ [writeEvent c (.reg .miiCommand) 0, writeEvent c (.reg .miiCommand) (Field.bit 32 c.layout.wctrldata)]
      ++ r1
      ++ [writeEvent c (.reg .miiTxData) (Field.set c.layout.ctrldata 0 (data.zeroExtend 32)),
        writeEvent c (.reg .miiAddress) (miiSelectValue c reg)]

/-- The events of `MiiRead(reg)` that gives the word `w`, the newest first: select, wait, pulse, wait, data (R146). -/
def IsMiiRead (c : Cfg) (reg : BitVec 5) (w : Half) (evs : List Event) : Prop :=
  ∃ v r1 r2, IsWait c r1 ∧ IsWait c r2 ∧ w = (Field.get c.layout.prsd v).truncate 16
    ∧ evs = readEvent c (.reg .miiRxData) v :: (r2
      ++ [writeEvent c (.reg .miiCommand) 0, writeEvent c (.reg .miiCommand) (Field.bit 32 c.layout.rstat)]
      ++ r1 ++ [writeEvent c (.reg .miiAddress) (miiSelectValue c reg)])

/-- The events of one attempt of link polling, the newest first: the delay, unless it is 0, then the read (R168). -/
def IsLinkAttempt (c : Cfg) (w : Half) (evs : List Event) : Prop :=
  ∃ read, IsMiiRead c c.layout.phyRegStatus w read
    ∧ evs = read ++ (if 0 < c.linkPollDelayUs then [.delay c.linkPollDelayUs] else [])

/-- The events of a polling loop that reads the words `ws`, oldest word first, newest event first. -/
def IsPolling (attempt : Half → List Event → Prop) : List Half → List Event → Prop
  | [], evs => evs = []
  | w :: ws, evs => ∃ first rest, attempt w first ∧ IsPolling attempt ws rest ∧ evs = rest ++ first

/-- The MII transaction that an event starts, if any: a write of one of the two command bits (R143). -/
def txnStarted (L : Layout) : Event → Option MiiDir
  | .mmioWrite off v =>
    if off = L.miiCommand then
      if v = Field.bit 32 L.wctrldata then some .write
      else if v = Field.bit 32 L.rstat then some .read
      else none
    else none
  | _ => none

/-- The PHY word that a read of `MIIRX_DATA` gave (R146). -/
def phyWordRead (L : Layout) : Event → Option Half
  | .mmioRead off v => if off = L.miiRxData then some ((Field.get L.prsd v).truncate 16) else none
  | _ => none

/-- The event is a delay. -/
def isDelay : Event → Bool
  | .delay _ => true
  | _ => false

/-- The event is the delivery of a received frame. -/
def isFrameReceived : Event → Bool
  | .frameReceived _ _ => true
  | _ => false

/-! ### The drain -/

/-- The host's `k`-th answer to `Ask RxBuffer` from now on: the `k`-th scripted one, and free ones after the last (R271). -/
def hostAnswer (e : Env) (k : Nat) : Addr × Nat :=
  e.rxBuffers[k]?.getD (Config.freeRxBuffer (e.freeTick + (k - e.rxBuffers.length)))

/-- The outside world after the host's next `n` answers. -/
def afterAnswers (n : Nat) (e : Env) : Env :=
  { e with rxBuffers := e.rxBuffers.drop n, freeTick := e.freeTick + (n - e.rxBuffers.length) }

/-- One frame of a drain: word 0 of its slot, the buffer that the host gave for it, the bytes copied (R271). -/
structure DrainedFrame where
  word  : Word
  dst   : Addr
  cap   : Nat
  bytes : List Byte
deriving DecidableEq, Repr

/-- The ready check saw the slot to be the block's, and `min(LEN, cap)` bytes are copied (R222, R271). -/
def DrainedFrame.fits (c : Cfg) (f : DrainedFrame) : Prop :=
  Field.test c.layout.own f.word = false ∧ f.bytes.length = min (Field.get c.layout.len f.word).toNat f.cap

/-- The events of one frame of a drain, out of an RX slot, the newest first: the ready check; the request for `LEN` bytes and
its answer; the receive procedure's own read of word 0, its copy out of the slot's buffer to `dst`, its giving back of the
slot with only the empty bit changed; the delivery of the byte count (R222, R271). -/
def DrainedFrame.events (c : Cfg) (slot : Nat) (f : DrainedFrame) : List Event :=
  .frameReceived f.dst f.bytes.length
    :: writeEvent c (.desc .rx .control slot) (Field.set c.layout.own f.word 1)
    :: (copyEvents (bufLocal c .rx slot) f.dst 0 f.bytes
      ++ [readEvent c (.desc .rx .control slot) f.word,
        .askRxBuffer (Field.get c.layout.len f.word).toNat f.dst f.cap,
        readEvent c (.desc .rx .control slot) f.word])

/-- The `n` RX slots from `slot` on, in ring order. -/
def slotsFrom (c : Cfg) (slot : Nat) : Nat → List Nat
  | 0 => []
  | n + 1 => slot :: slotsFrom c ((slot + 1) % c.nRx) n

/-- The RX slot `n` places after `slot`, in ring order. -/
def slotAfter (c : Cfg) (slot : Nat) : Nat → Nat
  | 0 => slot
  | n + 1 => slotAfter c ((slot + 1) % c.nRx) n

/-- The events of the frames of a drain that begins at `slot`, the newest first: one frame a slot, in ring order. -/
def drainEvents (c : Cfg) (slot : Nat) : List DrainedFrame → List Event
  | [] => []
  | f :: fs => drainEvents c ((slot + 1) % c.nRx) fs ++ f.events c slot

/-- Memory after the frames of a drain that begins at `slot` have been copied out, one after another (R72). -/
def drainedMem (c : Cfg) (slot : Nat) : List DrainedFrame → Memory → Memory
  | [], m => m
  | f :: fs, m => drainedMem c ((slot + 1) % c.nRx) fs (copiedMem (bufLocal c .rx slot) f.dst f.bytes.length m)

/-! ### Alignment -/

/-- A register access is a whole aligned word of the register block (R35, R73). -/
def accessAligned (c : Cfg) : Event → Prop
  | .mmioRead off _ => (mmioAddr c off).toNat % 4 = 0 ∧ off + 4 ≤ c.mmioSize
  | .mmioWrite off _ => (mmioAddr c off).toNat % 4 = 0 ∧ off + 4 ≤ c.mmioSize
  | _ => True

end Sys2Proof.Machine
end

