-- ==== Sys2Proof/Certificates/Slice0/Obligations.lean ====
section
/-! DEFINITION. The statements about the model, from the numbered rules of the spec. A statement is about every state, every
configuration and every schedule of the device-side agents, unless its hypotheses say otherwise; `Quiet` is the absence of
hardware activity during the operation. In an observation list the newest event stands first. -/

open Sys2Proof Sys2Proof.Machine

/-! ## Encoding -/

/-- R112 to R115: the word of an operation decodes to that operation, with every operand at every value of its field. -/
def Obligations.DecodeEncodeRoundTrip : Prop := ∀ i : Instr, i.wf = true → decode (encode i) = .ok i

/-- R112 to R118: a word that decodes to an operation is the word of that operation, so no two words mean one. -/
def Obligations.DecodedWordEncodesBack : Prop :=
  ∀ (w : CmdWord) (i : Instr), decode w = .ok i → i.wf = true ∧ encode i = w

/-- R115: a word matches an operation's row of `spec/opcode_table.json` exactly when it decodes to that operation, with some
operands. -/
def Obligations.DecodeMatchesOpcodeTable : Prop :=
  ∀ (w : CmdWord) (i : Instr), (opRow i).matches w = true ↔ ∃ j, decode w = .ok j ∧ opcode j = opcode i

/-- Vector V-EN-1: one command word for each operation. -/
def Obligations.SpecWordsDecode : Prop :=
  decode 0x010000000000000000000000#96 = .ok .ringInit
    ∧ decode 0x020000020000000080101000#96 = .ok (.setupTxSlot 2 0x80101000)
    ∧ decode 0x030000000000000080120000#96 = .ok (.setupRxSlot 0 0x80120000)
    ∧ decode 0x040000000000000000000000#96 = .ok .macAddrWrite
    ∧ decode 0x050000000000000000000000#96 = .ok .irqMaskSet
    ∧ decode 0x060000000000000000000000#96 = .ok .bringup
    ∧ decode 0x070000000000000000000000#96 = .ok .macEnable
    ∧ decode 0x100005DC0000000090001000#96 = .ok (.transmit 1500 0x90001000)
    ∧ decode 0x110000000000000000000000#96 = .ok .receiveReady
    ∧ decode 0x120000000000000000000000#96 = .ok .receiveLength
    ∧ decode 0x130008000000000090010000#96 = .ok (.receive 2048 0x90010000)
    ∧ decode 0x140000000000000000000000#96 = .ok .macAddress
    ∧ decode 0x200000000000000000000000#96 = .ok .dispatch
    ∧ decode 0#96 = .error .unknownOpcode

/-! ## Steps and the common checks -/

/-- R110, R321: a step takes the host's command word and runs the operation it decodes to, to completion; with no action of
the host coming, the block waits (R302). While a dispatch pass goes on that frames without end keep from completing (R278), a
step is one that continues it, and the host's action waits; that such a pass is cut into steps is the model's choice (log
entry 2, DESIGN CHOICE). -/
def Obligations.StepRunsDecodedCommand : Prop :=
  ∀ s : State,
    (s.pass = none →
      (∀ (w : CmdWord) (rest : List HostAct) (i : Instr), s.env.host = .command w :: rest → decode w = .ok i →
        step s = exec i { s with env := { s.env with host := rest }, trace := .command w :: s.trace })
      ∧ (s.env.host = [] → step s = .next s))
    ∧ ∀ v, s.pass = some v → step s = .next (continuePass v s)

/-- R118: which words decode to no operation, and that such a word writes `RESULT` and does nothing else, in every state in which
the block accepts a command (R110). -/
def Obligations.IllegalWordOnlyWritesResult : Prop :=
  ∀ w : CmdWord,
    let op := w.extractLsb' 88 8
    let operandNotZero := w.extractLsb' 64 24 ≠ 0 ∨ w.extractLsb' 0 64 ≠ 0
    let illegal := op ∉ ([0x01, 0x02, 0x03, 0x04, 0x05, 0x06, 0x07, 0x10, 0x11, 0x12, 0x13, 0x14, 0x20] : List (BitVec 8))
      ∨ (op ∈ ([0x01, 0x04, 0x05, 0x06, 0x07, 0x11, 0x12, 0x14, 0x20] : List (BitVec 8)) ∧ operandNotZero)
    (¬ illegal → ∃ i, decode w = .ok i)
      ∧ (illegal → ∀ (s : State) (rest : List HostAct), s.pass = none → s.env.host = .command w :: rest →
          step s = .next
            { s with
              blk := { s.blk with result := 0x8000000000000000#64 }
              env := { s.env with host := rest }
              trace := .result 0x8000000000000000#64 :: .command w :: s.trace })

/-- R120: with a fatal error recorded, every operation answers `(FATAL, ERR)` and does nothing else. -/
def Obligations.FatalGate : Prop :=
  ∀ (i : Instr) (s : State) (e : FatalErr), s.blk.err = some e →
    exec i s = .next (answered (0xFF#8 ++ 0x000000000000#48 ++ fatalCode e) s)

/-- R121: outside the states of its row an operation answers `ILLEGAL_STATE` and does nothing else; `MAC_ADDRESS` is always
allowed. -/
def Obligations.StateGate : Prop :=
  ∀ s : State, s.blk.err = none →
    let refusedNow := fun i : Instr => exec i s = .next (answered 0x8100000000000000#64 s)
    (s.blk.flg.rings = true →
        refusedNow .ringInit ∧ ∀ i addr, refusedNow (.setupTxSlot i addr) ∧ refusedNow (.setupRxSlot i addr))
      ∧ (s.blk.flg.run = true → refusedNow .macAddrWrite ∧ refusedNow .irqMaskSet)
      ∧ (s.blk.pc ≠ .idle → refusedNow .bringup)
      ∧ (¬ (s.blk.pc = .linkUp ∧ s.blk.flg.rings = true ∧ s.blk.flg.macaddr = true ∧ s.blk.flg.run = false) →
        refusedNow .macEnable)
      ∧ (s.blk.flg.run = false →
        (∀ n addr, refusedNow (.transmit n addr) ∧ refusedNow (.receive n addr))
          ∧ refusedNow .receiveReady ∧ refusedNow .receiveLength ∧ refusedNow .dispatch)
      ∧ ∃ v, exec .macAddress s = .next (answered (okWord v) s)

/-- R122: the operand checks, in their order: index, then 32-bit address, then in-pool address; the length of `TRANSMIT`;
none for `RECEIVE`, whose precondition (R221) is the host's duty. `s.tick` is `s` after the agents' turn, as in `FatalEntry`. -/
def Obligations.OperandChecks : Prop :=
  ∀ s : State, s.blk.err = none →
    let bad := Host.Outcome.next (φ := Fault) (ρ := Refusal) (answered 0x8200000000000000#64 s)
    let inPool := fun addr : Nat =>
      ∃ m, m < s.cfg.nTx + s.cfg.nRx ∧ addr = s.cfg.deviceBase.toNat + m * s.cfg.slotSize
    (s.blk.flg.rings = false → ∀ i addr,
        (s.cfg.nTx ≤ i → exec (.setupTxSlot i addr) s = bad)
          ∧ (s.cfg.nRx ≤ i → exec (.setupRxSlot i addr) s = bad)
          ∧ (i < s.cfg.nTx → 2 ^ 32 ≤ addr → exec (.setupTxSlot i addr) s = .next (raised .deviceAddrRange s.tick))
          ∧ (i < s.cfg.nRx → 2 ^ 32 ≤ addr → exec (.setupRxSlot i addr) s = .next (raised .deviceAddrRange s.tick))
          ∧ (i < s.cfg.nTx → addr < 2 ^ 32 → ¬ inPool addr → exec (.setupTxSlot i addr) s = bad)
          ∧ (i < s.cfg.nRx → addr < 2 ^ 32 → ¬ inPool addr → exec (.setupRxSlot i addr) s = bad))
      ∧ (s.blk.flg.run = true → ∀ n addr,
        (¬ (1 ≤ n ∧ n ≤ s.cfg.slotSize) → exec (.transmit n addr) s = bad)
          ∧ (Field.test s.cfg.layout.own (s.tick.dev.desc .rx .control s.blk.rxc.toNat) = false →
            ∃ t, exec (.receive n addr) s = .next t ∧ t.blk.result.extractLsb' 56 8 = 0x00#8))

/-- R260, R262: fatal entry, with the codes and the messages of the four errors. By R12 the device-side agents may act before the
log event, which is an `Emit`: `s.tick` is `s` after their turn, and `s` itself when nothing is scheduled for it. -/
def Obligations.FatalEntry : Prop :=
  (∀ (e : FatalErr) (s : State), s.raiseFatal e = raised e s.tick
      ∧ s.tick.cfg = s.cfg ∧ s.tick.blk = s.blk ∧ s.tick.trace = s.trace ∧ (Quiet s → s.tick = s))
    ∧ fatalCode .phyResetFailed = 1 ∧ fatalCode .phyLinkFailed = 2 ∧ fatalCode .poolAcquisitionFailed = 3
    ∧ fatalCode .deviceAddrRange = 4
    ∧ fatalMessage .phyResetFailed = "PHY reset failed"
    ∧ fatalMessage .phyLinkFailed = "PHY duplex/speed setup failed"
    ∧ fatalMessage .poolAcquisitionFailed = "buffer pool acquisition failed"
    ∧ fatalMessage .deviceAddrRange = "device address exceeds 32 bits"

/-- R27, R263: a recorded fatal error stays, whatever the block is told to do, until it is reset. -/
def Obligations.FatalStaysUntilReset : Prop :=
  ∀ (s t : State) (e : FatalErr), s.blk.err = some e → step s = .next t →
    t.blk.err = some e ∨ ∃ rest, s.env.host = .reset :: rest

/-- R62, R300, R301: what a reset of the block gives every working register, and that it touches nothing else; the start
state has the same registers. -/
def Obligations.ResetValues : Prop :=
  let zero : Block := ⟨0, 0, 0, 0, 0, .idle, none, ⟨false, false, false⟩, 0⟩
  State.reset.blk = zero
    ∧ ∀ (s : State) (rest : List HostAct), s.pass = none → s.env.host = .reset :: rest → MacOff s →
        step s = .next { s with blk := zero, env := { s.env with host := rest } }

/-- The host's other actions are the model's choice (log entries 6 and 8; U18, U19): it writes its own memory between
operations; a write into the pool and a reset while the MAC is enabled are refused by name. -/
def Obligations.HostActions : Prop :=
  ∀ (s : State) (rest : List HostAct), s.pass = none →
    (∀ a b, s.env.host = .write a b :: rest →
        (s.cfg.localBase.toNat ≤ a.toNat ∧ a.toNat < s.cfg.localBase.toNat + (s.cfg.nTx + s.cfg.nRx) * s.cfg.slotSize →
            step s = .refused .hostWritesPool)
          ∧ (¬ (s.cfg.localBase.toNat ≤ a.toNat
              ∧ a.toNat < s.cfg.localBase.toNat + (s.cfg.nTx + s.cfg.nRx) * s.cfg.slotSize) →
            ∃ t, step s = .next t ∧ t.blk = s.blk ∧ t.dev = s.dev ∧ t.trace = s.trace
              ∧ ∀ x, Memory.read t.mem x = if x = a then b else Memory.read s.mem x))
      ∧ (s.env.host = .reset :: rest → ¬ MacOff s → step s = .refused .resetWhileMacEnabled)

/-! ## The descriptor rings -/

/-- R191: `SETUP_TX_SLOT` clears the slot, then writes its buffer pointer. -/
def Obligations.SetupTxSlotResult : Prop :=
  ∀ (s : State) (i m : Nat), s.blk.err = none → s.blk.flg.rings = false → i < s.cfg.nTx → m < s.cfg.nTx + s.cfg.nRx →
    let addr := s.cfg.deviceBase.toNat + m * s.cfg.slotSize
    addr < 2 ^ 32 →
    ∃ t, exec (.setupTxSlot i addr) s = .next t ∧ t.cfg = s.cfg ∧ t.blk = { s.blk with result := okWord 0 }
      ∧ observed s
          [writeEvent s.cfg (.desc .tx .pointer i) (BitVec.ofNat 32 addr), writeEvent s.cfg (.desc .tx .control i) 0] t
      ∧ (MacOff s ∨ Quiet s →
        (∀ r w j, t.dev.desc r w j =
            if r = .tx ∧ j = i then (if w = .control then 0 else BitVec.ofNat 32 addr) else s.dev.desc r w j)
          ∧ t.mem = s.mem)
      ∧ (Quiet s → t.dev = { s.dev with txControl := t.dev.txControl, txPointer := t.dev.txPointer } ∧ t.env = s.env)

/-- R192: `SETUP_RX_SLOT` clears the slot, writes its buffer pointer, sets its interrupt enable, and marks it empty last. -/
def Obligations.SetupRxSlotResult : Prop :=
  ∀ (s : State) (j m : Nat), s.blk.err = none → s.blk.flg.rings = false → j < s.cfg.nRx → m < s.cfg.nTx + s.cfg.nRx →
    let addr := s.cfg.deviceBase.toNat + m * s.cfg.slotSize
    let irq := Field.bit 32 s.cfg.layout.irq
    let own := Field.bit 32 s.cfg.layout.own
    addr < 2 ^ 32 →
    ∃ t, exec (.setupRxSlot j addr) s = .next t ∧ t.cfg = s.cfg ∧ t.blk = { s.blk with result := okWord 0 }
      ∧ observed s
          [writeEvent s.cfg (.desc .rx .control j) (irq ||| own), writeEvent s.cfg (.desc .rx .control j) irq,
            writeEvent s.cfg (.desc .rx .pointer j) (BitVec.ofNat 32 addr), writeEvent s.cfg (.desc .rx .control j) 0] t
      ∧ (MacOff s ∨ Quiet s →
        (∀ r w k, t.dev.desc r w k =
            if r = .rx ∧ k = j then (if w = .control then irq ||| own else BitVec.ofNat 32 addr) else s.dev.desc r w k)
          ∧ t.mem = s.mem)
      ∧ (Quiet s → t.dev = { s.dev with rxControl := t.dev.rxControl, rxPointer := t.dev.rxPointer } ∧ t.env = s.env)

/-- R193, R264: the pool check, the first step of `RING_INIT`, on unbounded integers; the pool's validity is tested first.
`s.tick` is `s` after the agents' turn before the log event, as in `FatalEntry`. -/
def Obligations.RingInitPoolCheck : Prop :=
  ∀ s : State, s.blk.err = none → s.blk.flg.rings = false →
    (s.cfg.poolValid = false → exec .ringInit s = .next (raised .poolAcquisitionFailed s.tick))
      ∧ (s.cfg.poolValid = true → 2 ^ 32 < s.cfg.deviceBase.toNat + (s.cfg.nTx + s.cfg.nRx) * s.cfg.slotSize →
        exec .ringInit s = .next (raised .deviceAddrRange s.tick))

/-- R194: `RING_INIT` programs both rings: its bus events in order, `2 * N_TX + 1 + 4 * N_RX + 1` writes and no read, and
`FLG.RINGS`; after a failed pool check it has done nothing but raise the error. -/
def Obligations.RingInitResult : Prop :=
  ∀ s : State, s.blk.err = none → s.blk.flg.rings = false →
    let usable := s.cfg.poolValid = true ∧ s.cfg.deviceBase.toNat + (s.cfg.nTx + s.cfg.nRx) * s.cfg.slotSize ≤ 2 ^ 32
    (¬ usable → ∃ e, (e = .poolAcquisitionFailed ∨ e = .deviceAddrRange) ∧ exec .ringInit s = .next (raised e s.tick))
      ∧ (usable → ∃ t, exec .ringInit s = .next t ∧ t.cfg = s.cfg
        ∧ t.blk = { s.blk with flg := { s.blk.flg with rings := true }, result := okWord 0 }
        ∧ observed s (ringInitEvents s.cfg).reverse t
        ∧ (ringInitEvents s.cfg).length = 2 * s.cfg.nTx + 1 + 4 * s.cfg.nRx + 1
        ∧ (MacOff s ∨ Quiet s → t.mem = s.mem)
        ∧ (Quiet s → t.env = s.env
          ∧ t.dev = { s.dev with
              txControl := t.dev.txControl, txPointer := t.dev.txPointer
              rxControl := t.dev.rxControl, rxPointer := t.dev.rxPointer }))

/-- R195: every slot of both rings after `RING_INIT`, absent hardware activity. -/
def Obligations.RingsAfterRingInit : Prop :=
  ∀ s t : State, s.blk.err = none → s.blk.flg.rings = false → s.cfg.poolValid = true →
    s.cfg.deviceBase.toNat + (s.cfg.nTx + s.cfg.nRx) * s.cfg.slotSize ≤ 2 ^ 32 → MacOff s → exec .ringInit s = .next t →
    let irq := Field.bit 32 s.cfg.layout.irq
    let own := Field.bit 32 s.cfg.layout.own
    let wrap := Field.bit 32 s.cfg.layout.wrap
    (∀ i, i < s.cfg.nTx →
        t.dev.desc .tx .control i = (if i + 1 = s.cfg.nTx then wrap else 0)
          ∧ (t.dev.desc .tx .pointer i).toNat = s.cfg.deviceBase.toNat + i * s.cfg.slotSize)
      ∧ (∀ j, j < s.cfg.nRx →
        t.dev.desc .rx .control j = (if j + 1 = s.cfg.nRx then irq ||| own ||| wrap else irq ||| own)
          ∧ (t.dev.desc .rx .pointer j).toNat = s.cfg.deviceBase.toNat + (s.cfg.nTx + j) * s.cfg.slotSize)
      ∧ ∀ r w i, ringDepth s.cfg r ≤ i → t.dev.desc r w i = s.dev.desc r w i

/-! ## The MAC -/

/-- R71, R241: `MAC_ADDR_WRITE` writes the two address registers, `MAC_ADDR0` first, and sets `FLG.MACADDR`. -/
def Obligations.MacAddrWriteResult : Prop :=
  ∀ s : State, s.blk.err = none → s.blk.flg.run = false →
    let byte := fun b : Byte => (b.zeroExtend 32 : Word)
    let a := s.cfg.mac
    let v0 := byte a.m2 <<< 24 ||| byte a.m3 <<< 16 ||| byte a.m4 <<< 8 ||| byte a.m5
    let v1 := byte a.m0 <<< 8 ||| byte a.m1
    ∃ t, exec .macAddrWrite s = .next t ∧ t.cfg = s.cfg
      ∧ t.blk = { s.blk with flg := { s.blk.flg with macaddr := true }, result := okWord 0 }
      ∧ observed s [writeEvent s.cfg (.reg .macAddr1) v1, writeEvent s.cfg (.reg .macAddr0) v0] t
      ∧ SameDriverRegs s.cfg.layout { s.dev with macAddr0 := v0, macAddr1 := v1 } t.dev
      ∧ (MacOff s → SameRings s.dev t.dev ∧ t.mem = s.mem)
      ∧ (Quiet s → t.dev = { s.dev with macAddr0 := v0, macAddr1 := v1 } ∧ t.mem = s.mem ∧ t.env = s.env)

/-- R243: `IRQ_MASK_SET` writes the mask that its policy asks for, every other bit 0. The bits of `INT_SOURCE` that
then raise the interrupt line are under `TXRX` those of either mask, under `RX_ONLY` those of the RX mask alone; that the line is
`INT_SOURCE & INT_MASK != 0` is log entry 23 (PRESUMED, as R266 marks it). A bit that a layout puts in both masks, which the
model accepts (log entry 26, DESIGN CHOICE), counts as one of the RX mask. -/
def Obligations.IrqMaskSetResult : Prop :=
  ∀ s : State, s.blk.err = none → s.blk.flg.run = false →
    let L := s.cfg.layout
    let m := if s.cfg.irqPolicy = .txrx then L.rxPendingMask ||| L.txPendingMask else L.rxPendingMask
    ∃ t, exec .irqMaskSet s = .next t ∧ t.cfg = s.cfg ∧ t.blk = { s.blk with result := okWord 0 }
      ∧ observed s [writeEvent s.cfg (.reg .intMask) m] t
      ∧ SameDriverRegs L { s.dev with intMask := m } t.dev
      ∧ (MacOff s → SameRings s.dev t.dev ∧ t.mem = s.mem)
      ∧ (Quiet s → t.dev = { s.dev with intMask := m } ∧ t.mem = s.mem ∧ t.env = s.env)
      ∧ ∀ v : Word, irqLine { t.dev with intSource := v } = true ↔
        v &&& L.rxPendingMask ≠ 0 ∨ (s.cfg.irqPolicy = .txrx ∧ v &&& L.txPendingMask ≠ 0)

/-- R246: `MAC_ENABLE` reads `MODER`, writes it back with both enables set and every other bit as read, and sets `FLG.RUN`.
That both DMA engines then stand at slot 0 is no part of R246: it is log entry 14 (DEDUCED), and R96 marks the start at slot 0
as its own inference. -/
def Obligations.MacEnableResult : Prop :=
  ∀ s : State, s.blk.err = none → s.blk.pc = .linkUp → s.blk.flg = ⟨true, false, true⟩ →
    let L := s.cfg.layout
    let v := s.tick.dev.moder
    ∃ t v', exec .macEnable s = .next t ∧ t.cfg = s.cfg
      ∧ (∀ k, k < 32 → v'.getLsbD k = (v.getLsbD k || decide (k = L.txen.lo) || decide (k = L.rxen.lo)))
      ∧ t.blk = { s.blk with flg := ⟨true, true, true⟩, result := okWord 0 }
      ∧ observed s [writeEvent s.cfg (.reg .moder) v', readEvent s.cfg (.reg .moder) v] t
      ∧ t.dev.moder = v' ∧ macTxOn L t.dev = true ∧ macRxOn L t.dev = true
      ∧ (MacOff s → SameRings { s.dev with txPos := 0, rxPos := 0 } t.dev ∧ t.mem = s.mem)
      ∧ (Quiet s → v = s.dev.moder ∧ t.mem = s.mem ∧ t.env = s.env
        ∧ t.dev = { s.dev with moder := v', txPos := t.dev.txPos, rxPos := t.dev.rxPos })

/-- R247, R317: `MODER` is written by `MAC_ENABLE` alone, only when the link is up and no error is recorded, and the block
then runs, so it is written at most once per reset. -/
def Obligations.ModerWrittenOnlyByEnable : Prop :=
  ∀ s t : State, BlockSafe s.cfg s.blk →
    (∀ i, exec i s = .next t → ∃ evs, t.trace = evs ++ s.trace
      ∧ ∀ v, writeEvent s.cfg (.reg .moder) v ∈ evs →
        i = .macEnable ∧ s.blk.pc = .linkUp ∧ s.blk.err = none ∧ s.blk.flg.run = false ∧ t.blk.flg.run = true)
      ∧ (s.pass ≠ none → step s = .next t →
        ∃ evs, t.trace = evs ++ s.trace ∧ ∀ v, writeEvent s.cfg (.reg .moder) v ∉ evs)

/-! ## MII transactions -/

/-- R142: `WaitIdle` has no bound of its own: more turns never change what it does, and it does return when every
transaction completes (R93). -/
def Obligations.WaitIdleHasNoBound : Prop :=
  ∀ s : State,
    (∀ n, s.env.schedule.length + 1 ≤ n → waitIdleTurns n s = waitIdle s)
      ∧ (s.env.miiCompletes = true → ∃ t, waitIdle s = some t)
      ∧ ∀ t, waitIdle s = some t → t.blk = s.blk ∧ ∃ r, IsWait s.cfg r ∧ t.trace = r ++ s.trace

/-- R145: the bus events of `MiiWrite` in order; it writes no working register. -/
def Obligations.MiiWriteSequence : Prop :=
  ∀ (s : State) (reg : BitVec 5) (data : Half),
    let L := s.cfg.layout
    let sel := Field.set L.rgad (Field.set L.fiad 0 (s.cfg.phyAddr.zeroExtend 32)) (reg.zeroExtend 32)
    (s.env.miiCompletes = true → ∃ t, miiWrite reg data s = some t)
      ∧ ∀ t, miiWrite reg data s = some t → t.blk = s.blk ∧ t.cfg = s.cfg
        ∧ ∃ r1 r2, IsWait s.cfg r1 ∧ IsWait s.cfg r2
          ∧ t.trace = r2
              ++ [writeEvent s.cfg (.reg .miiCommand) 0, writeEvent s.cfg (.reg .miiCommand) (Field.bit 32 L.wctrldata)]
              ++ r1
              ++ [writeEvent s.cfg (.reg .miiTxData) (Field.set L.ctrldata 0 (data.zeroExtend 32)),
                writeEvent s.cfg (.reg .miiAddress) sel]
              ++ s.trace

/-- R146: the bus events of `MiiRead` in order; the low half of the value read is kept in `MD`, and no other working
register is written. -/
def Obligations.MiiReadSequence : Prop :=
  ∀ (s : State) (reg : BitVec 5),
    let L := s.cfg.layout
    let sel := Field.set L.rgad (Field.set L.fiad 0 (s.cfg.phyAddr.zeroExtend 32)) (reg.zeroExtend 32)
    (s.env.miiCompletes = true → ∃ t, miiRead reg s = some t)
      ∧ ∀ t, miiRead reg s = some t → t.cfg = s.cfg
        ∧ ∃ v r1 r2, IsWait s.cfg r1 ∧ IsWait s.cfg r2
          ∧ t.blk = { s.blk with md := (Field.get L.prsd v).truncate 16 }
          ∧ t.trace = readEvent s.cfg (.reg .miiRxData) v :: (r2
              ++ [writeEvent s.cfg (.reg .miiCommand) 0, writeEvent s.cfg (.reg .miiCommand) (Field.bit 32 L.rstat)]
              ++ r1 ++ [writeEvent s.cfg (.reg .miiAddress) sel] ++ s.trace)

/-- R90, R145, R148: a write transaction while the engine is idle and nothing else acts makes six bus events and leaves the
data in the selected register of the selected PHY; nothing outside the MII side changes. That the register holds the data
exactly is the model's choice (log entry 21, DESIGN CHOICE): R145 says it only as far as the PHY accepts it. -/
def Obligations.MiiWriteReachesPhy : Prop :=
  ∀ (s : State) (reg : BitVec 5) (data : Half), Quiet s → EngineReady s →
    ∃ t, miiWrite reg data s = some t ∧ t.trace.length = s.trace.length + 6
      ∧ t.dev.phyReg s.cfg.phyAddr reg = data ∧ EngineReady t
      ∧ (∀ a r, (a, r) ≠ (s.cfg.phyAddr, reg) → t.dev.phyReg a r = s.dev.phyReg a r)
      ∧ t.mem = s.mem ∧ t.env = s.env
      ∧ t.dev = { s.dev with
          miiAddress := t.dev.miiAddress, miiTxData := t.dev.miiTxData, miiCommand := 0, phy := t.dev.phy
          phySim := t.dev.phySim }

/-- R90, R146, R148: a read transaction while the engine is idle and nothing else acts makes six bus events, and leaves in
`MD` what the selected register of the selected PHY holds; the PHY registers do not change, unless the PHY is that of
`SimEnv`. That a read changes no PHY register is the model's choice (log entry 21, DESIGN CHOICE): R94 and R95 leave it
open. -/
def Obligations.MiiReadReadsPhy : Prop :=
  ∀ (s : State) (reg : BitVec 5), Quiet s → EngineReady s →
    ∃ t, miiRead reg s = some t ∧ t.trace.length = s.trace.length + 6
      ∧ t.blk = { s.blk with md := t.dev.phyReg s.cfg.phyAddr reg } ∧ EngineReady t
      ∧ (s.dev.phySim = none → t.dev.phy = s.dev.phy ∧ t.dev.phySim = none)
      ∧ t.mem = s.mem ∧ t.env = s.env
      ∧ t.dev = { s.dev with
          miiAddress := t.dev.miiAddress, miiCommand := 0, miiRxData := t.dev.miiRxData, phy := t.dev.phy
          phySim := t.dev.phySim }

/-! ## Bring-up -/

/-- R160, R164, R169, R170: under the completion of every transaction (R93) `BRINGUP` returns, in one of its two terminal
states, with the counters and the result of the exit it took; the cursors and the flags are untouched. -/
def Obligations.BringupEndsInTerminalState : Prop :=
  ∀ s : State, s.blk.err = none → s.blk.pc = .idle → s.env.miiCompletes = true →
    ∃ t, exec .bringup s = .next t ∧ t.cfg = s.cfg ∧ t.blk.txc = s.blk.txc ∧ t.blk.rxc = s.blk.rxc ∧ t.blk.flg = s.blk.flg
      ∧ 1 ≤ t.blk.rt.toNat ∧ t.blk.rt.toNat ≤ s.cfg.resetRetries
      ∧ ((t.blk.pc = .linkUp ∧ t.blk.err = none ∧ 1 ≤ t.blk.lt.toNat ∧ t.blk.lt.toNat ≤ s.cfg.linkRetries
            ∧ t.blk.result = okWord (t.blk.md.zeroExtend 48))
        ∨ (t.blk.pc = .failed ∧ t.blk.err = some .phyResetFailed ∧ t.blk.rt.toNat = s.cfg.resetRetries
            ∧ t.blk.lt = s.blk.lt ∧ t.blk.result = 0xFF00000000000001#64)
        ∨ (t.blk.pc = .failed ∧ t.blk.err = some .phyLinkFailed ∧ t.blk.lt.toNat = s.cfg.linkRetries
            ∧ t.blk.result = 0xFF00000000000002#64))

/-- R160 to R170, R173: every event of `BRINGUP` in order, with what it carries: the reset write of `PHY_RESET_CMD` to
`PHY_REG_CTRL` (R161); one read of `PHY_REG_CTRL` an attempt (R162); the writes of `PHY_IRQ_VALUE` to `PHY_REG_IRQ` (R165) and then
of `PHY_MODE_VALUE` to `PHY_REG_CTRL` (R166); for each attempt of link polling the delay of `LINK_POLL_DELAY_US`, unless it is 0,
and then one read of `PHY_REG_STATUS` (R168); and the events of the exit taken (R164, R169, R170). The second part counts them:
the directions of the transactions in order, and how many delays there are. -/
def Obligations.BringupTransactions : Prop :=
  ∀ s t : State, s.blk.err = none → s.blk.pc = .idle → exec .bringup s = .next t →
    let c := s.cfg
    let L := c.layout
    (∃ reset polls rs, IsMiiWrite c L.phyRegCtrl L.phyResetCmd reset
      ∧ IsPolling (IsMiiRead c L.phyRegCtrl) rs polls ∧ rs.length = t.blk.rt.toNat
      ∧ ((t.blk.err = some .phyResetFailed
          ∧ t.trace = [.result t.blk.result, .log "PHY reset failed" 1] ++ polls ++ reset ++ s.trace)
        ∨ ∃ irq mode links ls, IsMiiWrite c c.phyRegIrq c.phyIrqValue irq ∧ IsMiiWrite c L.phyRegCtrl L.phyModeValue mode
          ∧ IsPolling (IsLinkAttempt c) ls links ∧ ls.length = t.blk.lt.toNat
          ∧ ((t.blk.pc = .linkUp
              ∧ t.trace = [.result t.blk.result, .linkStateUp, .log "PHY link up, status" t.blk.md.toNat]
                ++ links ++ mode ++ irq ++ polls ++ reset ++ s.trace)
            ∨ (t.blk.err = some .phyLinkFailed
              ∧ t.trace = [.result t.blk.result, .log "PHY duplex/speed setup failed" 2]
                ++ links ++ mode ++ irq ++ polls ++ reset ++ s.trace))))
    ∧ ∃ evs, t.trace = evs ++ s.trace ∧
      let txns := (evs.filterMap (txnStarted L) : List MiiDir)
      let delays := evs.countP isDelay
      let reads := fun n : Nat => List.replicate n MiiDir.read
      let delayed := fun n : Nat => if 0 < c.linkPollDelayUs then n else 0
      (t.blk.pc = .linkUp →
          txns = reads t.blk.lt.toNat ++ [MiiDir.write, MiiDir.write] ++ reads t.blk.rt.toNat ++ [MiiDir.write]
            ∧ delays = delayed t.blk.lt.toNat)
        ∧ (t.blk.err = some .phyResetFailed → txns = reads c.resetRetries ++ [MiiDir.write] ∧ delays = 0)
        ∧ (t.blk.err = some .phyLinkFailed →
          txns = reads c.linkRetries ++ [MiiDir.write, MiiDir.write] ++ reads t.blk.rt.toNat ++ [MiiDir.write]
            ∧ delays = delayed c.linkRetries)

/-- R163, R164, R168 to R170, R174: the words that the transactions read decide the course of `BRINGUP`: reset polling goes
on while the reset bit reads 1, link polling while the link bit reads 0, each up to its bound and no further; `MD` holds the
last word read. -/
def Obligations.BringupFollowsWordsRead : Prop :=
  ∀ s t : State, s.blk.err = none → s.blk.pc = .idle → exec .bringup s = .next t →
    let resetting := fun w : Half => Field.test s.cfg.layout.phyReset w
    let linkUp := fun w : Half => Field.test s.cfg.layout.phyLink w
    ∃ evs rs ls, t.trace = evs ++ s.trace ∧ (evs.filterMap (phyWordRead s.cfg.layout)).reverse = rs ++ ls
      ∧ rs.length = t.blk.rt.toNat ∧ (∀ w ∈ rs.dropLast, resetting w = true) ∧ (rs ++ ls).getLast? = some t.blk.md
      ∧ (t.blk.err = some .phyResetFailed → ls = [] ∧ rs.length = s.cfg.resetRetries ∧ ∀ w ∈ rs, resetting w = true)
      ∧ (t.blk.err ≠ some .phyResetFailed →
        rs.getLast?.map resetting = some false ∧ ls.length = t.blk.lt.toNat ∧ ∀ w ∈ ls.dropLast, linkUp w = false)
      ∧ (t.blk.err = some .phyLinkFailed → ls.length = s.cfg.linkRetries ∧ linkUp t.blk.md = false)
      ∧ (t.blk.pc = .linkUp → linkUp t.blk.md = true)

/-- R103, R173 and the source's property T6: against the reference environment, with the reset bit first clear on read `r`
and the link bit first set on read `k`, both within their bounds, the link comes up at exactly attempt `k`. -/
def Obligations.BringupSucceedsInSimEnv : Prop :=
  ∀ (s : State) (p : PhySim) (r k : Nat), s.blk.err = none → s.blk.pc = .idle → Quiet s → EngineReady s →
    s.dev.phySim = some p → p.resetReads = some r → p.linkReads = some k → p.statusReads = 0 →
    1 ≤ r → r ≤ s.cfg.resetRetries → 1 ≤ k → k ≤ s.cfg.linkRetries → s.cfg.layout.phyRegCtrl ≠ s.cfg.layout.phyRegStatus →
    ∃ t, exec .bringup s = .next t ∧ t.blk.pc = .linkUp ∧ t.blk.err = none ∧ t.blk.rt.toNat = r ∧ t.blk.lt.toNat = k
      ∧ t.blk.md = Field.set s.cfg.layout.phyLink p.up 1
      ∧ t.blk.result = okWord (t.blk.md.zeroExtend 48)
      ∧ (∃ rest, t.trace = .result t.blk.result :: .linkStateUp :: .log "PHY link up, status" t.blk.md.toNat :: rest)

/-- R103, R164, R170 and the source's property T5: against a PHY that clears its reset bit after the bound, or never,
`BRINGUP` fails after exactly `RESET_RETRIES` reads; against one whose link comes up after the bound, or never, after exactly
`LINK_RETRIES` attempts. -/
def Obligations.BringupTimesOutInSimEnv : Prop :=
  ∀ (s : State) (p : PhySim), s.blk.err = none → s.blk.pc = .idle → Quiet s → EngineReady s → s.dev.phySim = some p →
    ((∀ r, p.resetReads = some r → s.cfg.resetRetries < r) →
        ∃ t rest, exec .bringup s = .next t ∧ t.blk.pc = .failed ∧ t.blk.err = some .phyResetFailed
          ∧ t.blk.rt.toNat = s.cfg.resetRetries ∧ t.blk.lt = s.blk.lt
          ∧ t.trace = .result 0xFF00000000000001#64 :: .log "PHY reset failed" 1 :: rest)
      ∧ ∀ r, p.resetReads = some r → 1 ≤ r → r ≤ s.cfg.resetRetries → p.statusReads = 0 →
        (∀ k, p.linkReads = some k → s.cfg.linkRetries < k) → s.cfg.layout.phyRegCtrl ≠ s.cfg.layout.phyRegStatus →
        ∃ t rest, exec .bringup s = .next t ∧ t.blk.pc = .failed ∧ t.blk.err = some .phyLinkFailed ∧ t.blk.rt.toNat = r
          ∧ t.blk.lt.toNat = s.cfg.linkRetries
          ∧ t.trace = .result 0xFF00000000000002#64 :: .log "PHY duplex/speed setup failed" 2 :: rest

/-- R316, U14: when the engine completes no transaction and nothing else acts, `BRINGUP` never returns; the model says so
with a fault of its own. -/
def Obligations.BringupNeverReturns : Prop :=
  ∀ s : State, s.blk.err = none → s.blk.pc = .idle → Quiet s → s.env.miiCompletes = false →
    exec .bringup s = .fault .miiNeverCompletes

/-- R174(e): `BRINGUP` writes nothing but the MII registers, and leaves alone `MODER`, the mask, the descriptors, the pool and
the MAC address. -/
def Obligations.BringupFrame : Prop :=
  ∀ s t : State, exec .bringup s = .next t →
    let L := s.cfg.layout
    (∃ evs, t.trace = evs ++ s.trace
        ∧ ∀ off v, Event.mmioWrite off v ∈ evs → off = L.miiAddress ∨ off = L.miiTxData ∨ off = L.miiCommand)
      ∧ t.dev.intMask = s.dev.intMask ∧ t.dev.macAddr0 = s.dev.macAddr0 ∧ t.dev.macAddr1 = s.dev.macAddr1
      ∧ t.dev.txPointer = s.dev.txPointer ∧ t.dev.rxPointer = s.dev.rxPointer
      ∧ macTxOn L t.dev = macTxOn L s.dev ∧ macRxOn L t.dev = macRxOn L s.dev
      ∧ (MacOff s → SameRings s.dev t.dev ∧ t.mem = s.mem)
      ∧ (Quiet s → t.dev.moder = s.dev.moder ∧ t.dev.intSource = s.dev.intSource ∧ SameRings s.dev t.dev ∧ t.mem = s.mem
        ∧ t.env = s.env)

/-- R124, R317: `INIT` on a block just reset. With a usable pool, against the reference environment with `r` and `k` within
the bounds, construction completes and both directions of the MAC are enabled; with an invalid pool, with a pool that does not
lie below 2^32, with a PHY that does not come out of reset within the bound, and with a link that does not come up within
the bound, it stops with that error and the MAC stays disabled. -/
def Obligations.InitConstructsDriverOrStops : Prop :=
  ∀ s : State, s.blk = Block.reset → Quiet s → EngineReady s → MacOff s →
    let poolFits := s.cfg.deviceBase.toNat + (s.cfg.nTx + s.cfg.nRx) * s.cfg.slotSize ≤ 2 ^ 32
    (∀ p r k, s.cfg.poolValid = true → poolFits → s.dev.phySim = some p → p.resetReads = some r → p.linkReads = some k →
        p.statusReads = 0 → 1 ≤ r → r ≤ s.cfg.resetRetries → 1 ≤ k → k ≤ s.cfg.linkRetries →
        s.cfg.layout.phyRegCtrl ≠ s.cfg.layout.phyRegStatus →
        ∃ t, runInit s = .next t ∧ t.blk.flg = ⟨true, true, true⟩ ∧ t.blk.pc = .linkUp ∧ t.blk.err = none
          ∧ t.blk.txc = 0 ∧ t.blk.rxc = 0 ∧ macTxOn s.cfg.layout t.dev = true ∧ macRxOn s.cfg.layout t.dev = true)
      ∧ (s.cfg.poolValid = false →
        runInit s = .next (raised .poolAcquisitionFailed s) ∧ MacOff (raised .poolAcquisitionFailed s))
      ∧ (s.cfg.poolValid = true → ¬ poolFits →
        runInit s = .next (raised .deviceAddrRange s) ∧ MacOff (raised .deviceAddrRange s))
      ∧ (s.cfg.poolValid = true → poolFits → ∀ p, s.dev.phySim = some p →
        (∀ r, p.resetReads = some r → s.cfg.resetRetries < r) →
        ∃ t, runInit s = .next t ∧ t.blk.err = some .phyResetFailed ∧ t.blk.flg.run = false ∧ MacOff t)
      ∧ (s.cfg.poolValid = true → poolFits → ∀ p r, s.dev.phySim = some p → p.resetReads = some r → 1 ≤ r →
        r ≤ s.cfg.resetRetries → p.statusReads = 0 → (∀ k, p.linkReads = some k → s.cfg.linkRetries < k) →
        s.cfg.layout.phyRegCtrl ≠ s.cfg.layout.phyRegStatus →
        ∃ t, runInit s = .next t ∧ t.blk.err = some .phyLinkFailed ∧ t.blk.flg.run = false ∧ MacOff t)

/-! ## The data path -/

/-- R213: the accepted case of `TRANSMIT`. -/
def Obligations.TransmitAccepted : Prop :=
  ∀ (s : State) (len src : Nat), s.blk.err = none → s.blk.flg.run = true → 1 ≤ len → len ≤ s.cfg.slotSize →
    let L := s.cfg.layout
    let slot := s.blk.txc.toNat
    let w := s.tick.dev.desc .tx .control slot
    Field.test L.own w = false →
    let buf := s.cfg.localBase + BitVec.ofNat 64 (slot * s.cfg.slotSize)
    let w2 := Field.set L.irq (Field.set L.own (Field.set L.len (Field.set L.crc (Field.set L.pad w 1)
      (if s.cfg.crcPolicy then 1 else 0)) (BitVec.ofNat 32 len)) 1) 1
    ∃ t bytes, exec (.transmit len src) s = .next t ∧ t.cfg = s.cfg ∧ bytes.length = len
      ∧ t.blk = { s.blk with
          txc := BitVec.ofNat 24 ((slot + 1) % s.cfg.nTx), result := okWord (s.blk.txc.zeroExtend 48) }
      ∧ observed s
          (writeEvent s.cfg (.desc .tx .control slot) w2
            :: (copyEvents (BitVec.ofNat 64 src) buf 0 bytes ++ [readEvent s.cfg (.desc .tx .control slot) w])) t
      ∧ SameDriverRegs L s.dev t.dev
      ∧ (Quiet s → t.env = s.env ∧ t.mem = copiedMem (BitVec.ofNat 64 src) buf len s.mem
        ∧ (∀ a, (∀ k, k < len → a ≠ byteAt buf k) → Memory.read t.mem a = Memory.read s.mem a)
        ∧ (∀ r x i, t.dev.desc r x i = if r = .tx ∧ x = .control ∧ i = slot then w2 else s.dev.desc r x i)
        ∧ t.dev = { s.dev with txControl := t.dev.txControl })

/-- R214: while the slot at `TXC` is still ready, `TRANSMIT` answers `RETRY` and changes nothing: one read of the descriptor,
and that is all. -/
def Obligations.TransmitRetry : Prop :=
  ∀ (s : State) (len src : Nat), s.blk.err = none → s.blk.flg.run = true → 1 ≤ len → len ≤ s.cfg.slotSize →
    let loc := Loc.desc .tx .control s.blk.txc.toNat
    let w := s.tick.dev.desc .tx .control s.blk.txc.toNat
    Field.test s.cfg.layout.own w = true →
    exec (.transmit len src) s
        = .next (answered 0x0100000000000000#64 { s.tick with trace := readEvent s.cfg loc w :: s.trace })
      ∧ (Quiet s → s.tick = s)

/-- R215: the descriptor word that `TRANSMIT` writes is the word read with five fields replaced; with the default layout it
is the formula of the rule. -/
def Obligations.TransmitDescriptorWord : Prop :=
  (∀ (c : Cfg) (w : Word) (len k : Nat), len ≤ c.slotSize → k < 32 →
      let L := c.layout
      let w2 := txControlValue c w len
      Field.get L.pad w2 = 1 ∧ Field.get L.crc w2 = (if c.crcPolicy then 1 else 0) ∧ (Field.get L.len w2).toNat = len
        ∧ Field.get L.own w2 = 1 ∧ Field.get L.irq w2 = 1
        ∧ ((∀ f ∈ [L.pad, L.crc, L.len, L.own, L.irq], ¬ (f.lo ≤ k ∧ k < f.lo + f.width)) → w2.getLsbD k = w.getLsbD k))
    ∧ ∀ (c : Cfg) (w : Word) (len : Nat), c.layout = Layout.default c.nTx → len ≤ c.slotSize →
      txControlValue c w len
        = (w &&& 0x000027FF#32) ||| (BitVec.ofNat 32 len <<< 16) ||| 0x0000D000#32 ||| ((if c.crcPolicy then 1#32 else 0#32) <<< 11)

/-- R11, R21: the cursor walks the ring in a pure modulo cycle: `k` advances reach slot `(c + k) mod N`, and `N` advances
reach the start again. -/
def Obligations.CursorIsPureModuloCycle : Prop :=
  ∀ (c : Cfg) (r : Ring) (x : BitVec 24) (k : Nat), x.toNat < ringDepth c r →
    (((fun y => ringNext y (ringDepth c r))^[k]) x).toNat = (x.toNat + k) % ringDepth c r
      ∧ ((fun y => ringNext y (ringDepth c r))^[ringDepth c r]) x = x

/-- R217, R224: in safe, ordered rings `TRANSMIT` answers `RETRY` exactly when every TX slot is ready, and `RECEIVE_READY`
answers 0 exactly when no frame is present. -/
def Obligations.RingAnswersAreExact : Prop :=
  ∀ s t : State, Safe s → s.blk.flg.run = true →
    (∀ len src, TxRingOrdered s → 1 ≤ len → len ≤ s.cfg.slotSize → exec (.transmit len src) s = .next t →
        (t.blk.result = 0x0100000000000000#64 ↔ ∀ i, i < s.cfg.nTx → owned s.tick .tx i = true))
      ∧ (RxRingOrdered s → exec .receiveReady s = .next t →
        (t.blk.result = 0 ↔ ∀ j, j < s.cfg.nRx → owned s.tick .rx j = true))

/-- R218: `RECEIVE_READY` is one read of the slot at `RXC`, and its value is 1 exactly when the empty bit reads 0. -/
def Obligations.ReceiveReadyResult : Prop :=
  ∀ s : State, s.blk.err = none → s.blk.flg.run = true →
    let loc := Loc.desc .rx .control s.blk.rxc.toNat
    let w := s.tick.dev.desc .rx .control s.blk.rxc.toNat
    exec .receiveReady s = .next (answered (if Field.get s.cfg.layout.own w = 0 then okWord 1 else okWord 0)
        { s.tick with trace := readEvent s.cfg loc w :: s.trace })
      ∧ (Quiet s → s.tick = s)

/-- R219: `RECEIVE_LENGTH` is one read of the slot at `RXC`, and its value is the `LEN` field. -/
def Obligations.ReceiveLengthResult : Prop :=
  ∀ s : State, s.blk.err = none → s.blk.flg.run = true →
    let loc := Loc.desc .rx .control s.blk.rxc.toNat
    let w := s.tick.dev.desc .rx .control s.blk.rxc.toNat
    exec .receiveLength s = .next (answered (okWord ((Field.get s.cfg.layout.len w).zeroExtend 48))
        { s.tick with trace := readEvent s.cfg loc w :: s.trace })
      ∧ (Quiet s → s.tick = s)

/-- R221, R222: `RECEIVE` under the host's duty: it copies `min(LEN, max_len)` bytes out of the slot, gives the slot back with
only its empty bit changed, and advances `RXC`. -/
def Obligations.ReceiveResult : Prop :=
  ∀ (s : State) (maxLen dst : Nat), s.blk.err = none → s.blk.flg.run = true → maxLen < 2 ^ 24 →
    let L := s.cfg.layout
    let slot := s.blk.rxc.toNat
    let w := s.tick.dev.desc .rx .control slot
    Field.test L.own w = false →
    let n := min (Field.get L.len w).toNat maxLen
    let buf := s.cfg.localBase + BitVec.ofNat 64 ((s.cfg.nTx + slot) * s.cfg.slotSize)
    let w2 := Field.set L.own w 1
    ∃ t bytes, exec (.receive maxLen dst) s = .next t ∧ t.cfg = s.cfg ∧ bytes.length = n
      ∧ t.blk = { s.blk with
          rxc := BitVec.ofNat 24 ((slot + 1) % s.cfg.nRx), result := okWord (BitVec.ofNat 48 n) }
      ∧ observed s
          (writeEvent s.cfg (.desc .rx .control slot) w2
            :: (copyEvents buf (BitVec.ofNat 64 dst) 0 bytes ++ [readEvent s.cfg (.desc .rx .control slot) w])) t
      ∧ SameDriverRegs L s.dev t.dev
      ∧ (Quiet s → t.env = s.env ∧ t.mem = copiedMem buf (BitVec.ofNat 64 dst) n s.mem
        ∧ (∀ a, (∀ k, k < n → a ≠ byteAt (BitVec.ofNat 64 dst) k) → Memory.read t.mem a = Memory.read s.mem a)
        ∧ (∀ r x j, t.dev.desc r x j = if r = .rx ∧ x = .control ∧ j = slot then w2 else s.dev.desc r x j)
        ∧ t.dev = { s.dev with rxControl := t.dev.rxControl })

/-- R225: `MAC_ADDRESS` answers the configured address, with no bus event. -/
def Obligations.MacAddressResult : Prop :=
  ∀ s : State, s.blk.err = none →
    let a := s.cfg.mac
    exec .macAddress s = .next (answered (okWord (a.m0 ++ a.m1 ++ a.m2 ++ a.m3 ++ a.m4 ++ a.m5)) s)

/-! ## The dispatch pass -/

/-- R270 to R275, R222: a dispatch pass reads the source once, drains if it shows RX-pending, notifies if it shows TX-pending,
writes back the value read, and acknowledges, in that order. It completes whenever the pass has no drain to make or arrivals
are not endless (R278). The drain takes one frame a slot in ring order from `RXC` on, each into the buffer that the host
answers, and ends with a ready check that sees an empty slot; the frames it takes are `frames`. With nothing scheduled the
words are those of the rings, memory is as before but for the bytes copied into those buffers, and of the device only word 0
of the slots drained and `INT_SOURCE` change. The bits written back are clear at the end, unless the agents set them again in
their turn before the acknowledgement (R12); that they have no turn after it is the model's choice (log entry 12, DESIGN
CHOICE). -/
def Obligations.DispatchResult : Prop :=
  ∀ s : State, s.blk.err = none → s.blk.flg.run = true →
    let c := s.cfg
    let L := c.layout
    let v := s.tick.dev.intSource
    let first := s.blk.rxc.toNat
    (v &&& L.rxPendingMask ≠ 0 → s.env.rxEndless = false) →
    ∃ (t : State) (frames : List DrainedFrame) (drain : List Event), exec .dispatch s = .next t ∧ t.cfg = c ∧ t.pass = none
      ∧ t.blk = { s.blk with rxc := BitVec.ofNat 24 (slotAfter c first frames.length), result := okWord 0 }
      ∧ observed s
          (.irqAck c.irqLine :: writeEvent c (.reg .intSource) v
            :: ((if v &&& L.txPendingMask ≠ 0 then [.txSlotFreed] else []) ++ drain ++ [readEvent c (.reg .intSource) v])) t
      ∧ (v &&& L.rxPendingMask = 0 → frames = [] ∧ drain = [])
      ∧ (v &&& L.rxPendingMask ≠ 0 → ∃ w, Field.test L.own w = true
        ∧ drain = readEvent c (.desc .rx .control (slotAfter c first frames.length)) w :: drainEvents c first frames)
      ∧ (∀ f ∈ frames, f.fits c)
      ∧ frames.map (fun f => (f.dst, f.cap)) = (List.range frames.length).map (hostAnswer s.env)
      ∧ SameDriverRegs L s.dev t.dev
      ∧ (turnBefore (drain.length + if v &&& L.txPendingMask ≠ 0 then 3 else 2) s = [] → t.dev.intSource &&& v = 0)
      ∧ (Quiet s →
        frames.map (·.word) = (slotsFrom c first frames.length).map (s.dev.desc .rx .control)
        ∧ t.mem = drainedMem c first frames s.mem
        ∧ (∀ a, (∀ f ∈ frames, ∀ k, k < f.bytes.length → a ≠ byteAt f.dst k) → Memory.read t.mem a = Memory.read s.mem a)
        ∧ (∀ r x j, t.dev.desc r x j =
            if r = .rx ∧ x = .control ∧ j ∈ slotsFrom c first frames.length then Field.set L.own (s.dev.desc .rx .control j) 1
            else s.dev.desc r x j)
        ∧ t.dev = { s.dev with rxControl := t.dev.rxControl, intSource := 0 }
        ∧ t.env = afterAnswers frames.length s.env)

/-- R270, R272 to R274: a dispatch pass whose source shows no RX-pending completes whatever else is scheduled: it notifies if
the source shows TX-pending, clears, acknowledges, and touches no descriptor, no byte of memory and no cursor. The
bits written back are clear at the end, unless the agents set them again in their turn before the acknowledgement (R12); that
they have no turn after it is the model's choice (log entry 12, DESIGN CHOICE). -/
def Obligations.DispatchWithoutRxPending : Prop :=
  ∀ s : State, s.blk.err = none → s.blk.flg.run = true →
    let L := s.cfg.layout
    let v := s.tick.dev.intSource
    v &&& L.rxPendingMask = 0 →
    ∃ t, exec .dispatch s = .next t ∧ t.cfg = s.cfg ∧ t.pass = none ∧ t.blk = { s.blk with result := okWord 0 }
      ∧ t.trace = [.result (okWord 0), .irqAck s.cfg.irqLine, writeEvent s.cfg (.reg .intSource) v]
          ++ (if v &&& L.txPendingMask ≠ 0 then [.txSlotFreed] else []) ++ readEvent s.cfg (.reg .intSource) v :: s.trace
      ∧ SameDriverRegs L s.dev t.dev
      ∧ (turnBefore (if v &&& L.txPendingMask ≠ 0 then 3 else 2) s = [] →
        ∀ k, v.getLsbD k = true → t.dev.intSource.getLsbD k = false)
      ∧ (Quiet s → t.dev = { s.dev with intSource := 0 } ∧ t.mem = s.mem ∧ t.env = s.env)

/-- R37, R273: `INT_SOURCE` is write-1-to-clear: a write clears the bits written 1 and leaves the others, and never sets one. -/
def Obligations.IntSourceIsWriteOneToClear : Prop :=
  ∀ (s : State) (v : Word) (k : Nat), k < 32 →
    (s.mmioWrite (.reg .intSource) v).dev.intSource.getLsbD k = (s.tick.dev.intSource.getLsbD k && !v.getLsbD k)

/-- R271, R278, R321: the drain loop has no bound of its own: more turns never change what it does, so it ends only by a ready
check that sees an empty slot; and it does end when arrivals are not endless. Under endless arrivals, the RX engine filling each
slot as fast as the drain hands it back, a pass that sees RX-pending is an infinite execution: it takes the frames that are
there and goes on, and from then on each step takes one frame more, in ring order, writes no `RESULT`, takes no action of the
host, and leaves such a pass again. That a step is one such frame is the model's choice (log entry 2, DESIGN CHOICE). -/
def Obligations.DrainHasNoBound : Prop :=
  ∀ s : State,
    (∀ n, s.cfg.nRx + arrivals s.env + 2 ≤ n → drainTurns n s = rxDrain s)
      ∧ (s.env.rxEndless = false → ∃ t, rxDrain s = (true, t))
      ∧ (Safe s → RxRingOrdered s → s.blk.flg.run = true → Quiet s → s.env.rxEndless = true →
        s.dev.intSource &&& s.cfg.layout.rxPendingMask ≠ 0 →
        ∃ t frames, exec .dispatch s = .next t ∧ PassWithoutEnd t ∧ t.pass = some s.dev.intSource
          ∧ t.blk = { s.blk with rxc := t.blk.rxc }
          ∧ t.trace = drainEvents s.cfg s.blk.rxc.toNat frames ++ readEvent s.cfg (.reg .intSource) s.dev.intSource :: s.trace)
      ∧ (PassWithoutEnd s → ∃ t f, step s = .next t ∧ PassWithoutEnd t ∧ t.pass = s.pass ∧ t.cfg = s.cfg
        ∧ t.blk = { s.blk with rxc := BitVec.ofNat 24 ((s.blk.rxc.toNat + 1) % s.cfg.nRx) } ∧ t.env.host = s.env.host
        ∧ DrainedFrame.fits s.cfg f ∧ t.trace = f.events s.cfg s.blk.rxc.toNat ++ s.trace)

/-- R271 and the source's property T7: with `p` frames present and nothing arriving, one pass that sees RX-pending delivers
exactly `p` frames, those of the slots from `RXC` on, in ring order, gives every slot back, and clears the RX-pending bits. -/
def Obligations.DispatchDeliversEveryFrame : Prop :=
  ∀ (s : State) (p : Nat), s.blk.err = none → s.blk.flg.run = true → Quiet s → s.env.rxEndless = false →
    s.blk.rxc.toNat < s.cfg.nRx →
    p ≤ s.cfg.nRx → (∀ j, j < s.cfg.nRx → (owned s .rx j = false ↔ inStretch s.cfg.nRx s.blk.rxc.toNat p j)) →
    s.dev.intSource &&& s.cfg.layout.rxPendingMask ≠ 0 →
    ∃ t frames before after, exec .dispatch s = .next t ∧ frames.length = p
      ∧ t.trace = after ++ drainEvents s.cfg s.blk.rxc.toNat frames ++ before ++ s.trace
      ∧ (after ++ drainEvents s.cfg s.blk.rxc.toNat frames ++ before).countP isFrameReceived = p
      ∧ t.blk.rxc.toNat = (s.blk.rxc.toNat + p) % s.cfg.nRx
      ∧ (∀ j, j < s.cfg.nRx → owned t .rx j = true)
      ∧ t.dev.intSource &&& s.cfg.layout.rxPendingMask = 0

/-! ## The device side -/

/-- R97: what the TX engine does at a slot it owns, and that it does nothing at any other. That it sets every bit of the TX
mask is the model's choice (log entry 15, DEDUCED): R97 says a TX-pending bit; so is that it does so in the same step as it
clears the ready bit (log entry 25, DESIGN CHOICE). -/
def Obligations.TxEngineContract : Prop :=
  ∀ (c : Cfg) (other : Word) (d : Device) (m : Memory),
    let L := c.layout
    let w := d.desc .tx .control d.txPos
    let e := (devAct c (.txConsume other) d m).1
    let w2 := e.desc .tx .control d.txPos
    (devAct c (.txConsume other) d m).2 = m ∧ e.txPointer = d.txPointer
      ∧ e.rxControl = d.rxControl ∧ e.rxPointer = d.rxPointer ∧ e.rxPos = d.rxPos
      ∧ (∀ i, i ≠ d.txPos → e.desc .tx .control i = d.desc .tx .control i)
      ∧ (macTxOn L d = true → Field.test L.own w = true →
        Field.test L.own w2 = false
          ∧ (∀ f ∈ [L.len, L.irq, L.wrap, L.pad, L.crc], Field.get f w2 = Field.get f w)
          ∧ e.intSource = (if Field.test L.irq w then d.intSource ||| L.txPendingMask else d.intSource)
          ∧ e.txPos = (if Field.test L.wrap w then 0 else d.txPos + 1))
      ∧ (macTxOn L d = false ∨ Field.test L.own w = false → e = d)

/-- R99, R100: what the RX engine does with a frame of at most a slot's size at a slot it owns, and that it does nothing at any
other. Longer frames, of which it stores a slot's size only, are left out: that is the model's choice (log entry 10, DEDUCED).
So are three clauses: every bit of the RX mask is set (log entry 15, DEDUCED; R100 says an RX-pending bit), in the same step as
the empty bit is cleared (log entry 25, DESIGN CHOICE), and a pointer outside the pool is translated as one inside it (log
entry 24, DEDUCED; R79 covers the pool only). -/
def Obligations.RxEngineContract : Prop :=
  ∀ (c : Cfg) (frame : List Byte) (len : Half) (other : Word) (d : Device) (m : Memory), frame.length ≤ c.slotSize →
    let L := c.layout
    let w := d.desc .rx .control d.rxPos
    let out := devAct c (.rxFill frame len other) d m
    let e := out.1
    let w2 := e.desc .rx .control d.rxPos
    let buf := c.localBase + ((d.desc .rx .pointer d.rxPos).zeroExtend 64 - c.deviceBase)
    e.rxPointer = d.rxPointer ∧ e.txControl = d.txControl ∧ e.txPointer = d.txPointer ∧ e.txPos = d.txPos
      ∧ (∀ i, i ≠ d.rxPos → e.desc .rx .control i = d.desc .rx .control i)
      ∧ (macRxOn L d = true → Field.test L.own w = true →
        (∀ k b, frame[k]? = some b → Memory.read out.2 (buf + BitVec.ofNat 64 k) = b)
          ∧ (∀ a, (∀ k, k < frame.length → a ≠ buf + BitVec.ofNat 64 k) → Memory.read out.2 a = Memory.read m a)
          ∧ Field.test L.own w2 = false ∧ Field.get L.len w2 = len.zeroExtend 32
          ∧ (∀ f ∈ [L.irq, L.wrap], Field.get f w2 = Field.get f w)
          ∧ e.intSource = (if Field.test L.irq w then d.intSource ||| L.rxPendingMask else d.intSource)
          ∧ e.rxPos = (if Field.test L.wrap w then 0 else d.rxPos + 1))
      ∧ (macRxOn L d = false ∨ Field.test L.own w = false → out = (d, m))

/-- R90, R91: a command written to the idle engine starts a transaction that latches the address and the data, and the busy
flag reads 1 from then until it completes; a write of 0 starts nothing and aborts nothing. That a command with both bits set
starts a write is the model's choice (log entry 13, DESIGN CHOICE): R90 leaves it open, and the block never gives one. -/
def Obligations.MiiEngineContract : Prop :=
  ∀ (c : Cfg) (d : Device) (v : Word),
    let L := c.layout
    let e := d.put c (.reg .miiCommand) v
    (Field.test L.busy (d.get L (.reg .miiStatus)) = d.mii.isSome)
      ∧ (d.mii = none → Field.test L.wctrldata v = true → ∃ x, e.mii = some x ∧ x.dir = .write
        ∧ x.phy.toNat = (Field.get L.fiad d.miiAddress).toNat % 32 ∧ x.reg.toNat = (Field.get L.rgad d.miiAddress).toNat % 32
        ∧ x.data.toNat = (Field.get L.ctrldata d.miiTxData).toNat)
      ∧ (d.mii = none → Field.test L.wctrldata v = false → Field.test L.rstat v = true → ∃ x, e.mii = some x
        ∧ x.dir = .read ∧ x.phy.toNat = (Field.get L.fiad d.miiAddress).toNat % 32
        ∧ x.reg.toNat = (Field.get L.rgad d.miiAddress).toNat % 32)
      ∧ (v = 0 → e.mii = d.mii)
      ∧ ∀ other, (d.miiFinish c other).mii = none

/-! ## Rules of the whole machine -/

/-- R31: which operation writes which working register; and that each ends with its result, but for a pass that goes on (R278),
which in each step writes `RXC` and, when it ends, `RESULT`. -/
def Obligations.WorkingRegisterTable : Prop :=
  (∀ (i : Instr) (s t : State), exec i s = .next t →
    (t.trace.head? = some (.result t.blk.result) ∨ (i = .dispatch ∧ t.pass ≠ none ∧ t.blk.result = s.blk.result))
      ∧ (t.blk.txc = s.blk.txc ∨ ∃ len src, i = .transmit len src)
      ∧ (t.blk.rxc = s.blk.rxc ∨ i = .dispatch ∨ ∃ n dst, i = .receive n dst)
      ∧ ((t.blk.rt = s.blk.rt ∧ t.blk.lt = s.blk.lt ∧ t.blk.md = s.blk.md ∧ t.blk.pc = s.blk.pc) ∨ i = .bringup)
      ∧ (t.blk.err = s.blk.err ∨ i = .ringInit ∨ i = .bringup ∨ ∃ k a, i = .setupTxSlot k a ∨ i = .setupRxSlot k a)
      ∧ (t.blk.flg.rings = s.blk.flg.rings ∨ i = .ringInit)
      ∧ (t.blk.flg.run = s.blk.flg.run ∨ i = .macEnable)
      ∧ (t.blk.flg.macaddr = s.blk.flg.macaddr ∨ i = .macAddrWrite))
    ∧ ∀ s t : State, s.pass ≠ none → step s = .next t →
      t.blk = { s.blk with rxc := t.blk.rxc, result := t.blk.result }
        ∧ (t.blk.result = s.blk.result ∨ (t.pass = none ∧ t.trace.head? = some (.result t.blk.result)))

/-- R64, R110: no operation changes the configuration or what the host is going to do, and every operation adds to what has
been observed and takes nothing back; nor does a pass that goes on (R278). Only `DISPATCH` begins or ends such a pass. -/
def Obligations.ConfigurationAndHostUntouched : Prop :=
  ∀ s t : State, ((∃ i, exec i s = .next t) ∨ (s.pass ≠ none ∧ step s = .next t)) →
    t.cfg = s.cfg ∧ (∀ i, exec i s = .next t → i = .dispatch ∨ t.pass = s.pass)
      ∧ t.env.host = s.env.host ∧ t.env.miiCompletes = s.env.miiCompletes ∧ t.env.rxEndless = s.env.rxEndless
      ∧ t.env.schedule <:+ s.env.schedule ∧ s.trace <:+ t.trace

/-- R35, R73: every register access, of an operation and of any step, is a whole aligned word of the register block. -/
def Obligations.RegisterAccessesAligned : Prop :=
  ∀ s t : State, BlockSafe s.cfg s.blk → (∃ i, exec i s = .next t) ∨ step s = .next t →
    ∃ evs, t.trace = evs ++ s.trace ∧ ∀ e ∈ evs, accessAligned s.cfg e

/-- The invariant of the whole machine between operations is kept by every step: the ranges and phases of the working
registers, the single wrap flag (R52), the buffer pointers (R53), and the MAC enabled exactly when the block runs. -/
def Obligations.SafeKeptByStep : Prop := ∀ s t : State, Safe s → step s = .next t → Safe t

/-- The start state meets the invariant. -/
def Obligations.SafeAtReset : Prop := Safe State.reset

/-- R217: the TX ring invariant is kept by every step. It leans on log entry 14 (DEDUCED), as R217 does on R96. -/
def Obligations.TxRingOrderKeptByStep : Prop :=
  ∀ s t : State, Safe s → TxRingOrdered s → step s = .next t → TxRingOrdered t

/-- R224: the RX ring invariant is kept by every step in which the host keeps its duty. It leans on log entry 14 (DEDUCED), as
R224 does on R99. -/
def Obligations.RxRingOrderKeptByStep : Prop :=
  ∀ s t : State, Safe s → RxRingOrdered s →
    (∀ w rest i, s.env.host = .command w :: rest → decode w = .ok i → dutyKept i s) →
    step s = .next t → RxRingOrdered t

/-- Memory and every store of the device keep their canonical form, so that equal contents are equal data; the start state has
it. The form is the model's choice (log entry 9). -/
def Obligations.StoresStayCanonical : Prop :=
  StoresCanonical State.reset ∧ ∀ s t : State, StoresCanonical s → step s = .next t → StoresCanonical t
end

