-- ==== Sys2Proof/Laws/Config.lean ====
section
/-! SUPPORT. What the well-formedness of a `Cfg` says, one fact a lemma. -/

namespace Sys2Proof

namespace Cfg

variable (c : Cfg)

theorem wf_parts : c.rangesOk = true ∧ c.basesOk = true ∧ c.layout.aligned = true ∧ c.layout.disjoint c.nTx c.nRx = true
    ∧ c.layout.below c.nTx c.nRx c.mmioSize = true ∧ c.layout.fieldsOk = true ∧ c.layout.phyOk = true := by
  have h := c.ok
  simp only [CfgData.wf, Bool.and_eq_true] at h
  obtain ⟨⟨⟨⟨⟨⟨⟨h1, h2⟩, h3⟩, h4⟩, h5⟩, h6⟩, h7⟩, -⟩ := h
  exact ⟨h1, h2, h3, h4, h5, h6, h7⟩

/-- The ranges of R7. -/
theorem ranges : (1 ≤ c.nTx ∧ c.nTx ≤ 2 ^ 24 - 1) ∧ (1 ≤ c.nRx ∧ c.nRx ≤ 2 ^ 24 - 1)
    ∧ (1 ≤ c.slotSize ∧ c.slotSize ≤ 65535 ∧ c.slotSize % 4 = 0)
    ∧ (1 ≤ c.resetRetries ∧ c.resetRetries < 2 ^ 32) ∧ (1 ≤ c.linkRetries ∧ c.linkRetries < 2 ^ 32) := by
  have h := c.wf_parts.1
  simp only [CfgData.rangesOk, Bool.and_eq_true, decide_eq_true_eq, beq_iff_eq] at h
  obtain ⟨⟨⟨⟨⟨⟨⟨⟨⟨⟨h1, h2⟩, h3⟩, h4⟩, h5⟩, h6⟩, h7⟩, h8⟩, h9⟩, h10⟩, h11⟩ := h
  exact ⟨⟨h1, h2⟩, ⟨h3, h4⟩, ⟨h5, h6, h7⟩, ⟨h8, h9⟩, ⟨h10, h11⟩⟩

/-- The one-bit fields are one bit wide and lie in a 32-bit word (R9, R10). -/
theorem bitField_ok {f : Field} (h : f ∈ c.layout.bitFields) : f.width = 1 ∧ f.lo + 1 ≤ 32 := by
  have hf := c.wf_parts.2.2.2.2.2.1
  simp only [Layout.fieldsOk, Bool.and_eq_true, List.all_eq_true] at hf
  have := hf.1.1.1.1.1.1.1.1.1.1 f h
  simp only [Bool.and_eq_true, beq_iff_eq, Field.inside, decide_eq_true_eq] at this
  omega

theorem own_ok : c.layout.own.width = 1 ∧ c.layout.own.lo + 1 ≤ 32 := c.bitField_ok (by simp [Layout.bitFields])
theorem irq_ok : c.layout.irq.width = 1 ∧ c.layout.irq.lo + 1 ≤ 32 := c.bitField_ok (by simp [Layout.bitFields])
theorem wrap_ok : c.layout.wrap.width = 1 ∧ c.layout.wrap.lo + 1 ≤ 32 := c.bitField_ok (by simp [Layout.bitFields])
theorem pad_ok : c.layout.pad.width = 1 ∧ c.layout.pad.lo + 1 ≤ 32 := c.bitField_ok (by simp [Layout.bitFields])
theorem crc_ok : c.layout.crc.width = 1 ∧ c.layout.crc.lo + 1 ≤ 32 := c.bitField_ok (by simp [Layout.bitFields])
theorem busy_ok : c.layout.busy.width = 1 ∧ c.layout.busy.lo + 1 ≤ 32 := c.bitField_ok (by simp [Layout.bitFields])
theorem txen_ok : c.layout.txen.width = 1 ∧ c.layout.txen.lo + 1 ≤ 32 := c.bitField_ok (by simp [Layout.bitFields])
theorem rxen_ok : c.layout.rxen.width = 1 ∧ c.layout.rxen.lo + 1 ≤ 32 := c.bitField_ok (by simp [Layout.bitFields])
theorem rstat_ok : c.layout.rstat.width = 1 ∧ c.layout.rstat.lo + 1 ≤ 32 := c.bitField_ok (by simp [Layout.bitFields])
theorem wctrldata_ok : c.layout.wctrldata.width = 1 ∧ c.layout.wctrldata.lo + 1 ≤ 32 :=
  c.bitField_ok (by simp [Layout.bitFields])

theorem len_ok : c.layout.len.width = 16 ∧ c.layout.len.lo + 16 ≤ 32 := by
  have hf := c.wf_parts.2.2.2.2.2.1
  simp only [Layout.fieldsOk, Bool.and_eq_true, List.all_eq_true, beq_iff_eq] at hf
  have h1 := hf.1.1.1.1.1.1.1.1.1.2 c.layout.len (by simp)
  simp only [Field.inside, Bool.and_eq_true, decide_eq_true_eq] at h1
  have h2 := hf.1.1.1.1.2
  omega

theorem prsd_ok : c.layout.prsd.width = 16 ∧ c.layout.prsd.lo + 16 ≤ 32 := by
  have hf := c.wf_parts.2.2.2.2.2.1
  simp only [Layout.fieldsOk, Bool.and_eq_true, List.all_eq_true, beq_iff_eq] at hf
  have h1 := hf.1.1.1.1.1.1.1.1.1.2 c.layout.prsd (by simp)
  simp only [Field.inside, Bool.and_eq_true, decide_eq_true_eq] at h1
  have h2 := hf.1.1.2
  omega

theorem ctrldata_ok : c.layout.ctrldata.width = 16 ∧ c.layout.ctrldata.lo + 16 ≤ 32 := by
  have hf := c.wf_parts.2.2.2.2.2.1
  simp only [Layout.fieldsOk, Bool.and_eq_true, List.all_eq_true, beq_iff_eq] at hf
  have h1 := hf.1.1.1.1.1.1.1.1.1.2 c.layout.ctrldata (by simp)
  simp only [Field.inside, Bool.and_eq_true, decide_eq_true_eq] at h1
  have h2 := hf.1.1.1.2
  omega

/-- The fields of descriptor word 0 are pairwise apart (R9). -/
theorem desc_apart : Field.allApart c.layout.descFields = true := by
  have hf := c.wf_parts.2.2.2.2.2.1
  simp only [Layout.fieldsOk, Bool.and_eq_true] at hf
  exact hf.1.1.1.1.1.2

/-- `RXEN` and `TXEN` are apart, and so are the two command bits (R9). -/
theorem enables_apart : c.layout.rxen.apart c.layout.txen = true ∧ c.layout.rstat.apart c.layout.wctrldata = true := by
  have hf := c.wf_parts.2.2.2.2.2.1
  simp only [Layout.fieldsOk, Bool.and_eq_true, Field.allApart, List.all_cons, List.all_nil, Bool.and_true] at hf
  exact ⟨hf.1.1.1.1.1.1.1.1.2, hf.1.1.1.1.1.1.1.2⟩

/-- `FIAD` and `RGAD` are apart, lie in a 32-bit word, and hold 5 bits (R9, R55). -/
theorem miiAddress_ok : c.layout.fiad.apart c.layout.rgad = true
    ∧ (5 ≤ c.layout.fiad.width ∧ c.layout.fiad.lo + c.layout.fiad.width ≤ 32)
    ∧ (5 ≤ c.layout.rgad.width ∧ c.layout.rgad.lo + c.layout.rgad.width ≤ 32) := by
  have hf := c.wf_parts.2.2.2.2.2.1
  simp only [Layout.fieldsOk, Bool.and_eq_true, List.all_eq_true, decide_eq_true_eq] at hf
  have h1 := hf.1.1.1.1.1.1.1.1.1.2 c.layout.fiad (by simp)
  have h2 := hf.1.1.1.1.1.1.1.1.1.2 c.layout.rgad (by simp)
  have h3 := hf.1.1.1.1.1.1.2
  have h4 := hf.1.2
  have h5 := hf.2
  simp only [Field.inside, Bool.and_eq_true, decide_eq_true_eq] at h1 h2
  simp only [Field.allApart, List.all_cons, List.all_nil, Bool.and_true] at h3
  exact ⟨h3, ⟨h4, h1.2⟩, ⟨h5, h2.2⟩⟩

/-- The two PHY bits are single bits of a 16-bit register, and `PHY_RESET_CMD` sets its own (R161). -/
theorem phyBits_ok : (c.layout.phyReset.width = 1 ∧ c.layout.phyReset.lo + 1 ≤ 16)
    ∧ (c.layout.phyLink.width = 1 ∧ c.layout.phyLink.lo + 1 ≤ 16)
    ∧ c.layout.phyResetCmd.getLsbD c.layout.phyReset.lo = true := by
  have hp := c.wf_parts.2.2.2.2.2.2
  simp only [Layout.phyOk, Bool.and_eq_true, List.all_eq_true, beq_iff_eq] at hp
  have h1 := hp.1.1 c.layout.phyReset (by simp)
  have h2 := hp.1.1 c.layout.phyLink (by simp)
  simp only [Field.inside, Bool.and_eq_true, decide_eq_true_eq] at h1 h2
  exact ⟨⟨h1.2, by omega⟩, ⟨h2.2, by omega⟩, hp.1.2⟩

/-- The two PHY bits share no bit of one register (R9). -/
theorem phyBits_apart (h : c.layout.phyRegCtrl = c.layout.phyRegStatus) :
    c.layout.phyReset.apart c.layout.phyLink = true := by
  have hp := c.wf_parts.2.2.2.2.2.2
  simp only [Layout.phyOk, Bool.and_eq_true, h, bne_self_eq_false, Bool.false_or] at hp
  exact hp.2

/-- Every offset that the block uses is one of 32 bits (R226). -/
theorem offsets_below : c.layout.below c.nTx c.nRx (2 ^ 32) = true := by
  have h := c.ok
  simp only [CfgData.wf, Bool.and_eq_true] at h
  exact h.2

end Cfg

end Sys2Proof
end

