-- ==== Sys2Proof/Laws/Fields.lean ====
section
/-! SUPPORT. Bit fields, bit by bit, and ring arithmetic. -/

namespace Sys2Proof.Machine

theorem Field.mask_getLsbD (n : Nat) (f : Field) (i : Nat) :
    (Field.mask n f).getLsbD i = (decide (i < f.width) && decide (i < n)) := by
  simp only [Field.mask, BitVec.getLsbD_ofNat, Nat.testBit_two_pow_sub_one]
  exact Bool.and_comm _ _

/-- `get(v, F)`, bit by bit. -/
theorem Field.get_getLsbD {n : Nat} (f : Field) (v : BitVec n) (i : Nat) :
    (Field.get f v).getLsbD i = (decide (i < f.width) && v.getLsbD (f.lo + i)) := by
  simp only [Field.get, BitVec.getLsbD_and, BitVec.getLsbD_ushiftRight, Field.mask_getLsbD]
  by_cases h : i < n
  · simp [h, Bool.and_comm]
  · have : v.getLsbD (f.lo + i) = false := BitVec.getLsbD_of_ge _ _ (by omega)
    simp [h, this]

/-- `set(v, F, x)`, bit by bit. -/
theorem Field.set_getLsbD {n : Nat} (f : Field) (v x : BitVec n) (i : Nat) (h : i < n) :
    (Field.set f v x).getLsbD i
      = if f.lo ≤ i ∧ i < f.lo + f.width then x.getLsbD (i - f.lo) else v.getLsbD i := by
  simp only [Field.set, BitVec.getLsbD_or, BitVec.getLsbD_and, BitVec.getLsbD_not, BitVec.getLsbD_shiftLeft,
    Field.mask_getLsbD, h]
  by_cases h1 : f.lo ≤ i
  · by_cases h2 : i < f.lo + f.width
    · have : i - f.lo < f.width := by omega
      have h4 : i - f.lo < n := by omega
      simp [h1, h2, this, h4, show ¬ i < f.lo by omega]
    · have : ¬ i - f.lo < f.width := by omega
      simp [h2, this]
  · simp [h1, show i < f.lo by omega]

/-- A one-bit field is tested at its bit. -/
theorem Field.test_eq {n : Nat} (f : Field) (v : BitVec n) (hw : f.width = 1) (hn : 0 < n) :
    Field.test f v = v.getLsbD f.lo := by
  have key : Field.get f v = 1#n ↔ v.getLsbD f.lo = true := by
    constructor
    · intro e
      have := congrArg (fun b => BitVec.getLsbD b 0) e
      simp only [Field.get_getLsbD, hw, BitVec.getLsbD_one, hn] at this
      simpa using this
    · intro e
      apply BitVec.eq_of_getLsbD_eq
      intro i hi
      rw [Field.get_getLsbD, BitVec.getLsbD_one, hw]
      by_cases h0 : i = 0
      · subst h0; simp [e, hn]
      · simp [h0, show ¬ i < 1 by omega]
  unfold Field.test
  by_cases h : v.getLsbD f.lo = true
  · simp [key.2 h, h]
  · have : ¬ Field.get f v = 1#n := fun e => h (key.1 e)
    simp [this]; simpa using h

/-- Setting a one-bit field and testing it. -/
theorem Field.test_set_self {n : Nat} (f : Field) (v x : BitVec n) (hw : f.width = 1) (hn : f.lo + 1 ≤ n) :
    Field.test f (Field.set f v x) = x.getLsbD 0 := by
  rw [Field.test_eq f _ hw (by omega), Field.set_getLsbD f v x f.lo (by omega)]
  simp [hw]

/-- Setting a field leaves a one-bit field outside it as it was. -/
theorem Field.test_set_apart {n : Nat} (f g : Field) (v x : BitVec n) (hw : f.width = 1) (hn : f.lo + 1 ≤ n)
    (h : Field.apart f g = true) : Field.test f (Field.set g v x) = Field.test f v := by
  simp only [Field.apart, Bool.or_eq_true, decide_eq_true_eq] at h
  rw [Field.test_eq f _ hw (by omega), Field.test_eq f _ hw (by omega), Field.set_getLsbD g v x f.lo (by omega)]
  rw [if_neg]; omega

theorem Field.apart_comm (f g : Field) : Field.apart f g = Field.apart g f := by
  simp only [Field.apart]; exact Bool.or_comm _ _

@[simp] theorem Field.bit_getLsbD (n : Nat) (f : Field) (i : Nat) (h : i < n) :
    (Field.bit n f).getLsbD i = decide (i = f.lo) := by
  simp only [Field.bit, BitVec.getLsbD_shiftLeft, BitVec.getLsbD_one, h]
  by_cases h1 : i = f.lo
  · subst h1; simp; omega
  · by_cases h2 : i < f.lo
    · simp [h1, h2]
    · simp [h1, h2]; omega

/-- `bit(F)` has its own bit set. -/
theorem Field.test_bit_self {n : Nat} (f : Field) (hw : f.width = 1) (hn : f.lo + 1 ≤ n) :
    Field.test f (Field.bit n f) = true := by
  rw [Field.test_eq f _ hw (by omega), Field.bit_getLsbD n f f.lo (by omega)]; simp

/-- `bit(F)` has no bit of another field set. -/
theorem Field.test_bit_apart {n : Nat} (f g : Field) (hf : f.width = 1) (hg : g.width = 1) (hn : f.lo + 1 ≤ n)
    (h : Field.apart f g = true) : Field.test f (Field.bit n g) = false := by
  simp only [Field.apart, Bool.or_eq_true, decide_eq_true_eq] at h
  rw [Field.test_eq f _ hf (by omega), Field.bit_getLsbD n g f.lo (by omega)]
  simp; omega

theorem Field.test_or {n : Nat} (f : Field) (v x : BitVec n) (hw : f.width = 1) (hn : f.lo + 1 ≤ n) :
    Field.test f (v ||| x) = (Field.test f v || Field.test f x) := by
  rw [Field.test_eq f _ hw (by omega), Field.test_eq f _ hw (by omega), Field.test_eq f _ hw (by omega)]
  simp

@[simp] theorem Field.test_zero {n : Nat} (f : Field) (hw : f.width = 1) (hn : 0 < n) :
    Field.test f (0 : BitVec n) = false := by
  rw [Field.test_eq f _ hw hn]; simp

/-- The value of a set field, cut to its width. -/
theorem Field.get_set_self {n : Nat} (f : Field) (v x : BitVec n) (hn : f.lo + f.width ≤ n) :
    Field.get f (Field.set f v x) = x &&& Field.mask n f := by
  apply BitVec.eq_of_getLsbD_eq
  intro i hi
  rw [Field.get_getLsbD, BitVec.getLsbD_and, Field.mask_getLsbD]
  by_cases h : i < f.width
  · rw [Field.set_getLsbD f v x _ (by omega)]
    simp [h, hi]
  · simp [h]

/-! ## Ring arithmetic -/

/-- `next(c, N)` is below `N` (R11). -/
theorem ringNext_lt (c : BitVec 24) (n : Nat) (h : 1 ≤ n) (hn : n ≤ 2 ^ 24 - 1) : (ringNext c n).toNat < n := by
  have : (c.toNat + 1) % n < n := Nat.mod_lt _ h
  simp only [ringNext, BitVec.toNat_ofNat]
  rw [Nat.mod_eq_of_lt (by omega)]; exact this

theorem ringNext_toNat (c : BitVec 24) (n : Nat) (h : 1 ≤ n) (hn : n ≤ 2 ^ 24 - 1) :
    (ringNext c n).toNat = (c.toNat + 1) % n := by
  have : (c.toNat + 1) % n < n := Nat.mod_lt _ h
  simp only [ringNext, BitVec.toNat_ofNat]
  rw [Nat.mod_eq_of_lt (by omega)]

end Sys2Proof.Machine
end

