-- ==== Sys2Proof/Laws/Store.lean ====
section
/-! SUPPORT. Sparse stores and memory: read after write, and that an insertion keeps the canonical form. -/

namespace Sys2Proof.Machine

variable {α : Type}

@[simp] theorem Store.find?_insert_self (k : Nat) (v : α) (l : Store α) : Store.find? k (Store.insert k v l) = some v := by
  induction l with
  | nil => simp [Store.insert, Store.find?]
  | cons p l ih =>
    obtain ⟨k', v'⟩ := p
    simp only [Store.insert]
    split
    · simp [Store.find?]
    · split
      · simp [Store.find?]
      · rename_i h
        simp [Store.find?, Ne.symm h, ih]

theorem Store.find?_insert_ne {k j : Nat} (h : j ≠ k) (v : α) (l : Store α) :
    Store.find? j (Store.insert k v l) = Store.find? j l := by
  induction l with
  | nil => simp [Store.insert, Store.find?, Ne.symm h]
  | cons p l ih =>
    obtain ⟨k', v'⟩ := p
    simp only [Store.insert]
    split
    · simp [Store.find?, Ne.symm h]
    · split
      · rename_i h1; subst h1; simp [Store.find?, Ne.symm h]
      · simp [Store.find?, ih]

theorem Store.risingFrom_insert {m k : Nat} (v : α) (l : Store α) (hm : m < k) (hl : Store.risingFrom m l = true) :
    Store.risingFrom m (Store.insert k v l) = true := by
  induction l generalizing m with
  | nil => simp [Store.insert, Store.risingFrom, hm]
  | cons p l ih =>
    obtain ⟨k', v'⟩ := p
    simp only [Store.risingFrom, Bool.and_eq_true, decide_eq_true_eq] at hl
    simp only [Store.insert]
    split
    · simp [Store.risingFrom, *]
    · split
      · rename_i h; subst h; simp [Store.risingFrom, hl]
      · simp only [Store.risingFrom, Bool.and_eq_true, decide_eq_true_eq]
        exact ⟨hl.1, ih (by omega) hl.2⟩

/-- An insertion keeps the numbers strictly rising. -/
theorem Store.wf_insert (k : Nat) (v : α) (l : Store α) (h : Store.wf l = true) :
    Store.wf (Store.insert k v l) = true := by
  cases l with
  | nil => simp [Store.insert, Store.wf, Store.risingFrom]
  | cons p l =>
    obtain ⟨k', v'⟩ := p
    simp only [Store.wf] at h
    simp only [Store.insert]
    split
    · simp [Store.wf, Store.risingFrom, *]
    · split
      · rename_i h1; subst h1; simpa [Store.wf] using h
      · exact Store.risingFrom_insert v l (by omega) h

theorem Store.all_insert {p : Nat × α → Bool} (k : Nat) (v : α) (l : Store α) (hl : l.all p = true) (hk : p (k, v) = true) :
    (Store.insert k v l).all p = true := by
  induction l with
  | nil => simp [Store.insert, hk]
  | cons q l ih =>
    obtain ⟨k', v'⟩ := q
    simp only [List.all_cons, Bool.and_eq_true] at hl
    simp only [Store.insert]
    split
    · simp [hk, hl]
    · split
      · simp [hk, hl]
      · simp [hl, ih hl.2]

/-! ## Memory -/

@[simp] theorem Memory.read_write_self (a : Addr) (b : Byte) (m : Memory) : Memory.read (Memory.write a b m) a = b := by
  simp [Memory.read, Memory.write]

theorem Memory.read_write_ne {a a' : Addr} (h : a' ≠ a) (b : Byte) (m : Memory) :
    Memory.read (Memory.write a b m) a' = Memory.read m a' := by
  have : a'.toNat ≠ a.toNat := fun e => h (BitVec.eq_of_toNat_eq e)
  simp [Memory.read, Memory.write, Store.find?_insert_ne this]

theorem Memory.read_write (a a' : Addr) (b : Byte) (m : Memory) :
    Memory.read (Memory.write a b m) a' = if a' = a then b else Memory.read m a' := by
  split
  · rename_i h; subst h; simp
  · rename_i h; exact Memory.read_write_ne h b m

/-- A write keeps memory's canonical form. -/
theorem Memory.wf_write (a : Addr) (b : Byte) (m : Memory) (h : Memory.wf m = true) : Memory.wf (Memory.write a b m) = true := by
  simp only [Memory.wf, Bool.and_eq_true] at h ⊢
  exact ⟨Store.wf_insert _ _ _ h.1, Store.all_insert _ _ _ h.2 (by simpa using a.isLt)⟩

end Sys2Proof.Machine
end

