-- ==== Sys2Proof/Laws/Agents.lean ====
section
/-! SUPPORT. The device-side agents: descriptor reads after writes, and what an agent's step can change. -/

namespace Sys2Proof.Machine

/-! ## Descriptor words -/

@[simp] theorem Device.desc_setDesc_self (d : Device) (r : Ring) (w : DescWord) (i : Nat) (v : Word) :
    (d.setDesc r w i v).desc r w i = v := by
  cases r <;> cases w <;> simp [Device.desc, Device.setDesc]

theorem Device.desc_setDesc_slot (d : Device) (r : Ring) (w : DescWord) {i j : Nat} (h : j ≠ i) (v : Word) :
    (d.setDesc r w i v).desc r w j = d.desc r w j := by
  cases r <;> cases w <;> simp [Device.desc, Device.setDesc, Store.find?_insert_ne h]

theorem Device.desc_setDesc_word (d : Device) {r r' : Ring} {w w' : DescWord} (h : ¬ (r' = r ∧ w' = w)) (i j : Nat)
    (v : Word) : (d.setDesc r w i v).desc r' w' j = d.desc r' w' j := by
  cases r <;> cases r' <;> cases w <;> cases w' <;> first | exact absurd ⟨rfl, rfl⟩ h | rfl

/-- A descriptor word after a descriptor write. -/
theorem Device.desc_setDesc (d : Device) (r r' : Ring) (w w' : DescWord) (i j : Nat) (v : Word) :
    (d.setDesc r w i v).desc r' w' j = if r' = r ∧ w' = w ∧ j = i then v else d.desc r' w' j := by
  split
  · rename_i h; obtain ⟨rfl, rfl, rfl⟩ := h; simp
  · rename_i h
    by_cases h1 : r' = r ∧ w' = w
    · obtain ⟨rfl, rfl⟩ := h1
      exact d.desc_setDesc_slot _ _ (fun e => h ⟨rfl, rfl, e⟩) v
    · exact d.desc_setDesc_word h1 i j v

section SetDesc
variable (d : Device) (r : Ring) (w : DescWord) (i : Nat) (v : Word)
@[simp] theorem Device.setDesc_moder : (d.setDesc r w i v).moder = d.moder := by cases r <;> cases w <;> rfl
@[simp] theorem Device.setDesc_intSource : (d.setDesc r w i v).intSource = d.intSource := by cases r <;> cases w <;> rfl
@[simp] theorem Device.setDesc_intMask : (d.setDesc r w i v).intMask = d.intMask := by cases r <;> cases w <;> rfl
@[simp] theorem Device.setDesc_miiCommand : (d.setDesc r w i v).miiCommand = d.miiCommand := by cases r <;> cases w <;> rfl
@[simp] theorem Device.setDesc_miiAddress : (d.setDesc r w i v).miiAddress = d.miiAddress := by cases r <;> cases w <;> rfl
@[simp] theorem Device.setDesc_miiTxData : (d.setDesc r w i v).miiTxData = d.miiTxData := by cases r <;> cases w <;> rfl
@[simp] theorem Device.setDesc_miiRxData : (d.setDesc r w i v).miiRxData = d.miiRxData := by cases r <;> cases w <;> rfl
@[simp] theorem Device.setDesc_miiStatusOther : (d.setDesc r w i v).miiStatusOther = d.miiStatusOther := by
  cases r <;> cases w <;> rfl
@[simp] theorem Device.setDesc_macAddr0 : (d.setDesc r w i v).macAddr0 = d.macAddr0 := by cases r <;> cases w <;> rfl
@[simp] theorem Device.setDesc_macAddr1 : (d.setDesc r w i v).macAddr1 = d.macAddr1 := by cases r <;> cases w <;> rfl
@[simp] theorem Device.setDesc_mii : (d.setDesc r w i v).mii = d.mii := by cases r <;> cases w <;> rfl
@[simp] theorem Device.setDesc_phy : (d.setDesc r w i v).phy = d.phy := by cases r <;> cases w <;> rfl
@[simp] theorem Device.setDesc_phySim : (d.setDesc r w i v).phySim = d.phySim := by cases r <;> cases w <;> rfl
@[simp] theorem Device.setDesc_txPos : (d.setDesc r w i v).txPos = d.txPos := by cases r <;> cases w <;> rfl
@[simp] theorem Device.setDesc_rxPos : (d.setDesc r w i v).rxPos = d.rxPos := by cases r <;> cases w <;> rfl
@[simp] theorem Device.setDesc_txPointer : (d.setDesc r .control i v).txPointer = d.txPointer := by cases r <;> rfl
@[simp] theorem Device.setDesc_rxPointer : (d.setDesc r .control i v).rxPointer = d.rxPointer := by cases r <;> rfl
@[simp] theorem macTxOn_setDesc (L : Layout) : macTxOn L (d.setDesc r w i v) = macTxOn L d := by simp [macTxOn]
@[simp] theorem macRxOn_setDesc (L : Layout) : macRxOn L (d.setDesc r w i v) = macRxOn L d := by simp [macRxOn]
end SetDesc

/-! ## Bits outside a list of fields -/

theorem coveredBits_getLsbD (fs : List Field) (i : Nat) (h : i < 32) :
    (coveredBits fs).getLsbD i = fs.any (fun f => decide (f.lo ≤ i) && decide (i < f.lo + f.width)) := by
  induction fs with
  | nil => simp [coveredBits]
  | cons f fs ih =>
    have hs : (Field.mask 32 f <<< f.lo).getLsbD i = (decide (f.lo ≤ i) && decide (i < f.lo + f.width)) := by
      rw [BitVec.getLsbD_shiftLeft, Field.mask_getLsbD]
      by_cases h1 : f.lo ≤ i
      · have h2 : ¬ i < f.lo := by omega
        have h3 : i - f.lo < 32 := by omega
        have h4 : i - f.lo < f.width ↔ i < f.lo + f.width := by omega
        simp [h, h1, h2, h3, h4]
      · simp [h1, show i < f.lo by omega]
    have : coveredBits (f :: fs) = Field.mask 32 f <<< f.lo ||| coveredBits fs := rfl
    rw [this, BitVec.getLsbD_or, hs, ih]; rfl

/-- A one-bit field of the list keeps its value when the bits outside the list change. -/
theorem test_withOtherBits {fs : List Field} {f : Field} (hf : f ∈ fs) (hw : f.width = 1) (hl : f.lo + 1 ≤ 32)
    (v other : Word) : Field.test f (withOtherBits fs v other) = Field.test f v := by
  rw [Field.test_eq f _ hw (by omega), Field.test_eq f _ hw (by omega)]
  have hc : (coveredBits fs).getLsbD f.lo = true := by
    rw [coveredBits_getLsbD fs f.lo (by omega), List.any_eq_true]
    exact ⟨f, hf, by simp [hw]⟩
  simp [withOtherBits, hc]

/-- The value of a field of the list is kept too. -/
theorem get_withOtherBits {fs : List Field} {f : Field} (hf : f ∈ fs) (hl : f.lo + f.width ≤ 32) (v other : Word) :
    Field.get f (withOtherBits fs v other) = Field.get f v := by
  apply BitVec.eq_of_getLsbD_eq
  intro i hi
  rw [Field.get_getLsbD, Field.get_getLsbD]
  by_cases h : i < f.width
  · have hc : (coveredBits fs).getLsbD (f.lo + i) = true := by
      rw [coveredBits_getLsbD fs _ (by omega), List.any_eq_true]
      exact ⟨f, hf, by simp [h]⟩
    simp [withOtherBits, hc]
  · simp [h]

theorem pairwise_apart {fs : List Field} (h : Field.allApart fs = true) :
    fs.Pairwise (fun f g => f.apart g = true) := by
  induction fs with
  | nil => exact .nil
  | cons f fs ih =>
    simp only [Field.allApart, Bool.and_eq_true, List.all_eq_true] at h
    exact .cons h.1 (ih h.2)

/-! ## The two engines and word 0 -/

section Control
variable (c : Cfg)

theorem own_apart_wrap : c.layout.wrap.apart c.layout.own = true := by
  have := pairwise_apart c.desc_apart
  simp only [Layout.descFields, List.pairwise_cons, List.mem_cons] at this
  rw [Field.apart_comm]; exact this.2.1 _ (by simp)

theorem own_apart_irq : c.layout.irq.apart c.layout.own = true := by
  have := pairwise_apart c.desc_apart
  simp only [Layout.descFields, List.pairwise_cons, List.mem_cons] at this
  rw [Field.apart_comm]; exact this.2.1 _ (by simp)

theorem irq_apart_wrap : c.layout.wrap.apart c.layout.irq = true := by
  have := pairwise_apart c.desc_apart
  simp only [Layout.descFields, List.pairwise_cons, List.mem_cons] at this
  rw [Field.apart_comm]; exact this.2.2.1 _ (by simp)

theorem wrap_apart_len : c.layout.wrap.apart c.layout.len = true := by
  have := pairwise_apart c.desc_apart
  simp only [Layout.descFields, List.pairwise_cons, List.mem_cons] at this
  rw [Field.apart_comm]; exact this.1 _ (by simp)

theorem irq_apart_len : c.layout.irq.apart c.layout.len = true := by
  have := pairwise_apart c.desc_apart
  simp only [Layout.descFields, List.pairwise_cons, List.mem_cons] at this
  rw [Field.apart_comm]; exact this.1 _ (by simp)

theorem own_apart_len : c.layout.own.apart c.layout.len = true := by
  have := pairwise_apart c.desc_apart
  simp only [Layout.descFields, List.pairwise_cons, List.mem_cons] at this
  rw [Field.apart_comm]; exact this.1 _ (by simp)

theorem wrap_apart_pad : c.layout.wrap.apart c.layout.pad = true := by
  have := pairwise_apart c.desc_apart
  simp only [Layout.descFields, List.pairwise_cons, List.mem_cons] at this
  exact this.2.2.2.1 _ (by simp)

theorem wrap_apart_crc : c.layout.wrap.apart c.layout.crc = true := by
  have := pairwise_apart c.desc_apart
  simp only [Layout.descFields, List.pairwise_cons, List.mem_cons] at this
  exact this.2.2.2.1 _ (by simp)

variable (w other : Word) (len : Half)

@[simp] theorem own_consumedControl : Field.test c.layout.own (consumedControl c.layout w other) = false := by
  have ⟨hw, hl⟩ := c.own_ok
  rw [consumedControl, test_withOtherBits (by simp [controlFields]) hw hl, Field.test_set_self _ _ _ hw hl]; simp

@[simp] theorem wrap_consumedControl :
    Field.test c.layout.wrap (consumedControl c.layout w other) = Field.test c.layout.wrap w := by
  have ⟨hw, hl⟩ := c.wrap_ok
  rw [consumedControl, test_withOtherBits (by simp [controlFields]) hw hl,
    Field.test_set_apart _ _ _ _ hw hl (own_apart_wrap c)]

@[simp] theorem own_filledControl : Field.test c.layout.own (filledControl c.layout w len other) = false := by
  have ⟨hw, hl⟩ := c.own_ok
  rw [filledControl, test_withOtherBits (by simp [controlFields]) hw hl, Field.test_set_self _ _ _ hw hl]; simp

@[simp] theorem wrap_filledControl :
    Field.test c.layout.wrap (filledControl c.layout w len other) = Field.test c.layout.wrap w := by
  have ⟨hw, hl⟩ := c.wrap_ok
  rw [filledControl, test_withOtherBits (by simp [controlFields]) hw hl,
    Field.test_set_apart _ _ _ _ hw hl (own_apart_wrap c), Field.test_set_apart _ _ _ _ hw hl (wrap_apart_len c)]

end Control

/-! ## What the agents leave alone -/

theorem SameDriverRegs.refl (L : Layout) (d : Device) : SameDriverRegs L d d := ⟨rfl, rfl, rfl, rfl, rfl, rfl, rfl, rfl,
    rfl, rfl⟩

theorem SameDriverRegs.trans {L : Layout} {d e f : Device} (h : SameDriverRegs L d e) (g : SameDriverRegs L e f) :
    SameDriverRegs L d f :=
  ⟨g.1.trans h.1, g.2.trans h.2, g.3.trans h.3, g.4.trans h.4, g.5.trans h.5, g.6.trans h.6, g.7.trans h.7, g.8.trans h.8,
    g.9.trans h.9, g.10.trans h.10⟩

theorem SameRings.refl (d : Device) : SameRings d d := ⟨rfl, rfl, rfl, rfl, rfl, rfl⟩

theorem SameRings.trans {d e f : Device} (h : SameRings d e) (g : SameRings e f) : SameRings d f :=
  ⟨g.1.trans h.1, g.2.trans h.2, g.3.trans h.3, g.4.trans h.4, g.5.trans h.5, g.6.trans h.6⟩

theorem SameRings.desc {d e : Device} (h : SameRings d e) (r : Ring) (w : DescWord) (i : Nat) : e.desc r w i = d.desc r w i := by
  cases r <;> cases w <;> simp [Device.desc, h.1, h.2, h.3, h.4]

/-- The PHY side changes nothing but the PHY. -/
theorem Device.simReadCtrl_eq (c : Cfg) (p : PhySim) (d : Device) :
    ∃ phy sim, d.simReadCtrl c p = { d with phy := phy, phySim := sim } := by
  unfold Device.simReadCtrl
  simp only [Device.setPhyReg]
  split <;> exact ⟨_, _, rfl⟩

theorem Device.simRead_eq (c : Cfg) (p : PhySim) (d : Device) (reg : BitVec 5) :
    ∃ phy sim, d.simRead c p reg = { d with phy := phy, phySim := sim } := by
  obtain ⟨st, sim, h⟩ := d.simReadCtrl_eq c p
  have h1 : ∃ st sim, (if reg = c.layout.phyRegCtrl then d.simReadCtrl c p else d) = { d with phy := st, phySim := sim } := by
    split
    · exact ⟨st, sim, h⟩
    · exact ⟨d.phy, d.phySim, rfl⟩
  obtain ⟨st, sim, h1⟩ := h1
  simp only [Device.simRead, h1]
  split
  · exact ⟨_, _, rfl⟩
  · exact ⟨_, _, rfl⟩

/-- In a layout with two registers a read of the control register is that alone, and so for the status register (R103). -/
theorem Device.simRead_ctrl (c : Cfg) (p : PhySim) (d : Device) (h : c.layout.phyRegCtrl ≠ c.layout.phyRegStatus) :
    d.simRead c p c.layout.phyRegCtrl = d.simReadCtrl c p := by simp [Device.simRead, h]

theorem Device.simRead_status (c : Cfg) (p : PhySim) (d : Device) (h : c.layout.phyRegCtrl ≠ c.layout.phyRegStatus)
    (hp : d.phySim = some p) : d.simRead c p c.layout.phyRegStatus = d.simReadStatus c p := by
  simp [Device.simRead, h.symm, hp]

theorem Device.phyLoad_eq (c : Cfg) (d : Device) (phy reg : BitVec 5) :
    ∃ st sim, d.phyLoad c phy reg = { d with phy := st, phySim := sim } := by
  unfold Device.phyLoad
  split
  · exact ⟨d.phy, d.phySim, rfl⟩
  · split
    · exact d.simRead_eq c _ reg
    · exact ⟨d.phy, d.phySim, rfl⟩

theorem Device.phyStore_eq (c : Cfg) (d : Device) (phy reg : BitVec 5) (v : Half) :
    ∃ st sim, d.phyStore c phy reg v = { d with phy := st, phySim := sim } := by
  unfold Device.phyStore
  simp only [Device.setPhyReg]
  split
  · exact ⟨_, d.phySim, rfl⟩
  · split
    · exact ⟨_, _, rfl⟩
    · exact ⟨_, d.phySim, rfl⟩

/-- A completing MII engine changes its own registers and the PHY, nothing else. -/
theorem Device.miiFinish_eq (c : Cfg) (other : Word) (d : Device) :
    ∃ rx m st sim, d.miiFinish c other = { d with miiRxData := rx, mii := m, phy := st, phySim := sim } := by
  unfold Device.miiFinish
  split
  · exact ⟨d.miiRxData, d.mii, d.phy, d.phySim, rfl⟩
  · rename_i t _
    split
    · obtain ⟨st, sim, h⟩ := d.phyStore_eq c t.phy t.reg t.data
      rw [h]; exact ⟨d.miiRxData, none, st, sim, rfl⟩
    · obtain ⟨st, sim, h⟩ := d.phyLoad_eq c t.phy t.reg
      simp only [h]; exact ⟨_, none, st, sim, rfl⟩

theorem Device.miiFinish_sameDriverRegs (c : Cfg) (L : Layout) (other : Word) (d : Device) :
    SameDriverRegs L d (d.miiFinish c other) := by
  obtain ⟨rx, m, st, sim, h⟩ := d.miiFinish_eq c other
  rw [h]; exact ⟨rfl, rfl, rfl, rfl, rfl, rfl, rfl, rfl, rfl, rfl⟩

theorem Device.miiFinish_sameRings (c : Cfg) (other : Word) (d : Device) : SameRings d (d.miiFinish c other) := by
  obtain ⟨rx, m, st, sim, h⟩ := d.miiFinish_eq c other
  rw [h]; exact ⟨rfl, rfl, rfl, rfl, rfl, rfl⟩

/-- No agent's step changes what only the block writes. -/
theorem devAct_sameDriverRegs (c : Cfg) (a : DevAct) (d : Device) (m : Memory) :
    SameDriverRegs c.layout d (devAct c a d m).1 := by
  cases a with
  | miiComplete other => exact d.miiFinish_sameDriverRegs c _ other
  | miiStatusBits v => exact ⟨rfl, rfl, rfl, rfl, rfl, rfl, rfl, rfl, rfl, rfl⟩
  | phySet phy reg v => exact ⟨rfl, rfl, rfl, rfl, rfl, rfl, rfl, rfl, rfl, rfl⟩
  | moderBits v =>
    refine ⟨rfl, rfl, rfl, rfl, rfl, rfl, rfl, rfl, ?_, ?_⟩
    · exact test_withOtherBits (by simp) c.txen_ok.1 c.txen_ok.2 _ _
    · exact test_withOtherBits (by simp) c.rxen_ok.1 c.rxen_ok.2 _ _
  | intRaise v => exact ⟨rfl, rfl, rfl, rfl, rfl, rfl, rfl, rfl, rfl, rfl⟩
  | txConsume other =>
    simp only [devAct, Device.txConsume]
    split
    · refine ⟨by simp, by simp, by simp, by simp, by simp, by simp, by simp, by simp, ?_, ?_⟩ <;> simp [macTxOn, macRxOn]
    · exact .refl _ _
  | rxByte k b =>
    simp only [devAct]
    split <;> exact .refl _ _
  | rxFill frame len other =>
    simp only [devAct]
    split
    · simp only [Device.rxHandOver]
      refine ⟨by simp, by simp, by simp, by simp, by simp, by simp, by simp, by simp, ?_, ?_⟩ <;> simp [macTxOn, macRxOn]
    · exact .refl _ _

theorem devActs_sameDriverRegs (c : Cfg) (as : List DevAct) (d : Device) (m : Memory) :
    SameDriverRegs c.layout d (devActs c as d m).1 := by
  induction as generalizing d m with
  | nil => exact .refl _ _
  | cons a as ih => exact (devAct_sameDriverRegs c a d m).trans (ih _ _)

/-- With the MAC off, no agent's step changes the rings or memory. -/
theorem devAct_macOff (c : Cfg) (a : DevAct) (d : Device) (m : Memory) (ht : macTxOn c.layout d = false)
    (hr : macRxOn c.layout d = false) : SameRings d (devAct c a d m).1 ∧ (devAct c a d m).2 = m := by
  cases a with
  | miiComplete other => exact ⟨d.miiFinish_sameRings c other, rfl⟩
  | miiStatusBits v => exact ⟨⟨rfl, rfl, rfl, rfl, rfl, rfl⟩, rfl⟩
  | phySet phy reg v => exact ⟨⟨rfl, rfl, rfl, rfl, rfl, rfl⟩, rfl⟩
  | moderBits v => exact ⟨⟨rfl, rfl, rfl, rfl, rfl, rfl⟩, rfl⟩
  | intRaise v => exact ⟨⟨rfl, rfl, rfl, rfl, rfl, rfl⟩, rfl⟩
  | txConsume other => simp only [devAct, Device.txConsume, ht]; exact ⟨.refl _, trivial⟩
  | rxByte k b => simp only [devAct, Device.rxMayFill, hr]; exact ⟨.refl _, rfl⟩
  | rxFill frame len other => simp only [devAct, Device.rxMayFill, hr]; exact ⟨.refl _, rfl⟩

theorem devActs_macOff (c : Cfg) (as : List DevAct) (d : Device) (m : Memory) (ht : macTxOn c.layout d = false)
    (hr : macRxOn c.layout d = false) : SameRings d (devActs c as d m).1 ∧ (devActs c as d m).2 = m := by
  induction as generalizing d m with
  | nil => exact ⟨.refl _, rfl⟩
  | cons a as ih =>
    have h := devAct_macOff c a d m ht hr
    have k := devAct_sameDriverRegs c a d m
    have := ih (devAct c a d m).1 (devAct c a d m).2 (k.txOn.trans ht) (k.rxOn.trans hr)
    exact ⟨h.1.trans this.1, this.2.trans h.2⟩

/-- The engines never change a wrap flag, and never hand a slot to themselves. -/
theorem devAct_desc (c : Cfg) (a : DevAct) (d : Device) (m : Memory) (r : Ring) (i : Nat) :
    Field.test c.layout.wrap ((devAct c a d m).1.desc r .control i) = Field.test c.layout.wrap (d.desc r .control i) ∧
    (Field.test c.layout.own (d.desc r .control i) = false →
      (devAct c a d m).1.desc r .control i = d.desc r .control i) := by
  cases a with
  | miiComplete other => simp only [devAct, (d.miiFinish_sameRings c other).desc]; exact ⟨trivial, fun _ => trivial⟩
  | miiStatusBits v => exact ⟨rfl, fun _ => rfl⟩
  | phySet phy reg v => exact ⟨rfl, fun _ => rfl⟩
  | moderBits v => exact ⟨rfl, fun _ => rfl⟩
  | intRaise v => exact ⟨rfl, fun _ => rfl⟩
  | txConsume other =>
    simp only [devAct, Device.txConsume]
    split
    · rename_i h
      simp only [Bool.and_eq_true] at h
      have e : ∀ x y, Device.desc { d.setDesc .tx .control d.txPos (consumedControl c.layout (d.desc .tx .control d.txPos) other)
          with intSource := x, txPos := y } r .control i = (d.setDesc .tx .control d.txPos
            (consumedControl c.layout (d.desc .tx .control d.txPos) other)).desc r .control i := fun _ _ => by cases r <;> rfl
      simp only [e, Device.desc_setDesc]
      by_cases hk : r = .tx ∧ i = d.txPos
      · obtain ⟨rfl, rfl⟩ := hk
        simp [h.2]
      · simp [if_neg hk]
    · exact ⟨rfl, fun _ => rfl⟩
  | rxByte k b =>
    simp only [devAct]
    split <;> exact ⟨rfl, fun _ => rfl⟩
  | rxFill frame len other =>
    simp only [devAct]
    split
    · rename_i h
      simp only [Device.rxMayFill, Bool.and_eq_true] at h
      simp only [Device.rxHandOver]
      have e : ∀ x y, Device.desc { d.setDesc .rx .control d.rxPos (filledControl c.layout (d.desc .rx .control d.rxPos) len other)
          with intSource := x, rxPos := y } r .control i = (d.setDesc .rx .control d.rxPos
            (filledControl c.layout (d.desc .rx .control d.rxPos) len other)).desc r .control i := fun _ _ => by cases r <;> rfl
      simp only [e, Device.desc_setDesc]
      by_cases hk : r = .rx ∧ i = d.rxPos
      · obtain ⟨rfl, rfl⟩ := hk
        simp [h.2]
      · simp [if_neg hk]
    · exact ⟨rfl, fun _ => rfl⟩

theorem devActs_desc (c : Cfg) (as : List DevAct) (d : Device) (m : Memory) (r : Ring) (i : Nat) :
    Field.test c.layout.wrap ((devActs c as d m).1.desc r .control i) = Field.test c.layout.wrap (d.desc r .control i) ∧
    (Field.test c.layout.own (d.desc r .control i) = false →
      (devActs c as d m).1.desc r .control i = d.desc r .control i) := by
  induction as generalizing d m with
  | nil => exact ⟨rfl, fun _ => rfl⟩
  | cons a as ih =>
    have h := devAct_desc c a d m r i
    have k := ih (devAct c a d m).1 (devAct c a d m).2
    refine ⟨k.1.trans h.1, fun ho => ?_⟩
    have e := h.2 ho
    exact (k.2 (by rw [e]; exact ho)).trans e

/-! ## The canonical form -/

theorem Memory.wf_writeBytes (base : Addr) (k : Nat) (bs : List Byte) (m : Memory) (h : Memory.wf m = true) :
    Memory.wf (Memory.writeBytes base k bs m) = true := by
  induction bs generalizing k m with
  | nil => exact h
  | cons b bs ih => exact ih _ _ (Memory.wf_write _ _ _ h)

end Sys2Proof.Machine
end

