-- ==== Sys2Proof/Laws/State.lean ====
section
/-! SUPPORT. What each field is after each update of the state: one lemma per field per update, true by `rfl`. -/

namespace Sys2Proof.Machine

/-! ## `State.setBlk` -/

@[simp] theorem State.setBlk_cfg (b : Block) (s : State) : (s.setBlk b).cfg = s.cfg := rfl
@[simp] theorem State.setBlk_blk (b : Block) (s : State) : (s.setBlk b).blk = b := rfl
@[simp] theorem State.setBlk_dev (b : Block) (s : State) : (s.setBlk b).dev = s.dev := rfl
@[simp] theorem State.setBlk_mem (b : Block) (s : State) : (s.setBlk b).mem = s.mem := rfl
@[simp] theorem State.setBlk_env (b : Block) (s : State) : (s.setBlk b).env = s.env := rfl
@[simp] theorem State.setBlk_pass (b : Block) (s : State) : (s.setBlk b).pass = s.pass := rfl
@[simp] theorem State.setBlk_trace (b : Block) (s : State) : (s.setBlk b).trace = s.trace := rfl

/-! ## `State.setDev` -/

@[simp] theorem State.setDev_cfg (d : Device) (s : State) : (s.setDev d).cfg = s.cfg := rfl
@[simp] theorem State.setDev_blk (d : Device) (s : State) : (s.setDev d).blk = s.blk := rfl
@[simp] theorem State.setDev_dev (d : Device) (s : State) : (s.setDev d).dev = d := rfl
@[simp] theorem State.setDev_mem (d : Device) (s : State) : (s.setDev d).mem = s.mem := rfl
@[simp] theorem State.setDev_env (d : Device) (s : State) : (s.setDev d).env = s.env := rfl
@[simp] theorem State.setDev_pass (d : Device) (s : State) : (s.setDev d).pass = s.pass := rfl
@[simp] theorem State.setDev_trace (d : Device) (s : State) : (s.setDev d).trace = s.trace := rfl

/-! ## `State.setMem` -/

@[simp] theorem State.setMem_cfg (m : Memory) (s : State) : (s.setMem m).cfg = s.cfg := rfl
@[simp] theorem State.setMem_blk (m : Memory) (s : State) : (s.setMem m).blk = s.blk := rfl
@[simp] theorem State.setMem_dev (m : Memory) (s : State) : (s.setMem m).dev = s.dev := rfl
@[simp] theorem State.setMem_mem (m : Memory) (s : State) : (s.setMem m).mem = m := rfl
@[simp] theorem State.setMem_env (m : Memory) (s : State) : (s.setMem m).env = s.env := rfl
@[simp] theorem State.setMem_pass (m : Memory) (s : State) : (s.setMem m).pass = s.pass := rfl
@[simp] theorem State.setMem_trace (m : Memory) (s : State) : (s.setMem m).trace = s.trace := rfl

/-! ## `State.setEnv` -/

@[simp] theorem State.setEnv_cfg (e : Env) (s : State) : (s.setEnv e).cfg = s.cfg := rfl
@[simp] theorem State.setEnv_blk (e : Env) (s : State) : (s.setEnv e).blk = s.blk := rfl
@[simp] theorem State.setEnv_dev (e : Env) (s : State) : (s.setEnv e).dev = s.dev := rfl
@[simp] theorem State.setEnv_mem (e : Env) (s : State) : (s.setEnv e).mem = s.mem := rfl
@[simp] theorem State.setEnv_env (e : Env) (s : State) : (s.setEnv e).env = e := rfl
@[simp] theorem State.setEnv_pass (e : Env) (s : State) : (s.setEnv e).pass = s.pass := rfl
@[simp] theorem State.setEnv_trace (e : Env) (s : State) : (s.setEnv e).trace = s.trace := rfl

/-! ## `State.setPass` -/

@[simp] theorem State.setPass_cfg (p : Option Word) (s : State) : (s.setPass p).cfg = s.cfg := rfl
@[simp] theorem State.setPass_blk (p : Option Word) (s : State) : (s.setPass p).blk = s.blk := rfl
@[simp] theorem State.setPass_dev (p : Option Word) (s : State) : (s.setPass p).dev = s.dev := rfl
@[simp] theorem State.setPass_mem (p : Option Word) (s : State) : (s.setPass p).mem = s.mem := rfl
@[simp] theorem State.setPass_env (p : Option Word) (s : State) : (s.setPass p).env = s.env := rfl
@[simp] theorem State.setPass_pass (p : Option Word) (s : State) : (s.setPass p).pass = p := rfl
@[simp] theorem State.setPass_trace (p : Option Word) (s : State) : (s.setPass p).trace = s.trace := rfl

/-! ## `State.log` -/

@[simp] theorem State.log_cfg (e : Event) (s : State) : (s.log e).cfg = s.cfg := rfl
@[simp] theorem State.log_blk (e : Event) (s : State) : (s.log e).blk = s.blk := rfl
@[simp] theorem State.log_dev (e : Event) (s : State) : (s.log e).dev = s.dev := rfl
@[simp] theorem State.log_mem (e : Event) (s : State) : (s.log e).mem = s.mem := rfl
@[simp] theorem State.log_env (e : Event) (s : State) : (s.log e).env = s.env := rfl
@[simp] theorem State.log_pass (e : Event) (s : State) : (s.log e).pass = s.pass := rfl
@[simp] theorem State.log_trace (e : Event) (s : State) : (s.log e).trace = e :: s.trace := rfl

@[simp] theorem State.emit_eq_log (e : Event) (s : State) : s.emit e = s.tick.log e := rfl

@[simp] theorem State.delay_eq_log (us : Nat) (s : State) : s.delay us = s.tick.log (.delay us) := rfl

/-! ## `State.finish`, `State.blockReset` -/

@[simp] theorem State.finish_cfg (st : Status) (v : BitVec 48) (s : State) : (s.finish st v).cfg = s.cfg := rfl
@[simp] theorem State.finish_blk (st : Status) (v : BitVec 48) (s : State) : (s.finish st v).blk = { s.blk with result := resultWord st v } := rfl
@[simp] theorem State.finish_dev (st : Status) (v : BitVec 48) (s : State) : (s.finish st v).dev = s.dev := rfl
@[simp] theorem State.finish_mem (st : Status) (v : BitVec 48) (s : State) : (s.finish st v).mem = s.mem := rfl
@[simp] theorem State.finish_env (st : Status) (v : BitVec 48) (s : State) : (s.finish st v).env = s.env := rfl
@[simp] theorem State.finish_pass (st : Status) (v : BitVec 48) (s : State) : (s.finish st v).pass = s.pass := rfl
@[simp] theorem State.finish_trace (st : Status) (v : BitVec 48) (s : State) : (s.finish st v).trace = .result (resultWord st v) :: s.trace := rfl

@[simp] theorem State.blockReset_cfg (s : State) : s.blockReset.cfg = s.cfg := rfl
@[simp] theorem State.blockReset_blk (s : State) : s.blockReset.blk = Block.reset := rfl
@[simp] theorem State.blockReset_dev (s : State) : s.blockReset.dev = s.dev := rfl
@[simp] theorem State.blockReset_mem (s : State) : s.blockReset.mem = s.mem := rfl
@[simp] theorem State.blockReset_env (s : State) : s.blockReset.env = s.env := rfl
@[simp] theorem State.blockReset_pass (s : State) : s.blockReset.pass = none := rfl
@[simp] theorem State.blockReset_trace (s : State) : s.blockReset.trace = s.trace := rfl

end Sys2Proof.Machine
end

