-- ==== Sys2Proof/Laws/Ops.lean ====
section
/-! SUPPORT. The bus events: what each can change, and what it is when no agent acts. Every lemma about `s.tick` says what
the device-side agents can do before an event; the lemmas about an access are that and the access itself. -/

namespace Sys2Proof.Machine

/-! ## What no bus event changes outside -/

/-- The outside world but for the schedule, which every bus event consumes. -/
def Env.fixed (e : Env) : Bool × Bool × List HostAct × List (Addr × Nat) × Nat :=
  (e.miiCompletes, e.rxEndless, e.host, e.rxBuffers, e.freeTick)

theorem Env.ext_fixed {e f : Env} (h : e.fixed = f.fixed) (hs : e.schedule = f.schedule) : e = f := by
  cases e; cases f
  simp only [Env.fixed, Prod.mk.injEq] at h hs
  obtain ⟨h1, h2, h3, h4, h5⟩ := h
  subst h1 h2 h3 h4 h5 hs; rfl

/-! ## The agents' turn -/

section Tick
variable (s : State)

@[simp] theorem State.tick_cfg : s.tick.cfg = s.cfg := by unfold State.tick; split <;> rfl
@[simp] theorem State.tick_blk : s.tick.blk = s.blk := by unfold State.tick; split <;> rfl
@[simp] theorem State.tick_trace : s.tick.trace = s.trace := by unfold State.tick; split <;> rfl
@[simp] theorem State.tick_pass : s.tick.pass = s.pass := by unfold State.tick; split <;> rfl
@[simp] theorem State.tick_fixed : s.tick.env.fixed = s.env.fixed := by unfold State.tick; split <;> rfl
@[simp] theorem State.tick_schedule : s.tick.env.schedule = s.env.schedule.tail := by
  unfold State.tick; split <;> simp [*]

/-- With nothing scheduled the agents do nothing. -/
theorem State.tick_quiet (h : Quiet s) : s.tick = s := by unfold State.tick; rw [h]

theorem State.tick_sameDriverRegs : SameDriverRegs s.cfg.layout s.dev s.tick.dev := by
  unfold State.tick
  split
  · exact .refl _ _
  · exact devActs_sameDriverRegs _ _ _ _

theorem State.tick_macOff (h : MacOff s) : SameRings s.dev s.tick.dev ∧ s.tick.mem = s.mem := by
  unfold State.tick
  split
  · exact ⟨.refl _, rfl⟩
  · exact devActs_macOff _ _ _ _ h.1 h.2

/-- The agents never change a wrap flag. -/
theorem State.tick_wrap (r : Ring) (i : Nat) : wraps s.tick r i = wraps s r i := by
  unfold wraps; rw [State.tick_cfg]
  unfold State.tick
  split
  · rfl
  · exact (devActs_desc _ _ _ _ r i).1

/-- The agents leave the block's own slots alone. -/
theorem State.tick_notOwned (r : Ring) (i : Nat) (h : owned s r i = false) :
    s.tick.dev.desc r .control i = s.dev.desc r .control i := by
  unfold State.tick
  split
  · rfl
  · exact (devActs_desc _ _ _ _ r i).2 h

/-- With nothing scheduled for this turn the agents leave the device and memory alone. -/
theorem State.tick_idle (h : turnBefore 0 s = []) : s.tick.dev = s.dev ∧ s.tick.mem = s.mem := by
  unfold State.tick
  cases hs : s.env.schedule with
  | nil => exact ⟨rfl, rfl⟩
  | cons a as =>
    have : a = [] := by simpa [turnBefore, hs] using h
    subst this; exact ⟨rfl, rfl⟩

/-- The agents' turn does not depend on the working registers. -/
theorem State.tick_setBlk (b : Block) : (s.setBlk b).tick = s.tick.setBlk b := by
  cases h : s.env.schedule <;> simp [State.tick, State.setBlk, State.setDev, State.setMem, State.setEnv, h]

end Tick

/-! ## Requests and fatal entry -/

section Ask
variable (len : Nat) (s : State)

@[simp] theorem State.askRxBuffer_cfg : (s.askRxBuffer len).cfg = s.cfg := by simp [State.askRxBuffer]
@[simp] theorem State.askRxBuffer_blk : (s.askRxBuffer len).blk = s.blk := by simp [State.askRxBuffer]
@[simp] theorem State.askRxBuffer_dev : (s.askRxBuffer len).dev = s.tick.dev := rfl
@[simp] theorem State.askRxBuffer_mem : (s.askRxBuffer len).mem = s.tick.mem := rfl
@[simp] theorem State.askRxBuffer_env : (s.askRxBuffer len).env = s.tick.env.answered := rfl
@[simp] theorem State.askRxBuffer_pass : (s.askRxBuffer len).pass = s.pass := by simp [State.askRxBuffer]
@[simp] theorem State.askRxBuffer_trace :
    (s.askRxBuffer len).trace = .askRxBuffer len s.rxBufferAnswer.1 s.rxBufferAnswer.2 :: s.trace := by
  simp [State.askRxBuffer]

end Ask

/-- An answer of the host leaves the rest of the outside world alone. -/
theorem Env.answered_keeps (e : Env) : e.answered.schedule = e.schedule ∧ e.answered.host = e.host
    ∧ e.answered.miiCompletes = e.miiCompletes ∧ e.answered.rxEndless = e.rxEndless := by
  unfold Env.answered
  split <;> exact ⟨rfl, rfl, rfl, rfl⟩

@[simp] theorem State.raiseFatal_blk (e : FatalErr) (s : State) : (s.raiseFatal e).blk =
    { s.blk with
      err := some e
      pc := if fatalOfPhy e then .failed else s.blk.pc
      result := resultWord .fatal ((fatalCode e).zeroExtend 48) } := by simp [State.raiseFatal]
@[simp] theorem State.raiseFatal_cfg (e : FatalErr) (s : State) : (s.raiseFatal e).cfg = s.cfg := by simp [State.raiseFatal]
@[simp] theorem State.raiseFatal_dev (e : FatalErr) (s : State) : (s.raiseFatal e).dev = s.tick.dev := by
  simp [State.raiseFatal, State.tick_setBlk]
@[simp] theorem State.raiseFatal_mem (e : FatalErr) (s : State) : (s.raiseFatal e).mem = s.tick.mem := by
  simp [State.raiseFatal, State.tick_setBlk]
@[simp] theorem State.raiseFatal_env (e : FatalErr) (s : State) : (s.raiseFatal e).env = s.tick.env := by
  simp [State.raiseFatal, State.tick_setBlk]
@[simp] theorem State.raiseFatal_pass (e : FatalErr) (s : State) : (s.raiseFatal e).pass = s.pass := by simp [State.raiseFatal]
@[simp] theorem State.raiseFatal_trace (e : FatalErr) (s : State) : (s.raiseFatal e).trace =
    .result (resultWord .fatal ((fatalCode e).zeroExtend 48))
      :: .log (fatalMessage e) (fatalCode e).toNat :: s.trace := by simp [State.raiseFatal]

/-! ## A read of the status register -/

section Settle
variable (s : State)

@[simp] theorem State.settle_cfg : s.settle.cfg = s.cfg := rfl
@[simp] theorem State.settle_blk : s.settle.blk = s.blk := rfl
@[simp] theorem State.settle_trace : s.settle.trace = s.trace := rfl
@[simp] theorem State.settle_pass : s.settle.pass = s.pass := rfl
@[simp] theorem State.settle_env : s.settle.env = s.env := rfl
@[simp] theorem State.settle_mem : s.settle.mem = s.mem := rfl
@[simp] theorem State.settle_mii : s.settle.dev.mii = none := by
  simp only [State.settle, State.setDev_dev, Device.miiFinish]
  split
  · assumption
  · split <;> rfl

theorem State.statusTick_cases : s.statusTick = s.tick ∨ (Quiet s ∧ s.env.miiCompletes = true ∧ s.statusTick = s.settle) := by
  unfold State.statusTick
  split
  · rename_i h
    split
    · exact .inr ⟨h, by assumption, rfl⟩
    · exact .inl (s.tick_quiet h).symm
  · exact .inl rfl

/-- Before a read, the agents take their turn; before a read of `MIISTATUS` with nothing scheduled, the MII engine
completes. -/
theorem State.readTick_cases (l : Loc) :
    s.readTick l = s.tick ∨ (l = .reg .miiStatus ∧ Quiet s ∧ s.env.miiCompletes = true ∧ s.readTick l = s.settle) := by
  unfold State.readTick
  split
  · rcases s.statusTick_cases with h | ⟨h1, h2, h3⟩
    · exact .inl h
    · exact .inr ⟨rfl, h1, h2, h3⟩
  · exact .inl rfl

variable (l : Loc)

@[simp] theorem State.readTick_desc (r : Ring) (w : DescWord) (i : Nat) : s.readTick (.desc r w i) = s.tick := rfl
@[simp] theorem State.readTick_moder : s.readTick (.reg .moder) = s.tick := rfl
@[simp] theorem State.readTick_intSource : s.readTick (.reg .intSource) = s.tick := rfl
@[simp] theorem State.readTick_miiRxData : s.readTick (.reg .miiRxData) = s.tick := rfl

@[simp] theorem State.readTick_cfg : (s.readTick l).cfg = s.cfg := by
  rcases s.readTick_cases l with h | ⟨-, -, -, h⟩ <;> simp [h]
@[simp] theorem State.readTick_blk : (s.readTick l).blk = s.blk := by
  rcases s.readTick_cases l with h | ⟨-, -, -, h⟩ <;> simp [h]
@[simp] theorem State.readTick_trace : (s.readTick l).trace = s.trace := by
  rcases s.readTick_cases l with h | ⟨-, -, -, h⟩ <;> simp [h]
@[simp] theorem State.readTick_pass : (s.readTick l).pass = s.pass := by
  rcases s.readTick_cases l with h | ⟨-, -, -, h⟩ <;> simp [h]
@[simp] theorem State.readTick_fixed : (s.readTick l).env.fixed = s.env.fixed := by
  rcases s.readTick_cases l with h | ⟨-, -, -, h⟩ <;> simp [h]
@[simp] theorem State.readTick_schedule : (s.readTick l).env.schedule = s.env.schedule.tail := by
  rcases s.readTick_cases l with h | ⟨-, hq, -, h⟩
  · simp [h]
  · have hq : s.env.schedule = [] := hq
    simp [h, hq]

theorem State.readTick_sameDriverRegs : SameDriverRegs s.cfg.layout s.dev (s.readTick l).dev := by
  rcases s.readTick_cases l with h | ⟨-, -, -, h⟩
  · rw [h]; exact s.tick_sameDriverRegs
  · rw [h]; exact s.dev.miiFinish_sameDriverRegs _ _ _

theorem State.readTick_macOff (h : MacOff s) : SameRings s.dev (s.readTick l).dev ∧ (s.readTick l).mem = s.mem := by
  rcases s.readTick_cases l with e | ⟨-, -, -, e⟩
  · rw [e]; exact s.tick_macOff h
  · rw [e]; exact ⟨s.dev.miiFinish_sameRings _ _, rfl⟩

end Settle

/-! ## Register accesses -/

section Mmio
variable (l : Loc) (v : Word) (s : State)

@[simp] theorem State.mmioRead_cfg : (s.mmioRead l).cfg = s.cfg := by simp [State.mmioRead]
@[simp] theorem State.mmioRead_blk : (s.mmioRead l).blk = s.blk := by simp [State.mmioRead]
@[simp] theorem State.mmioRead_pass : (s.mmioRead l).pass = s.pass := by simp [State.mmioRead]
@[simp] theorem State.mmioRead_dev : (s.mmioRead l).dev = (s.readTick l).dev := rfl
@[simp] theorem State.mmioRead_mem : (s.mmioRead l).mem = (s.readTick l).mem := rfl
@[simp] theorem State.mmioRead_env : (s.mmioRead l).env = (s.readTick l).env := rfl
@[simp] theorem State.mmioRead_trace : (s.mmioRead l).trace = readEvent s.cfg l (s.mmioVal l) :: s.trace := by
  simp [State.mmioRead, readEvent]

@[simp] theorem State.mmioWrite_cfg : (s.mmioWrite l v).cfg = s.cfg := by simp [State.mmioWrite]
@[simp] theorem State.mmioWrite_blk : (s.mmioWrite l v).blk = s.blk := by simp [State.mmioWrite]
@[simp] theorem State.mmioWrite_pass : (s.mmioWrite l v).pass = s.pass := by simp [State.mmioWrite]
@[simp] theorem State.mmioWrite_dev : (s.mmioWrite l v).dev = s.tick.dev.put s.cfg l v := rfl
@[simp] theorem State.mmioWrite_mem : (s.mmioWrite l v).mem = s.tick.mem := rfl
@[simp] theorem State.mmioWrite_env : (s.mmioWrite l v).env = s.tick.env := rfl
@[simp] theorem State.mmioWrite_trace : (s.mmioWrite l v).trace = writeEvent s.cfg l v :: s.trace := by
  simp [State.mmioWrite, writeEvent]

/-- A read of anything but `MIISTATUS` with nothing scheduled: it is seen, and nothing else. -/
theorem State.mmioRead_quiet (h : Quiet s) (hl : s.readTick l = s.tick) :
    s.mmioRead l = s.log (readEvent s.cfg l (s.dev.get s.cfg.layout l))
      ∧ s.mmioVal l = s.dev.get s.cfg.layout l := by
  simp [State.mmioRead, State.mmioVal, readEvent, hl, s.tick_quiet h]

theorem State.mmioWrite_quiet (h : Quiet s) :
    s.mmioWrite l v = (s.setDev (s.dev.put s.cfg l v)).log (writeEvent s.cfg l v) := by
  simp [State.mmioWrite, writeEvent, s.tick_quiet h]

end Mmio

/-! ## Writes of a location -/

section Put
variable (c : Cfg) (d : Device)

@[simp] theorem Device.put_desc (r : Ring) (w : DescWord) (i : Nat) (v : Word) : d.put c (.desc r w i) v = d.setDesc r w i v := rfl
@[simp] theorem Device.put_intMask (v : Word) : d.put c (.reg .intMask) v = { d with intMask := v } := rfl
@[simp] theorem Device.put_intSource (v : Word) : d.put c (.reg .intSource) v = { d with intSource := d.intSource &&& ~~~v } := rfl
@[simp] theorem Device.put_miiAddress (v : Word) : d.put c (.reg .miiAddress) v = { d with miiAddress := v } := rfl
@[simp] theorem Device.put_miiTxData (v : Word) : d.put c (.reg .miiTxData) v = { d with miiTxData := v } := rfl
@[simp] theorem Device.put_miiCommand (v : Word) : d.put c (.reg .miiCommand) v = d.miiCommandWrite c v := rfl
@[simp] theorem Device.put_macAddr0 (v : Word) : d.put c (.reg .macAddr0) v = { d with macAddr0 := v } := rfl
@[simp] theorem Device.put_macAddr1 (v : Word) : d.put c (.reg .macAddr1) v = { d with macAddr1 := v } := rfl

/-- A write of the command register changes that register and starts at most a transaction. -/
theorem Device.miiCommandWrite_eq (v : Word) : ∃ m, d.miiCommandWrite c v = { d with miiCommand := v, mii := m } := by
  simp only [Device.miiCommandWrite]
  split
  · exact ⟨d.mii, rfl⟩
  · split
    · exact ⟨_, rfl⟩
    · split
      · exact ⟨_, rfl⟩
      · exact ⟨d.mii, rfl⟩

end Put

/-! ## Memory accesses -/

section Mem
variable (a : Addr) (b : Byte) (s : State)

@[simp] theorem State.memRead_cfg : (s.memRead a).cfg = s.cfg := by simp [State.memRead]
@[simp] theorem State.memRead_blk : (s.memRead a).blk = s.blk := by simp [State.memRead]
@[simp] theorem State.memRead_pass : (s.memRead a).pass = s.pass := by simp [State.memRead]
@[simp] theorem State.memRead_dev : (s.memRead a).dev = s.tick.dev := rfl
@[simp] theorem State.memRead_mem : (s.memRead a).mem = s.tick.mem := rfl
@[simp] theorem State.memRead_env : (s.memRead a).env = s.tick.env := rfl
@[simp] theorem State.memRead_trace : (s.memRead a).trace = .memRead a (s.memVal a) :: s.trace := by simp [State.memRead]

@[simp] theorem State.memWrite_cfg : (s.memWrite a b).cfg = s.cfg := by simp [State.memWrite]
@[simp] theorem State.memWrite_blk : (s.memWrite a b).blk = s.blk := by simp [State.memWrite]
@[simp] theorem State.memWrite_pass : (s.memWrite a b).pass = s.pass := by simp [State.memWrite]
@[simp] theorem State.memWrite_dev : (s.memWrite a b).dev = s.tick.dev := rfl
@[simp] theorem State.memWrite_mem : (s.memWrite a b).mem = Memory.write a b s.tick.mem := rfl
@[simp] theorem State.memWrite_env : (s.memWrite a b).env = s.tick.env := rfl
@[simp] theorem State.memWrite_trace : (s.memWrite a b).trace = .memWrite a b :: s.trace := by simp [State.memWrite]

end Mem

/-! ## Frame copy -/

section Copy
variable (src dst : Addr) (n : Nat) (s : State)

@[simp] theorem State.copyBytes_cfg : (s.copyBytes src dst n).cfg = s.cfg := by
  induction n with
  | zero => rfl
  | succ n ih => simp [State.copyBytes, State.copyByte, ih]

@[simp] theorem State.copyBytes_blk : (s.copyBytes src dst n).blk = s.blk := by
  induction n with
  | zero => rfl
  | succ n ih => simp [State.copyBytes, State.copyByte, ih]

@[simp] theorem State.copyBytes_pass : (s.copyBytes src dst n).pass = s.pass := by
  induction n with
  | zero => rfl
  | succ n ih => simp [State.copyBytes, State.copyByte, ih]

@[simp] theorem State.copyBytes_fixed : (s.copyBytes src dst n).env.fixed = s.env.fixed := by
  induction n with
  | zero => rfl
  | succ n ih => simp [State.copyBytes, State.copyByte, ih]

/-- Each byte makes two bus events. -/
theorem State.copyBytes_schedule : (s.copyBytes src dst n).env.schedule = s.env.schedule.drop (2 * n) := by
  induction n with
  | zero => rfl
  | succ n ih =>
    simp only [State.copyBytes, State.copyByte, State.memWrite_env, State.tick_schedule, State.memRead_env, ih,
      List.tail_drop]
    congr 1

theorem copyEvents_concat (k : Nat) (bs : List Byte) (b : Byte) :
    copyEvents src dst k (bs ++ [b])
      = .memWrite (byteAt dst (k + bs.length)) b :: .memRead (byteAt src (k + bs.length)) b :: copyEvents src dst k bs := by
  induction bs generalizing k with
  | nil => simp [copyEvents]
  | cons x xs ih =>
    simp only [List.cons_append, copyEvents, ih, List.length_cons]
    rw [show k + 1 + xs.length = k + (xs.length + 1) by omega]

/-- A copy is seen as one read and one write for each byte, in ascending order, and the byte written is the byte read
(R72). -/
theorem State.copyBytes_trace : ∃ bs : List Byte, bs.length = n
    ∧ (s.copyBytes src dst n).trace = copyEvents src dst 0 bs ++ s.trace := by
  induction n with
  | zero => exact ⟨[], rfl, rfl⟩
  | succ n ih =>
    obtain ⟨bs, hl, ht⟩ := ih
    refine ⟨bs ++ [(s.copyBytes src dst n).memVal (byteAt src n)], by simp [hl], ?_⟩
    rw [copyEvents_concat, hl]
    simp [State.copyBytes, State.copyByte, ht]

theorem State.copyBytes_sameDriverRegs : SameDriverRegs s.cfg.layout s.dev (s.copyBytes src dst n).dev := by
  induction n with
  | zero => exact .refl _ _
  | succ n ih =>
    have h1 := (s.copyBytes src dst n).tick_sameDriverRegs
    have h2 := ((s.copyBytes src dst n).memRead (byteAt src n)).tick_sameDriverRegs
    simp only [State.memRead_cfg, State.copyBytes_cfg, State.memRead_dev] at h1 h2
    exact ih.trans (h1.trans h2)

/-- A copy while no agent acts: memory is copied byte by byte, and the copy is seen; nothing else changes. -/
theorem State.copyBytes_quiet (h : Quiet s) :
    (s.copyBytes src dst n).mem = copiedMem src dst n s.mem ∧ (s.copyBytes src dst n).dev = s.dev
      ∧ (s.copyBytes src dst n).env = s.env := by
  induction n with
  | zero => exact ⟨rfl, rfl, rfl⟩
  | succ n ih =>
    have q1 : Quiet (s.copyBytes src dst n) := by
      show (s.copyBytes src dst n).env.schedule = []
      rw [State.copyBytes_schedule, (show s.env.schedule = [] from h)]; simp
    have q2 : Quiet ((s.copyBytes src dst n).memRead (byteAt src n)) := by
      show (State.tick _).env.schedule = []
      rw [State.tick_quiet _ q1]; exact q1
    refine ⟨?_, ?_, ?_⟩ <;>
      simp [State.copyBytes, State.copyByte, copiedMem, State.memVal, State.tick_quiet _ q1, State.tick_quiet _ q2, ih]

/-- A copy changes no byte outside the destination. -/
theorem copiedMem_outside (m : Memory) (a : Addr) (h : ∀ k, k < n → a ≠ byteAt dst k) :
    Memory.read (copiedMem src dst n m) a = Memory.read m a := by
  induction n with
  | zero => rfl
  | succ n ih =>
    rw [copiedMem, Memory.read_write_ne (h n (by omega)), ih (fun k hk => h k (by omega))]

/-- A copy whose destination is apart from its source and does not wrap onto itself gives every byte of the source. -/
theorem copiedMem_inside (m : Memory) (hs : ∀ j k, j < n → k < n → byteAt src j ≠ byteAt dst k) (hn : n ≤ 2 ^ 64)
    (k : Nat) (hk : k < n) : Memory.read (copiedMem src dst n m) (byteAt dst k) = Memory.read m (byteAt src k) := by
  induction n with
  | zero => omega
  | succ n ih =>
    rw [copiedMem, Memory.read_write]
    by_cases e : k = n
    · subst e
      rw [if_pos rfl]
      exact copiedMem_outside src dst k m _ (fun j hj => hs k j (by omega) (by omega))
    · have hne : byteAt dst k ≠ byteAt dst n := by
        simp only [byteAt, ne_eq, add_right_inj]
        intro h
        have := congrArg BitVec.toNat h
        simp only [BitVec.toNat_ofNat] at this
        rw [Nat.mod_eq_of_lt (by omega), Nat.mod_eq_of_lt (by omega)] at this
        omega
      rw [if_neg hne]
      exact ih (fun i j hi hj => hs i j (by omega) (by omega)) (by omega) (by omega)

theorem Memory.wf_copiedMem (m : Memory) (h : Memory.wf m = true) : Memory.wf (copiedMem src dst n m) = true := by
  induction n with
  | zero => exact h
  | succ n ih => exact Memory.wf_write _ _ _ ih

end Copy

/-! ## The common checks -/

/-- What a guarded operation answers, and when (R119 to R121). -/
theorem guarded_eq (gate : Bool) (rest : State → Host.Outcome State Fault Refusal) (s : State) :
    (∃ e, s.blk.err = some e ∧ guarded gate rest s = .next (s.finish .fatal ((fatalCode e).zeroExtend 48)))
      ∨ (s.blk.err = none ∧ gate = false ∧ guarded gate rest s = .next (s.finish .illegalState 0))
      ∨ (s.blk.err = none ∧ gate = true ∧ guarded gate rest s = rest s) := by
  unfold guarded
  cases h : s.blk.err with
  | some e => exact .inl ⟨e, rfl, rfl⟩
  | none =>
    cases gate
    · exact .inr (.inl ⟨rfl, rfl, rfl⟩)
    · exact .inr (.inr ⟨rfl, rfl, rfl⟩)

theorem guarded_run {gate : Bool} {s : State} (rest : State → Host.Outcome State Fault Refusal) (he : s.blk.err = none)
    (hg : gate = true) : guarded gate rest s = rest s := by simp [guarded, he, hg]

end Sys2Proof.Machine
end

