-- ==== Sys2Proof/Laws/Exec.lean ====
section
/-! SUPPORT. Every operation is the common gates around a body of its own (R119): what `exec` answers, and when. -/

namespace Sys2Proof.Machine

/-- An operation from its operand check on (steps 4 and 5 of R119). -/
def execBody : Instr → State → Host.Outcome State Fault Refusal
  | .ringInit, s => .next (ringInit s)
  | .setupTxSlot i addr, s =>
    checked (checkSlotOperands s.cfg .tx i addr) (fun s => (setupTx i (BitVec.ofNat 32 addr) s).finish .ok 0) s
  | .setupRxSlot j addr, s =>
    checked (checkSlotOperands s.cfg .rx j addr) (fun s => (setupRx j (BitVec.ofNat 32 addr) s).finish .ok 0) s
  | .macAddrWrite, s => .next (macAddrWrite s)
  | .irqMaskSet, s => .next (irqMaskSet s)
  | .bringup, s =>
    match bringup s with
    | none => .fault .miiNeverCompletes
    | some t => .next t
  | .macEnable, s => .next (macEnable s)
  | .transmit len src, s => checked (checkTransmitLength s.cfg len) (transmit len (addrOf src)) s
  | .receiveReady, s =>
    .next ((s.mmioRead (rxSlot s)).finish .ok (bitOf 48 (frameReady s.cfg.layout (s.mmioVal (rxSlot s)))))
  | .receiveLength, s =>
    .next ((s.mmioRead (rxSlot s)).finish .ok ((Field.get s.cfg.layout.len (s.mmioVal (rxSlot s))).zeroExtend 48))
  | .receive maxLen dst, s =>
    .next ((rxReceive (addrOf dst) maxLen s).finish .ok (BitVec.ofNat 48 (receiveCount s maxLen)))
  | .macAddress, s => .next (s.finish .ok (macValue s.cfg.mac))
  | .dispatch, s => .next (dispatchPass s)

theorem exec_eq_guarded (i : Instr) (s : State) : exec i s = guarded (stateGate i s.blk) (execBody i) s := by
  cases i <;> rfl

/-- With a fatal error recorded, every operation answers it. -/
theorem exec_fatal (i : Instr) {s : State} {e : FatalErr} (h : s.blk.err = some e) :
    exec i s = .next (s.finish .fatal ((fatalCode e).zeroExtend 48)) := by
  rw [exec_eq_guarded, guarded, h]

/-- Outside its states an operation is refused. -/
theorem exec_gated {i : Instr} {s : State} (h : s.blk.err = none) (hg : stateGate i s.blk = false) :
    exec i s = .next (s.finish .illegalState 0) := by
  rw [exec_eq_guarded, guarded, h, hg]; rfl

/-- In its states an operation runs. -/
theorem exec_runs {i : Instr} {s : State} (h : s.blk.err = none) (hg : stateGate i s.blk = true) :
    exec i s = execBody i s := by
  rw [exec_eq_guarded, guarded, h, hg]; rfl

/-- The two ways an operation ends before its body: it answers and does nothing else. -/
theorem exec_cases (i : Instr) (s : State) :
    (∃ st v, exec i s = .next (s.finish st v)) ∨ (s.blk.err = none ∧ stateGate i s.blk = true ∧ exec i s = execBody i s) := by
  cases he : s.blk.err with
  | some e => exact .inl ⟨_, _, exec_fatal i he⟩
  | none =>
    cases hg : stateGate i s.blk with
    | false => exact .inl ⟨_, _, exec_gated he hg⟩
    | true => exact .inr ⟨rfl, rfl, exec_runs he hg⟩

/-- What an operand check leaves. -/
theorem checked_cases (k : OperandCheck) (run : State → State) (s : State) :
    (k = .good ∧ checked k run s = .next (run s)) ∨ (k = .badOperand ∧ checked k run s = .next (s.finish .badOperand 0))
      ∨ (k = .addressRange ∧ checked k run s = .next (s.raiseFatal .deviceAddrRange)) := by
  cases k
  · exact .inl ⟨rfl, rfl⟩
  · exact .inr (.inl ⟨rfl, rfl⟩)
  · exact .inr (.inr ⟨rfl, rfl⟩)

/-- The result word of a fatal error, as R117 packs it. -/
theorem resultWord_fatal (e : FatalErr) :
    resultWord .fatal ((fatalCode e).zeroExtend 48) = 0xFF#8 ++ 0x000000000000#48 ++ fatalCode e := by
  cases e <;> decide

theorem resultWord_ok (v : BitVec 48) : resultWord .ok v = okWord v := rfl

end Sys2Proof.Machine
end

