-- ==== Sys2Proof/Laws/Runs.lean ====
section
/-! SUPPORT. Every operation is a run of primitives (R13): the relation `Runs`, that each operation is one, with the
locations it may read and write, and the induction that goes with it. A property that every primitive keeps is kept by every
operation. -/

namespace Sys2Proof.Machine

/-- What a run may do: the locations it may read and write, whether it may touch memory and ask for buffers, the events it
may emit beside its bus events, and whether it may end a dispatch pass or leave one going on. -/
structure Allowed where
  read  : Loc → Prop
  write : Loc → Prop
  mem   : Prop
  event : Event → Prop
  pass  : Prop

/-- `t` is reached from `s` by primitives that `A` allows, by turns of the agents, and by changes of the working registers. -/
inductive Runs (A : Allowed) (s : State) : State → Prop where
  | refl : Runs A s s
  | mmioRead {t : State} (l : Loc) (h : A.read l) (r : Runs A s t) : Runs A s (t.mmioRead l)
  | mmioWrite {t : State} (l : Loc) (v : Word) (h : A.write l) (r : Runs A s t) : Runs A s (t.mmioWrite l v)
  | memRead {t : State} (a : Addr) (h : A.mem) (r : Runs A s t) : Runs A s (t.memRead a)
  | memWrite {t : State} (a : Addr) (b : Byte) (h : A.mem) (r : Runs A s t) : Runs A s (t.memWrite a b)
  | ask {t : State} (len : Nat) (h : A.mem) (r : Runs A s t) : Runs A s (t.askRxBuffer len)
  | tick {t : State} (r : Runs A s t) : Runs A s t.tick
  | setBlk {t : State} (b : Block) (r : Runs A s t) : Runs A s (t.setBlk b)
  | log {t : State} (e : Event) (h : A.event e) (r : Runs A s t) : Runs A s (t.log e)
  | setPass {t : State} (p : Option Word) (h : A.pass) (r : Runs A s t) : Runs A s (t.setPass p)

namespace Runs

variable {A : Allowed} {s t u : State}

theorem trans (h : Runs A s t) (g : Runs A t u) : Runs A s u := by
  induction g with
  | refl => exact h
  | mmioRead l hl _ ih => exact .mmioRead l hl ih
  | mmioWrite l v hl _ ih => exact .mmioWrite l v hl ih
  | memRead a hm _ ih => exact .memRead a hm ih
  | memWrite a b hm _ ih => exact .memWrite a b hm ih
  | ask len hm _ ih => exact .ask len hm ih
  | tick _ ih => exact .tick ih
  | setBlk b _ ih => exact .setBlk b ih
  | log e he _ ih => exact .log e he ih
  | setPass p hp _ ih => exact .setPass p hp ih

theorem mono {B : Allowed} (hr : ∀ l, A.read l → B.read l) (hw : ∀ l, A.write l → B.write l) (hm : A.mem → B.mem)
    (he : ∀ e, A.event e → B.event e) (hp : A.pass → B.pass) (h : Runs A s t) : Runs B s t := by
  induction h with
  | refl => exact .refl
  | mmioRead l hl _ ih => exact .mmioRead l (hr l hl) ih
  | mmioWrite l v hl _ ih => exact .mmioWrite l v (hw l hl) ih
  | memRead a h _ ih => exact .memRead a (hm h) ih
  | memWrite a b h _ ih => exact .memWrite a b (hm h) ih
  | ask len h _ ih => exact .ask len (hm h) ih
  | tick _ ih => exact .tick ih
  | setBlk b _ ih => exact .setBlk b ih
  | log e h _ ih => exact .log e (he e h) ih
  | setPass p h _ ih => exact .setPass p (hp h) ih

theorem cfg (h : Runs A s t) : t.cfg = s.cfg := by
  induction h with
  | refl => rfl
  | _ => simpa using ‹_ = s.cfg›

theorem host (h : Runs A s t) : t.env.host = s.env.host ∧ t.env.miiCompletes = s.env.miiCompletes
    ∧ t.env.rxEndless = s.env.rxEndless := by
  have key : ∀ {e f : Env}, e.fixed = f.fixed →
      f.host = s.env.host ∧ f.miiCompletes = s.env.miiCompletes ∧ f.rxEndless = s.env.rxEndless →
      e.host = s.env.host ∧ e.miiCompletes = s.env.miiCompletes ∧ e.rxEndless = s.env.rxEndless := by
    intro e f h g
    simp only [Env.fixed, Prod.mk.injEq] at h
    exact ⟨h.2.2.1.trans g.1, h.1.trans g.2.1, h.2.1.trans g.2.2⟩
  induction h with
  | refl => exact ⟨rfl, rfl, rfl⟩
  | mmioRead l _ _ ih => exact key (State.readTick_fixed _ l) ih
  | mmioWrite l v _ _ ih => exact key (State.tick_fixed _) ih
  | memRead a _ _ ih => exact key (State.tick_fixed _) ih
  | memWrite a b _ _ ih => exact key (State.tick_fixed _) ih
  | ask len _ r ih =>
    have h := key (State.tick_fixed _) ih
    obtain ⟨-, k2, k3, k4⟩ := Env.answered_keeps (State.tick _).env
    exact ⟨k2.trans h.1, k3.trans h.2.1, k4.trans h.2.2⟩
  | tick _ ih => exact key (State.tick_fixed _) ih
  | setBlk b _ ih => exact ih
  | log e _ _ ih => exact ih
  | setPass p _ _ ih => exact ih

theorem schedule (h : Runs A s t) : t.env.schedule <:+ s.env.schedule := by
  induction h with
  | refl => exact List.suffix_rfl
  | mmioRead l _ _ ih => simpa using (List.tail_suffix _).trans ih
  | mmioWrite l v _ _ ih => simpa using (List.tail_suffix _).trans ih
  | memRead a _ _ ih => simpa using (List.tail_suffix _).trans ih
  | memWrite a b _ _ ih => simpa using (List.tail_suffix _).trans ih
  | ask len _ _ ih =>
    rw [State.askRxBuffer_env, (Env.answered_keeps _).1]
    simpa using (List.tail_suffix _).trans ih
  | tick _ ih => simpa using (List.tail_suffix _).trans ih
  | setBlk b _ ih => exact ih
  | log e _ _ ih => exact ih
  | setPass p _ _ ih => exact ih

/-- A run that neither ends a dispatch pass nor leaves one going on leaves that alone. -/
theorem pass (h : Runs A s t) (hp : ¬ A.pass) : t.pass = s.pass := by
  induction h with
  | refl => rfl
  | setBlk b _ ih => exact ih
  | log e _ _ ih => exact ih
  | setPass p h _ _ => exact (hp h).elim
  | _ => simpa using ‹_ = s.pass›

theorem quiet (h : Runs A s t) (hq : Quiet s) : Quiet t := by
  have := h.schedule
  rw [show s.env.schedule = [] from hq] at this
  exact List.suffix_nil.1 this

/-- What is seen of a run: accesses it is allowed, and events it is allowed. -/
theorem trace (h : Runs A s t) : ∃ evs, t.trace = evs ++ s.trace ∧ ∀ e ∈ evs,
    (∃ l v, A.read l ∧ e = readEvent s.cfg l v) ∨ (∃ l v, A.write l ∧ e = writeEvent s.cfg l v)
      ∨ (A.mem ∧ ((∃ a b, e = .memRead a b ∨ e = .memWrite a b) ∨ ∃ n a c, e = .askRxBuffer n a c)) ∨ A.event e := by
  induction h with
  | refl => exact ⟨[], rfl, by simp⟩
  | mmioRead l hl r ih =>
    obtain ⟨evs, h1, h2⟩ := ih
    refine ⟨_ :: evs, by rw [State.mmioRead_trace, h1]; rfl, ?_⟩
    simp only [List.forall_mem_cons]
    exact ⟨.inl ⟨l, _, hl, by rw [r.cfg]⟩, h2⟩
  | mmioWrite l v hl r ih =>
    obtain ⟨evs, h1, h2⟩ := ih
    refine ⟨_ :: evs, by rw [State.mmioWrite_trace, h1]; rfl, ?_⟩
    simp only [List.forall_mem_cons]
    exact ⟨.inr (.inl ⟨l, v, hl, by rw [r.cfg]⟩), h2⟩
  | memRead a hm r ih =>
    obtain ⟨evs, h1, h2⟩ := ih
    refine ⟨_ :: evs, by rw [State.memRead_trace, h1]; rfl, ?_⟩
    simp only [List.forall_mem_cons]
    exact ⟨.inr (.inr (.inl ⟨hm, .inl ⟨a, _, .inl rfl⟩⟩)), h2⟩
  | memWrite a b hm r ih =>
    obtain ⟨evs, h1, h2⟩ := ih
    refine ⟨_ :: evs, by rw [State.memWrite_trace, h1]; rfl, ?_⟩
    simp only [List.forall_mem_cons]
    exact ⟨.inr (.inr (.inl ⟨hm, .inl ⟨a, _, .inr rfl⟩⟩)), h2⟩
  | ask len hm r ih =>
    obtain ⟨evs, h1, h2⟩ := ih
    refine ⟨_ :: evs, by rw [State.askRxBuffer_trace, h1]; rfl, ?_⟩
    simp only [List.forall_mem_cons]
    exact ⟨.inr (.inr (.inl ⟨hm, .inr ⟨_, _, _, rfl⟩⟩)), h2⟩
  | tick _ ih => simpa using ih
  | setBlk b r ih => exact ih
  | log e he r ih =>
    obtain ⟨evs, h1, h2⟩ := ih
    refine ⟨e :: evs, by rw [State.log_trace, h1]; rfl, ?_⟩
    simp only [List.forall_mem_cons]
    exact ⟨.inr (.inr (.inr he)), h2⟩
  | setPass p _ r ih => exact ih

/-- A property of the device and memory that the agents, the allowed register writes and memory writes keep is kept. -/
theorem induct {P : Device → Memory → Prop} (hact : ∀ a d m, P d m → P (devAct s.cfg a d m).1 (devAct s.cfg a d m).2)
    (hput : ∀ l v d m, A.write l → P d m → P (d.put s.cfg l v) m) (hmem : ∀ a b d m, A.mem → P d m → P d (Memory.write a b m))
    (h : Runs A s t) (h0 : P s.dev s.mem) : P t.dev t.mem := by
  have hacts : ∀ as d m, P d m → P (devActs s.cfg as d m).1 (devActs s.cfg as d m).2 := by
    intro as
    induction as with
    | nil => exact fun _ _ h => h
    | cons a as ih => exact fun d m h => ih _ _ (hact a d m h)
  have htick : ∀ u : State, u.cfg = s.cfg → P u.dev u.mem → P u.tick.dev u.tick.mem := by
    intro u hu h
    unfold State.tick
    split
    · exact h
    · simp only [State.setEnv_dev, State.setMem_dev, State.setDev_dev, State.setEnv_mem, State.setMem_mem, hu]
      exact hacts _ _ _ h
  have hread : ∀ (u : State) l, u.cfg = s.cfg → P u.dev u.mem → P (u.readTick l).dev (u.readTick l).mem := by
    intro u l hu h
    rcases u.readTick_cases l with e | ⟨-, -, -, e⟩
    · rw [e]; exact htick u hu h
    · rw [e]; have := hact (.miiComplete 0) u.dev u.mem h; rw [← hu] at this; exact this
  induction h with
  | refl => exact h0
  | mmioRead l _ r ih => exact hread _ l r.cfg ih
  | mmioWrite l v hl r ih =>
    have := hput l v _ _ hl (htick _ r.cfg ih)
    rw [← r.cfg] at this; exact this
  | memRead a _ r ih => exact htick _ r.cfg ih
  | memWrite a b hm r ih => exact hmem a b _ _ hm (htick _ r.cfg ih)
  | ask len _ r ih => exact htick _ r.cfg ih
  | tick r ih => exact htick _ r.cfg ih
  | setBlk b _ ih => exact ih
  | log e _ _ ih => exact ih
  | setPass p _ _ ih => exact ih

/-- As `induct`, of a run during which no agent acts, but that the MII engine completes what it has in progress. -/
theorem induct_quiet {P : Device → Memory → Prop} (hfin : ∀ d m, P d m → P (d.miiFinish s.cfg 0) m)
    (hput : ∀ l v d m, A.write l → P d m → P (d.put s.cfg l v) m) (hmem : ∀ a b d m, A.mem → P d m → P d (Memory.write a b m))
    (h : Runs A s t) (hq : Quiet s) (h0 : P s.dev s.mem) : P t.dev t.mem := by
  have htick : ∀ {u : State}, Runs A s u → P u.dev u.mem → P u.tick.dev u.tick.mem := by
    intro u r h; rw [u.tick_quiet (r.quiet hq)]; exact h
  induction h with
  | refl => exact h0
  | mmioRead l _ r ih =>
    rename_i u _
    rcases u.readTick_cases l with e | ⟨-, -, -, e⟩
    · rw [State.mmioRead_dev, State.mmioRead_mem, e]; exact htick r ih
    · rw [State.mmioRead_dev, State.mmioRead_mem, e]
      have := hfin u.dev u.mem ih
      rw [← r.cfg] at this; exact this
  | mmioWrite l v hl r ih =>
    have := hput l v _ _ hl (htick r ih)
    rw [← r.cfg] at this; exact this
  | memRead a _ r ih => exact htick r ih
  | memWrite a b hm r ih => exact hmem a b _ _ hm (htick r ih)
  | ask len _ r ih => exact htick r ih
  | tick r ih => exact htick r ih
  | setBlk b _ ih => exact ih
  | log e _ _ ih => exact ih
  | setPass p _ _ ih => exact ih

/-- A run that asks for no buffer and during which no agent acts leaves the outside world as it was. -/
theorem env_quiet (hm : ¬ A.mem) (h : Runs A s t) (hq : Quiet s) : t.env = s.env := by
  have htick : ∀ {u : State}, Runs A s u → u.env = s.env → u.tick.env = s.env := by
    intro u r h; rw [u.tick_quiet (r.quiet hq)]; exact h
  induction h with
  | refl => rfl
  | mmioRead l _ r ih =>
    rename_i u _
    rcases u.readTick_cases l with e | ⟨-, -, -, e⟩
    · rw [State.mmioRead_env, e]; exact htick r ih
    · rw [State.mmioRead_env, e]; exact ih
  | mmioWrite l v _ r ih => exact htick r ih
  | memRead a h _ _ => exact (hm h).elim
  | memWrite a b h _ _ => exact (hm h).elim
  | ask len h _ _ => exact (hm h).elim
  | tick r ih => exact htick r ih
  | setBlk b _ ih => exact ih
  | log e _ _ ih => exact ih
  | setPass p _ _ ih => exact ih

end Runs

/-! ## The programs -/

variable {A : Allowed}

/-- What every operation may do to end. -/
structure Ends (A : Allowed) : Prop where
  result : ∀ v, A.event (.result v)

/-- An event for the host, with the agents' turn before it. -/
theorem Runs.emit {s t : State} (e : Event) (h : A.event e) (r : Runs A s t) : Runs A s (t.emit e) := .log e h (.tick r)

theorem runs_finish (h : Ends A) (st : Status) (v : BitVec 48) (s : State) : Runs A s (s.finish st v) :=
  .log _ (h.result _) (.setBlk _ .refl)

theorem runs_raiseFatal (h : Ends A) (hl : ∀ m v, A.event (.log m v)) (e : FatalErr) (s : State) :
    Runs A s (s.raiseFatal e) :=
  .log _ (h.result _) (.setBlk _ (.emit _ (hl _ _) (.setBlk _ .refl)))

theorem runs_copyBytes (hm : A.mem) (src dst : Addr) (n : Nat) (s : State) : Runs A s (s.copyBytes src dst n) := by
  induction n with
  | zero => exact .refl
  | succ n ih => exact .memWrite _ _ hm (.memRead _ hm ih)

/-! ### `BRINGUP` -/

/-- What `BRINGUP` may do (R174). -/
structure MiiAllowed (A : Allowed) : Prop where
  status  : A.read (.reg .miiStatus)
  rxData  : A.read (.reg .miiRxData)
  address : A.write (.reg .miiAddress)
  txData  : A.write (.reg .miiTxData)
  command : A.write (.reg .miiCommand)

theorem runs_waitIdleTurns (h : MiiAllowed A) {n : Nat} {s t : State} (e : waitIdleTurns n s = some t) : Runs A s t := by
  induction n generalizing s with
  | zero => cases e
  | succ n ih =>
    simp only [waitIdleTurns] at e
    split at e
    · exact (Runs.mmioRead _ h.status .refl).trans (ih e)
    · cases e; exact .mmioRead _ h.status .refl

theorem runs_trigger (h : MiiAllowed A) {c : Field} {s t : State} (e : trigger c s = some t) : Runs A s t := by
  obtain ⟨s1, h1, h2⟩ := Option.bind_eq_some_iff.1 e
  exact (runs_waitIdleTurns h h1).trans ((Runs.mmioWrite _ _ h.command (.mmioWrite _ _ h.command .refl)).trans
    (runs_waitIdleTurns h h2))

theorem runs_miiWrite (h : MiiAllowed A) {reg : BitVec 5} {data : Half} {s t : State} (e : miiWrite reg data s = some t) :
    Runs A s t :=
  (Runs.mmioWrite _ _ h.txData (.mmioWrite _ _ h.address .refl)).trans (runs_trigger h e)

theorem runs_miiRead (h : MiiAllowed A) {reg : BitVec 5} {s t : State} (e : miiRead reg s = some t) : Runs A s t := by
  obtain ⟨s1, h1, rfl⟩ := Option.map_eq_some_iff.1 e
  exact (Runs.mmioWrite _ _ h.address .refl).trans ((runs_trigger h h1).trans (.setBlk _ (.mmioRead _ h.rxData .refl)))

theorem runs_resetPoll (h : MiiAllowed A) {n : Nat} {s t : State} {b : Bool} (e : resetPoll n s = some (b, t)) :
    Runs A s t := by
  induction n generalizing s with
  | zero => cases e; exact .refl
  | succ n ih =>
    obtain ⟨s1, h1, h2⟩ := Option.bind_eq_some_iff.1 e
    refine (runs_miiRead h h1).trans ((Runs.setBlk _ .refl : Runs A s1 (countReset s1)).trans ?_)
    split at h2
    · exact ih h2
    · cases h2; exact .refl

theorem runs_linkPoll (h : MiiAllowed A) (hd : ∀ us, A.event (.delay us)) {n : Nat} {s t : State} {b : Bool}
    (e : linkPoll n s = some (b, t)) : Runs A s t := by
  induction n generalizing s with
  | zero => cases e; exact .refl
  | succ n ih =>
    obtain ⟨s1, h1, h2⟩ := Option.bind_eq_some_iff.1 e
    have hp : Runs A s (pollDelay s) := by
      unfold pollDelay
      split
      · exact .log _ (hd _) (.tick .refl)
      · exact .refl
    refine hp.trans ((runs_miiRead h h1).trans ((Runs.setBlk _ .refl : Runs A s1 (countLink s1)).trans ?_))
    split at h2
    · cases h2; exact .refl
    · exact ih h2

theorem runs_bringup (h : MiiAllowed A) (hr : Ends A) (hd : ∀ us, A.event (.delay us)) (hl : ∀ m v, A.event (.log m v))
    (hu : A.event .linkStateUp) {s t : State} (e : bringup s = some t) : Runs A s t := by
  have hf := runs_raiseFatal hr hl
  obtain ⟨s1, h1, h2⟩ := Option.bind_eq_some_iff.1 e
  obtain ⟨⟨b, s2⟩, h3, h4⟩ := Option.bind_eq_some_iff.1 h2
  obtain ⟨s0, h5, rfl⟩ := Option.map_eq_some_iff.1 h1
  refine (runs_miiWrite h h5).trans ((Runs.setBlk _ .refl).trans ((runs_resetPoll h h3).trans ?_))
  cases b with
  | false => cases h4; exact hf _ _
  | true =>
    simp only [if_true] at h4
    obtain ⟨s3, h6, h7⟩ := Option.bind_eq_some_iff.1 h4
    obtain ⟨s4, h8, h9⟩ := Option.bind_eq_some_iff.1 h6
    obtain ⟨s5, h10, rfl⟩ := Option.map_eq_some_iff.1 h9
    obtain ⟨⟨b, s6⟩, h11, rfl⟩ := Option.map_eq_some_iff.1 h7
    refine (runs_miiWrite h h8).trans ((runs_miiWrite h h10).trans ?_)
    refine (Runs.setBlk _ (.setBlk _ .refl) : Runs A s5 _).trans ((runs_linkPoll h hd h11).trans ?_)
    cases b with
    | false => exact hf _ _
    | true => exact .log _ (hr.result _) (.setBlk _ (.emit _ hu (.emit _ (hl _ _) (.setBlk _ .refl))))

/-! ### The rings and the MAC -/

theorem runs_setupTxBelow {n : Nat} (hw : ∀ w i, i < n → A.write (.desc .tx w i)) (s : State) :
    Runs A s (setupTxBelow n s) := by
  induction n with
  | zero => exact .refl
  | succ n ih =>
    exact .mmioWrite _ _ (hw _ _ (by omega)) (.mmioWrite _ _ (hw _ _ (by omega)) (ih fun w i hi => hw w i (by omega)))

theorem runs_setupRxBelow {n : Nat} (hw : ∀ w i, i < n → A.write (.desc .rx w i)) (s : State) :
    Runs A s (setupRxBelow n s) := by
  induction n with
  | zero => exact .refl
  | succ n ih =>
    have h : ∀ w, A.write (.desc .rx w n) := fun w => hw w n (by omega)
    exact .mmioWrite _ _ (h _) (.mmioWrite _ _ (h _) (.mmioWrite _ _ (h _) (.mmioWrite _ _ (h _)
      (ih fun w i hi => hw w i (by omega)))))

/-- The rings written, before the flag is set. -/
theorem runs_initRings {s : State} (hw : ∀ r w i, i < ringDepth s.cfg r → A.write (.desc r w i)) :
    Runs A s (initRxRing (initTxRing s)) := by
  have hn := s.cfg.ranges
  have h1 : Runs A s (initTxRing s) :=
    .mmioWrite _ _ (hw .tx _ _ (by simp only [ringDepth]; omega)) (runs_setupTxBelow (fun w i hi => hw .tx w i hi) _)
  have h2 : ∀ w i, i < (initTxRing s).cfg.nRx → A.write (.desc .rx w i) := by
    intro w i hi; rw [h1.cfg] at hi; exact hw .rx w i hi
  have h3 : (initTxRing s).cfg.nRx - 1 < (initTxRing s).cfg.nRx := by rw [h1.cfg]; omega
  exact h1.trans (.mmioWrite _ _ (h2 _ _ h3) (runs_setupRxBelow h2 _))

/-! ### The data path -/

theorem runs_rxReceive {s : State} (hr : A.read (rxSlot s)) (hw : A.write (rxSlot s)) (hm : A.mem) (dst : Addr) (cap : Nat) :
    Runs A s (rxReceive dst cap s) :=
  .setBlk _ (.mmioWrite _ _ hw ((Runs.mmioRead _ hr .refl).trans (runs_copyBytes hm _ _ _ _)))

@[simp] theorem rxReceive_blk (dst : Addr) (cap : Nat) (s : State) :
    (rxReceive dst cap s).blk = { s.blk with rxc := ringNext s.blk.rxc s.cfg.nRx } := by
  simp [rxReceive]

theorem runs_drainTurns {ok : Nat → Prop} (hr : ∀ i, ok i → A.read (.desc .rx .control i))
    (hw : ∀ i, ok i → A.write (.desc .rx .control i)) (hm : A.mem) (hf : ∀ a n, A.event (.frameReceived a n)) {n : Nat}
    {s : State} (h0 : ok s.blk.rxc.toNat) (hn : ∀ x, ok (ringNext x s.cfg.nRx).toNat) : Runs A s (drainTurns n s).2 := by
  induction n generalizing s with
  | zero => exact .refl
  | succ n ih =>
    simp only [drainTurns]
    have h1 : Runs A s (s.mmioRead (rxSlot s)) := .mmioRead _ (hr _ h0) .refl
    split
    · exact .refl
    split
    · exact h1
    · have h2 : Runs A s (drainFrame (s.mmioVal (rxSlot s)) (s.mmioRead (rxSlot s))) := by
        refine .emit _ (hf _ _) (Runs.trans (.ask _ hm h1) (runs_rxReceive (hr _ ?_) (hw _ ?_) hm _ _))
        · simpa using h0
        · simpa using h0
      have h3 := h2.cfg
      refine h2.trans (ih ?_ (by rw [h3]; exact hn))
      simpa [drainFrame] using hn s.blk.rxc

/-- The cursors are in range. -/
def CursorsIn (s : State) : Prop := s.blk.txc.toNat < s.cfg.nTx ∧ s.blk.rxc.toNat < s.cfg.nRx

/-- A word of a slot of the ring: of one that exists, if the cursors are in range. -/
def SlotWord (s : State) (r : Ring) (w : DescWord) (l : Loc) : Prop :=
  ∃ k, (CursorsIn s → k < ringDepth s.cfg r) ∧ l = .desc r w k

/-- Everything the operation of this instruction may do. -/
def allowedFor (s : State) (i : Instr) : Allowed where
  read l := match i with
    | .bringup => l = .reg .miiStatus ∨ l = .reg .miiRxData
    | .macEnable => l = .reg .moder
    | .transmit _ _ => SlotWord s .tx .control l
    | .dispatch => l = .reg .intSource ∨ SlotWord s .rx .control l
    | .receiveReady | .receiveLength | .receive _ _ => SlotWord s .rx .control l
    | _ => False
  write l := match i with
    | .ringInit => ∃ r w, SlotWord s r w l
    | .setupTxSlot _ _ => ∃ w, SlotWord s .tx w l
    | .setupRxSlot _ _ => ∃ w, SlotWord s .rx w l
    | .macAddrWrite => l = .reg .macAddr0 ∨ l = .reg .macAddr1
    | .irqMaskSet => l = .reg .intMask
    | .bringup => l = .reg .miiAddress ∨ l = .reg .miiTxData ∨ l = .reg .miiCommand
    | .macEnable => l = .reg .moder
    | .transmit _ _ => SlotWord s .tx .control l
    | .receive _ _ => SlotWord s .rx .control l
    | .dispatch => l = .reg .intSource ∨ SlotWord s .rx .control l
    | _ => False
  mem := match i with
    | .transmit _ _ | .receive _ _ | .dispatch => True
    | _ => False
  event e := match e with
    | .command _ | .mmioRead _ _ | .mmioWrite _ _ | .memRead _ _ | .memWrite _ _ | .askRxBuffer _ _ _ => False
    | _ => True
  pass := i = .dispatch

theorem runs_dispatchEnd {s0 s u : State} (v : Word) (h : Runs (allowedFor s0 .dispatch) s u) :
    Runs (allowedFor s0 .dispatch) s (dispatchEnd v u) := by
  refine .setPass _ rfl (.log _ trivial (.setBlk _ (.emit _ trivial (.mmioWrite _ _ (.inl rfl) ?_))))
  split
  · exact .emit _ trivial h
  · exact h

/-- A pass from its drain on, in a state with the cursors of `s0`. -/
theorem runs_drainPass {s0 s : State} (v : Word) (hc : s.cfg = s0.cfg) (hb : s.blk = s0.blk) :
    Runs (allowedFor s0 .dispatch) s (drainPass v s) := by
  have h : Runs (allowedFor s0 .dispatch) s (rxDrain s).2 := by
    refine runs_drainTurns (ok := fun k => CursorsIn s0 → k < s0.cfg.nRx) ?_ ?_ ?_ ?_ ?_ ?_
    · intro k hk; exact .inr ⟨k, hk, rfl⟩
    · intro k hk; exact .inr ⟨k, hk, rfl⟩
    · trivial
    · intro _ _; trivial
    · intro h; rw [hb]; exact h.2
    · intro x _
      have hn := s0.cfg.ranges
      rw [hc]; exact ringNext_lt x s0.cfg.nRx hn.2.1.1 hn.2.1.2
  unfold drainPass
  split
  · exact runs_dispatchEnd v h
  · exact .setPass _ rfl h

/-- A pass that goes on is a run of the primitives that `DISPATCH` is allowed, from the state in which the next frame is
about to arrive, or from the state itself. -/
theorem runs_continuePass (v : Word) (s : State) : ∃ u, (u = s ∨ (arrivalsEndless s = true ∧ u = s.withArrival))
    ∧ Runs (allowedFor s .dispatch) u (continuePass v s) := by
  unfold continuePass
  split
  · exact ⟨_, .inr ⟨‹_›, rfl⟩, runs_drainPass v rfl rfl⟩
  · exact ⟨_, .inl rfl, runs_drainPass v rfl rfl⟩

theorem checkSlotOperands_good {c : Cfg} {r : Ring} {i addr : Nat} (h : checkSlotOperands c r i addr = .good) :
    i < ringDepth c r ∧ addr < 2 ^ 32 ∧ isPoolSlotAddr c addr = true := by
  unfold checkSlotOperands at h
  split at h
  · cases h
  · split at h
    · cases h
    · split at h
      · rename_i h1 h2 h3; exact ⟨by omega, by omega, h3⟩
      · cases h

theorem runs_checked {A : Allowed} (hr : Ends A) (hl : ∀ m v, A.event (.log m v)) {k : OperandCheck} {run : State → State}
    {s t : State} (h : k = .good → Runs A s (run s)) (e : checked k run s = .next t) : Runs A s t := by
  rcases checked_cases k run s with ⟨hk, h1⟩ | ⟨-, h1⟩ | ⟨-, h1⟩ <;> rw [h1] at e <;> cases e
  · exact h hk
  · exact runs_finish hr _ _ _
  · exact runs_raiseFatal hr hl _ _

/-- Every operation is a run of the primitives it is allowed. -/
theorem runs_exec {i : Instr} {s t : State} (h : exec i s = .next t) : Runs (allowedFor s i) s t := by
  have hr : Ends (allowedFor s i) := ⟨fun _ => trivial⟩
  have htx : SlotWord s .tx .control (txSlot s) := ⟨_, fun h => h.1, rfl⟩
  have hrx : SlotWord s .rx .control (rxSlot s) := ⟨_, fun h => h.2, rfl⟩
  rcases exec_cases i s with ⟨st, v, h1⟩ | ⟨-, -, h1⟩
  · rw [h1] at h; cases h; exact runs_finish hr _ _ _
  · rw [h1] at h
    cases i with
    | ringInit =>
      simp only [execBody, ringInit] at h
      split at h <;> cases h
      · exact runs_raiseFatal hr (fun _ _ => trivial) _ _
      · have : Runs (allowedFor s .ringInit) s (initRxRing (initTxRing s)) :=
          runs_initRings (fun r w k hk => ⟨r, w, k, fun _ => hk, rfl⟩)
        exact .log _ trivial (.setBlk _ (.setBlk _ this))
    | setupTxSlot k a =>
      simp only [execBody] at h
      refine runs_checked hr (fun _ _ => trivial) (fun hk => ?_) h
      have hw : ∀ w, (allowedFor s (.setupTxSlot k a)).write (.desc .tx w k) := fun w =>
        ⟨w, k, fun _ => (checkSlotOperands_good hk).1, rfl⟩
      exact .log _ trivial (.setBlk _ (.mmioWrite _ _ (hw _) (.mmioWrite _ _ (hw _) .refl)))
    | setupRxSlot k a =>
      simp only [execBody] at h
      refine runs_checked hr (fun _ _ => trivial) (fun hk => ?_) h
      have hw : ∀ w, (allowedFor s (.setupRxSlot k a)).write (.desc .rx w k) := fun w =>
        ⟨w, k, fun _ => (checkSlotOperands_good hk).1, rfl⟩
      exact .log _ trivial (.setBlk _ (.mmioWrite _ _ (hw _) (.mmioWrite _ _ (hw _) (.mmioWrite _ _ (hw _)
        (.mmioWrite _ _ (hw _) .refl)))))
    | macAddrWrite =>
      cases h
      exact .log _ trivial (.setBlk _ (.setBlk _ (.mmioWrite _ _ (.inr rfl) (.mmioWrite _ _ (.inl rfl) .refl))))
    | irqMaskSet => cases h; exact .log _ trivial (.setBlk _ (.mmioWrite _ _ rfl .refl))
    | bringup =>
      simp only [execBody] at h
      split at h <;> cases h
      have hm : MiiAllowed (allowedFor s .bringup) := ⟨.inl rfl, .inr rfl, .inl rfl, .inr (.inl rfl), .inr (.inr rfl)⟩
      exact runs_bringup hm hr (fun _ => trivial) (fun _ _ => trivial) trivial ‹_›
    | macEnable => cases h; exact .log _ trivial (.setBlk _ (.setBlk _ (.mmioWrite _ _ rfl (.mmioRead _ rfl .refl))))
    | transmit len src =>
      simp only [execBody] at h
      refine runs_checked hr (fun _ _ => trivial) (fun _ => ?_) h
      simp only [transmit]
      have h1 : Runs (allowedFor s (.transmit len src)) s (s.mmioRead (txSlot s)) := .mmioRead _ htx .refl
      split
      · exact .log _ trivial (.setBlk _ h1)
      · refine .log _ trivial (.setBlk _ (.setBlk _ (.mmioWrite _ _ ?_ (h1.trans (runs_copyBytes trivial _ _ _ _)))))
        show SlotWord s .tx .control _
        simpa [txSlot] using htx
    | receiveReady =>
      cases h
      exact .log _ trivial (.setBlk _ (.mmioRead _ hrx .refl))
    | receiveLength =>
      cases h
      exact .log _ trivial (.setBlk _ (.mmioRead _ hrx .refl))
    | receive n d =>
      cases h
      exact .log _ trivial (.setBlk _ (runs_rxReceive hrx hrx trivial _ _))
    | macAddress => cases h; exact runs_finish hr _ _ _
    | dispatch =>
      cases h
      have h1 : Runs (allowedFor s .dispatch) s (s.mmioRead (.reg .intSource)) := .mmioRead _ (.inl rfl) .refl
      simp only [dispatchPass]
      split
      · exact h1.trans (runs_drainPass _ (by simp) (by simp))
      · exact runs_dispatchEnd _ h1

end Sys2Proof.Machine
end

