-- ==== Sys2Proof/Laws/Mii.lean ====
section
/-! SUPPORT. The MII transaction: what is seen of it, for every schedule of the agents, and what it does while no agent
acts. -/

namespace Sys2Proof.Machine

/-! ## What a piece of the trace shows of MII transactions -/

/-- The transactions started, the PHY words read and the delays in a list of events, the newest first. -/
structure MiiSummary (c : Cfg) (evs : List Event) (tx : List MiiDir) (ws : List Half) (dl : Nat) : Prop where
  txns : evs.filterMap (txnStarted c.layout) = tx
  words : evs.filterMap (phyWordRead c.layout) = ws
  delays : evs.countP isDelay = dl

/-- Summaries of two pieces of the trace add up. -/
theorem MiiSummary.append {c e1 e2 t1 t2 w1 w2 d1 d2} (h1 : MiiSummary c e1 t1 w1 d1) (h2 : MiiSummary c e2 t2 w2 d2) : MiiSummary c (e1 ++ e2) (t1 ++ t2) (w1 ++ w2) (d1 + d2) :=
  ⟨by simp [h1.1, h2.1], by simp [h1.2, h2.2], by simp [h1.3, h2.3]⟩

/-- No two named registers share an offset (R9). -/
theorem regs_nodup (c : Cfg) : c.layout.regOffsets.Nodup := by
  have hd := c.wf_parts.2.2.2.1
  simp only [Layout.disjoint, Bool.and_eq_true, decide_eq_true_eq] at hd
  exact hd.1.1.1.2

/-- The word with one field's bit set is not 0. -/
theorem bit_ne_zero (f : Field) (h : f.width = 1 ∧ f.lo + 1 ≤ 32) : Field.bit 32 f ≠ 0 := by
  intro e
  have := Field.test_bit_self f h.1 h.2
  rw [e, Field.test_zero f h.1 (by omega)] at this; cases this

/-- The two command bits are different words. -/
theorem bits_ne (c : Cfg) : Field.bit 32 c.layout.rstat ≠ Field.bit 32 c.layout.wctrldata := by
  intro e
  have h1 := Field.test_bit_self c.layout.rstat c.rstat_ok.1 c.rstat_ok.2
  have h2 := Field.test_bit_apart _ _ c.rstat_ok.1 c.wctrldata_ok.1 c.rstat_ok.2 c.enables_apart.2
  rw [e, h2] at h1; cases h1

/-- Different registers stand at different offsets. -/
theorem reg_offset_ne (c : Cfg) {r r' : Reg} (h : r ≠ r') : locOffset c.layout (.reg r) ≠ locOffset c.layout (.reg r') := by
  have hn := regs_nodup c
  simp only [Layout.regOffsets, List.nodup_cons, List.mem_cons, List.not_mem_nil, or_false, not_or] at hn
  obtain ⟨⟨a1,a2,a3,a4,a5,a6,a7,a8,a9⟩,⟨b1,b2,b3,b4,b5,b6,b7,b8⟩,⟨c1,c2,c3,c4,c5,c6,c7⟩,⟨d1,d2,d3,d4,d5,d6⟩,⟨e1,e2,e3,e4,e5⟩,⟨f1,f2,f3,f4⟩,⟨g1,g2,g3⟩,⟨h1,h2⟩,i1,-⟩ := hn
  cases r <;> cases r' <;> first | exact absurd rfl h | (simp only [locOffset]; first | assumption | (intro e; exact absurd e.symm (by assumption)))

/-- A read of any register but `MIIRX_DATA` reads no PHY word. -/
theorem sum_read_other (c : Cfg) (r : Reg) (h : r ≠ .miiRxData) (v : Word) : MiiSummary c [readEvent c (.reg r) v] [] [] 0 := by
  have := reg_offset_ne c h
  refine ⟨rfl, ?_, rfl⟩
  simp only [readEvent, List.filterMap, phyWordRead]
  rw [if_neg (by exact this)]

/-- A write of any register but `MIICOMMAND` starts no transaction. -/
theorem sum_write_other (c : Cfg) (r : Reg) (h : r ≠ .miiCommand) (v : Word) : MiiSummary c [writeEvent c (.reg r) v] [] [] 0 := by
  have := reg_offset_ne c h
  refine ⟨?_, rfl, rfl⟩
  simp only [writeEvent, List.filterMap, txnStarted]
  rw [if_neg (by exact this)]

/-- Clearing the command register starts no transaction (R90). -/
theorem sum_cmd_zero (c : Cfg) : MiiSummary c [writeEvent c (.reg .miiCommand) 0] [] [] 0 := by
  refine ⟨?_, rfl, rfl⟩
  simp only [writeEvent, List.filterMap, txnStarted, locOffset]
  rw [if_pos trivial, if_neg (bit_ne_zero _ c.wctrldata_ok).symm, if_neg (bit_ne_zero _ c.rstat_ok).symm]

/-- The write command bit starts a write transaction (R90). -/
theorem sum_cmd_write (c : Cfg) : MiiSummary c [writeEvent c (.reg .miiCommand) (Field.bit 32 c.layout.wctrldata)] [.write] [] 0 := by
  refine ⟨?_, rfl, rfl⟩
  simp [writeEvent, List.filterMap, txnStarted, locOffset]

/-- The read command bit starts a read transaction (R90). -/
theorem sum_cmd_read (c : Cfg) : MiiSummary c [writeEvent c (.reg .miiCommand) (Field.bit 32 c.layout.rstat)] [.read] [] 0 := by
  refine ⟨?_, rfl, rfl⟩
  simp [writeEvent, List.filterMap, txnStarted, locOffset, bits_ne]

/-- A read of `MIIRX_DATA` reads a PHY word (R146). -/
theorem sum_rx (c : Cfg) (v) : MiiSummary c [readEvent c (.reg .miiRxData) v] [] [(Field.get c.layout.prsd v).truncate 16] 0 := by
  refine ⟨rfl, ?_, rfl⟩
  simp [readEvent, List.filterMap, phyWordRead, locOffset]

/-- A busy-wait that returns has only read `MIISTATUS`, the last time with the busy flag clear (R142). -/
theorem waitIdleTurns_spec {n : Nat} {s t : State} (e : waitIdleTurns n s = some t) :
    t.blk = s.blk ∧ t.cfg = s.cfg ∧ ∃ r, IsWait s.cfg r ∧ t.trace = r ++ s.trace := by
  induction n generalizing s with
  | zero => cases e
  | succ n ih =>
    simp only [waitIdleTurns] at e
    split at e
    · rename_i hb
      obtain ⟨h1, h2, r, ⟨v, vs, rfl, h3, h4⟩, h5⟩ := ih e
      simp only [State.mmioRead_blk, State.mmioRead_cfg, State.mmioRead_trace] at *
      refine ⟨h1, h2, _, ⟨v, vs ++ [s.mmioVal (.reg .miiStatus)], rfl, h3, ?_⟩, ?_⟩
      · simp only [List.mem_append, List.mem_singleton]; rintro u (hu | rfl)
        · exact h4 u hu
        · exact hb
      · simp [h5]
    · rename_i hb
      cases e
      simp only [State.mmioRead_blk, State.mmioRead_cfg, State.mmioRead_trace]
      exact ⟨trivial, trivial, _, ⟨_, [], rfl, by simpa using hb, by simp⟩, rfl⟩

/-- A busy-wait starts no transaction. -/
theorem sum_wait {c r} (h : IsWait c r) : MiiSummary c r [] [] 0 := by
  obtain ⟨v, vs, rfl, -, -⟩ := h
  have : ∀ l : List Word, MiiSummary c (l.map (readEvent c (.reg .miiStatus))) [] [] 0 := by
    intro l
    induction l with
    | nil => exact ⟨rfl, rfl, rfl⟩
    | cons v l ih => exact (sum_read_other c .miiStatus (by decide) v).append ih
  exact this (v :: vs)

/-- What is seen of `Trigger`: a wait, the pulse, a wait (R144). -/
theorem trigger_spec {f : Field} {s t : State} (e : trigger f s = some t) :
    t.blk = s.blk ∧ t.cfg = s.cfg ∧ ∃ r1 r2, IsWait s.cfg r1 ∧ IsWait s.cfg r2 ∧ t.trace = r2 ++
        [writeEvent s.cfg (.reg .miiCommand) 0, writeEvent s.cfg (.reg .miiCommand) (Field.bit 32 f)] ++ r1 ++ s.trace := by
  obtain ⟨s1, h1, h2⟩ := Option.bind_eq_some_iff.1 e
  obtain ⟨b1, c1, r1, w1, t1⟩ := waitIdleTurns_spec h1
  obtain ⟨b2, c2, r2, w2, t2⟩ := waitIdleTurns_spec h2
  simp only [pulse, State.mmioWrite_blk, State.mmioWrite_cfg, State.mmioWrite_trace] at *
  rw [c1] at c2 w2
  refine ⟨b2.trans b1, c2, r1, r2, w1, w2, ?_⟩
  rw [t2, t1, c1]; simp

/-- `MiiWrite` starts one write transaction and writes no working register (R145). -/
theorem miiWrite_spec {reg : BitVec 5} {data : Half} {s t : State} (e : miiWrite reg data s = some t) :
    t.blk = s.blk ∧ t.cfg = s.cfg ∧ ∃ evs, t.trace = evs ++ s.trace ∧ MiiSummary s.cfg evs [.write] [] 0 := by
  obtain ⟨b, c, r1, r2, w1, w2, ht⟩ := trigger_spec e
  simp only [miiSelect, State.mmioWrite_blk, State.mmioWrite_cfg, State.mmioWrite_trace] at *
  refine ⟨b, c, r2 ++ [_, _] ++ r1 ++ [_, _], by rw [ht]; simp; exact ⟨rfl, rfl, rfl, rfl⟩, ?_⟩
  exact (((sum_wait w2).append ((sum_cmd_zero s.cfg).append (sum_cmd_write s.cfg))).append (sum_wait w1)).append ((sum_write_other _ .miiTxData (by decide) _).append (sum_write_other _ .miiAddress (by decide) _))

/-- `MiiRead` starts one read transaction, and keeps the word read in `MD` (R146). -/
theorem miiRead_spec {reg : BitVec 5} {s t : State} (e : miiRead reg s = some t) :
    t.blk = { s.blk with md := t.blk.md } ∧ t.cfg = s.cfg ∧ ∃ evs, t.trace = evs ++ s.trace
        ∧ MiiSummary s.cfg evs [.read] [t.blk.md] 0 := by
  obtain ⟨s1, h1, rfl⟩ := Option.map_eq_some_iff.1 e
  obtain ⟨b, c, r1, r2, w1, w2, ht⟩ := trigger_spec h1
  simp only [miiSelect, State.mmioWrite_blk, State.mmioWrite_cfg, State.mmioWrite_trace] at *
  refine ⟨by simp [loadMd, b], by simpa [loadMd] using c,
      [readEvent s.cfg (.reg .miiRxData) (s1.mmioVal (.reg .miiRxData))] ++ r2 ++ [writeEvent s.cfg (.reg .miiCommand) 0,
      writeEvent s.cfg (.reg .miiCommand) (Field.bit 32 s.cfg.layout.rstat)] ++ r1 ++
      [writeEvent s.cfg (.reg .miiAddress) (miiSelectValue s.cfg reg)], ?_, ?_⟩
  · simp [loadMd, ht, c]
  · have := (((sum_rx s.cfg (s1.mmioVal (.reg .miiRxData))).append (sum_wait w2)).append ((sum_cmd_zero s.cfg).append (sum_cmd_read s.cfg))).append (sum_wait w1) |>.append (sum_write_other s.cfg .miiAddress (by decide) (miiSelectValue s.cfg reg))
    simpa [loadMd, c] using this

abbrev resetting (c : Cfg) (w : Half) := Field.test c.layout.phyReset w
abbrev linkOk (c : Cfg) (w : Half) := Field.test c.layout.phyLink w

/-- What the reset polling loop does, by its outcome (R162 to R164). -/
theorem resetPoll_spec {n : Nat} {s t : State} {b : Bool} (e : resetPoll n s = some (b, t)) :
    t.cfg = s.cfg ∧ ∃ k evs, ∃ rs : List Half, k ≤ n ∧ rs.length = k ∧ t.trace = evs ++ s.trace
      ∧ MiiSummary s.cfg evs (List.replicate k .read) rs.reverse 0
      ∧ t.blk = { s.blk with rt := s.blk.rt + BitVec.ofNat 32 k, md := t.blk.md, pc := if k = 0 then s.blk.pc else .resetPolling }
      ∧ (k ≠ 0 → rs.getLast? = some t.blk.md)
      ∧ (b = true → 1 ≤ k ∧ (∀ w ∈ rs.dropLast, resetting s.cfg w = true) ∧ resetting s.cfg t.blk.md = false)
      ∧ (b = false → k = n ∧ ∀ w ∈ rs, resetting s.cfg w = true) := by
  induction n generalizing s with
  | zero => cases e; exact ⟨rfl, 0, [], [], le_refl _, rfl, rfl, ⟨rfl, rfl, rfl⟩, by simp, by simp, by simp, by simp⟩
  | succ n ih =>
    obtain ⟨s1, h1, h2⟩ := Option.bind_eq_some_iff.1 e
    obtain ⟨hb, hc, evs, ht, hs⟩ := miiRead_spec h1
    split at h2
    · rename_i hr
      obtain ⟨c2, k, evs2, rs, k1, k2, k3, k4, k5, k6, k7, k8⟩ := ih h2
      simp only [countReset, State.setBlk_cfg, State.setBlk_blk, State.setBlk_trace, hc] at *
      refine ⟨c2, k + 1, evs2 ++ evs, s1.blk.md :: rs, by omega, by simp [k2], by rw [k3, ht]; simp, ?_, ?_, ?_, ?_, ?_⟩
      · have := k4.append hs
        rw [List.replicate_succ']; simpa using this
      · rw [k5, hb]
        congr 1
        · rw [show BitVec.ofNat 32 (k+1) = BitVec.ofNat 32 k + 1#32 by rw [← BitVec.ofNat_add]]
          simp only [BitVec.add_assoc]; congr 1; exact BitVec.add_comm _ _
        · split <;> rfl
      · intro _
        by_cases hk : k = 0
        · subst hk
          have : rs = [] := List.length_eq_zero_iff.1 k2
          subst this
          rcases b with _ | _
          · cases n with
            | zero => cases h2; simp
            | succ n => exact absurd (k8 rfl).1 (by simp)
          · exact absurd (k7 rfl).1 (by simp)
        · have hne : rs ≠ [] := by intro h; subst h; exact hk k2.symm
          rw [List.getLast?_cons_of_ne_nil hne, k6 hk]
      · intro hbt
        obtain ⟨q1, q2, q3⟩ := k7 hbt
        have hne : rs ≠ [] := by intro h; subst h; simp at k2; omega
        refine ⟨by omega, ?_, q3⟩
        rw [List.dropLast_cons_of_ne_nil hne]
        simp only [List.forall_mem_cons]; exact ⟨hr, q2⟩
      · intro hbf
        obtain ⟨q1, q2⟩ := k8 hbf
        exact ⟨by omega, by simp only [List.forall_mem_cons]; exact ⟨hr, q2⟩⟩
    · rename_i hr
      cases h2
      simp only [countReset, State.setBlk_cfg, State.setBlk_blk, State.setBlk_trace]
      refine ⟨hc, 1, evs, [s1.blk.md], by omega, rfl, ht, by simpa using hs, by rw [hb]; rfl, by simp, ?_, by simp⟩
      intro _; refine ⟨by omega, by simp, ?_⟩; rw [← hc]; simpa using hr

/-- The delay before an attempt of link polling, unless it is 0 (R168): it is seen, and the agents have their turn. -/
theorem pollDelay_spec (s : State) : (pollDelay s).blk = s.blk ∧ (pollDelay s).cfg = s.cfg
    ∧ (pollDelay s).trace = (if 0 < s.cfg.linkPollDelayUs then [.delay s.cfg.linkPollDelayUs] else []) ++ s.trace := by
  unfold pollDelay
  split <;> simp

/-- What the link polling loop does, by its outcome (R168 to R170). -/
theorem linkPoll_spec {n : Nat} {s t : State} {b : Bool} (e : linkPoll n s = some (b, t)) :
    t.cfg = s.cfg ∧ ∃ k evs, ∃ rs : List Half, k ≤ n ∧ rs.length = k ∧ t.trace = evs ++ s.trace
      ∧ MiiSummary s.cfg evs (List.replicate k .read) rs.reverse (if 0 < s.cfg.linkPollDelayUs then k else 0)
      ∧ t.blk = { s.blk with lt := s.blk.lt + BitVec.ofNat 32 k, md := t.blk.md }
      ∧ (k ≠ 0 → rs.getLast? = some t.blk.md)
      ∧ (b = true → 1 ≤ k ∧ (∀ w ∈ rs.dropLast, linkOk s.cfg w = false) ∧ linkOk s.cfg t.blk.md = true)
      ∧ (b = false → k = n ∧ ∀ w ∈ rs, linkOk s.cfg w = false) := by
  induction n generalizing s with
  | zero => cases e; exact ⟨rfl, 0, [], [], le_refl _, rfl, rfl, ⟨rfl, rfl, by simp⟩, by simp, by simp, by simp, by simp⟩
  | succ n ih =>
    obtain ⟨s1, h1, h2⟩ := Option.bind_eq_some_iff.1 e
    obtain ⟨hb, hc, evs, ht, hs⟩ := miiRead_spec h1
    have pd : (pollDelay s).blk = s.blk ∧ (pollDelay s).cfg = s.cfg ∧ ∃ d, (pollDelay s).trace = d ++ s.trace
        ∧ MiiSummary s.cfg d [] [] (if 0 < s.cfg.linkPollDelayUs then 1 else 0) := by
      obtain ⟨p1, p2, p3⟩ := pollDelay_spec s
      refine ⟨p1, p2, _, p3, ?_⟩
      split <;> exact ⟨rfl, rfl, rfl⟩
    obtain ⟨pb, pc, d, pt, ps⟩ := pd
    rw [pc] at hc hs; rw [pb] at hb; rw [pt] at ht
    split at h2
    · rename_i hr
      cases h2
      simp only [countLink, State.setBlk_cfg, State.setBlk_blk, State.setBlk_trace]
      refine ⟨hc, 1, evs ++ d, [s1.blk.md], by omega, rfl, by rw [ht]; simp, ?_, by rw [hb]; rfl, by simp, ?_, by simp⟩
      · have := hs.append ps; simpa using this
      · intro _; refine ⟨by omega, by simp, ?_⟩; rw [← hc]; exact hr
    · rename_i hr
      obtain ⟨c2, k, evs2, rs, k1, k2, k3, k4, k5, k6, k7, k8⟩ := ih h2
      simp only [countLink, State.setBlk_cfg, State.setBlk_blk, State.setBlk_trace, hc] at *
      have hr' : linkOk s.cfg s1.blk.md = false := by simpa using hr
      refine ⟨c2, k + 1, evs2 ++ (evs ++ d), s1.blk.md :: rs, by omega, by simp [k2], by rw [k3, ht]; simp, ?_, ?_, ?_, ?_, ?_⟩
      · have := k4.append (hs.append ps)
        rw [List.replicate_succ']; 
        by_cases hd : 0 < s.cfg.linkPollDelayUs <;> simp only [hd, if_true,
            if_false] at this ⊢ <;> simpa [Nat.add_comm] using this
      · rw [k5, hb]
        congr 1
        · rw [show BitVec.ofNat 32 (k+1) = BitVec.ofNat 32 k + 1#32 by rw [← BitVec.ofNat_add]]
          simp only [BitVec.add_assoc]; congr 1; exact BitVec.add_comm _ _
      · intro _
        by_cases hk : k = 0
        · subst hk
          have : rs = [] := List.length_eq_zero_iff.1 k2
          subst this
          rcases b with _ | _
          · cases n with
            | zero => cases h2; simp
            | succ n => exact absurd (k8 rfl).1 (by simp)
          · exact absurd (k7 rfl).1 (by simp)
        · have hne : rs ≠ [] := by intro h; subst h; exact hk k2.symm
          rw [List.getLast?_cons_of_ne_nil hne, k6 hk]
      · intro hbt
        obtain ⟨q1, q2, q3⟩ := k7 hbt
        have hne : rs ≠ [] := by intro h; subst h; simp at k2; omega
        refine ⟨by omega, ?_, q3⟩
        rw [List.dropLast_cons_of_ne_nil hne]
        simp only [List.forall_mem_cons]; exact ⟨hr', q2⟩
      · intro hbf
        obtain ⟨q1, q2⟩ := k8 hbf
        exact ⟨by omega, by simp only [List.forall_mem_cons]; exact ⟨hr', q2⟩⟩

/-! ## The busy-wait -/

/-- A one-bit field set to a Boolean reads as that Boolean. -/
theorem Field.test_set_bitOf {f : Field} (v : Word) (b : Bool) (h : f.width = 1 ∧ f.lo +
    1 ≤ 32) : Field.test f (Field.set f v (bitOf 32 b)) = b := by
  rw [Field.test_set_self f _ _ h.1 h.2]; cases b <;> simp [bitOf]

/-- A status read shows the busy flag exactly while a transaction is in progress (R91). -/
theorem busy_mmioVal (s : State) : Field.test s.cfg.layout.busy (s.mmioVal (.reg .miiStatus)) = (s.readTick (.reg .miiStatus)).dev.mii.isSome := by
  simp only [State.mmioVal, Device.get]
  exact Field.test_set_bitOf _ _ s.cfg.busy_ok

/-- With nothing scheduled, the engine has completed before a status read (R93). -/
theorem readTick_status_settled {s : State} (hq : Quiet s) (hm : s.env.miiCompletes = true) : (s.readTick (.reg .miiStatus)) = s.settle := by
  simp only [State.readTick, State.statusTick]
  rw [show s.env.schedule = [] from hq]; simp [hm]

/-- With nothing scheduled and an engine that never completes, a status read changes nothing (R316). -/
theorem readTick_status_stuck {s : State} (hq : Quiet s) (hm : s.env.miiCompletes = false) : (s.readTick (.reg .miiStatus)) = s := by
  simp only [State.readTick, State.statusTick]
  rw [show s.env.schedule = [] from hq]; simp [hm]

/-- A busy-wait on an engine that never completes does not return, whatever the number of turns (R316). -/
theorem waitIdleTurns_stuck (n : Nat) (s : State) (hq : Quiet s) (hm : s.env.miiCompletes = false) (hb : s.dev.mii.isSome = true) : waitIdleTurns n s = none := by
  induction n generalizing s with
  | zero => rfl
  | succ n ih =>
    simp only [waitIdleTurns, busy_mmioVal, readTick_status_stuck hq hm, hb, if_true]
    apply ih
    · show (s.mmioRead _).env.schedule = []
      rw [State.mmioRead_env, readTick_status_stuck hq hm]; exact hq
    · rw [State.mmioRead_env, readTick_status_stuck hq hm]; exact hm
    · rw [State.mmioRead_dev, readTick_status_stuck hq hm]; exact hb

/-- A read leaves the engine's promise to complete as it is. -/
theorem mmioRead_completes (l : Loc) (s : State) : (s.mmioRead l).env.miiCompletes = s.env.miiCompletes := by
  have := s.readTick_fixed l
  simp only [Env.fixed, Prod.mk.injEq] at this
  exact this.1

/-- More turns than the busy-wait is given never change what it does (R142). -/
theorem waitIdleTurns_more (m : Nat) (s : State) : waitIdleTurns (s.env.schedule.length + 1 +
    m) s = waitIdleTurns (s.env.schedule.length + 1) s := by
  generalize hk : s.env.schedule.length = k
  induction k generalizing s with
  | zero =>
    have hq : Quiet s := List.length_eq_zero_iff.1 hk
    rw [show 0 + 1 + m = m + 1 by omega]
    simp only [waitIdleTurns, busy_mmioVal]
    cases hm : s.env.miiCompletes with
    | true => rw [readTick_status_settled hq hm]; simp
    | false =>
      rw [readTick_status_stuck hq hm]
      split
      · apply waitIdleTurns_stuck
        · show (s.mmioRead _).env.schedule = []
          rw [State.mmioRead_env, readTick_status_stuck hq hm]; exact hq
        · rw [mmioRead_completes]; exact hm
        · rw [State.mmioRead_dev, readTick_status_stuck hq hm]; assumption
      · rfl
  | succ k ih =>
    rw [show k + 1 + 1 + m = (k + 1 + m) + 1 by omega]
    simp only [waitIdleTurns]
    rw [ih]
    · rfl
    · rw [State.mmioRead_env, State.readTick_schedule, List.length_tail, hk]; omega

/-- The busy-wait returns when every transaction completes (R93). -/
theorem waitIdleTurns_returns (s : State) (hm : s.env.miiCompletes = true) : ∃ t, waitIdleTurns (s.env.schedule.length +
    1) s = some t := by
  generalize hk : s.env.schedule.length = k
  induction k generalizing s with
  | zero =>
    have hq : Quiet s := List.length_eq_zero_iff.1 hk
    simp only [waitIdleTurns, busy_mmioVal, readTick_status_settled hq hm]; simp
  | succ k ih =>
    rw [waitIdleTurns]
    split
    · apply ih
      · rw [mmioRead_completes]; exact hm
      · rw [State.mmioRead_env, State.readTick_schedule, List.length_tail, hk]; omega
    · exact ⟨_, rfl⟩

/-- A busy-wait leaves the engine's promise to complete as it is. -/
theorem waitIdle_completes {s t : State} (h : waitIdle s = some t) : t.env.miiCompletes = s.env.miiCompletes :=
  (runs_waitIdleTurns (A := allowedFor s .bringup) ⟨.inl rfl, .inr rfl, .inl rfl, .inr (.inl rfl), .inr (.inr rfl)⟩ h).host.2.1

/-! ## Transactions while no agent acts -/

/-- A write leaves the engine's promise to complete as it is. -/
theorem mmioWrite_completes (l : Loc) (v) (s : State) : (s.mmioWrite l v).env.miiCompletes = s.env.miiCompletes := by
  have := s.tick_fixed
  simp only [Env.fixed, Prod.mk.injEq] at this
  exact this.1

/-- A write leaves the agents quiet. -/
theorem mmioWrite_quiet (l : Loc) (v) (s : State) (h : Quiet s) : Quiet (s.mmioWrite l v) := by
  show s.tick.env.schedule = []
  rw [s.tick_quiet h]; exact h

/-- A busy-wait while no agent acts is one read (R148). -/
theorem waitIdle_quiet {s : State} (hq : Quiet s) (hm : s.env.miiCompletes = true) : waitIdle s = some (s.mmioRead (.reg .miiStatus)) ∧ (s.mmioRead (.reg .miiStatus)).dev = s.dev.miiFinish s.cfg 0 ∧ (s.mmioRead (.reg .miiStatus)).env = s.env ∧ (s.mmioRead (.reg .miiStatus)).mem = s.mem := by
  refine ⟨?_, ?_, ?_, ?_⟩
  · unfold waitIdle
    rw [show s.env.schedule = [] from hq]
    simp [waitIdleTurns, busy_mmioVal, readTick_status_settled hq hm]
  all_goals simp only [State.mmioRead_dev, State.mmioRead_env, State.mmioRead_mem, readTick_status_settled hq hm]; rfl

/-- An idle engine has nothing to finish. -/
theorem miiFinish_idle (c : Cfg) (o : Word) (d : Device) (h : d.mii = none) : d.miiFinish c o = d := by
  simp [Device.miiFinish, h]

/-- The PHY address comes back from the address word (R141). -/
theorem select_fiad (c : Cfg) (reg : BitVec 5) : (Field.get c.layout.fiad (miiSelectValue c reg)).truncate 5 = c.phyAddr := by
  obtain ⟨h1, h2, h3⟩ := c.miiAddress_ok
  simp only [Field.apart, Bool.or_eq_true, decide_eq_true_eq] at h1
  apply BitVec.eq_of_getLsbD_eq
  intro i hi
  have e : (BitVec.truncate 5 (Field.get c.layout.fiad (miiSelectValue c reg))).getLsbD i = (Field.get c.layout.fiad (miiSelectValue c reg)).getLsbD i := by simp [hi]
  rw [e, Field.get_getLsbD, miiSelectValue, Field.set_getLsbD _ _ _ _ (by omega), if_neg (by omega),
      Field.set_getLsbD _ _ _ _ (by omega), if_pos (by omega), Nat.add_sub_cancel_left]
  simp [show i < c.layout.fiad.width by omega]; try omega

/-- The register number comes back from the address word (R141). -/
theorem select_rgad (c : Cfg) (reg : BitVec 5) : (Field.get c.layout.rgad (miiSelectValue c reg)).truncate 5 = reg := by
  obtain ⟨h1, h2, h3⟩ := c.miiAddress_ok
  apply BitVec.eq_of_getLsbD_eq
  intro i hi
  have e : (BitVec.truncate 5 (Field.get c.layout.rgad (miiSelectValue c reg))).getLsbD i = (Field.get c.layout.rgad (miiSelectValue c reg)).getLsbD i := by simp [hi]
  rw [e, Field.get_getLsbD, miiSelectValue, Field.set_getLsbD _ _ _ _ (by omega), if_pos (by omega), Nat.add_sub_cancel_left]
  simp [show i < c.layout.rgad.width by omega]; try omega

/-- The data come back from the write-data word (R145). -/
theorem ctrldata_get (c : Cfg) (data : Half) : (Field.get c.layout.ctrldata (Field.set c.layout.ctrldata 0 (data.zeroExtend 32))).truncate 16 = data := by
  obtain ⟨h1, h2⟩ := c.ctrldata_ok
  apply BitVec.eq_of_getLsbD_eq
  intro i hi
  have e : ∀ w : Word, (BitVec.truncate 16 w).getLsbD i = w.getLsbD i := by intro w; simp [hi]
  rw [e, Field.get_getLsbD, Field.set_getLsbD _ _ _ _ (by omega), if_pos (by omega), Nat.add_sub_cancel_left]
  simp [show i < c.layout.ctrldata.width by omega]; try omega

/-- `Trigger` while no agent acts and the engine is idle. -/
theorem trigger_quiet {s : State} (f : Field) (hq : Quiet s) (he : EngineReady s) :
    ∃ t, trigger f s = some t ∧ t.cfg = s.cfg ∧ t.blk = s.blk ∧ t.mem = s.mem ∧ t.env = s.env
        ∧ t.trace.length = s.trace.length + 4
      ∧ t.dev = ((s.dev.put s.cfg (.reg .miiCommand) (Field.bit 32 f)).put s.cfg (.reg .miiCommand) 0).miiFinish s.cfg 0 := by
  obtain ⟨w1, w2, w3, w4⟩ := waitIdle_quiet hq he.2
  have q1 : Quiet (s.mmioRead (.reg .miiStatus)) := by unfold Quiet; rw [w3]; exact hq
  have q2 := mmioWrite_quiet (.reg .miiCommand) (Field.bit 32 f) _ q1
  have q3 := mmioWrite_quiet (.reg .miiCommand) 0 _ q2
  have e3 : (pulse f (s.mmioRead (.reg .miiStatus))).env = s.env := by
    simp only [pulse, State.mmioWrite_env, State.tick_quiet _ q2, State.tick_quiet _ q1, w3]
  obtain ⟨v1, v2, v3, v4⟩ := waitIdle_quiet (s := pulse f (s.mmioRead (.reg .miiStatus))) q3 (by rw [e3]; exact he.2)
  refine ⟨_, by rw [trigger, w1]; exact v1, by simp [pulse], by simp [pulse], ?_, by rw [v3, e3], by simp [pulse], ?_⟩
  · rw [v4]; simp only [pulse, State.mmioWrite_mem, State.tick_quiet _ q2, State.tick_quiet _ q1, w4]
  · rw [v2]; simp only [pulse, State.mmioWrite_dev, State.mmioWrite_cfg, State.mmioRead_cfg, State.tick_quiet _ q2,
        State.tick_quiet _ q1, w2, miiFinish_idle _ _ _ he.1]

/-- Writing 0 to the command register starts and aborts nothing (R90). -/
theorem miiCommandWrite_zero (c : Cfg) (d : Device) : d.miiCommandWrite c 0 = { d with miiCommand := 0 } := by
  have h1 : Field.test c.layout.wctrldata (0 : Word) = false := Field.test_zero _ c.wctrldata_ok.1 (by omega)
  have h2 : Field.test c.layout.rstat (0 : Word) = false := Field.test_zero _ c.rstat_ok.1 (by omega)
  simp only [Device.miiCommandWrite, h1, h2]
  split <;> rfl

/-- Storing into the PHY does not touch the engine's transaction. -/
theorem phyStore_mii (c : Cfg) (d : Device) (x : Option MiiTxn) (a r : BitVec 5) (v : Half) :
    ({ d with mii := x } : Device).phyStore c a r v = { d.phyStore c a r v with mii := x } := by
  simp only [Device.phyStore, Device.setPhyReg]
  split
  · rfl
  · split <;> rfl

/-- Loading from the PHY does not touch the engine's transaction. -/
theorem phyLoad_mii (c : Cfg) (d : Device) (x : Option MiiTxn) (a r : BitVec 5) :
    ({ d with mii := x } : Device).phyLoad c a r = { d.phyLoad c a r with mii := x } := by
  simp only [Device.phyLoad, Device.simRead, Device.simReadCtrl, Device.simReadStatus, Device.setPhyReg]
  repeat' split
  all_goals rfl

/-- A write transaction, from the idle engine, all at once. -/
theorem txn_write {c : Cfg} {d : Device} {reg : BitVec 5} {data : Half} (h : d.mii = none) (ha : d.miiAddress = miiSelectValue c reg)
    (hd : d.miiTxData = Field.set c.layout.ctrldata 0 (data.zeroExtend 32)) :
    ((d.miiCommandWrite c (Field.bit 32 c.layout.wctrldata)).miiCommandWrite c 0).miiFinish c 0
      = ({ d with miiCommand := 0 } : Device).phyStore c c.phyAddr reg data := by
  have w := Field.test_bit_self _ c.wctrldata_ok.1 c.wctrldata_ok.2
  have e1 : d.miiCommandWrite c (Field.bit 32 c.layout.wctrldata) = { d with miiCommand := Field.bit 32 c.layout.wctrldata, mii := some ⟨.write, c.phyAddr, reg, data⟩ } := by
    simp only [Device.miiCommandWrite, h, w, ha, hd, select_fiad, select_rgad, ctrldata_get]; simp
  rw [e1, miiCommandWrite_zero]
  simp only [Device.miiFinish]
  have := phyStore_mii c { d with miiCommand := 0 } (some ⟨.write, c.phyAddr, reg, data⟩) c.phyAddr reg data
  simp only at this
  rw [this]
  have k := phyStore_mii c { d with miiCommand := 0 } none c.phyAddr reg data
  simp only at k
  have e : ({ d with miiCommand := 0, mii := none } : Device) = { d with miiCommand := 0 } := by rw [← h]
  rw [e] at k; exact k.symm

/-- A read transaction, from the idle engine, all at once. -/
theorem txn_read {c : Cfg} {d : Device} {reg : BitVec 5} (h : d.mii = none) (ha : d.miiAddress = miiSelectValue c reg) :
    ((d.miiCommandWrite c (Field.bit 32 c.layout.rstat)).miiCommandWrite c 0).miiFinish c 0
      = (fun e : Device => { e with miiRxData := Field.set c.layout.prsd 0 ((e.phyReg c.phyAddr reg).zeroExtend 32) }) (({ d with miiCommand := 0 } : Device).phyLoad c c.phyAddr reg) := by
  have w := Field.test_bit_self _ c.rstat_ok.1 c.rstat_ok.2
  have w2 : Field.test c.layout.wctrldata (Field.bit 32 c.layout.rstat) = false := Field.test_bit_apart _ _ c.wctrldata_ok.1 c.rstat_ok.1 c.wctrldata_ok.2 (by rw [Field.apart_comm]; exact c.enables_apart.2)
  have e1 : d.miiCommandWrite c (Field.bit 32 c.layout.rstat) = { d with miiCommand := Field.bit 32 c.layout.rstat, mii := some ⟨.read, c.phyAddr, reg, (Field.get c.layout.ctrldata d.miiTxData).truncate 16⟩ } := by
    simp only [Device.miiCommandWrite, h, w, w2, ha, select_fiad, select_rgad]; simp
  rw [e1, miiCommandWrite_zero]
  simp only [Device.miiFinish]
  have := phyLoad_mii c { d with miiCommand := 0 } (some ⟨.read, c.phyAddr, reg,
      (Field.get c.layout.ctrldata d.miiTxData).truncate 16⟩) c.phyAddr reg
  simp only at this
  rw [this]
  have k := phyLoad_mii c { d with miiCommand := 0 } none c.phyAddr reg
  simp only at k
  have e : ({ d with miiCommand := 0, mii := none } : Device) = { d with miiCommand := 0 } := by rw [← h]
  rw [e] at k
  rw [k]; rfl

/-- `MiiWrite` while no agent acts and the engine is idle: six events, and the PHY has the data (R145, R148). -/
theorem miiWrite_quiet {s : State} (reg : BitVec 5) (data : Half) (hq : Quiet s) (he : EngineReady s) :
    ∃ t, miiWrite reg data s = some t ∧ t.cfg = s.cfg ∧ t.blk = s.blk ∧ t.mem = s.mem ∧ t.env = s.env
        ∧ t.trace.length = s.trace.length + 6
      ∧ t.dev = { s.dev with miiAddress := miiSelectValue s.cfg reg, miiTxData := Field.set s.cfg.layout.ctrldata 0 (data.zeroExtend 32), miiCommand := 0 }.phyStore s.cfg s.cfg.phyAddr reg data := by
  have q1 : Quiet (miiSelect reg s) := mmioWrite_quiet _ _ _ hq
  have q2 := mmioWrite_quiet (.reg .miiTxData) (Field.set s.cfg.layout.ctrldata 0 (data.zeroExtend 32)) _ q1
  have d2 : ((miiSelect reg s).mmioWrite (.reg .miiTxData) (Field.set s.cfg.layout.ctrldata 0 (data.zeroExtend 32))).dev = { s.dev with miiAddress := miiSelectValue s.cfg reg, miiTxData := Field.set s.cfg.layout.ctrldata 0 (data.zeroExtend 32) } := by
    simp only [State.mmioWrite_dev, State.tick_quiet _ q1]
    simp only [miiSelect, State.mmioWrite_dev, State.tick_quiet _ hq]; rfl
  have e2 : ((miiSelect reg s).mmioWrite (.reg .miiTxData) (Field.set s.cfg.layout.ctrldata 0 (data.zeroExtend 32))).env = s.env := by
    simp only [State.mmioWrite_env, State.tick_quiet _ q1]
    simp only [miiSelect, State.mmioWrite_env, State.tick_quiet _ hq]
  have m2 : ((miiSelect reg s).mmioWrite (.reg .miiTxData) (Field.set s.cfg.layout.ctrldata 0 (data.zeroExtend 32))).mem = s.mem := by
    simp only [State.mmioWrite_mem, State.tick_quiet _ q1]
    simp only [miiSelect, State.mmioWrite_mem, State.tick_quiet _ hq]
  have r2 : EngineReady ((miiSelect reg s).mmioWrite (.reg .miiTxData) (Field.set s.cfg.layout.ctrldata 0 (data.zeroExtend 32))) := by
    refine ⟨by rw [d2]; exact he.1, by rw [e2]; exact he.2⟩
  obtain ⟨t, h1, h2, h3, h4, h5, h6, h7⟩ := trigger_quiet s.cfg.layout.wctrldata q2 r2
  refine ⟨t, h1, by rw [h2]; simp [miiSelect], by rw [h3]; simp [miiSelect], by rw [h4, m2], by rw [h5, e2],
      by rw [h6]; simp [miiSelect], ?_⟩
  rw [h7, d2]
  have := txn_write (c := s.cfg) (d := { s.dev with miiAddress := miiSelectValue s.cfg reg, miiTxData := Field.set s.cfg.layout.ctrldata 0 (data.zeroExtend 32) }) (reg := reg) (data := data) he.1 rfl rfl
  simpa [miiSelect] using this

/-- The PHY word comes back from the read-data word (R146). -/
theorem prsd_get (c : Cfg) (x : Half) : (Field.get c.layout.prsd (Field.set c.layout.prsd 0 (x.zeroExtend 32))).truncate 16 = x := by
  obtain ⟨h1, h2⟩ := c.prsd_ok
  apply BitVec.eq_of_getLsbD_eq
  intro i hi
  have e : ∀ w : Word, (BitVec.truncate 16 w).getLsbD i = w.getLsbD i := by intro w; simp [hi]
  rw [e, Field.get_getLsbD, Field.set_getLsbD _ _ _ _ (by omega), if_pos (by omega), Nat.add_sub_cancel_left]
  simp [show i < c.layout.prsd.width by omega]; try omega

/-- `MiiRead` while no agent acts and the engine is idle: six events, and `MD` has the PHY word (R146, R148). -/
theorem miiRead_quiet {s : State} (reg : BitVec 5) (hq : Quiet s) (he : EngineReady s) :
    ∃ t, miiRead reg s = some t ∧ t.cfg = s.cfg ∧ t.blk = { s.blk with md := t.dev.phyReg s.cfg.phyAddr reg }
        ∧ t.mem = s.mem ∧ t.env = s.env ∧ t.trace.length = s.trace.length + 6
      ∧ t.dev = (fun e : Device => { e with miiRxData := Field.set s.cfg.layout.prsd 0 ((e.phyReg s.cfg.phyAddr reg).zeroExtend 32) }) (({ s.dev with miiAddress := miiSelectValue s.cfg reg, miiCommand := 0 } : Device).phyLoad s.cfg s.cfg.phyAddr reg) := by
  have q1 : Quiet (miiSelect reg s) := mmioWrite_quiet _ _ _ hq
  have d1 : (miiSelect reg s).dev = { s.dev with miiAddress := miiSelectValue s.cfg reg } := by
    simp only [miiSelect, State.mmioWrite_dev, State.tick_quiet _ hq]; rfl
  have e1 : (miiSelect reg s).env = s.env := by simp only [miiSelect, State.mmioWrite_env, State.tick_quiet _ hq]
  have m1 : (miiSelect reg s).mem = s.mem := by simp only [miiSelect, State.mmioWrite_mem, State.tick_quiet _ hq]
  obtain ⟨t, h1, h2, h3, h4, h5, h6, h7⟩ := trigger_quiet s.cfg.layout.rstat q1 ⟨by rw [d1]; exact he.1, by rw [e1]; exact he.2⟩
  have c1 : t.cfg = s.cfg := by rw [h2]; simp [miiSelect]
  have qt : Quiet t := by unfold Quiet; rw [h5, e1]; exact hq
  rw [d1] at h7
  have := txn_read (c := s.cfg) (d := { s.dev with miiAddress := miiSelectValue s.cfg reg }) (reg := reg) he.1 rfl
  have c0 : (miiSelect reg s).cfg = s.cfg := by simp [miiSelect]
  rw [c0] at h7
  simp only [Device.put_miiCommand] at h7
  rw [this] at h7
  have val : t.mmioVal (.reg .miiRxData) = t.dev.miiRxData := by
    simp only [State.mmioVal, State.readTick_miiRxData, t.tick_quiet qt]; rfl
  have phy : t.dev.phyReg = (({ s.dev with miiAddress := miiSelectValue s.cfg reg, miiCommand := 0 } : Device).phyLoad s.cfg s.cfg.phyAddr reg).phyReg := by rw [h7]; rfl
  refine ⟨loadMd t, by rw [miiRead, h1]; rfl, by simp [loadMd, c1], ?_, ?_, ?_, ?_, ?_⟩
  · simp only [loadMd, State.setBlk_blk, State.mmioRead_blk, h3, val, State.setBlk_dev, State.mmioRead_dev,
        State.readTick_miiRxData, t.tick_quiet qt, phy]
    rw [h7]
    simp only [c1, prsd_get, miiSelect, State.mmioWrite_blk]
  · simp [loadMd, t.tick_quiet qt, h4, m1]
  · simp [loadMd, t.tick_quiet qt, h5, e1]
  · simp [loadMd, h6, miiSelect]
  · simp only [loadMd, State.setBlk_dev, State.mmioRead_dev, State.readTick_miiRxData, t.tick_quiet qt]
    exact h7
end Sys2Proof.Machine
end

