-- ==== Sys2Proof/Laws/Bringup.lean ====
section
/-! SUPPORT. Every event of `BRINGUP` with what it carries: one lemma for each transaction and each polling loop, in the
terms of `IsMiiWrite`, `IsMiiRead`, `IsLinkAttempt` and `IsPolling`. -/

namespace Sys2Proof.Machine

/-- The events of `MiiWrite` (R145). -/
theorem miiWrite_events {reg : BitVec 5} {data : Half} {s t : State} (e : miiWrite reg data s = some t) :
    t.blk = s.blk ∧ t.cfg = s.cfg ∧ ∃ evs, IsMiiWrite s.cfg reg data evs ∧ t.trace = evs ++ s.trace := by
  obtain ⟨b, c, r1, r2, w1, w2, ht⟩ := trigger_spec e
  simp only [miiSelect, State.mmioWrite_blk, State.mmioWrite_cfg, State.mmioWrite_trace] at *
  exact ⟨b, c, _, ⟨r1, r2, w1, w2, rfl⟩, by rw [ht]; simp⟩

/-- The events of `MiiRead`, and the word it keeps in `MD` (R146). -/
theorem miiRead_events {reg : BitVec 5} {s t : State} (e : miiRead reg s = some t) :
    t.blk = { s.blk with md := t.blk.md } ∧ t.cfg = s.cfg
      ∧ ∃ evs, IsMiiRead s.cfg reg t.blk.md evs ∧ t.trace = evs ++ s.trace := by
  obtain ⟨s1, h1, rfl⟩ := Option.map_eq_some_iff.1 e
  obtain ⟨b, c, r1, r2, w1, w2, ht⟩ := trigger_spec h1
  simp only [miiSelect, State.mmioWrite_blk, State.mmioWrite_cfg, State.mmioWrite_trace] at *
  refine ⟨by simp [loadMd, b], by simpa [loadMd] using c, _,
    ⟨s1.mmioVal (.reg .miiRxData), r1, r2, w1, w2, by simp [loadMd, c], rfl⟩, ?_⟩
  simp [loadMd, ht, c]

/-- The events of one attempt of link polling (R168). -/
theorem linkAttempt_events {s t : State} (e : miiRead s.cfg.layout.phyRegStatus (pollDelay s) = some t) :
    t.blk = { s.blk with md := t.blk.md } ∧ t.cfg = s.cfg
      ∧ ∃ evs, IsLinkAttempt s.cfg t.blk.md evs ∧ t.trace = evs ++ s.trace := by
  obtain ⟨pb, pc, pt⟩ := pollDelay_spec s
  obtain ⟨b, c, evs, h, ht⟩ := miiRead_events e
  rw [pb] at b; rw [pc] at c h
  exact ⟨b, c, _, ⟨evs, h, rfl⟩, by rw [ht, pt]; simp⟩

theorem ofNat_succ (x : BitVec 32) (k : Nat) : x + 1 + BitVec.ofNat 32 k = x + BitVec.ofNat 32 (k + 1) := by
  rw [show BitVec.ofNat 32 (k + 1) = 1#32 + BitVec.ofNat 32 k by rw [← BitVec.ofNat_add, Nat.add_comm], BitVec.add_assoc]
  rfl

/-- The events of the reset polling loop: one read of the control register an attempt (R162 to R164). -/
theorem resetPoll_events {n : Nat} {s t : State} {b : Bool} (e : resetPoll n s = some (b, t)) :
    t.cfg = s.cfg ∧ ∃ rs evs, IsPolling (IsMiiRead s.cfg s.cfg.layout.phyRegCtrl) rs evs ∧ rs.length ≤ n
      ∧ t.blk.rt = s.blk.rt + BitVec.ofNat 32 rs.length ∧ t.trace = evs ++ s.trace := by
  induction n generalizing s with
  | zero => cases e; exact ⟨rfl, [], [], rfl, le_refl _, by simp, rfl⟩
  | succ n ih =>
    obtain ⟨s1, h1, h2⟩ := Option.bind_eq_some_iff.1 e
    obtain ⟨hb, hc, evs, h, ht⟩ := miiRead_events h1
    have hrt : s1.blk.rt = s.blk.rt := by rw [hb]
    split at h2
    · obtain ⟨c2, rs, evs2, k1, k2, k3, k4⟩ := ih h2
      simp only [countReset, State.setBlk_cfg, State.setBlk_blk, State.setBlk_trace, hc] at *
      refine ⟨c2, s1.blk.md :: rs, evs2 ++ evs, ⟨evs, evs2, h, k1, rfl⟩, by simpa using k2, ?_, by rw [k4, ht]; simp⟩
      rw [k3, hrt, List.length_cons]; exact ofNat_succ _ _
    · cases h2
      simp only [countReset, State.setBlk_cfg, State.setBlk_blk, State.setBlk_trace]
      exact ⟨hc, [s1.blk.md], evs, ⟨evs, [], h, rfl, rfl⟩, by simp, by rw [hrt]; rfl, ht⟩

/-- The events of the link polling loop: the delay and one read of the status register an attempt (R168 to R170). -/
theorem linkPoll_events {n : Nat} {s t : State} {b : Bool} (e : linkPoll n s = some (b, t)) :
    t.cfg = s.cfg ∧ ∃ rs evs, IsPolling (IsLinkAttempt s.cfg) rs evs ∧ rs.length ≤ n
      ∧ t.blk.lt = s.blk.lt + BitVec.ofNat 32 rs.length ∧ t.trace = evs ++ s.trace := by
  induction n generalizing s with
  | zero => cases e; exact ⟨rfl, [], [], rfl, le_refl _, by simp, rfl⟩
  | succ n ih =>
    obtain ⟨s1, h1, h2⟩ := Option.bind_eq_some_iff.1 e
    obtain ⟨hb, hc, evs, h, ht⟩ := linkAttempt_events h1
    have hlt : s1.blk.lt = s.blk.lt := by rw [hb]
    split at h2
    · cases h2
      simp only [countLink, State.setBlk_cfg, State.setBlk_blk, State.setBlk_trace]
      exact ⟨hc, [s1.blk.md], evs, ⟨evs, [], h, rfl, rfl⟩, by simp, by rw [hlt]; rfl, ht⟩
    · obtain ⟨c2, rs, evs2, k1, k2, k3, k4⟩ := ih h2
      simp only [countLink, State.setBlk_cfg, State.setBlk_blk, State.setBlk_trace, hc] at *
      refine ⟨c2, s1.blk.md :: rs, evs2 ++ evs, ⟨evs, evs2, h, k1, rfl⟩, by simpa using k2, ?_, by rw [k4, ht]; simp⟩
      rw [k3, hlt, List.length_cons]; exact ofNat_succ _ _

end Sys2Proof.Machine
end

