-- ==== Sys2Proof/Laws/Decode.lean ====
section
/-! SUPPORT. The fields of a command word: the word from its fields and the fields from the word (R112), and what a word
that decodes looks like. -/

namespace Sys2Proof

theorem mkCmd_toNat (op : BitVec 8) (a : BitVec 24) (b : BitVec 64) :
    (mkCmd op a b).toNat = op.toNat * 2 ^ 88 + a.toNat * 2 ^ 64 + b.toNat := by
  have := b.isLt; have := a.isLt; have := op.isLt
  have h1 : (op ++ a).toNat = op.toNat * 2 ^ 24 + a.toNat := by
    rw [BitVec.toNat_append, ← Nat.shiftLeft_add_eq_or_of_lt (by omega), Nat.shiftLeft_eq]
  show BitVec.toNat ((op ++ a) ++ b) = _
  rw [BitVec.toNat_append, ← Nat.shiftLeft_add_eq_or_of_lt (by omega), Nat.shiftLeft_eq, h1]; omega

@[simp] theorem opField_mkCmd (op : BitVec 8) (a : BitVec 24) (b : BitVec 64) : opField (mkCmd op a b) = op := by
  apply BitVec.eq_of_toNat_eq
  have := b.isLt; have := a.isLt; have := op.isLt
  simp only [opField, BitVec.extractLsb'_toNat, mkCmd_toNat, Nat.shiftRight_eq_div_pow]; omega

@[simp] theorem aField_mkCmd (op : BitVec 8) (a : BitVec 24) (b : BitVec 64) : aField (mkCmd op a b) = a := by
  apply BitVec.eq_of_toNat_eq
  have := b.isLt; have := a.isLt; have := op.isLt
  simp only [aField, BitVec.extractLsb'_toNat, mkCmd_toNat, Nat.shiftRight_eq_div_pow]; omega

@[simp] theorem bField_mkCmd (op : BitVec 8) (a : BitVec 24) (b : BitVec 64) : bField (mkCmd op a b) = b := by
  apply BitVec.eq_of_toNat_eq
  have := b.isLt; have := a.isLt; have := op.isLt
  simp only [bField, BitVec.extractLsb'_toNat, mkCmd_toNat, Nat.shiftRight_eq_div_pow]; omega

/-- A command word is the word of its three fields. -/
theorem mkCmd_fields (w : CmdWord) : mkCmd (opField w) (aField w) (bField w) = w := by
  apply BitVec.eq_of_toNat_eq
  have := w.isLt
  simp only [opField, aField, bField, BitVec.extractLsb'_toNat, mkCmd_toNat, Nat.shiftRight_eq_div_pow]; omega

/-- The opcode and the operands of a word that decodes are those of its operation. -/
theorem fields_of_decode {w : CmdWord} {i : Instr} (h : decode w = .ok i) :
    opField w = opcode i ∧ (aField w).toNat = (operands i).1 ∧ (bField w).toNat = (operands i).2 := by
  have key : ∀ n : Nat, (opField w).toNat = n → opField w = BitVec.ofNat 8 n := fun n h => by rw [← h]; simp
  unfold decode decodeFields at h
  simp only [formatZ] at h
  split at h
  all_goals first
    | (rename_i e; split at h
       · rename_i e2; cases h; exact ⟨key _ e, e2.1, e2.2⟩
       · cases h)
    | (rename_i e; cases h; exact ⟨key _ e, rfl, rfl⟩)
    | skip
  split at h <;> cases h

end Sys2Proof
end

