-- ==== Sys2Proof/Laws/Dispatch.lean ====
section
/-! SUPPORT. The drain of `DISPATCH`: what one turn of the loop does, and what the whole loop does when it ends, for every
schedule of the agents; and the end of a pass. -/

namespace Sys2Proof.Machine

/-! ## The host's answers -/

/-- The host's answer to a request is its next one. -/
theorem rxBufferAnswer_eq (s : State) : s.rxBufferAnswer = hostAnswer s.env 0 := by
  unfold State.rxBufferAnswer hostAnswer
  cases h : s.env.rxBuffers <;> simp

theorem Env.answered_eq (e : Env) : e.answered = afterAnswers 1 e := by
  unfold Env.answered afterAnswers
  cases h : e.rxBuffers <;> simp

/-- Answers are numbered on from those already given. -/
theorem hostAnswer_afterAnswers (e : Env) (m k : Nat) : hostAnswer (afterAnswers m e) k = hostAnswer e (m + k) := by
  simp only [hostAnswer, afterAnswers, List.getElem?_drop, List.length_drop]
  by_cases h : m + k < e.rxBuffers.length
  · simp [h]
  · rw [List.getElem?_eq_none (by omega)]
    simp only [Option.getD_none]
    congr 1
    omega

theorem afterAnswers_add (m n : Nat) (e : Env) : afterAnswers n (afterAnswers m e) = afterAnswers (m + n) e := by
  simp only [afterAnswers, List.drop_drop, List.length_drop, Env.mk.injEq, true_and]
  omega

/-- The next answers depend on the answers given, not on the schedule. -/
theorem hostAnswer_fixed {e f : Env} (h : e.fixed = f.fixed) : hostAnswer e = hostAnswer f := by
  simp only [Env.fixed, Prod.mk.injEq] at h
  funext k
  simp [hostAnswer, h.2.2.2.1, h.2.2.2.2]

/-! ## One turn of the drain -/

/-- The ready check reads word 0 of the slot at `RXC` as the agents have left it. -/
theorem rxSlot_val (s : State) : s.mmioVal (rxSlot s) = s.tick.dev.desc .rx .control s.blk.rxc.toNat := rfl

/-- The receive procedure at a slot that is the block's (R222): it copies out of the slot's buffer, gives the slot back with
only the empty bit changed, and advances the cursor. -/
theorem rxReceive_spec {dst : Addr} {cap : Nat} {s : State} (h : owned s .rx s.blk.rxc.toNat = false) :
    let w := s.dev.desc .rx .control s.blk.rxc.toNat
    let n := min (Field.get s.cfg.layout.len w).toNat cap
    let t := rxReceive dst cap s
    t.cfg = s.cfg ∧ t.blk = { s.blk with rxc := ringNext s.blk.rxc s.cfg.nRx } ∧ t.env.fixed = s.env.fixed
      ∧ receiveCount s cap = n ∧ SameDriverRegs s.cfg.layout s.dev t.dev ∧ t.env.schedule = s.env.schedule.drop (2 + 2 * n)
      ∧ (∃ bytes : List Byte, bytes.length = n
        ∧ t.trace = writeEvent s.cfg (.desc .rx .control s.blk.rxc.toNat) (Field.set s.cfg.layout.own w 1)
            :: (copyEvents (bufLocal s.cfg .rx s.blk.rxc.toNat) dst 0 bytes
              ++ readEvent s.cfg (.desc .rx .control s.blk.rxc.toNat) w :: s.trace))
      ∧ (Quiet s → t.env = s.env ∧ t.mem = copiedMem (bufLocal s.cfg .rx s.blk.rxc.toNat) dst n s.mem
        ∧ t.dev = s.dev.setDesc .rx .control s.blk.rxc.toNat (Field.set s.cfg.layout.own w 1)) := by
  intro w n t
  have hw : s.mmioVal (rxSlot s) = w := by rw [rxSlot_val]; exact s.tick_notOwned _ _ h
  have hn : receiveCount s cap = n := by simp only [receiveCount, hw]; rfl
  set r := s.blk.rxc.toNat with hr
  set s1 := s.mmioRead (rxSlot s) with hs1
  set s2 := s1.copyBytes (bufLocal s.cfg .rx r) dst n with hs2
  have c1 : s1.cfg = s.cfg := by simp [hs1]
  have c2 : s2.cfg = s.cfg := by simp [hs2, c1]
  have ht : t = ((s2.mmioWrite (.desc .rx .control r) (Field.set s.cfg.layout.own w 1)).setBlk
      { s2.blk with rxc := ringNext s.blk.rxc s.cfg.nRx }) := by
    show rxReceive dst cap s = _
    simp only [rxReceive, hn, hw, State.mmioWrite_cfg, State.mmioWrite_blk]
    rw [← hs1, ← hr, ← hs2, c2]
  refine ⟨?_, by simp [t], ?_, hn, ?_, ?_, ?_, ?_⟩
  · rw [ht]; simp [c2]
  · rw [ht]; simp [hs2, hs1, rxSlot]
  · have h1 := s.readTick_sameDriverRegs (rxSlot s)
    have h2 := s1.copyBytes_sameDriverRegs (bufLocal s.cfg .rx r) dst n
    have h3 := s2.tick_sameDriverRegs
    rw [c1] at h2
    rw [c2] at h3
    refine h1.trans (h2.trans (h3.trans ?_))
    rw [ht]
    constructor <;> simp
  · rw [ht]
    simp only [State.setBlk_env, State.mmioWrite_env, State.tick_schedule, hs2, State.copyBytes_schedule, hs1,
      State.mmioRead_env, State.readTick_schedule, List.tail_drop]
    rw [← List.drop_one, List.drop_drop]
    congr 1; omega
  · obtain ⟨bs, hl, hb⟩ := s1.copyBytes_trace (bufLocal s.cfg .rx r) dst n
    refine ⟨bs, hl, ?_⟩
    have t1 : s1.trace = readEvent s.cfg (.desc .rx .control r) w :: s.trace := by
      rw [hs1, State.mmioRead_trace, hw]; rfl
    rw [ht, State.setBlk_trace, State.mmioWrite_trace, hb, c2, t1]
  · intro hq
    have q1 : Quiet s1 := by
      show s1.env.schedule = []
      simp [hs1, show s.env.schedule = [] from hq]
    have q2 := s1.copyBytes_quiet (bufLocal s.cfg .rx r) dst n q1
    have e1 := s.mmioRead_quiet (rxSlot s) hq rfl
    have q3 : Quiet s2 := by
      show s2.env.schedule = []
      rw [hs2, q2.2.2]; exact q1
    rw [ht]
    have ed : s1.dev = s.dev := by rw [hs1, e1.1]; rfl
    have em : s1.mem = s.mem := by rw [hs1, e1.1]; rfl
    have ee : s1.env = s.env := by rw [hs1, e1.1]; rfl
    refine ⟨?_, ?_, ?_⟩
    · simp only [State.setBlk_env, State.mmioWrite_env, s2.tick_quiet q3]
      rw [hs2, q2.2.2, ee]
    · simp only [State.setBlk_mem, State.mmioWrite_mem, s2.tick_quiet q3]
      rw [hs2, q2.1, em]
    · simp only [State.setBlk_dev, State.mmioWrite_dev, s2.tick_quiet q3, Device.put_desc]
      rw [hs2, q2.2.1, ed]

theorem length_copyEvents (src dst : Addr) (k : Nat) (bs : List Byte) : (copyEvents src dst k bs).length = 2 * bs.length := by
  induction bs generalizing k with
  | nil => rfl
  | cons b bs ih => simp only [copyEvents, List.length_append, ih, List.length_cons, List.length_nil]; omega

/-- One turn of the drain at a slot whose ready check shows a frame (R271). -/
theorem drainFrame_spec {s : State} (h : Field.test s.cfg.layout.own (s.mmioVal (rxSlot s)) = false) :
    let u := drainFrame (s.mmioVal (rxSlot s)) (s.mmioRead (rxSlot s))
    ∃ f : DrainedFrame, f.fits s.cfg ∧ f.word = s.mmioVal (rxSlot s) ∧ (f.dst, f.cap) = hostAnswer s.env 0
      ∧ u.cfg = s.cfg ∧ u.blk = { s.blk with rxc := ringNext s.blk.rxc s.cfg.nRx }
      ∧ u.trace = f.events s.cfg s.blk.rxc.toNat ++ s.trace
      ∧ SameDriverRegs s.cfg.layout s.dev u.dev ∧ u.env.fixed = (afterAnswers 1 s.env).fixed
      ∧ u.env.schedule = s.env.schedule.drop (f.events s.cfg s.blk.rxc.toNat).length
      ∧ (Quiet s → u.env = afterAnswers 1 s.env
        ∧ u.mem = copiedMem (bufLocal s.cfg .rx s.blk.rxc.toNat) f.dst f.bytes.length s.mem
        ∧ u.dev = s.dev.setDesc .rx .control s.blk.rxc.toNat (Field.set s.cfg.layout.own f.word 1)) := by
  intro u
  set w := s.mmioVal (rxSlot s) with hw
  set s1 := s.mmioRead (rxSlot s) with hs1
  set a := s1.rxBufferAnswer with ha
  set s2 := s1.askRxBuffer (Field.get s1.cfg.layout.len w).toNat with hs2
  have c1 : s1.cfg = s.cfg := by simp [hs1]
  have c2 : s2.cfg = s.cfg := by simp [hs2, c1]
  have b1 : s1.blk = s.blk := by simp [hs1]
  have b2 : s2.blk = s.blk := by simp [hs2, b1]
  have w1 : s1.dev.desc .rx .control s.blk.rxc.toNat = w := rfl
  have own1 : owned s1 .rx s.blk.rxc.toNat = false := by simp only [owned, c1, w1]; exact h
  have wd : s2.dev.desc .rx .control s2.blk.rxc.toNat = w := by
    rw [b2]; exact (s1.tick_notOwned .rx _ own1).trans w1
  have f1 : s1.env.fixed = s.env.fixed := by simp [hs1]
  have hl : a = hostAnswer s.env 0 := by rw [ha, rxBufferAnswer_eq, hostAnswer_fixed f1]
  have own2 : owned s2 .rx s2.blk.rxc.toNat = false := by simp only [owned, c2, wd]; exact h
  have sp := rxReceive_spec (dst := a.1) (cap := a.2) own2
  simp only [c2, b2] at sp
  rw [b2] at wd
  rw [wd] at sp
  obtain ⟨p1, p2, p3, p4, p5, p9, ⟨bs, p6, p7⟩, p8⟩ := sp
  have hu : u = (rxReceive a.1 a.2 s2).tick.log (.frameReceived a.1 (receiveCount s2 a.2)) := rfl
  have ft : s2.env.fixed = (afterAnswers 1 s.env).fixed := by
    have f2 : s1.tick.env.fixed = s.env.fixed := (State.tick_fixed _).trans f1
    simp only [Env.fixed, Prod.mk.injEq] at f2
    rw [hs2, State.askRxBuffer_env, Env.answered_eq]
    simp [Env.fixed, afterAnswers, f2]
  refine ⟨⟨w, a.1, a.2, bs⟩, ⟨h, p6⟩, rfl, hl, by rw [hu]; simpa using p1, by rw [hu]; simpa using p2, ?_, ?_, ?_, ?_, ?_⟩
  · rw [hu, State.log_trace, State.tick_trace, p7, p4]
    have t2 : s2.trace = .askRxBuffer (Field.get s.cfg.layout.len w).toNat a.1 a.2
        :: readEvent s.cfg (.desc .rx .control s.blk.rxc.toNat) w :: s.trace := by
      have t1 : s1.trace = readEvent s.cfg (.desc .rx .control s.blk.rxc.toNat) w :: s.trace := State.mmioRead_trace _ _
      rw [hs2, State.askRxBuffer_trace, t1, c1]
    rw [t2]
    simp [DrainedFrame.events, p6]
  · rw [hu, State.log_dev]
    have k1 := s1.tick_sameDriverRegs
    have k2 := (rxReceive a.1 a.2 s2).tick_sameDriverRegs
    rw [c1] at k1
    rw [p1] at k2
    exact s.tick_sameDriverRegs.trans (k1.trans (p5.trans k2))
  · rw [hu, State.log_env, State.tick_fixed, p3, ft]
  · have hs : s2.env.schedule = s.env.schedule.drop 2 := by
      rw [hs2, State.askRxBuffer_env, (Env.answered_keeps _).1, State.tick_schedule, hs1, State.mmioRead_env,
        State.readTick_schedule, ← List.drop_one, ← List.drop_one, List.drop_drop]
    rw [hu, State.log_env, State.tick_schedule, p9, hs, ← List.drop_one, List.drop_drop, List.drop_drop]
    congr 1
    simp only [DrainedFrame.events, List.length_cons, List.length_append, length_copyEvents, List.length_nil, p6]
    omega
  · intro hq
    have e1 := s.mmioRead_quiet (rxSlot s) hq rfl
    have q1 : Quiet s1 := by rw [hs1, e1.1]; exact hq
    have ee : s2.env = afterAnswers 1 s.env := by
      rw [hs2, State.askRxBuffer_env, Env.answered_eq, s1.tick_quiet q1, hs1, e1.1]; rfl
    have q2 : Quiet s2 := by rw [Quiet, ee]; exact hq
    obtain ⟨k1, k2, k3⟩ := p8 q2
    have q3 : Quiet (rxReceive a.1 a.2 s2) := by rw [Quiet, k1]; exact q2
    have m2 : s2.mem = s.mem := by rw [hs2, State.askRxBuffer_mem, s1.tick_quiet q1, hs1, e1.1]; rfl
    have d2 : s2.dev = s.dev := by rw [hs2, State.askRxBuffer_dev, s1.tick_quiet q1, hs1, e1.1]; rfl
    rw [m2] at k2
    rw [d2] at k3
    rw [(rxReceive a.1 a.2 s2).tick_quiet q3] at hu
    exact ⟨by rw [hu, State.log_env, k1, ee], by rw [hu, State.log_mem, k2, p6], by rw [hu, State.log_dev, k3]⟩

/-! ## The whole drain -/

theorem length_slotsFrom (c : Cfg) (i n : Nat) : (slotsFrom c i n).length = n := by
  induction n generalizing i with
  | zero => rfl
  | succ n ih => simp [slotsFrom, ih]

/-- What `t` is after a drain from `s` has taken `frames`, its next ready check still to come. -/
structure Drained (s t : State) (frames : List DrainedFrame) : Prop where
  cfg     : t.cfg = s.cfg
  blk     : t.blk = { s.blk with rxc := BitVec.ofNat 24 (slotAfter s.cfg s.blk.rxc.toNat frames.length) }
  pass    : t.pass = s.pass
  trace   : t.trace = drainEvents s.cfg s.blk.rxc.toNat frames ++ s.trace
  fits    : ∀ f ∈ frames, f.fits s.cfg
  answers : frames.map (fun f => (f.dst, f.cap)) = (List.range frames.length).map (hostAnswer s.env)
  regs    : SameDriverRegs s.cfg.layout s.dev t.dev
  fixed   : t.env.fixed = (afterAnswers frames.length s.env).fixed
  sched   : t.env.schedule = s.env.schedule.drop (drainEvents s.cfg s.blk.rxc.toNat frames).length
  env     : Quiet s → t.env = afterAnswers frames.length s.env
  mem     : Quiet s → t.mem = drainedMem s.cfg s.blk.rxc.toNat frames s.mem
  words   : Quiet s → frames.map (·.word) = (slotsFrom s.cfg s.blk.rxc.toNat frames.length).map (s.dev.desc .rx .control)
  desc    : Quiet s → ∀ j, t.dev.desc .rx .control j =
              if j ∈ slotsFrom s.cfg s.blk.rxc.toNat frames.length then
                Field.set s.cfg.layout.own (s.dev.desc .rx .control j) 1
              else s.dev.desc .rx .control j
  dev     : Quiet s → t.dev = { s.dev with rxControl := t.dev.rxControl }

theorem Drained.nil (s : State) : Drained s s [] where
  cfg := rfl
  blk := by simp [slotAfter]
  pass := rfl
  trace := rfl
  fits := by simp
  answers := rfl
  regs := .refl _ _
  fixed := by simp [afterAnswers]
  sched := rfl
  env := fun _ => by simp [afterAnswers]
  mem := fun _ => rfl
  words := fun _ => rfl
  desc := fun _ _ => by simp [slotsFrom]
  dev := fun _ => rfl

theorem test_own_set (c : Cfg) (w : Word) : Field.test c.layout.own (Field.set c.layout.own w 1) = true := by
  rw [Field.test_set_self _ _ _ c.own_ok.1 c.own_ok.2]; simp

/-- One turn more, in front. -/
theorem Drained.cons {s t : State} {fs : List DrainedFrame} (h : Field.test s.cfg.layout.own (s.mmioVal (rxSlot s)) = false)
    (d : Drained (drainFrame (s.mmioVal (rxSlot s)) (s.mmioRead (rxSlot s))) t fs) :
    ∃ f, f.word = s.mmioVal (rxSlot s) ∧ Drained s t (f :: fs) := by
  obtain ⟨f, f1, f2, f3, f4, f5, f6, f7, f8, f11, f9⟩ := drainFrame_spec (s := s) h
  have f10 : (drainFrame (s.mmioVal (rxSlot s)) (s.mmioRead (rxSlot s))).pass = s.pass := by
    simp [drainFrame, rxReceive]
  set u := drainFrame (s.mmioVal (rxSlot s)) (s.mmioRead (rxSlot s)) with hu
  have ru : u.blk.rxc.toNat = (s.blk.rxc.toNat + 1) % s.cfg.nRx := by
    have hn := s.cfg.ranges.2.1
    rw [f5]; exact ringNext_toNat _ _ hn.1 hn.2
  have qu : Quiet s → Quiet u := fun hq => by
    show u.env.schedule = []
    rw [(f9 hq).1]; exact hq
  have hd : ∀ hq : Quiet s, ∀ j, u.dev.desc .rx .control j =
      if j = s.blk.rxc.toNat then Field.set s.cfg.layout.own f.word 1 else s.dev.desc .rx .control j := fun hq j => by
    rw [(f9 hq).2.2, Device.desc_setDesc]; simp
  have wq : Quiet s → f.word = s.dev.desc .rx .control s.blk.rxc.toNat := fun hq => by
    rw [f2, rxSlot_val, s.tick_quiet hq]
  have fu : ∀ g ∈ fs, Field.test s.cfg.layout.own g.word = false := fun g hg => by
    have := (d.fits g hg).1; rwa [f4] at this
  have hnot : Quiet s → s.blk.rxc.toNat ∉ slotsFrom s.cfg ((s.blk.rxc.toNat + 1) % s.cfg.nRx) fs.length := fun hq hm => by
    have hw := d.words (qu hq)
    rw [ru, f4] at hw
    have : u.dev.desc .rx .control s.blk.rxc.toNat ∈ fs.map (·.word) := by
      rw [hw]; exact List.mem_map_of_mem hm
    obtain ⟨g, hg, he⟩ := List.mem_map.1 this
    have h0 := fu g hg
    rw [he, hd hq, if_pos rfl, test_own_set] at h0
    cases h0
  refine ⟨f, f2, ?_⟩
  exact
    { cfg := d.cfg.trans f4
      blk := by rw [d.blk, ru, f4, f5]; simp [slotAfter]
      trace := by
        rw [d.trace, f4, ru, f6]
        simp [drainEvents]
      pass := d.pass.trans f10
      fits := by
        simp only [List.forall_mem_cons]
        refine ⟨f1, ?_⟩
        have := d.fits; rwa [f4] at this
      answers := by
        rw [List.map_cons, List.length_cons, List.range_succ_eq_map, List.map_cons, d.answers, f3, List.map_map]
        congr 1
        apply List.map_congr_left
        intro k _
        rw [hostAnswer_fixed f8, hostAnswer_afterAnswers, Function.comp, Nat.add_comm]
      regs := f7.trans (by have := d.regs; rwa [f4] at this)
      fixed := by
        have g : (afterAnswers fs.length u.env).fixed = (afterAnswers fs.length (afterAnswers 1 s.env)).fixed := by
          have f8' := f8
          simp only [Env.fixed, Prod.mk.injEq] at f8'
          simp [Env.fixed, afterAnswers, f8'] 
        rw [d.fixed, g, afterAnswers_add, Nat.add_comm]; rfl
      sched := by
        rw [d.sched, f4, ru, f11, List.drop_drop]
        congr 1
        simp only [drainEvents, List.length_append]
        omega
      env := fun hq => by rw [d.env (qu hq), (f9 hq).1, afterAnswers_add, Nat.add_comm]; rfl
      mem := fun hq => by rw [d.mem (qu hq), (f9 hq).2.1, f4, ru]; rfl
      words := fun hq => by
        rw [List.map_cons, d.words (qu hq), List.length_cons, f4, ru, slotsFrom, List.map_cons, wq hq]
        congr 1
        apply List.map_congr_left
        intro j hj
        rw [hd hq, if_neg]
        rintro rfl
        exact hnot hq hj
      desc := fun hq j => by
        rw [d.desc (qu hq), f4, ru, hd hq, wq hq]
        simp only [List.length_cons, slotsFrom, List.mem_cons]
        by_cases hj : j = s.blk.rxc.toNat
        · subst hj; simp [hnot hq]
        · simp [hj]
      dev := fun hq => by rw [d.dev (qu hq), (f9 hq).2.2]; rfl }

/-- The one spec lemma of the drain loop (R271): it takes frames; then a ready check that sees the empty bit ends it, or frames
arrive without end, or the turns are used up. -/
theorem drainTurns_spec (n : Nat) (s : State) : ∃ frames u, Drained s u frames ∧ frames.length ≤ n
    ∧ ((drainTurns n s = (true, u.mmioRead (rxSlot u)) ∧ Field.test u.cfg.layout.own (u.mmioVal (rxSlot u)) = true)
      ∨ (drainTurns n s = (false, u) ∧ (arrivalsEndless u = true ∨ frames.length = n))) := by
  induction n generalizing s with
  | zero => exact ⟨[], s, .nil s, Nat.le_refl _, .inr ⟨rfl, .inr rfl⟩⟩
  | succ n ih =>
    by_cases ha : arrivalsEndless s = true
    · exact ⟨[], s, .nil s, Nat.zero_le _, .inr ⟨by simp [drainTurns, ha], .inl ha⟩⟩
    · by_cases ho : Field.test s.cfg.layout.own (s.mmioVal (rxSlot s)) = true
      · exact ⟨[], s, .nil s, Nat.zero_le _, .inl ⟨by simp [drainTurns, ha, ho], ho⟩⟩
      · obtain ⟨fs, u, d, hl, hu⟩ := ih (drainFrame (s.mmioVal (rxSlot s)) (s.mmioRead (rxSlot s)))
        obtain ⟨f, -, d'⟩ := d.cons (by simpa using ho)
        refine ⟨f :: fs, u, d', Nat.succ_le_succ hl, ?_⟩
        have e : drainTurns (n + 1) s = drainTurns n (drainFrame (s.mmioVal (rxSlot s)) (s.mmioRead (rxSlot s))) := by
          simp [drainTurns, ha, ho]
        rw [e]
        exact hu.imp id fun ⟨h1, h2⟩ => ⟨h1, h2.imp id fun h => by simp [h]⟩

/-- What an ended drain leaves: the frames taken, and a last ready check that sees an empty slot. -/
theorem drainTurns_ended {n : Nat} {s t : State} (e : drainTurns n s = (true, t)) :
    ∃ frames u, Drained s u frames ∧ t = u.mmioRead (rxSlot u) ∧ Field.test u.cfg.layout.own (u.mmioVal (rxSlot u)) = true := by
  obtain ⟨frames, u, d, -, ⟨h1, h2⟩ | ⟨h1, -⟩⟩ := drainTurns_spec n s
  · exact ⟨frames, u, d, (Prod.mk.inj (e.symm.trans h1)).2, h2⟩
  · cases e.symm.trans h1

/-! ## The end of a pass -/

/-- What follows the drain (R272 to R274): the notification, the clear, the acknowledgement, the result. -/
theorem dispatchEnd_spec (v : Word) (s : State) :
    (dispatchEnd v s).cfg = s.cfg ∧ (dispatchEnd v s).blk = { s.blk with result := okWord 0 } ∧ (dispatchEnd v s).pass = none
      ∧ (dispatchEnd v s).trace = .result (okWord 0) :: .irqAck s.cfg.irqLine :: writeEvent s.cfg (.reg .intSource) v
          :: ((if v &&& s.cfg.layout.txPendingMask ≠ 0 then [.txSlotFreed] else []) ++ s.trace)
      ∧ SameDriverRegs s.cfg.layout s.dev (dispatchEnd v s).dev
      ∧ (turnBefore (if v &&& s.cfg.layout.txPendingMask ≠ 0 then 2 else 1) s = [] →
        (dispatchEnd v s).dev.intSource &&& v = 0)
      ∧ (Quiet s → (dispatchEnd v s).dev = { s.dev with intSource := s.dev.intSource &&& ~~~v }
        ∧ (dispatchEnd v s).mem = s.mem ∧ (dispatchEnd v s).env = s.env) := by
  set u := if txPending s.cfg.layout v then s.emit .txSlotFreed else s with hu
  set x := u.mmioWrite (.reg .intSource) v with hx
  have h : dispatchEnd v s = ((x.tick.log (.irqAck s.cfg.irqLine)).finish .ok 0).setPass none := rfl
  have hc : u.cfg = s.cfg := by rw [hu]; split <;> simp
  have hb : u.blk = s.blk := by rw [hu]; split <;> simp
  have hr : SameDriverRegs s.cfg.layout s.dev u.dev := by
    rw [hu]; split
    · exact s.tick_sameDriverRegs
    · exact .refl _ _
  have hs : u.env.schedule = s.env.schedule.drop (if v &&& s.cfg.layout.txPendingMask ≠ 0 then 1 else 0) := by
    rw [hu]
    simp only [txPending, decide_eq_true_eq]
    split <;> simp
  have ht : u.trace = (if v &&& s.cfg.layout.txPendingMask ≠ 0 then [.txSlotFreed] else []) ++ s.trace := by
    rw [hu]
    simp only [txPending, decide_eq_true_eq]
    split <;> simp
  have hw : x.dev.intSource &&& v = 0 := by
    simp only [hx, State.mmioWrite_dev, Device.put_intSource]
    rw [BitVec.and_assoc]
    simp [BitVec.and_comm]
  rw [h]
  refine ⟨by simp [hx, hc], by simp [hx, hb]; rfl, rfl, by simp [hx, hc, ht]; rfl, ?_, fun hi => ?_, fun hq => ?_⟩
  · have k1 := u.tick_sameDriverRegs
    have k2 := x.tick_sameDriverRegs
    rw [hc] at k1
    rw [show x.cfg = s.cfg by simp [hx, hc]] at k2
    have k3 : SameDriverRegs s.cfg.layout u.tick.dev x.dev := ⟨rfl, rfl, rfl, rfl, rfl, rfl, rfl, rfl, rfl, rfl⟩
    exact hr.trans (k1.trans (k3.trans k2))
  · have : turnBefore 0 x = [] := by
      rw [← hi]
      simp only [turnBefore, hx, State.mmioWrite_env, State.tick_schedule, hs, List.tail_drop, List.getElem?_drop]
      split <;> rfl
    show x.tick.dev.intSource &&& v = 0
    rw [(x.tick_idle this).1, hw]
  · have e : u.dev = s.dev ∧ u.mem = s.mem ∧ u.env = s.env := by
      rw [hu]; split <;> simp [s.tick_quiet hq]
    have q : Quiet u := by unfold Quiet; rw [e.2.2]; exact hq
    have ex : x.env = s.env := by simp [hx, u.tick_quiet q, e]
    have qx : Quiet x := by unfold Quiet; rw [ex]; exact hq
    rw [x.tick_quiet qx]
    refine ⟨?_, ?_, ex⟩
    · simp [hx, u.tick_quiet q, e.1]
    · simp [hx, u.tick_quiet q, e.2.1]

end Sys2Proof.Machine
end

