-- ==== Sys2Proof/Laws/PerInstr.lean ====
section
/-! SUPPORT. Two statements made for every operation, one lemma for each constructor: its word matches its row of the opcode
table, and the word's fields hold its opcode and its operands. -/

namespace Sys2Proof.Laws

/-! ## The operation's word matches its row of the opcode table -/

/-- The word of the operation matches the operation's row. -/
def TableRow.Statement (i : Instr) : Prop := (opRow i).matches (encode i) = true

/-- A word with the opcode `op` matches every row that fixes the opcode alone. -/
theorem TableRow.of_opcode (op : BitVec 8) (a : BitVec 24) (b : BitVec 64) :
    OpRow.matches ⟨mkCmd op 0 0, mkCmd 0xFF 0 0⟩ (mkCmd op a b) = true := by
  simp only [OpRow.matches, decide_eq_true_eq]
  apply BitVec.eq_of_getLsbD_eq
  intro k hk
  simp only [mkCmd, BitVec.getLsbD_and, BitVec.getLsbD_append]
  by_cases h1 : k < 64
  · simp [h1]
  · by_cases h2 : k - 64 < 24
    · simp [h1, h2]
    · have h3 : k - 64 - 24 < 8 := by omega
      have : (0xFF#8).getLsbD (k - 64 - 24) = true := by
        revert h3; generalize k - 64 - 24 = j; revert j; decide
      simp [h1, h2, this]

theorem TableRow.ringInit : TableRow.Statement .ringInit := by unfold TableRow.Statement; decide
theorem TableRow.setupTxSlot (i addr : Nat) : TableRow.Statement (.setupTxSlot i addr) :=
  TableRow.of_opcode 0x02 _ _
theorem TableRow.setupRxSlot (j addr : Nat) : TableRow.Statement (.setupRxSlot j addr) :=
  TableRow.of_opcode 0x03 _ _
theorem TableRow.macAddrWrite : TableRow.Statement .macAddrWrite := by unfold TableRow.Statement; decide
theorem TableRow.irqMaskSet : TableRow.Statement .irqMaskSet := by unfold TableRow.Statement; decide
theorem TableRow.bringup : TableRow.Statement .bringup := by unfold TableRow.Statement; decide
theorem TableRow.macEnable : TableRow.Statement .macEnable := by unfold TableRow.Statement; decide
theorem TableRow.transmit (len src : Nat) : TableRow.Statement (.transmit len src) :=
  TableRow.of_opcode 0x10 _ _
theorem TableRow.receiveReady : TableRow.Statement .receiveReady := by unfold TableRow.Statement; decide
theorem TableRow.receiveLength : TableRow.Statement .receiveLength := by unfold TableRow.Statement; decide
theorem TableRow.receive (maxLen dst : Nat) : TableRow.Statement (.receive maxLen dst) :=
  TableRow.of_opcode 0x13 _ _
theorem TableRow.macAddress : TableRow.Statement .macAddress := by unfold TableRow.Statement; decide
theorem TableRow.dispatch : TableRow.Statement .dispatch := by unfold TableRow.Statement; decide

/-! ## The fields of the operation's word -/

/-- The opcode and the operands of the operation are in its word, each in its field (R112, R123). -/
def WordFields.Statement (i : Instr) : Prop :=
  i.wf = true → opField (encode i) = opcode i ∧ (aField (encode i)).toNat = (operands i).1
    ∧ (bField (encode i)).toNat = (operands i).2

/-- Operands that fit come back from the fields they were put in. -/
theorem WordFields.of_fit {i : Instr} (h : operandsFit (operands i).1 (operands i).2 = true) : WordFields.Statement i := by
  intro _
  simp only [operandsFit, Bool.and_eq_true, decide_eq_true_eq] at h
  exact ⟨by simp [encode], by simpa [encode] using h.1, by simpa [encode] using h.2⟩

theorem WordFields.ringInit : WordFields.Statement .ringInit := WordFields.of_fit (by decide)
theorem WordFields.setupTxSlot (i addr : Nat) : WordFields.Statement (.setupTxSlot i addr) := fun h => WordFields.of_fit h h
theorem WordFields.setupRxSlot (j addr : Nat) : WordFields.Statement (.setupRxSlot j addr) := fun h => WordFields.of_fit h h
theorem WordFields.macAddrWrite : WordFields.Statement .macAddrWrite := WordFields.of_fit (by decide)
theorem WordFields.irqMaskSet : WordFields.Statement .irqMaskSet := WordFields.of_fit (by decide)
theorem WordFields.bringup : WordFields.Statement .bringup := WordFields.of_fit (by decide)
theorem WordFields.macEnable : WordFields.Statement .macEnable := WordFields.of_fit (by decide)
theorem WordFields.transmit (len src : Nat) : WordFields.Statement (.transmit len src) := fun h => WordFields.of_fit h h
theorem WordFields.receiveReady : WordFields.Statement .receiveReady := WordFields.of_fit (by decide)
theorem WordFields.receiveLength : WordFields.Statement .receiveLength := WordFields.of_fit (by decide)
theorem WordFields.receive (maxLen dst : Nat) : WordFields.Statement (.receive maxLen dst) := fun h => WordFields.of_fit h h
theorem WordFields.macAddress : WordFields.Statement .macAddress := WordFields.of_fit (by decide)
theorem WordFields.dispatch : WordFields.Statement .dispatch := WordFields.of_fit (by decide)

end Sys2Proof.Laws
end

