-- ==== Sys2Proof/Tests/Slice0.lean ====
section
/-! SUPPORT. The model's own tests: ill-formed operations and configurations are refused; words of the spec's encoding decode;
one step of each operation gives what a vector of `95_test_vectors.md` or an example of a rule says; and, for each statement
with hypotheses, a named witness that meets them. Expected values come from the spec, not from the model. -/

-- The kernel evaluates the theorems one after another: side by side they ask for more memory than a session has.
set_option Elab.async false

namespace Sys2Proof.Tests

open Sys2Proof.Machine

/-! ## Ill-formed terms -/

theorem test_wf_largest_operands : (Instr.transmit (2 ^ 24 - 1) (2 ^ 64 - 1)).wf = true := by decide
theorem test_wf_setupTxSlot : (Instr.setupTxSlot (2 ^ 24) 0).wf = false := by decide
theorem test_wf_setupRxSlot : (Instr.setupRxSlot 0 (2 ^ 64)).wf = false := by decide
theorem test_wf_transmit : (Instr.transmit (2 ^ 24) 0).wf = false := by decide
theorem test_wf_receive : (Instr.receive 0 (2 ^ 64)).wf = false := by decide

/-- `CFG_REF` with another layout. -/
def withLayout (f : Layout → Layout) : CfgData := { cfgRefData with layout := f cfgRefData.layout }

theorem test_cfg_ref : cfgRefData.wf = true := by decide
/-- R7: every range, at the first value outside it. -/
theorem test_cfg_ranges :
    { cfgRefData with nTx := 0 }.wf = false ∧ { cfgRefData with nTx := 2 ^ 24 }.rangesOk = false
      ∧ { cfgRefData with nRx := 0 }.wf = false ∧ { cfgRefData with nRx := 2 ^ 24 }.rangesOk = false
      ∧ { cfgRefData with slotSize := 0 }.wf = false ∧ { cfgRefData with slotSize := 65536 }.wf = false
      ∧ { cfgRefData with slotSize := 2046 }.wf = false ∧ { cfgRefData with resetRetries := 0 }.wf = false
      ∧ { cfgRefData with resetRetries := 2 ^ 32 }.wf = false ∧ { cfgRefData with linkRetries := 0 }.wf = false
      ∧ { cfgRefData with linkRetries := 2 ^ 32 }.wf = false := by decide
/-- R7, R226: bases aligned, the pool inside the CPU address space. -/
theorem test_cfg_bases :
    { cfgRefData with mmioBase := 0x10000002#64 }.wf = false ∧ { cfgRefData with localBase := 0x80100001#64 }.wf = false
      ∧ { cfgRefData with deviceBase := 0x80100002#64 }.wf = false
      ∧ { cfgRefData with localBase := 0xFFFFFFFFFFFFF000#64 }.wf = false := by decide
/-- R9: offsets aligned, disjoint, below `MMIO_SIZE`. -/
theorem test_cfg_offsets :
    (withLayout ({ · with intMask := 0x0A })).wf = false ∧ (withLayout ({ · with txDescBase := 0x402 })).wf = false
      ∧ (withLayout ({ · with rxDescBase := 0x602 })).wf = false ∧ (withLayout ({ · with descStride := 10 })).wf = false
      ∧ (withLayout ({ · with descStride := 4 })).wf = false ∧ (withLayout ({ · with macAddr1 := 0x40 })).wf = false
      ∧ (withLayout ({ · with moder := 0x5FC })).wf = false ∧ (withLayout ({ · with moder := 0x600 })).wf = false
      ∧ (withLayout ({ · with rxDescBase := 0x5F8 })).wf = false ∧ { cfgRefData with mmioSize := 0x7FC }.wf = false
      ∧ (withLayout ({ · with txDescBase := 0x800 })).wf = false ∧ (withLayout ({ · with moder := 0x800 })).wf = false := by
  decide
/-- R226: an offset is a 32-bit value, however large the register block is: the last word below 2^32, and the first not. -/
theorem test_cfg_offset_32 :
    { withLayout ({ · with moder := 0xFFFFFFFC }) with mmioSize := 2 ^ 33 }.wf = true
      ∧ { withLayout ({ · with moder := 0x100000000 }) with mmioSize := 2 ^ 33 }.wf = false := by decide
/-- R9: fields inside their words, of the width asked for, apart. -/
theorem test_cfg_fields :
    (withLayout ({ · with rxen := ⟨32, 1⟩ })).wf = false ∧ (withLayout ({ · with busy := ⟨1, 2⟩ })).wf = false
      ∧ (withLayout ({ · with prsd := ⟨20, 16⟩ })).wf = false ∧ (withLayout ({ · with txen := ⟨0, 1⟩ })).wf = false
      ∧ (withLayout ({ · with rstat := ⟨2, 1⟩ })).wf = false ∧ (withLayout ({ · with rgad := ⟨4, 5⟩ })).wf = false
      ∧ (withLayout ({ · with own := ⟨16, 1⟩ })).wf = false ∧ (withLayout ({ · with len := ⟨16, 15⟩ })).wf = false
      ∧ (withLayout ({ · with ctrldata := ⟨0, 15⟩ })).wf = false ∧ (withLayout ({ · with prsd := ⟨0, 17⟩ })).wf = false
      ∧ (withLayout ({ · with fiad := ⟨0, 4⟩ })).wf = false ∧ (withLayout ({ · with rgad := ⟨8, 4⟩ })).wf = false := by
  decide
/-- R9, U17: the PHY's bits inside a 16-bit register, and apart where the two are of one register; R161: the reset command has the
reset bit. -/
theorem test_cfg_phy :
    (withLayout ({ · with phyReset := ⟨16, 1⟩ })).wf = false ∧ (withLayout ({ · with phyLink := ⟨2, 2⟩ })).wf = false
      ∧ (withLayout ({ · with phyResetCmd := 0x2100#16 })).wf = false
      ∧ (withLayout ({ · with phyRegStatus := 0, phyLink := ⟨15, 1⟩ })).wf = false
      ∧ (withLayout ({ · with phyRegStatus := 0 })).wf = true ∧ (withLayout ({ · with phyLink := ⟨15, 1⟩ })).wf = true := by
  decide

/-! ## Decoding: the words of vector V-EN-1, and words written out bit by bit from R112, R113 and R115 -/

theorem test_decode_ringInit : decode 0x010000000000000000000000#96 = .ok .ringInit := by decide
theorem test_decode_setupTxSlot : decode 0x020000020000000080101000#96 = .ok (.setupTxSlot 2 0x80101000) := by decide
theorem test_decode_setupRxSlot : decode 0x030000000000000080120000#96 = .ok (.setupRxSlot 0 0x80120000) := by decide
theorem test_decode_macAddrWrite : decode 0x040000000000000000000000#96 = .ok .macAddrWrite := by decide
theorem test_decode_irqMaskSet : decode 0x050000000000000000000000#96 = .ok .irqMaskSet := by decide
theorem test_decode_bringup : decode 0x060000000000000000000000#96 = .ok .bringup := by decide
theorem test_decode_macEnable : decode 0x070000000000000000000000#96 = .ok .macEnable := by decide
theorem test_decode_transmit :
    decode 0x1000003C0000000090000000#96 = .ok (.transmit 60 0x90000000)
      ∧ decode 0x100005DC0000000090001000#96 = .ok (.transmit 1500 0x90001000)
      ∧ decode 0x100000400000000090002000#96 = .ok (.transmit 64 0x90002000) := by decide
theorem test_decode_receiveReady : decode 0x110000000000000000000000#96 = .ok .receiveReady := by decide
theorem test_decode_receiveLength : decode 0x120000000000000000000000#96 = .ok .receiveLength := by decide
theorem test_decode_receive : decode 0x130008000000000090010000#96 = .ok (.receive 2048 0x90010000) := by decide
theorem test_decode_macAddress : decode 0x140000000000000000000000#96 = .ok .macAddress := by decide
theorem test_decode_dispatch : decode 0x200000000000000000000000#96 = .ok .dispatch := by decide
/-- `op` = 0001_0000, `a` = 1000…0001 (24 bits), `b` = 1000…0010 (64 bits): each field's end bits go where R112 says. -/
theorem test_decode_field_ends :
    decode 0b000100001000000000000000000000011000000000000000000000000000000000000000000000000000000000000010#96
      = .ok (.transmit 0x800001 0x8000000000000002) := by decide
/-- R112's three words of `TRANSMIT 60, 0x90000000`, and of a `b` with a high half. -/
theorem test_decode_three_words :
    decode (cmdOfWords 0x1000003C 0x90000000 0) = .ok (.transmit 60 0x90000000)
      ∧ decode (cmdOfWords 0x02000040 0 1) = .ok (.setupTxSlot 64 0x100000000) := by decide
/-- The ten words of vector V-EN-2. -/
theorem test_decode_illegal :
    decode 0x000000000000000000000000#96 = .error .unknownOpcode ∧ decode 0x080000000000000000000000#96 = .error .unknownOpcode
      ∧ decode 0x0F0000000000000000000000#96 = .error .unknownOpcode
      ∧ decode 0x150000000000000000000000#96 = .error .unknownOpcode
      ∧ decode 0x210000000000000000000000#96 = .error .unknownOpcode
      ∧ decode 0x800000000000000000000000#96 = .error .reservedOpcode
      ∧ decode 0xFF0000000000000000000000#96 = .error .reservedOpcode
      ∧ decode 0x010000010000000000000000#96 = .error .operandNotZero
      ∧ decode 0x060000000000000000000001#96 = .error .operandNotZero
      ∧ decode 0x200000000000000100000000#96 = .error .operandNotZero := by decide

/-! ## One step of each operation -/

/-- The word an operation answers, if it answers a next state. -/
def resultOf : Host.Outcome State Fault Refusal → Option (BitVec 64)
  | .next t => some t.blk.result
  | .fault _ => none
  | .refused _ => none

/-- The working registers after an operation. -/
def blockOf : Host.Outcome State Fault Refusal → Option Block
  | .next t => some t.blk
  | .fault _ => none
  | .refused _ => none

/-- `INT_SOURCE` after an operation. -/
def sourceOf : Host.Outcome State Fault Refusal → Option Word
  | .next t => some t.dev.intSource
  | .fault _ => none
  | .refused _ => none

def notMem : Event → Bool
  | .memRead _ _ => false
  | .memWrite _ _ => false
  | _ => true

/-- What an unfinished pass shows, oldest first, but for the bytes it copies. -/
def unfinishedEventsOf : Host.Outcome State Fault Refusal → List Event
  | .next t => t.trace.reverse.filter notMem
  | .fault _ => []
  | .refused _ => []

def isBus : Event → Bool
  | .mmioRead _ _ => true
  | .mmioWrite _ _ => true
  | .memRead _ _ => true
  | .memWrite _ _ => true
  | _ => false

/-- What an operation shows, oldest first, but for the bytes it copies and its result. -/
def eventsOf : Host.Outcome State Fault Refusal → List Event
  | .next t => t.trace.tail.reverse.filter notMem
  | .fault _ => []
  | .refused _ => []

/-- How many bus events an operation makes. -/
def busEvents : Host.Outcome State Fault Refusal → Nat
  | .next t => t.trace.countP isBus
  | .fault _ => 0
  | .refused _ => 0

/-- A configuration like `CFG_REF` in all but these parameters. -/
def refWith (mac : MacAddr) (pol : IrqPolicy) (pool : Bool) : Cfg :=
  { toCfgData := { cfgRefData with mac := mac, irqPolicy := pol, poolValid := pool }
    ok := (by decide : cfgRefData.wf = true) }

/-- The start state with another configuration of that kind. -/
def startWith (mac : MacAddr) (pol : IrqPolicy) (pool : Bool) : State := { State.reset with cfg := refWith mac pol pool }

/-- The start state with the PHY of `SimEnv` for given `r` and `k`. -/
def startSim (r k : Option Nat) : State :=
  { State.reset with
    dev := { State.reset.dev with
      phySim := some { resetReads := r, linkReads := k, down := 0x7849, up := 0x786D, ctrlReads := 0, statusReads := 0 } } }

/-- The working registers at the end of program P1. -/
def runBlock : Block := { Block.reset with pc := .linkUp, rt := 1, lt := 1, md := 0x786D, flg := ⟨true, true, true⟩ }

/-- After program P1, with word 0 of the first slots of each ring and `INT_SOURCE` as given. -/
def running (tx rx : List (Nat × Word)) (int : Word) : State :=
  { State.reset with
    blk := runBlock
    dev := { State.reset.dev with
      moder := 0xA003, intSource := int, txControl := tx, rxControl := rx, txPos := 0, rxPos := 0 }
    env := { State.reset.env with rxBuffers := [(0x90010000, 2048)] } }

/-- V-RS-3 and the example of R194. -/
theorem test_ringInit :
    (eventsOf (exec .ringInit State.reset)).take 4
        = [.mmioWrite 0x400 0, .mmioWrite 0x404 0x80100000, .mmioWrite 0x408 0, .mmioWrite 0x40C 0x80100800]
      ∧ (eventsOf (exec .ringInit State.reset)).getLast? = some (.mmioWrite 0x7F8 0xE000)
      ∧ busEvents (exec .ringInit State.reset) = 386 := by decide +kernel
/-- R193: an invalid pool. -/
theorem test_ringInit_no_pool :
    resultOf (exec .ringInit (startWith cfgRefData.mac .txrx false)) = some 0xFF00000000000003
      ∧ eventsOf (exec .ringInit (startWith cfgRefData.mac .txrx false)) = [.log "buffer pool acquisition failed" 3] := by
  decide +kernel
/-- T1. -/
theorem test_setupTxSlot :
    eventsOf (exec (.setupTxSlot 2 0x80101000) State.reset) = [.mmioWrite 0x410 0, .mmioWrite 0x414 0x80101000] := by
  decide +kernel
/-- V-EN-3: the index check comes before the address check. -/
theorem test_setupTxSlot_order : resultOf (exec (.setupTxSlot 64 0x100000000) State.reset) = some 0x8200000000000000 := by
  decide +kernel
/-- T1. -/
theorem test_setupRxSlot :
    eventsOf (exec (.setupRxSlot 0 0x80120000) State.reset)
      = [.mmioWrite 0x600 0, .mmioWrite 0x604 0x80120000, .mmioWrite 0x600 0x4000, .mmioWrite 0x600 0xC000] := by
  decide +kernel
/-- R122: an address that exceeds 32 bits is fatal. -/
theorem test_setupRxSlot_range : resultOf (exec (.setupRxSlot 0 0x100000000) State.reset) = some 0xFF00000000000004 := by
  decide +kernel
/-- V-CO-1, the first two addresses. -/
theorem test_macAddrWrite :
    eventsOf (exec .macAddrWrite State.reset) = [.mmioWrite 0x40 1, .mmioWrite 0x44 0x200]
      ∧ eventsOf (exec .macAddrWrite (startWith ⟨0x00, 0x11, 0x22, 0x33, 0x44, 0x55⟩ .txrx true))
        = [.mmioWrite 0x40 0x22334455, .mmioWrite 0x44 0x11] := by decide +kernel
/-- V-CO-1: refused once the MAC is enabled. -/
theorem test_macAddrWrite_gate : resultOf (exec .macAddrWrite (running [] [] 0)) = some 0x8100000000000000 := by decide +kernel
/-- V-CO-2. -/
theorem test_irqMaskSet :
    eventsOf (exec .irqMaskSet State.reset) = [.mmioWrite 0x08 5]
      ∧ eventsOf (exec .irqMaskSet (startWith cfgRefData.mac .rxOnly true)) = [.mmioWrite 0x08 4] := by decide +kernel
/-- V-BR-2: `r = 2`, `k = 3`. -/
theorem test_bringup :
    blockOf (exec .bringup (startSim (some 2) (some 3)))
        = some { Block.reset with pc := .linkUp, rt := 2, lt := 3, md := 0x786D, result := 0x786D }
      ∧ busEvents (exec .bringup (startSim (some 2) (some 3))) = 48 := by decide +kernel
/-- T5, V-BR-3: the reset bit never clears. -/
theorem test_bringup_no_reset :
    blockOf (exec .bringup (startSim none (some 1)))
        = some { Block.reset with pc := .failed, rt := 20, md := 0x8000, err := some .phyResetFailed,
                                  result := 0xFF00000000000001 }
      ∧ busEvents (exec .bringup (startSim none (some 1))) = 126 := by decide +kernel
/-- R103 with one register for control and status (`r = 2`, `k = 3`): the reset bit is clear on read 2, and the link bit set on
read 3, which is the first attempt of link polling; the rest of the word is `PHY_MODE_VALUE`. -/
theorem test_bringup_one_register :
    blockOf (exec .bringup
        { startSim (some 2) (some 3) with
          cfg := { toCfgData := withLayout ({ · with phyRegStatus := 0 }), ok := (by decide) } })
      = some { Block.reset with pc := .linkUp, rt := 2, lt := 1, md := 0x2104, result := 0x2104 } := by decide +kernel
/-- V-CO-3: `MODER` reads 0x0000_A000. -/
theorem test_macEnable :
    eventsOf (exec .macEnable { running [] [] 0 with
        blk := { runBlock with flg := ⟨true, false, true⟩ }
        dev := { State.reset.dev with moder := 0xA000 } })
      = [.mmioRead 0 0xA000, .mmioWrite 0 0xA003] := by decide +kernel
/-- V-CO-4: without the MAC address the gate refuses. -/
theorem test_macEnable_gate :
    resultOf (exec .macEnable { running [] [] 0 with blk := { runBlock with flg := ⟨true, false, false⟩ } })
      = some 0x8100000000000000 := by decide +kernel
/-- P2, step 1. -/
theorem test_transmit :
    eventsOf (exec (.transmit 60 0x90000000) (running [(0, 0)] [] 0)) = [.mmioRead 0x400 0, .mmioWrite 0x400 0x3CD800]
      ∧ blockOf (exec (.transmit 60 0x90000000) (running [(0, 0)] [] 0)) = some { runBlock with txc := 1 } := by
  decide +kernel
/-- T3. -/
theorem test_transmit_retry :
    eventsOf (exec (.transmit 64 0x90002000) (running [(0, 0x3CD800)] [] 0)) = [.mmioRead 0x400 0x3CD800]
      ∧ blockOf (exec (.transmit 64 0x90002000) (running [(0, 0x3CD800)] [] 0))
        = some { runBlock with result := 0x0100000000000000 } := by decide +kernel
/-- The example of R218, and its other answer. -/
theorem test_receiveReady :
    resultOf (exec .receiveReady (running [] [(0, 0xC000)] 0)) = some 0
      ∧ resultOf (exec .receiveReady (running [] [(0, 0x404000)] 0)) = some 1 := by decide +kernel
/-- The example of R219. -/
theorem test_receiveLength :
    resultOf (exec .receiveLength (running [] [(0, 0x404000)] 0)) = some 64
      ∧ eventsOf (exec .receiveLength (running [] [(0, 0x404000)] 0)) = [.mmioRead 0x600 0x404000] := by decide +kernel
/-- The example of R221. -/
theorem test_receive :
    eventsOf (exec (.receive 2048 0x90010000) (running [] [(0, 0x404000)] 0))
        = [.mmioRead 0x600 0x404000, .mmioWrite 0x600 0x40C000]
      ∧ blockOf (exec (.receive 2048 0x90010000) (running [] [(0, 0x404000)] 0))
        = some { runBlock with rxc := 1, result := 64 } := by decide +kernel
/-- R223 (a): a capacity of 0 loses the frame and releases the slot. -/
theorem test_receive_nothing :
    busEvents (exec (.receive 0 0x90010000) (running [] [(0, 0x404000)] 0)) = 2
      ∧ blockOf (exec (.receive 0 0x90010000) (running [] [(0, 0x404000)] 0)) = some { runBlock with rxc := 1 } := by
  decide +kernel
/-- V-RX-4. -/
theorem test_macAddress :
    resultOf (exec .macAddress State.reset) = some 0x020000000001
      ∧ resultOf (exec .macAddress (startWith ⟨0x00, 0x11, 0x22, 0x33, 0x44, 0x55⟩ .txrx true)) = some 0x001122334455 := by
  decide +kernel
/-- V-DI-3. -/
theorem test_dispatch :
    eventsOf (exec .dispatch (running [] [(0, 0x404000), (1, 0xC000)] 4))
      = [.mmioRead 0x04 4, .mmioRead 0x600 0x404000, .askRxBuffer 64 0x90010000 2048, .mmioRead 0x600 0x404000,
        .mmioWrite 0x600 0x40C000, .frameReceived 0x90010000 64, .mmioRead 0x608 0xC000, .mmioWrite 0x04 4, .irqAck 0] := by
  decide +kernel
/-- V-DI-5. -/
theorem test_dispatch_other_bits :
    eventsOf (exec .dispatch (running [] [(0, 0xC000)] 0x85))
      = [.mmioRead 0x04 0x85, .mmioRead 0x600 0xC000, .txSlotFreed, .mmioWrite 0x04 0x85, .irqAck 0] := by decide +kernel
/-- R12, R37: an agent's turn falls between the write of `INT_SOURCE` and the `IrqAck` too: the bit it sets there is lost to no
clear, where one set before the write is cleared. -/
theorem test_dispatch_agent_before_ack :
    let after := fun (turns : List (List DevAct)) =>
      sourceOf (exec .dispatch { running [] [] 0x80 with env := { State.reset.env with schedule := turns } })
    after [[], [], [.intRaise 0x80]] = some 0x80 ∧ after [[], [.intRaise 0x80], []] = some 0 := by decide +kernel
/-- R271 with two frames, the second into a host buffer smaller than the frame: each slot gives its own buffer's bytes. -/
theorem test_dispatch_two_frames :
    (eventsOf (exec .dispatch { running [] [(0, 0x404000), (1, 0x304000), (2, 0xC000)] 4 with
        env := { State.reset.env with rxBuffers := [(0x90010000, 2048), (0x90020000, 16)] } })).filter
        (fun e => match e with | .frameReceived _ _ => true | .askRxBuffer _ _ _ => true | _ => false)
      = [.askRxBuffer 64 0x90010000 2048, .frameReceived 0x90010000 64, .askRxBuffer 48 0x90020000 16,
        .frameReceived 0x90020000 16] := by decide +kernel
/-- V-MI-3: an engine busy for two reads with an earlier transaction and for one with this. -/
theorem test_miiRead_busy :
    (miiRead 1 { State.reset with
        dev := { State.reset.dev with mii := some ⟨.write, 5, 5, 0⟩, phy := [(33, 0x786D)], phySim := none }
        env := { State.reset.env with schedule := [[], [], [], [.miiComplete 0], [], [], [], [.miiComplete 0]] } }).map
      (fun t => (t.trace.reverse, t.blk.md))
      = some ([.mmioWrite 0x30 0x101, .mmioRead 0x3C 2, .mmioRead 0x3C 2, .mmioRead 0x3C 0, .mmioWrite 0x2C 2,
          .mmioWrite 0x2C 0, .mmioRead 0x3C 2, .mmioRead 0x3C 0, .mmioRead 0x38 0x786D], 0x786D) := by decide +kernel
/-- V-EN-2, V-FA-1: an illegal word is answered so even after a fatal error, an operation with the error. -/
theorem test_illegal_and_fatal :
    resultOf (step { State.reset with
        blk := { Block.reset with err := some .phyResetFailed }, env := { State.reset.env with host := [.command 0] } })
        = some 0x8000000000000000
      ∧ resultOf (exec .macAddress { State.reset with blk := { Block.reset with err := some .phyResetFailed } })
        = some 0xFF00000000000001 := by decide +kernel
/-- The host's question: `step` runs exactly the word that `withFetchWord` places. -/
theorem test_withFetchWord :
    decodeTableWord 96 0x140000000000000000000000 = some .macAddress
      ∧ resultOf (step (State.reset.withFetchWord 96 0x140000000000000000000000)) = some 0x020000000001 := by decide +kernel

/-! ## Witnesses: for each statement with hypotheses, a state and operands that meet them -/

/-- A configuration with two slots of four bytes in each ring, the pool at 0x1000 for the CPU and at `dev` for the device. -/
def tinyData (dev : Addr) (pool : Bool) : CfgData :=
  { cfgRefData with
    nTx := 2, nRx := 2, slotSize := 4, resetRetries := 3, linkRetries := 3, linkPollDelayUs := 5, localBase := 0x1000
    deviceBase := dev, poolValid := pool, layout := Layout.default 2 }

def tiny : Cfg := { toCfgData := tinyData 0x2000 true, ok := by decide }
/-- The pool ends exactly at 2^32. -/
def tinyTop : Cfg := { toCfgData := tinyData 0xFFFFFFF0 true, ok := by decide }
/-- The pool ends one word above 2^32. -/
def tinyOver : Cfg := { toCfgData := tinyData 0xFFFFFFF4 true, ok := by decide }
def tinyNoPool : Cfg := { toCfgData := tinyData 0x2000 false, ok := by decide }

/-- Just reset: MAC off, engine idle, nothing scheduled, the PHY of `SimEnv` with the given `r` and `k`. -/
def fresh (c : Cfg) (r k : Option Nat) : State :=
  { State.reset with
    cfg := c
    dev := { State.reset.dev with
      moder := 0xA000, intSource := 0
      phySim := some { resetReads := r, linkReads := k, down := 0x7849, up := 0x786D, ctrlReads := 0, statusReads := 0 } } }

/-- Constructed and running: TX slot 0 ready, its successor free; RX slot 0 with a frame of two bytes, its successor empty. -/
def live : State :=
  { fresh tiny (some 1) (some 1) with
    blk := { runBlock with txc := 1 }
    dev := { (fresh tiny (some 1) (some 1)).dev with
      moder := 0xA003, intSource := 4
      txControl := [(0, 0x4D800), (1, 0x2000)], txPointer := [(0, 0x2000), (1, 0x2004)]
      rxControl := [(0, 0x24000), (1, 0xE000)], rxPointer := [(0, 0x2008), (1, 0x200C)]
      txPos := 0, rxPos := 1 } }

/-- The state before `MAC_ENABLE`. -/
def built : State :=
  { live with
    blk := { runBlock with flg := ⟨true, false, true⟩ }
    dev := { live.dev with
      moder := 0xA000, intSource := 0, txControl := [(0, 0), (1, 0x2000)], rxControl := [(0, 0xC000), (1, 0xE000)] } }

/-- A state with a fatal error. -/
def failed (e : FatalErr) : State := { fresh tiny none none with blk := { Block.reset with err := some e } }

/-- The host's next action is `a`. -/
def told (a : HostAct) (s : State) : State := { s with env := { s.env with host := [a] } }

/-- `live`, with frames arriving without end. -/
def flooded : State := { live with env := { live.env with rxEndless := true } }

/-- A pass that read 4 from the source goes on: its first frame is taken, and the RX engine stands at the next slot. -/
def goingOn (s : State) : State :=
  { s with
    pass := some 4, blk := { s.blk with rxc := 1 }
    dev := { s.dev with rxControl := [(0, 0x2C000), (1, 0xE000)] } }

/-- The host answers the next request for a receive buffer with one of four bytes. -/
def answering (s : State) : State := { s with env := { s.env with rxBuffers := [(0x3000, 4)] } }

def isNext : Host.Outcome State Fault Refusal → Bool
  | .next _ => true
  | .fault _ => false
  | .refused _ => false

def passOf : Host.Outcome State Fault Refusal → Option Word
  | .next t => t.pass
  | .fault _ => none
  | .refused _ => none

theorem next_of {o : Host.Outcome State Fault Refusal} (h : isNext o = true) : ∃ t, o = .next t := by
  cases o with
  | next t => exact ⟨t, rfl⟩
  | fault _ => cases h
  | refused _ => cases h

/-! ### Encoding, steps, checks -/

theorem witness_DecodeEncodeRoundTrip : (Instr.setupTxSlot (2 ^ 24 - 1) (2 ^ 64 - 1)).wf = true ∧ Instr.ringInit.wf = true := by
  decide
theorem witness_DecodedWordEncodesBack : decode 0x13FFFFFFFFFFFFFFFFFFFFFF#96 = .ok (.receive (2 ^ 24 - 1) (2 ^ 64 - 1)) := by
  decide
theorem witness_StepRunsDecodedCommand :
    live.pass = none ∧ (goingOn flooded).pass = some 4 ∧
    (told (.command 0x140000000000000000000000) live).env.host = [.command 0x140000000000000000000000]
      ∧ decode 0x140000000000000000000000 = .ok .macAddress ∧ live.env.host = [] := by decide
/-- The four kinds of word: an unknown opcode, a reserved one, an operand that must be 0, and a legal word. -/
theorem witness_IllegalWordOnlyWritesResult :
    (0#96).extractLsb' 88 8 = 0x00#8 ∧ (0x80FFFFFFFFFFFFFFFFFFFFFF#96).extractLsb' 88 8 = 0x80#8
      ∧ (0x060000000000000000000001#96).extractLsb' 0 64 ≠ 0 ∧ (0x010000010000000000000000#96).extractLsb' 64 24 ≠ 0
      ∧ decode 0x100000010000000000000001#96 = .ok (.transmit 1 1)
      ∧ (told (.command 0#96) live).env.host = .command 0#96 :: [] := by decide
theorem witness_FatalGate : (failed .deviceAddrRange).blk.err = some .deviceAddrRange := rfl
/-- A state for each clause: rings set up and running; `pc` not `Idle`; the enable gate shut; not running. -/
theorem witness_StateGate :
    live.blk.err = none ∧ live.blk.flg.rings = true ∧ live.blk.flg.run = true ∧ live.blk.pc ≠ .idle
      ∧ built.blk.err = none ∧ built.blk.flg.run = false
      ∧ ¬ (live.blk.pc = .linkUp ∧ live.blk.flg.rings = true ∧ live.blk.flg.macaddr = true ∧ live.blk.flg.run = false) := by
  decide
/-- Each clause at its boundary: the first index too large and the last that is not; 2^32 and the pool's last slot, one word
past it, and a word inside a slot; the lengths 0, `SLOT_SIZE`, and one more; a frame present. -/
theorem witness_OperandChecks :
    (fresh tiny none none).blk.err = none ∧ (fresh tiny none none).blk.flg.rings = false
      ∧ tiny.nTx ≤ 2 ∧ 1 < tiny.nTx ∧ tiny.nRx ≤ 2 ∧ 1 < tiny.nRx ∧ 2 ^ 32 ≤ 0x100000000
      ∧ isPoolSlotAddr tiny 0x200C = true ∧ isPoolSlotAddr tiny 0x2010 = false ∧ isPoolSlotAddr tiny 0x2002 = false
      ∧ isPoolSlotAddr tiny 0x1FFC = false
      ∧ live.blk.flg.run = true ∧ ¬ (1 ≤ 0 ∧ 0 ≤ live.cfg.slotSize) ∧ ¬ (1 ≤ 5 ∧ 5 ≤ live.cfg.slotSize)
      ∧ Field.test live.cfg.layout.own (live.tick.dev.desc .rx .control live.blk.rxc.toNat) = false := by decide
theorem witness_OperandChecks_pool (m : Nat) : 0x2010 ≠ tiny.deviceBase.toNat + m * tiny.slotSize ∨ tiny.nTx +
    tiny.nRx ≤ m := by
  have h1 : tiny.deviceBase.toNat = 0x2000 := rfl
  have h2 : tiny.slotSize = 4 := rfl
  have h3 : tiny.nTx + tiny.nRx = 4 := rfl
  rw [h1, h2, h3]
  omega
theorem witness_FatalStaysUntilReset :
    (told (.command 0) (failed .phyResetFailed)).blk.err = some .phyResetFailed
      ∧ ∃ t, step (told (.command 0) (failed .phyResetFailed)) = .next t := ⟨rfl, next_of (by decide +kernel)⟩
theorem witness_ResetValues :
    (told .reset built).pass = none ∧ (told .reset built).env.host = .reset :: [] ∧ MacOff (told .reset built) := ⟨rfl, rfl, by decide +kernel, by decide +kernel⟩
/-- The pool's first and last byte, the bytes just outside it, and a reset with the MAC on. -/
theorem witness_HostActions :
    (told (.write 0x1000 7) live).env.host = .write 0x1000 7 :: [] ∧ inPool tiny 0x1000 = true ∧ inPool tiny 0x100F = true
      ∧ inPool tiny 0x0FFF = false ∧ inPool tiny 0x1010 = false
      ∧ (told .reset live).env.host = .reset :: [] ∧ ¬ MacOff (told .reset live) :=
  ⟨rfl, by decide, by decide, by decide, by decide, rfl, fun h => by have := h.1; revert this; decide +kernel⟩

/-! ### The rings and the MAC -/

theorem fresh_quiet (c : Cfg) (r k : Option Nat) : Quiet (fresh c r k) ∧ EngineReady (fresh c r k) := ⟨rfl, rfl, rfl⟩
theorem fresh_macOff : MacOff (fresh tiny (some 2) (some 3)) := ⟨by decide +kernel, by decide +kernel⟩
theorem live_quiet : Quiet live ∧ EngineReady live := ⟨rfl, rfl, rfl⟩

/-- The last TX slot with the pool's last buffer, and the first with the first. -/
theorem witness_SetupTxSlotResult :
    (fresh tiny (some 2) (some 3)).blk.err = none ∧ (fresh tiny (some 2) (some 3)).blk.flg.rings = false ∧ 1 < tiny.nTx
      ∧ 3 < tiny.nTx + tiny.nRx ∧ tiny.deviceBase.toNat + 3 * tiny.slotSize < 2 ^ 32
      ∧ 0 < tiny.nTx ∧ tiny.deviceBase.toNat + 0 * tiny.slotSize < 2 ^ 32 := by decide
theorem witness_SetupRxSlotResult :
    (fresh tinyTop none none).blk.err = none ∧ (fresh tinyTop none none).blk.flg.rings = false ∧ 1 < tinyTop.nRx
      ∧ 3 < tinyTop.nTx + tinyTop.nRx ∧ tinyTop.deviceBase.toNat + 3 * tinyTop.slotSize < 2 ^ 32 := by decide
theorem witness_RingInitPoolCheck :
    (fresh tinyNoPool none none).blk.err = none ∧ (fresh tinyNoPool none none).blk.flg.rings = false
      ∧ tinyNoPool.poolValid = false ∧ tinyOver.poolValid = true
      ∧ 2 ^ 32 < tinyOver.deviceBase.toNat + (tinyOver.nTx + tinyOver.nRx) * tinyOver.slotSize := by decide
/-- The pool that ends exactly at 2^32 is usable, the one that ends above is not. -/
theorem witness_RingInitResult :
    (fresh tinyTop none none).blk.err = none ∧ (fresh tinyTop none none).blk.flg.rings = false ∧ tinyTop.poolValid = true
      ∧ tinyTop.deviceBase.toNat + (tinyTop.nTx + tinyTop.nRx) * tinyTop.slotSize ≤ 2 ^ 32
      ∧ ¬ tinyOver.deviceBase.toNat + (tinyOver.nTx + tinyOver.nRx) * tinyOver.slotSize ≤ 2 ^ 32 := by decide
theorem witness_RingsAfterRingInit :
    MacOff (fresh tiny (some 2) (some 3)) ∧ (fresh tiny (some 2) (some 3)).blk.flg.rings = false ∧ tiny.poolValid = true
      ∧ tiny.deviceBase.toNat + (tiny.nTx + tiny.nRx) * tiny.slotSize ≤ 2 ^ 32
      ∧ ∃ t, exec .ringInit (fresh tiny (some 2) (some 3)) = .next t :=
  ⟨fresh_macOff, rfl, rfl, by decide, next_of (by decide +kernel)⟩
theorem witness_MacAddrWriteResult :
    built.blk.err = none ∧ built.blk.flg.run = false ∧ MacOff built ∧ Quiet built :=
  ⟨rfl, rfl, ⟨by decide +kernel, by decide +kernel⟩, rfl⟩
theorem witness_IrqMaskSetResult : built.blk.err = none ∧ built.blk.flg.run = false ∧ MacOff built ∧ Quiet built :=
  witness_MacAddrWriteResult
theorem witness_MacEnableResult :
    built.blk.err = none ∧ built.blk.pc = .linkUp ∧ built.blk.flg = ⟨true, false, true⟩ ∧ MacOff built ∧ Quiet built :=
  ⟨rfl, rfl, rfl, witness_MacAddrWriteResult.2.2⟩

/-! ### The invariants -/

theorem live_block : BlockSafe live.cfg live.blk := by
  constructor <;> decide

theorem live_safe : Safe live where
  block := live_block
  rings :=
    { single_wrap := by
        rintro - (_ | _) i hi <;> change i < 2 at hi <;> interval_cases i <;> decide +kernel
      pointers := by
        rintro - (_ | _) i hi <;> change i < 2 at hi <;> interval_cases i <;> decide +kernel }
  mac :=
    { enabled_iff := by rintro _ rfl; exact ⟨by decide +kernel, by decide +kernel⟩
      owned_tx := fun _ h => by cases h
      owned_rx := fun _ h => by cases h }

theorem live_txOrdered : TxRingOrdered live := by
  refine fun _ => ⟨by decide, 1, by decide, by decide, fun i hi => ?_⟩
  change i < 2 at hi
  interval_cases i
  · exact iff_of_true (by decide +kernel) ⟨0, by decide, by decide⟩
  · refine iff_of_false (by decide +kernel) ?_
    rintro ⟨k, hk, h⟩
    interval_cases k
    revert h; decide

theorem live_rxOrdered : RxRingOrdered live := by
  refine fun _ => ⟨by decide, 1, by decide, by decide, fun i hi => ?_⟩
  change i < 2 at hi
  interval_cases i
  · exact iff_of_true (by decide +kernel) ⟨0, by decide, by decide⟩
  · refine iff_of_false (by decide +kernel) ?_
    rintro ⟨k, hk, h⟩
    interval_cases k
    revert h; decide

theorem told_safe (a : HostAct) : Safe (told a live) :=
  ⟨live_safe.block, ⟨live_safe.rings.1, live_safe.rings.2⟩, ⟨live_safe.mac.1, live_safe.mac.2, live_safe.mac.3⟩⟩

/-- `RECEIVE 2, 0x1234`, for the frame that is there. -/
theorem witness_SafeKeptByStep :
    Safe (told (.command 0x130000020000000000001234) live)
      ∧ ∃ t, step (told (.command 0x130000020000000000001234) live) = .next t := ⟨told_safe _, next_of (by decide +kernel)⟩
/-- `TRANSMIT 4, 0x5000`, into the free slot. -/
theorem witness_TxRingOrderKeptByStep :
    Safe (told (.command 0x100000040000000000005000) live) ∧ TxRingOrdered (told (.command 0x100000040000000000005000) live)
      ∧ ∃ t, step (told (.command 0x100000040000000000005000) live) = .next t :=
  ⟨told_safe _, live_txOrdered, next_of (by decide +kernel)⟩
/-- `RECEIVE 2, 0x1234`, with the duty kept. -/
theorem witness_RxRingOrderKeptByStep :
    let s := told (.command 0x130000020000000000001234) live
    Safe s ∧ RxRingOrdered s ∧ (∀ w rest i, s.env.host = .command w :: rest → decode w = .ok i → dutyKept i s)
      ∧ ∃ t, step s = .next t := by
  refine ⟨told_safe _, live_rxOrdered, ?_, next_of (by decide +kernel)⟩
  intro w rest i h1 h2
  cases h1
  have : decode 0x130000020000000000001234 = .ok (.receive 2 0x1234) := by decide
  rw [this] at h2
  cases h2
  show owned live .rx _ = false
  decide +kernel
theorem witness_StoresStayCanonical : StoresCanonical live ∧ ∃ t, step live = .next t :=
  ⟨by constructor <;> decide, _, rfl⟩
theorem witness_ModerWrittenOnlyByEnable :
    BlockSafe built.cfg built.blk ∧ ∃ t, exec .macEnable built = .next t ∧ writeEvent tiny (.reg .moder) 0xA003 ∈ t.trace := by
  refine ⟨by constructor <;> decide, _, rfl, ?_⟩
  decide +kernel
theorem witness_ModerWrittenOnlyByEnable_pass :
    BlockSafe (goingOn live).cfg (goingOn live).blk ∧ (goingOn live).pass ≠ none ∧ ∃ t, step (goingOn live) = .next t :=
  ⟨by constructor <;> decide, by decide +kernel, _, rfl⟩
theorem witness_RegisterAccessesAligned :
    BlockSafe live.cfg live.blk ∧ (∃ t, exec .receiveReady live = .next t ∧ t.trace.length = 2)
      ∧ BlockSafe (goingOn live).cfg (goingOn live).blk ∧ ∃ t, step (goingOn live) = .next t ∧ t.trace.length = 4 :=
  ⟨live_block, ⟨_, rfl, by decide +kernel⟩, by constructor <;> decide, _, rfl, by decide +kernel⟩
theorem witness_WorkingRegisterTable :
    (∃ t, exec (.transmit 4 0x5000) live = .next t ∧ t.blk.txc ≠ live.blk.txc)
      ∧ ∃ t, (goingOn live).pass ≠ none ∧ step (goingOn live) = .next t := by
  refine ⟨⟨_, rfl, ?_⟩, _, ?_, rfl⟩ <;> decide +kernel
/-- A pass that goes on without an arrival ends: its last ready check, the clear, the acknowledgement, the result. -/
theorem test_dispatch_goes_on :
    (match step (goingOn live) with
      | .next t => t.trace
      | _ => [])
      = [.result 0, .irqAck 0, .mmioWrite 0x04 4, .mmioRead 0x418 0xE000] ∧ passOf (step (goingOn live)) = none := by
  decide +kernel
theorem witness_ConfigurationAndHostUntouched :
    (∃ t, exec .dispatch (answering live) = .next t) ∧ (goingOn live).pass ≠ none ∧ ∃ t, step (goingOn live) = .next t :=
  ⟨next_of (by decide +kernel), by decide +kernel, _, rfl⟩

/-! ### MII and bring-up -/

theorem witness_WaitIdleHasNoBound : (fresh tiny none none).env.miiCompletes = true ∧ ∃ t, waitIdle live = some t :=
  ⟨rfl, Option.isSome_iff_exists.1 (by decide +kernel)⟩
theorem witness_MiiWriteSequence : live.env.miiCompletes = true ∧ ∃ t, miiWrite 31 0x8000 live = some t :=
  ⟨rfl, Option.isSome_iff_exists.1 (by decide +kernel)⟩
theorem witness_MiiReadSequence : live.env.miiCompletes = true ∧ ∃ t, miiRead 31 live = some t :=
  ⟨rfl, Option.isSome_iff_exists.1 (by decide +kernel)⟩
theorem witness_MiiWriteReachesPhy : Quiet live ∧ EngineReady live := live_quiet
theorem witness_MiiReadReadsPhy :
    Quiet { live with dev := { live.dev with phySim := none } }
        ∧ EngineReady { live with dev := { live.dev with phySim := none } } :=
  live_quiet
theorem witness_BringupEndsInTerminalState :
    (fresh tiny (some 2) (some 3)).blk.err = none ∧ (fresh tiny (some 2) (some 3)).blk.pc = .idle
      ∧ (fresh tiny (some 2) (some 3)).env.miiCompletes = true := ⟨rfl, rfl, rfl⟩
/-- The three ends: link up at the last attempt of both loops, no reset, no link. -/
theorem witness_BringupTransactions :
    (fresh tiny (some 3) (some 3)).blk.err = none ∧ (fresh tiny (some 3) (some 3)).blk.pc = .idle
      ∧ (∃ t, exec .bringup (fresh tiny (some 3) (some 3)) = .next t ∧ t.blk.pc = .linkUp)
      ∧ (∃ t, exec .bringup (fresh tiny (some 4) (some 1)) = .next t ∧ t.blk.err = some .phyResetFailed)
      ∧ (∃ t, exec .bringup (fresh tiny (some 1) (some 4)) = .next t ∧ t.blk.err = some .phyLinkFailed) := by
  have key : ∀ (o : Host.Outcome State Fault Refusal) (P : Block → Prop), (∃ b, blockOf o = some b ∧ P b) → ∃ t,
      o = .next t ∧ P t.blk := by
    rintro (t | _ | _) P ⟨b, h1, h2⟩
    · cases h1; exact ⟨t, rfl, h2⟩
    · cases h1
    · cases h1
  refine ⟨rfl, rfl, key _ (·.pc = .linkUp) ⟨{ Block.reset with pc := .linkUp, rt := 3, lt := 3, md := 0x786D, result := 0x786D }, ?_, rfl⟩,
    key _ (·.err = _) ⟨{ Block.reset with pc := .failed, rt := 3, md := 0x8000, err := some .phyResetFailed, result := 0xFF00000000000001 }, ?_, rfl⟩,
    key _ (·.err = _) ⟨{ Block.reset with pc := .failed, rt := 1, lt := 3, md := 0x7849, err := some .phyLinkFailed, result := 0xFF00000000000002 }, ?_, rfl⟩⟩
  all_goals decide +kernel
theorem witness_BringupFollowsWordsRead :
    (fresh tiny (some 1) (some 4)).blk.err = none ∧ (fresh tiny (some 1) (some 4)).blk.pc = .idle
      ∧ ∃ t, exec .bringup (fresh tiny (some 1) (some 4)) = .next t ∧ t.blk.err = some .phyLinkFailed :=
  ⟨rfl, rfl, witness_BringupTransactions.2.2.2.2⟩
/-- Both counts at their bounds. -/
theorem witness_BringupSucceedsInSimEnv :
    let s := fresh tiny (some 3) (some 3)
    s.blk.err = none ∧ s.blk.pc = .idle ∧ Quiet s ∧ EngineReady s ∧ s.dev.phySim = some ⟨some 3, some 3, 0x7849, 0x786D, 0, 0⟩
      ∧ 1 ≤ 3 ∧ 3 ≤ s.cfg.resetRetries ∧ 3 ≤ s.cfg.linkRetries ∧ s.cfg.layout.phyRegCtrl ≠ s.cfg.layout.phyRegStatus :=
  ⟨rfl, rfl, rfl, ⟨rfl, rfl⟩, rfl, by decide, by decide, by decide, by decide⟩
/-- One past each bound, and never. -/
theorem witness_BringupTimesOutInSimEnv :
    let s := fresh tiny (some 4) (some 4)
    s.blk.err = none ∧ s.blk.pc = .idle ∧ Quiet s ∧ EngineReady s ∧ s.dev.phySim = some ⟨some 4, some 4, 0x7849, 0x786D, 0, 0⟩
      ∧ s.cfg.resetRetries < 4 ∧ s.cfg.linkRetries < 4 ∧ 3 ≤ s.cfg.resetRetries
      ∧ (fresh tiny (some 3) none).dev.phySim = some ⟨some 3, none, 0x7849, 0x786D, 0, 0⟩
      ∧ s.cfg.layout.phyRegCtrl ≠ s.cfg.layout.phyRegStatus :=
  ⟨rfl, rfl, rfl, ⟨rfl, rfl⟩, rfl, by decide, by decide, by decide, rfl, by decide⟩
theorem witness_BringupNeverReturns :
    let s := { fresh tiny none none with env := { State.reset.env with miiCompletes := false } }
    s.blk.err = none ∧ s.blk.pc = .idle ∧ Quiet s ∧ s.env.miiCompletes = false := ⟨rfl, rfl, rfl, rfl⟩
theorem witness_BringupFrame :
    MacOff (fresh tiny (some 2) (some 3)) ∧ Quiet (fresh tiny (some 2) (some 3))
      ∧ ∃ t, exec .bringup (fresh tiny (some 2) (some 3)) = .next t := ⟨fresh_macOff, rfl, next_of (by decide +kernel)⟩
theorem witness_InitConstructsDriverOrStops :
    let s := fresh tiny (some 2) (some 3)
    s.blk = Block.reset ∧ Quiet s ∧ EngineReady s ∧ MacOff s ∧ s.cfg.poolValid = true
      ∧ s.cfg.deviceBase.toNat + (s.cfg.nTx + s.cfg.nRx) * s.cfg.slotSize ≤ 2 ^ 32 ∧ 2 ≤ s.cfg.resetRetries
          ∧ 3 ≤ s.cfg.linkRetries
      ∧ (fresh tinyNoPool none none).cfg.poolValid = false
      ∧ tinyOver.poolValid = true ∧ ¬ tinyOver.deviceBase.toNat + (tinyOver.nTx + tinyOver.nRx) * tinyOver.slotSize ≤ 2 ^ 32
      ∧ (fresh tiny none none).dev.phySim.map (·.resetReads) = some none
      ∧ (fresh tiny (some 3) (some 4)).dev.phySim = some ⟨some 3, some 4, 0x7849, 0x786D, 0, 0⟩
      ∧ 3 ≤ tiny.resetRetries ∧ tiny.linkRetries < 4 ∧ tiny.layout.phyRegCtrl ≠ tiny.layout.phyRegStatus :=
  ⟨rfl, rfl, ⟨rfl, rfl⟩, fresh_macOff, rfl, by decide, by decide, by decide, rfl, rfl, by decide, rfl, rfl, by decide, by decide,
    by decide⟩

/-! ### The data path, the dispatch pass, the device -/

/-- The longest frame, into the free slot at `TXC`. -/
theorem witness_TransmitAccepted :
    live.blk.err = none ∧ live.blk.flg.run = true ∧ 1 ≤ 4 ∧ 4 ≤ live.cfg.slotSize ∧ Quiet live
      ∧ Field.test live.cfg.layout.own (live.tick.dev.desc .tx .control live.blk.txc.toNat) = false :=
  ⟨rfl, rfl, by decide, by decide, rfl, by decide +kernel⟩
theorem witness_TransmitRetry :
    let s := { live with blk := { live.blk with txc := 0 } }
    s.blk.err = none ∧ s.blk.flg.run = true ∧ 1 ≤ 1 ∧ 1 ≤ s.cfg.slotSize ∧ Quiet s
      ∧ Field.test s.cfg.layout.own (s.tick.dev.desc .tx .control s.blk.txc.toNat) = true :=
  ⟨rfl, rfl, by decide, by decide, rfl, by decide +kernel⟩
theorem witness_TransmitDescriptorWord :
    4 ≤ tiny.slotSize ∧ 13 < 32 ∧ tiny.layout = Layout.default tiny.nTx
      ∧ ∀ f ∈ [tiny.layout.pad, tiny.layout.crc, tiny.layout.len, tiny.layout.own, tiny.layout.irq],
        ¬ (f.lo ≤ 13 ∧ 13 < f.lo + f.width) := by decide
theorem witness_CursorIsPureModuloCycle : (1#24).toNat < ringDepth tiny .rx := by decide
theorem witness_RingAnswersAreExact :
    Safe live ∧ live.blk.flg.run = true ∧ TxRingOrdered live ∧ RxRingOrdered live ∧ 1 ≤ 4 ∧ 4 ≤ live.cfg.slotSize
      ∧ (∃ t, exec (.transmit 4 0x5000) live = .next t) ∧ ∃ t, exec .receiveReady live = .next t :=
  ⟨live_safe, rfl, live_txOrdered, live_rxOrdered, by decide, by decide, next_of (by decide +kernel),
      next_of (by decide +kernel)⟩
theorem witness_ReceiveReadyResult : live.blk.err = none ∧ live.blk.flg.run = true ∧ Quiet live := ⟨rfl, rfl, rfl⟩
theorem witness_ReceiveLengthResult : live.blk.err = none ∧ live.blk.flg.run = true ∧ Quiet live := ⟨rfl, rfl, rfl⟩
/-- The largest and the smallest capacity. -/
theorem witness_ReceiveResult :
    live.blk.err = none ∧ live.blk.flg.run = true ∧ 2 ^ 24 - 1 < 2 ^ 24 ∧ 0 < 2 ^ 24 ∧ Quiet live
      ∧ Field.test live.cfg.layout.own (live.tick.dev.desc .rx .control live.blk.rxc.toNat) = false :=
  ⟨rfl, rfl, by decide, by decide, rfl, by decide +kernel⟩
theorem witness_MacAddressResult : live.blk.err = none ∧ (fresh tiny none none).blk.err = none := ⟨rfl, rfl⟩
/-- RX-pending, and not. -/
theorem witness_DispatchResult :
    live.blk.err = none ∧ live.blk.flg.run = true ∧ Quiet live ∧ live.tick.dev.intSource &&& live.cfg.layout.rxPendingMask ≠ 0
      ∧ live.env.rxEndless = false
      ∧ { live with dev := { live.dev with intSource := 1 } }.tick.dev.intSource &&& live.cfg.layout.rxPendingMask = 0 :=
  ⟨rfl, rfl, rfl, by decide +kernel, rfl, by decide +kernel⟩
/-- TX-pending alone, with frames arriving without end. -/
theorem witness_DispatchWithoutRxPending :
    let s := { live with dev := { live.dev with intSource := 1 }, env := { live.env with rxEndless := true } }
    s.blk.err = none ∧ s.blk.flg.run = true ∧ Quiet s ∧ s.tick.dev.intSource &&& s.cfg.layout.rxPendingMask = 0 :=
  ⟨rfl, rfl, rfl, by decide +kernel⟩
/-- The agents act before each primitive but the acknowledgement, with TX-pending and without it. -/
theorem witness_DispatchWithoutRxPending_turns :
    let s := fun (v : Word) (turns : List (List DevAct)) => { live with
      dev := { live.dev with intSource := v }, env := { live.env with schedule := turns } }
    ((s 0 [[.intRaise 1], [.intRaise 1]]).tick.dev.intSource = 1
        ∧ turnBefore 3 (s 0 [[.intRaise 1], [.intRaise 1]]) = [])
      ∧ ((s 0 [[.intRaise 0x80], [.intRaise 0x80]]).tick.dev.intSource = 0x80
        ∧ turnBefore 2 (s 0 [[.intRaise 0x80], [.intRaise 0x80]]) = []) := by decide +kernel

theorem flooded_safe : Safe flooded :=
  ⟨live_safe.block, ⟨live_safe.rings.1, live_safe.rings.2⟩, ⟨live_safe.mac.1, live_safe.mac.2, live_safe.mac.3⟩⟩
theorem goingOn_withoutEnd : PassWithoutEnd (goingOn flooded) where
  safe :=
    { block := by constructor <;> decide
      rings :=
        { single_wrap := by
            rintro - (_ | _) i hi <;> change i < 2 at hi <;> interval_cases i <;> decide +kernel
          pointers := by
            rintro - (_ | _) i hi <;> change i < 2 at hi <;> interval_cases i <;> decide +kernel }
      mac :=
        { enabled_iff := by rintro _ rfl; exact ⟨by decide +kernel, by decide +kernel⟩
          owned_tx := fun _ h => by cases h
          owned_rx := fun _ h => by cases h } }
  running := rfl
  going := rfl
  quiet := rfl
  endless := rfl
  empty := fun j hj => by change j < 2 at hj; interval_cases j <;> decide +kernel
  here := rfl
/-- Arrivals that end; arrivals that do not, as a pass begins and as it goes on. -/
theorem witness_DrainHasNoBound :
    live.cfg.nRx + arrivals live.env + 2 ≤ 4 ∧ live.env.rxEndless = false
      ∧ Safe flooded ∧ RxRingOrdered flooded ∧ flooded.blk.flg.run = true ∧ Quiet flooded ∧ flooded.env.rxEndless = true
      ∧ flooded.dev.intSource &&& flooded.cfg.layout.rxPendingMask ≠ 0 ∧ PassWithoutEnd (goingOn flooded) :=
  ⟨by decide, rfl, flooded_safe, live_rxOrdered, rfl, rfl, rfl, by decide +kernel, goingOn_withoutEnd⟩
/-- R271, R278, R321: a pass under endless arrivals has taken the frame that was there and has not ended; without RX-pending it
ends. -/
theorem test_dispatch_endless :
    passOf (exec .dispatch (answering flooded)) = some 4
      ∧ unfinishedEventsOf (exec .dispatch (answering flooded))
        = [.mmioRead 0x04 4, .mmioRead 0x410 0x24000, .askRxBuffer 2 0x3000 4, .mmioRead 0x410 0x24000,
          .mmioWrite 0x410 0x2C000, .frameReceived 0x3000 2]
      ∧ isNext (exec .dispatch { flooded with dev := { flooded.dev with intSource := 1 } }) = true := by decide +kernel
theorem witness_DispatchDeliversEveryFrame :
    live.blk.err = none ∧ live.blk.flg.run = true ∧ Quiet live ∧ live.env.rxEndless = false
      ∧ live.blk.rxc.toNat < live.cfg.nRx ∧ 1 ≤ live.cfg.nRx
      ∧ (∀ j, j < live.cfg.nRx → (owned live .rx j = false ↔ inStretch live.cfg.nRx live.blk.rxc.toNat 1 j))
      ∧ live.dev.intSource &&& live.cfg.layout.rxPendingMask ≠ 0 := by
  refine ⟨rfl, rfl, rfl, rfl, by decide, by decide, fun i hi => ?_, by decide +kernel⟩
  change i < 2 at hi
  interval_cases i
  · exact iff_of_true (by decide +kernel) ⟨0, by decide, by decide⟩
  · refine iff_of_false (by decide +kernel) ?_
    rintro ⟨k, hk, h⟩
    interval_cases k
    revert h; decide
/-- The TX engine at a slot it owns, and at one it does not. -/
theorem witness_TxEngineContract :
    macTxOn tiny.layout live.dev = true ∧ Field.test tiny.layout.own (live.dev.desc .tx .control live.dev.txPos) = true
      ∧ Field.test tiny.layout.own (live.dev.desc .tx .control 1) = false ∧ macTxOn tiny.layout built.dev = false :=
  ⟨by decide +kernel, by decide +kernel, by decide +kernel, by decide +kernel⟩
/-- A frame that fills the slot, at a slot the RX engine owns. -/
theorem witness_RxEngineContract :
    ([1, 2, 3, 4] : List Byte).length ≤ tiny.slotSize ∧ macRxOn tiny.layout live.dev = true
      ∧ Field.test tiny.layout.own (live.dev.desc .rx .control live.dev.rxPos) = true
      ∧ Field.test tiny.layout.own (live.dev.desc .rx .control 0) = false :=
  ⟨by decide, by decide +kernel, by decide +kernel, by decide +kernel⟩
theorem witness_MiiEngineContract :
    live.dev.mii = none ∧ Field.test tiny.layout.wctrldata 4#32 = true ∧ Field.test tiny.layout.wctrldata 2#32 = false
      ∧ Field.test tiny.layout.rstat 2#32 = true := by decide

end Sys2Proof.Tests
end

section
/-! SUPPORT. The ring cursor as a modulo cycle (rules R11, R21). -/

namespace Sys2Proof.Machine

/-- A ring of an accepted configuration has a slot, and its depth fits a 24-bit cursor (R7). -/
theorem ringDepth_range (c : Cfg) (r : Ring) : 1 ≤ ringDepth c r ∧ ringDepth c r ≤ 2 ^ 24 - 1 := by
  obtain ⟨htx, hrx, -⟩ := c.ranges
  cases r with
  | tx => exact htx
  | rx => exact hrx

/-- A cursor in range, advanced `k` times in a ring of `n` slots (R11). -/
theorem toNat_iterate_ringNext {n : Nat} (hn : 1 ≤ n) (hmax : n ≤ 2 ^ 24 - 1) {x : BitVec 24} (hx : x.toNat < n)
    (k : Nat) : ((fun y => ringNext y n)^[k] x).toNat = (x.toNat + k) % n := by
  induction k with
  | zero => exact (Nat.mod_eq_of_lt hx).symm
  | succ k ih => rw [Function.iterate_succ_apply', ringNext_toNat _ n hn hmax, ih, Nat.mod_add_mod, Nat.add_assoc]

/-- As many advances as the ring has slots bring the cursor back (R11). -/
theorem iterate_ringNext_depth {n : Nat} (hn : 1 ≤ n) (hmax : n ≤ 2 ^ 24 - 1) {x : BitVec 24} (hx : x.toNat < n) :
    (fun y => ringNext y n)^[n] x = x := by
  apply BitVec.eq_of_toNat_eq
  rw [toNat_iterate_ringNext hn hmax hx, Nat.add_mod_right, Nat.mod_eq_of_lt hx]

/-- Settles O39, by induction on the number of advances: an advance adds 1 modulo the depth, which fits the cursor. -/
theorem cursorIsPureModuloCycle : Obligations.CursorIsPureModuloCycle := by
  intro c r x k hx
  obtain ⟨hn, hmax⟩ := ringDepth_range c r
  exact ⟨toNat_iterate_ringNext hn hmax hx k, iterate_ringNext_depth hn hmax hx⟩

end Sys2Proof.Machine
end

section
/-! SUPPORT. The host's reset of the block (rules R62, R300, R301). -/

namespace Sys2Proof.Machine

/-- Between operations a step is the host's next action (R110). -/
theorem step_of_pass_none {s : State} (hpass : s.pass = none) : step s = hostStep s := by
  simp only [step, hpass]

/-- With the MAC off, a host reset is accepted: it is used up, and the block is reset (R300, R301). -/
theorem hostStep_reset {s : State} {rest : List HostAct} (hhost : s.env.host = .reset :: rest) (hoff : MacOff s) :
    hostStep s = .next (s.setEnv { s.env with host := rest }).blockReset := by
  obtain ⟨htx, hrx⟩ := hoff
  simp [hostStep, hhost, htx, hrx]

/-- Between operations, a reset of the block changes its working registers alone (R301). -/
theorem State.blockReset_of_pass_none {s : State} (hpass : s.pass = none) :
    s.blockReset = { s with blk := Block.reset } := by
  simp only [State.blockReset, State.setBlk, State.setPass, hpass]

/-- Settles O12: the values are `Block.reset`'s by definition, and the step is the host's reset, which with no pass to
end changes the working registers alone. -/
theorem resetValues : Obligations.ResetValues := by
  refine ⟨rfl, fun s rest hpass hhost hoff => ?_⟩
  have hpass' : (s.setEnv { s.env with host := rest }).pass = none := hpass
  rw [step_of_pass_none hpass, hostStep_reset hhost hoff, State.blockReset_of_pass_none hpass']
  rfl

end Sys2Proof.Machine
end

section
/-! SUPPORT. Which command words decode to an operation (rules R113, R115, R118). -/

namespace Sys2Proof

/-- The thirteen opcodes that have an operation (R115). -/
def opcodes : List (BitVec 8) := [0x01, 0x02, 0x03, 0x04, 0x05, 0x06, 0x07, 0x10, 0x11, 0x12, 0x13, 0x14, 0x20]

/-- The opcodes of format Z, whose operands must be 0 (R113). -/
def formatZOpcodes : List (BitVec 8) := [0x01, 0x04, 0x05, 0x06, 0x07, 0x11, 0x12, 0x14, 0x20]

/-- The word decodes to an operation: its opcode has one, and its operands are 0 in format Z (R113, R118). -/
def LegalWord (w : CmdWord) : Prop :=
  opField w ∈ opcodes ∧ (opField w ∈ formatZOpcodes → aField w = 0 ∧ bField w = 0)

theorem opcode_mem_opcodes (i : Instr) : opcode i ∈ opcodes := by
  cases i <;> simp [opcode, opcodes]

/-- An operation of format Z has no operands. -/
theorem operands_eq_zero_of_formatZ {i : Instr} (h : opcode i ∈ formatZOpcodes) : operands i = (0, 0) := by
  revert h
  cases i <;> simp [opcode, operands, formatZOpcodes]

/-- A format-Z opcode decodes when both operands are 0. -/
theorem decodeFields_formatZ {op : BitVec 8} (h : op ∈ formatZOpcodes) : ∃ i, decodeFields op.toNat 0 0 = .ok i := by
  simp only [formatZOpcodes, List.mem_cons, List.not_mem_nil, or_false] at h
  rcases h with rfl | rfl | rfl | rfl | rfl | rfl | rfl | rfl | rfl <;> exact ⟨_, rfl⟩

/-- An opcode of another format decodes with all operands. -/
theorem decodeFields_of_not_formatZ {op : BitVec 8} (h : op ∈ opcodes) (hz : op ∉ formatZOpcodes) (a b : Nat) :
    ∃ i, decodeFields op.toNat a b = .ok i := by
  have hop : op ∈ ([0x02, 0x03, 0x10, 0x13] : List (BitVec 8)) := by
    revert op; decide
  simp only [List.mem_cons, List.not_mem_nil, or_false] at hop
  rcases hop with rfl | rfl | rfl | rfl <;> exact ⟨_, rfl⟩

/-- R118: exactly the legal words decode to an operation. -/
theorem exists_decode_iff_legalWord (w : CmdWord) : (∃ i, decode w = .ok i) ↔ LegalWord w := by
  constructor
  · rintro ⟨i, hi⟩
    obtain ⟨hop, ha, hb⟩ := fields_of_decode hi
    refine ⟨hop ▸ opcode_mem_opcodes i, fun hz => ?_⟩
    rw [operands_eq_zero_of_formatZ (hop ▸ hz)] at ha hb
    exact ⟨BitVec.eq_of_toNat_eq ha, BitVec.eq_of_toNat_eq hb⟩
  · rintro ⟨hop, hzero⟩
    by_cases hz : opField w ∈ formatZOpcodes
    · obtain ⟨ha, hb⟩ := hzero hz
      simpa [decode, ha, hb] using decodeFields_formatZ hz
    · exact decodeFields_of_not_formatZ hop hz _ _

end Sys2Proof
end

section
/-! SUPPORT. The answers that write `RESULT` and do nothing else (rules R117 to R122). -/

namespace Sys2Proof.Machine

/-- The end of an operation that did nothing before it leaves `RESULT`, and what is seen of it. -/
theorem State.finish_eq_answered (st : Status) (v : BitVec 48) (s : State) :
    s.finish st v = answered (resultWord st v) s := rfl

theorem resultWord_illegalOp : resultWord .illegalOp 0 = 0x8000000000000000#64 := by decide
theorem resultWord_illegalState : resultWord .illegalState 0 = 0x8100000000000000#64 := by decide
theorem resultWord_badOperand : resultWord .badOperand 0 = 0x8200000000000000#64 := by decide

/-- The status field of an `OK` result is 0. -/
theorem okWord_status (v : BitVec 48) : (okWord v).extractLsb' 56 8 = 0x00#8 := by
  apply BitVec.eq_of_toNat_eq
  have hv := v.isLt
  simp only [okWord, BitVec.extractLsb'_toNat, BitVec.toNat_append, BitVec.toNat_ofNat, Nat.shiftRight_eq_div_pow,
    Nat.zero_mod, Nat.zero_shiftLeft, Nat.zero_or]
  omega

/-! ## A word that decodes to no operation -/

/-- A word that decodes to no operation is taken and answered `ILLEGAL_OP`, in every state (R118). -/
theorem runCommand_illegal {w : CmdWord} (h : ¬ LegalWord w) (s : State) :
    runCommand w s = .next (answered 0x8000000000000000#64 s) := by
  unfold runCommand
  cases hd : decode w with
  | ok i => exact absurd ((exists_decode_iff_legalWord w).1 ⟨i, hd⟩) h
  | error r => simp only [State.finish_eq_answered, resultWord_illegalOp]

/-- Between operations, the host's command word is taken and run (R110). -/
theorem step_command {s : State} {w : CmdWord} {rest : List HostAct} (hpass : s.pass = none)
    (hhost : s.env.host = .command w :: rest) : step s = runCommand w (acceptCommand w rest s) := by
  simp only [step_of_pass_none hpass, hostStep, hhost]

/-- Settles O6: the illegal words are those that are not legal, and exactly the legal ones decode. -/
theorem illegalWordOnlyWritesResult : Obligations.IllegalWordOnlyWritesResult := by
  intro w op operandNotZero illegal
  have hlegal : illegal ↔ ¬ LegalWord w := by
    change (opField w ∉ opcodes ∨ (opField w ∈ formatZOpcodes ∧ (aField w ≠ 0 ∨ bField w ≠ 0))) ↔ _
    unfold LegalWord
    tauto
  refine ⟨fun h => (exists_decode_iff_legalWord w).2 (not_not.1 (mt hlegal.2 h)), fun h s rest hpass hhost => ?_⟩
  rw [step_command hpass hhost, runCommand_illegal (hlegal.1 h)]
  rfl

/-! ## The fatal gate and the state gate -/

/-- Settles O7: the fatal gate stands before everything else an operation does. -/
theorem fatalGate : Obligations.FatalGate := by
  intro i s e he
  rw [exec_fatal i he, State.finish_eq_answered, resultWord_fatal]

/-- Outside the states of its row an operation only answers `ILLEGAL_STATE` (R121). -/
theorem exec_illegalState {i : Instr} {s : State} (he : s.blk.err = none) (hg : stateGate i s.blk = false) :
    exec i s = .next (answered 0x8100000000000000#64 s) := by
  rw [exec_gated he hg, State.finish_eq_answered, resultWord_illegalState]

/-- `MAC_ENABLE`'s gate is the conjunction of R121. -/
theorem gateEnable_eq_true_iff (b : Block) :
    gateEnable b = true ↔ b.pc = .linkUp ∧ b.flg.rings = true ∧ b.flg.macaddr = true ∧ b.flg.run = false := by
  simp [gateEnable, and_assoc]

/-- Settles O8: row by row of R121, the gate of the row is shut. -/
theorem stateGate_holds : Obligations.StateGate := by
  intro s he refusedNow
  refine ⟨fun hrings => ?_, fun hrun => ?_, fun hpc => ?_, fun henable => ?_, fun hrun => ?_, macValue s.cfg.mac, ?_⟩
  · have hg : gateRingsOpen s.blk = false := by simp [gateRingsOpen, hrings]
    exact ⟨exec_illegalState he hg, fun i addr => ⟨exec_illegalState he hg, exec_illegalState he hg⟩⟩
  · have hg : gateBeforeRun s.blk = false := by simp [gateBeforeRun, hrun]
    exact ⟨exec_illegalState he hg, exec_illegalState he hg⟩
  · exact exec_illegalState he (decide_eq_false hpc)
  · exact exec_illegalState he (Bool.eq_false_iff.2 (mt (gateEnable_eq_true_iff s.blk).1 henable))
  · have hg : gateRun s.blk = false := hrun
    exact ⟨fun n addr => ⟨exec_illegalState he hg, exec_illegalState he hg⟩, exec_illegalState he hg,
      exec_illegalState he hg, exec_illegalState he hg⟩
  · exact exec_runs he rfl

/-! ## The operand checks -/

/-- The test for a pool slot's device address says what R122 says. -/
theorem isPoolSlotAddr_iff (c : Cfg) (addr : Nat) : isPoolSlotAddr c addr = true ↔
    ∃ m, m < c.nTx + c.nRx ∧ addr = c.deviceBase.toNat + m * c.slotSize := by
  obtain ⟨-, -, ⟨hsize, -⟩, -⟩ := c.ranges
  simp only [isPoolSlotAddr, Bool.and_eq_true, decide_eq_true_eq, beq_iff_eq]
  constructor
  · rintro ⟨⟨hbase, hmod⟩, hlt⟩
    refine ⟨_, hlt, ?_⟩
    rw [Nat.div_mul_cancel (Nat.dvd_of_mod_eq_zero hmod)]
    omega
  · rintro ⟨m, hm, rfl⟩
    rw [Nat.add_sub_cancel_left, Nat.mul_mod_left, Nat.mul_div_cancel _ (by omega)]
    exact ⟨⟨by omega, rfl⟩, hm⟩

section SlotOperands
variable {c : Cfg} {r : Ring} {i addr : Nat}

theorem checkSlotOperands_index (hi : ringDepth c r ≤ i) : checkSlotOperands c r i addr = .badOperand := if_pos hi

theorem checkSlotOperands_range (hi : i < ringDepth c r) (ha : 2 ^ 32 ≤ addr) :
    checkSlotOperands c r i addr = .addressRange := by
  rw [checkSlotOperands, if_neg (Nat.not_le.2 hi), if_pos ha]

theorem checkSlotOperands_pool (hi : i < ringDepth c r) (ha : addr < 2 ^ 32)
    (hp : ¬ ∃ m, m < c.nTx + c.nRx ∧ addr = c.deviceBase.toNat + m * c.slotSize) :
    checkSlotOperands c r i addr = .badOperand := by
  rw [checkSlotOperands, if_neg (Nat.not_le.2 hi), if_neg (Nat.not_le.2 ha),
    if_neg (mt (isPoolSlotAddr_iff c addr).1 hp)]

end SlotOperands

/-- A failed operand check only answers `BAD_OPERAND`. -/
theorem checked_badOperand (run : State → State) (s : State) :
    checked .badOperand run s = .next (answered 0x8200000000000000#64 s) := by
  rw [checked, State.finish_eq_answered, resultWord_badOperand]

/-- Fatal entry is what R262 lists, after the agents' turn before its log event (R12). -/
theorem State.raiseFatal_eq_raised (e : FatalErr) (s : State) : s.raiseFatal e = raised e s.tick := by
  simp only [State.raiseFatal, State.emit_eq_log, State.tick_setBlk, State.finish_eq_answered, resultWord_fatal, raised,
    State.tick_blk]
  cases e <;> rfl

/-- The slot set-up of a ring. -/
def setupSlot : Ring → Nat → Nat → Instr
  | .tx, i, addr => .setupTxSlot i addr
  | .rx, j, addr => .setupRxSlot j addr

/-- The device side of a slot set-up (R191, R192). -/
def setupSlotRun : Ring → Nat → Word → State → State
  | .tx => setupTx
  | .rx => setupRx

theorem execBody_setupSlot (r : Ring) (i addr : Nat) (s : State) : execBody (setupSlot r i addr) s =
    checked (checkSlotOperands s.cfg r i addr) (fun s => (setupSlotRun r i (BitVec.ofNat 32 addr) s).finish .ok 0) s := by
  cases r <;> rfl

theorem stateGate_setupSlot (r : Ring) (i addr : Nat) (b : Block) :
    stateGate (setupSlot r i addr) b = gateRingsOpen b := by
  cases r <;> rfl

section SetupSlot
variable {s : State} {r : Ring} {i addr : Nat} (he : s.blk.err = none) (hrings : s.blk.flg.rings = false)
include he hrings

/-- While the rings are not set up, a slot set-up is its operand check and then its run. -/
theorem exec_setupSlot : exec (setupSlot r i addr) s = checked (checkSlotOperands s.cfg r i addr)
    (fun s => (setupSlotRun r i (BitVec.ofNat 32 addr) s).finish .ok 0) s := by
  have hg : stateGate (setupSlot r i addr) s.blk = true := by simp [stateGate_setupSlot, gateRingsOpen, hrings]
  rw [exec_runs he hg, execBody_setupSlot]

theorem exec_setupSlot_badOperand (h : checkSlotOperands s.cfg r i addr = .badOperand) :
    exec (setupSlot r i addr) s = .next (answered 0x8200000000000000#64 s) := by
  rw [exec_setupSlot he hrings, h, checked_badOperand]

theorem exec_setupSlot_addressRange (h : checkSlotOperands s.cfg r i addr = .addressRange) :
    exec (setupSlot r i addr) s = .next (raised .deviceAddrRange s.tick) := by
  rw [exec_setupSlot he hrings, h, checked, State.raiseFatal_eq_raised]

end SetupSlot

/-- A length outside 1 to `SLOT_SIZE` is a bad operand of `TRANSMIT`. -/
theorem exec_transmit_badOperand {s : State} {n : Nat} (he : s.blk.err = none) (hrun : s.blk.flg.run = true)
    (hn : ¬ (1 ≤ n ∧ n ≤ s.cfg.slotSize)) (addr : Nat) :
    exec (.transmit n addr) s = .next (answered 0x8200000000000000#64 s) := by
  have hcheck : checkTransmitLength s.cfg n = .badOperand := if_neg hn
  rw [exec_runs (i := .transmit n addr) he hrun, execBody, hcheck, checked_badOperand]

/-- Settles O9: each clause is one case of the operand check, the two slot set-ups by one lemma for both rings; `RECEIVE`
has no check. -/
theorem operandChecks : Obligations.OperandChecks := by
  intro s he bad inPool
  refine ⟨fun hrings i addr => ?_, fun hrun n addr => ⟨fun hn => exec_transmit_badOperand he hrun hn addr, fun _ => ?_⟩⟩
  · have hbad (r) (h : checkSlotOperands s.cfg r i addr = .badOperand) : exec (setupSlot r i addr) s = bad :=
      exec_setupSlot_badOperand he hrings h
    have hrange (r) (hi : i < ringDepth s.cfg r) (ha : 2 ^ 32 ≤ addr) :
        exec (setupSlot r i addr) s = .next (raised .deviceAddrRange s.tick) :=
      exec_setupSlot_addressRange he hrings (checkSlotOperands_range hi ha)
    exact ⟨fun hi => hbad .tx (checkSlotOperands_index hi), fun hi => hbad .rx (checkSlotOperands_index hi),
      hrange .tx, hrange .rx,
      fun hi ha hp => hbad .tx (checkSlotOperands_pool hi ha hp),
      fun hi ha hp => hbad .rx (checkSlotOperands_pool hi ha hp)⟩
  · refine ⟨_, exec_runs he hrun, ?_⟩
    rw [State.finish_blk, resultWord_ok, okWord_status]

end Sys2Proof.Machine
end

section
/-! SUPPORT. The read transaction for every schedule of the agents (rules R142 to R146). -/

namespace Sys2Proof.Machine

/-- `Trigger` returns when every transaction completes: each of its two waits does (R93, R144). -/
theorem trigger_returns (f : Field) {s : State} (hm : s.env.miiCompletes = true) : ∃ t, trigger f s = some t := by
  obtain ⟨s1, h1⟩ := waitIdleTurns_returns s hm
  have hpulse : (pulse f s1).env.miiCompletes = true := by
    rw [pulse, mmioWrite_completes, mmioWrite_completes, waitIdle_completes h1, hm]
  obtain ⟨t, h2⟩ := waitIdleTurns_returns (pulse f s1) hpulse
  exact ⟨t, Option.bind_eq_some_iff.2 ⟨s1, h1, h2⟩⟩

/-- `MiiRead` returns when every transaction completes (R93, R146). -/
theorem miiRead_returns (reg : BitVec 5) {s : State} (hm : s.env.miiCompletes = true) : ∃ t, miiRead reg s = some t := by
  have hselect : (miiSelect reg s).env.miiCompletes = true := by rw [miiSelect, mmioWrite_completes, hm]
  obtain ⟨s1, h1⟩ := trigger_returns s.cfg.layout.rstat hselect
  exact ⟨loadMd s1, Option.map_eq_some_iff.2 ⟨s1, h1, rfl⟩⟩

/-- Settles O25: it returns because its waits do, and its events are those of `IsMiiRead`, with the word kept in `MD`. -/
theorem miiReadSequence : Obligations.MiiReadSequence := by
  intro s reg L sel
  refine ⟨miiRead_returns reg, fun t ht => ?_⟩
  obtain ⟨hblk, hcfg, evs, ⟨v, r1, r2, hwait1, hwait2, hword, rfl⟩, htrace⟩ := miiRead_events ht
  refine ⟨hcfg, v, r1, r2, hwait1, hwait2, hword ▸ hblk, ?_⟩
  rw [htrace, List.cons_append]
  rfl

end Sys2Proof.Machine
end

section
/-! SUPPORT. The set-up of the descriptor rings (rules R190 to R196): each operation is a list of descriptor writes. What a
list of them does is said once, for every list and every schedule of the agents; what the list of an operation leaves in the
rings is then a matter of the list alone. -/

namespace Sys2Proof.Machine

/-! ## A list of descriptor writes -/

/-- One descriptor write of a ring set-up: the word, its slot, and the value. -/
structure SlotWrite where
  ring  : Ring
  word  : DescWord
  slot  : Nat
  value : Word

/-- The bus event of the write. -/
def SlotWrite.event (c : Cfg) (x : SlotWrite) : Event := writeEvent c (.desc x.ring x.word x.slot) x.value

/-- The write as a primitive of R12. -/
def SlotWrite.run (s : State) (x : SlotWrite) : State := s.mmioWrite (.desc x.ring x.word x.slot) x.value

/-- The block makes the writes of a list, in order. -/
def writeSlots (ws : List SlotWrite) (s : State) : State := ws.foldl SlotWrite.run s

/-- The writes of a list on the device alone. -/
def Device.putSlots (d : Device) (ws : List SlotWrite) : Device :=
  ws.foldl (fun d x => d.setDesc x.ring x.word x.slot x.value) d

theorem writeSlots_cons (x : SlotWrite) (ws : List SlotWrite) (s : State) :
    writeSlots (x :: ws) s = writeSlots ws (x.run s) := rfl

theorem writeSlots_append (ws xs : List SlotWrite) (s : State) :
    writeSlots (ws ++ xs) s = writeSlots xs (writeSlots ws s) := List.foldl_append

theorem Device.putSlots_append (d : Device) (ws xs : List SlotWrite) :
    d.putSlots (ws ++ xs) = (d.putSlots ws).putSlots xs := List.foldl_append

section WriteSlots
variable (ws : List SlotWrite) (s : State)

@[simp] theorem writeSlots_cfg : (writeSlots ws s).cfg = s.cfg := by
  induction ws generalizing s with
  | nil => rfl
  | cons x ws ih => rw [writeSlots_cons, ih, SlotWrite.run, State.mmioWrite_cfg]

@[simp] theorem writeSlots_blk : (writeSlots ws s).blk = s.blk := by
  induction ws generalizing s with
  | nil => rfl
  | cons x ws ih => rw [writeSlots_cons, ih, SlotWrite.run, State.mmioWrite_blk]

/-- The writes are seen one after another, whatever the agents do between them. -/
theorem writeSlots_trace : (writeSlots ws s).trace = (ws.map (SlotWrite.event s.cfg)).reverse ++ s.trace := by
  induction ws generalizing s with
  | nil => rfl
  | cons x ws ih =>
    rw [writeSlots_cons, ih]
    simp [SlotWrite.run, SlotWrite.event]

/-- With no agent acting, the writes are all that happens. -/
theorem writeSlots_quiet (hq : Quiet s) : (writeSlots ws s).dev = s.dev.putSlots ws ∧ (writeSlots ws s).mem = s.mem
    ∧ (writeSlots ws s).env = s.env := by
  induction ws generalizing s with
  | nil => exact ⟨rfl, rfl, rfl⟩
  | cons x ws ih =>
    have hrun : x.run s = (s.setDev (s.dev.setDesc x.ring x.word x.slot x.value)).log (x.event s.cfg) :=
      s.mmioWrite_quiet _ _ hq
    have hq' : Quiet (x.run s) := by rw [hrun]; exact hq
    obtain ⟨hdev, hmem, henv⟩ := ih (x.run s) hq'
    rw [writeSlots_cons, hdev, hmem, henv, hrun]
    exact ⟨rfl, rfl, rfl⟩

end WriteSlots

/-- Equal rings stay equal under the same descriptor write. -/
theorem SameRings.setDesc {d e : Device} (h : SameRings d e) (r : Ring) (w : DescWord) (i : Nat) (v : Word) :
    SameRings (d.setDesc r w i v) (e.setDesc r w i v) := by
  obtain ⟨htc, htp, hrc, hrp, ht, hr⟩ := h
  cases r <;> cases w <;> constructor <;> simp [Device.setDesc, *]

theorem SameRings.putSlots {d e : Device} (h : SameRings d e) (ws : List SlotWrite) :
    SameRings (d.putSlots ws) (e.putSlots ws) := by
  induction ws generalizing d e with
  | nil => exact h
  | cons x ws ih => exact ih (h.setDesc _ _ _ _)

/-- A descriptor write leaves the MAC off, and so do the agents before it. -/
theorem MacOff.run {s : State} (h : MacOff s) (x : SlotWrite) : MacOff (x.run s) := by
  obtain ⟨htx, hrx⟩ := h
  have hsame := s.tick_sameDriverRegs
  constructor
  · simp [SlotWrite.run, hsame.txOn, htx]
  · simp [SlotWrite.run, hsame.rxOn, hrx]

/-- With the MAC off, the writes are all that happens to the rings and to memory. -/
theorem writeSlots_macOff (ws : List SlotWrite) {s : State} (hoff : MacOff s) :
    SameRings (s.dev.putSlots ws) (writeSlots ws s).dev ∧ (writeSlots ws s).mem = s.mem := by
  induction ws generalizing s with
  | nil => exact ⟨.refl _, rfl⟩
  | cons x ws ih =>
    obtain ⟨htick, hmem⟩ := s.tick_macOff hoff
    obtain ⟨hrings, hmem'⟩ := ih (hoff.run x)
    exact ⟨((htick.setDesc _ _ _ _).putSlots ws).trans hrings, hmem'.trans hmem⟩

/-- Either way, "absent hardware activity" (R191, R195). -/
theorem writeSlots_undisturbed (ws : List SlotWrite) {s : State} (h : MacOff s ∨ Quiet s) :
    SameRings (s.dev.putSlots ws) (writeSlots ws s).dev ∧ (writeSlots ws s).mem = s.mem := by
  rcases h with hoff | hq
  · exact writeSlots_macOff ws hoff
  · obtain ⟨hdev, hmem, -⟩ := writeSlots_quiet ws s hq
    exact ⟨hdev ▸ .refl _, hmem⟩

/-- Descriptor writes change nothing but the descriptors. -/
theorem Device.putSlots_eq (d : Device) (ws : List SlotWrite) : d.putSlots ws =
    { d with
      txControl := (d.putSlots ws).txControl, txPointer := (d.putSlots ws).txPointer
      rxControl := (d.putSlots ws).rxControl, rxPointer := (d.putSlots ws).rxPointer } := by
  induction ws generalizing d with
  | nil => rfl
  | cons x ws ih =>
    obtain ⟨r, w, i, v⟩ := x
    refine (ih (d.setDesc r w i v)).trans ?_
    cases r <;> cases w <;> rfl

/-! ## The set-up of one slot -/

/-- Word 0 of a slot that has been set up: a TX slot is the block's, an RX slot is empty with its interrupt enabled (R191,
R192). -/
def freshControl (L : Layout) : Ring → Word
  | .tx => 0#32
  | .rx => Field.bit 32 L.irq ||| Field.bit 32 L.own

theorem freshControl_tx_or (L : Layout) (v : Word) : freshControl L .tx ||| v = v := BitVec.zero_or

/-- The words of a slot that has been set up with the buffer at `addr`. -/
def freshWord (L : Layout) (r : Ring) (addr : Word) (w : DescWord) : Word :=
  if w = .control then freshControl L r else addr

/-- The writes of a slot set-up, in order (R191, R192). -/
def setupWrites (L : Layout) (r : Ring) (i : Nat) (addr : Word) : List SlotWrite :=
  ⟨r, .control, i, 0⟩ :: ⟨r, .pointer, i, addr⟩ ::
    match r with
    | .tx => []
    | .rx => [⟨.rx, .control, i, Field.bit 32 L.irq⟩, ⟨.rx, .control, i, freshControl L .rx⟩]

theorem setupSlotRun_eq (r : Ring) (i : Nat) (addr : Word) (s : State) :
    setupSlotRun r i addr s = writeSlots (setupWrites s.cfg.layout r i addr) s := by
  cases r <;> rfl

/-- What a slot set-up leaves in the descriptors: the last write of each word. -/
theorem desc_putSlots_setupWrites (L : Layout) (r r' : Ring) (i j : Nat) (addr : Word) (w : DescWord) (d : Device) :
    (d.putSlots (setupWrites L r i addr)).desc r' w j
      = if r' = r ∧ j = i then freshWord L r addr w else d.desc r' w j := by
  cases r <;> cases w <;>
    simp +contextual [Device.putSlots, setupWrites, Device.desc_setDesc, freshWord, freshControl]

/-- The operand checks pass for a good index and a pool slot's address below 2^32 (R122). -/
theorem checkSlotOperands_poolSlot {c : Cfg} {r : Ring} {i m : Nat} (hi : i < ringDepth c r) (hm : m < c.nTx + c.nRx)
    (ha : c.deviceBase.toNat + m * c.slotSize < 2 ^ 32) :
    checkSlotOperands c r i (c.deviceBase.toNat + m * c.slotSize) = .good := by
  rw [checkSlotOperands, if_neg (Nat.not_le.2 hi), if_neg (Nat.not_le.2 ha),
    if_pos ((isPoolSlotAddr_iff c _).2 ⟨m, hm, rfl⟩)]

/-- The state in which a slot set-up ends. -/
def slotSetUp (r : Ring) (i : Nat) (addr : Word) (s : State) : State :=
  (writeSlots (setupWrites s.cfg.layout r i addr) s).finish .ok 0

/-- A slot set-up whose operands pass the checks makes its writes and answers `OK`. -/
theorem exec_setupSlot_good {s : State} {r : Ring} {i m : Nat} (he : s.blk.err = none)
    (hrings : s.blk.flg.rings = false) (hi : i < ringDepth s.cfg r) (hm : m < s.cfg.nTx + s.cfg.nRx)
    (ha : s.cfg.deviceBase.toNat + m * s.cfg.slotSize < 2 ^ 32) :
    exec (setupSlot r i (s.cfg.deviceBase.toNat + m * s.cfg.slotSize)) s
      = .next (slotSetUp r i (BitVec.ofNat 32 (s.cfg.deviceBase.toNat + m * s.cfg.slotSize)) s) := by
  rw [exec_setupSlot he hrings, checkSlotOperands_poolSlot hi hm ha, checked, setupSlotRun_eq, slotSetUp]

section SlotSetUp
variable {r : Ring} {i : Nat} {addr : Word} {s : State}

theorem slotSetUp_cfg : (slotSetUp r i addr s).cfg = s.cfg := by simp [slotSetUp]

theorem slotSetUp_blk : (slotSetUp r i addr s).blk = { s.blk with result := okWord 0 } := by
  simp [slotSetUp, resultWord_ok]

theorem slotSetUp_observed :
    observed s ((setupWrites s.cfg.layout r i addr).map (SlotWrite.event s.cfg)).reverse (slotSetUp r i addr s) := by
  simp only [observed, slotSetUp, State.finish_trace, State.finish_blk, writeSlots_trace]

theorem slotSetUp_undisturbed (h : MacOff s ∨ Quiet s) :
    (∀ r' w j, (slotSetUp r i addr s).dev.desc r' w j
        = if r' = r ∧ j = i then freshWord s.cfg.layout r addr w else s.dev.desc r' w j)
      ∧ (slotSetUp r i addr s).mem = s.mem := by
  obtain ⟨hrings, hmem⟩ := writeSlots_undisturbed (setupWrites s.cfg.layout r i addr) h
  refine ⟨fun r' w j => ?_, hmem⟩
  rw [slotSetUp, State.finish_dev, hrings.desc, desc_putSlots_setupWrites]

theorem slotSetUp_quiet (hq : Quiet s) :
    (slotSetUp r i addr s).dev = s.dev.putSlots (setupWrites s.cfg.layout r i addr)
      ∧ (slotSetUp r i addr s).env = s.env := by
  obtain ⟨hdev, -, henv⟩ := writeSlots_quiet (setupWrites s.cfg.layout r i addr) s hq
  exact ⟨hdev, henv⟩

end SlotSetUp

/-- Settles O14: the operand checks pass, and what the two writes do is what any list of descriptor writes does. -/
theorem setupTxSlotResult : Obligations.SetupTxSlotResult := by
  intro s i m he hrings hi hm addr ha
  refine ⟨_, exec_setupSlot_good (r := .tx) he hrings hi hm ha, slotSetUp_cfg, slotSetUp_blk, slotSetUp_observed,
    slotSetUp_undisturbed, fun hq => ?_⟩
  obtain ⟨hdev, henv⟩ := slotSetUp_quiet hq
  exact ⟨by rw [hdev]; rfl, henv⟩

/-- Settles O15: as O14, with the four writes of an RX slot. -/
theorem setupRxSlotResult : Obligations.SetupRxSlotResult := by
  intro s j m he hrings hj hm addr irq own ha
  refine ⟨_, exec_setupSlot_good (r := .rx) he hrings hj hm ha, slotSetUp_cfg, slotSetUp_blk, slotSetUp_observed,
    slotSetUp_undisturbed, fun hq => ?_⟩
  obtain ⟨hdev, henv⟩ := slotSetUp_quiet hq
  exact ⟨by rw [hdev]; rfl, henv⟩

end Sys2Proof.Machine
end

section
/-! SUPPORT. `RING_INIT`: its pool check, its writes as one list, and the rings it leaves (rules R193 to R195). -/

namespace Sys2Proof.Machine

/-! ## The pool check -/

section PoolCheck
variable {c : Cfg}

theorem poolCheck_invalid (hv : c.poolValid = false) : poolCheck c = some .poolAcquisitionFailed := by
  simp [poolCheck, hv]

theorem poolCheck_range (hv : c.poolValid = true) (hr : 2 ^ 32 < c.deviceBase.toNat + (c.nTx + c.nRx) * c.slotSize) :
    poolCheck c = some .deviceAddrRange := by
  have hr' : 2 ^ 32 < c.deviceBase.toNat + poolSize c := hr
  rw [poolCheck, hv, Bool.not_true, if_neg Bool.false_ne_true, if_pos hr']

theorem poolCheck_usable (hv : c.poolValid = true) (hr : c.deviceBase.toNat + (c.nTx + c.nRx) * c.slotSize ≤ 2 ^ 32) :
    poolCheck c = none := by
  have hr' : ¬ 2 ^ 32 < c.deviceBase.toNat + poolSize c := Nat.not_lt.2 hr
  rw [poolCheck, hv, Bool.not_true, if_neg Bool.false_ne_true, if_neg hr']

end PoolCheck

/-- While the rings are not set up, `RING_INIT` runs. -/
theorem exec_ringInit {s : State} (he : s.blk.err = none) (hrings : s.blk.flg.rings = false) :
    exec .ringInit s = .next (ringInit s) := by
  have hg : stateGate .ringInit s.blk = true := by simp [stateGate, gateRingsOpen, hrings]
  rw [exec_runs he hg, execBody]

/-- A failed pool check raises its error, and the operation does nothing else. -/
theorem ringInit_raised {s : State} {e : FatalErr} (h : poolCheck s.cfg = some e) : ringInit s = raised e s.tick := by
  simp only [ringInit, h, State.raiseFatal_eq_raised]

/-- Settles O16: each clause is one case of the pool check. -/
theorem ringInitPoolCheck : Obligations.RingInitPoolCheck := by
  intro s he hrings
  refine ⟨fun hv => ?_, fun hv hr => ?_⟩
  · rw [exec_ringInit he hrings, ringInit_raised (poolCheck_invalid hv)]
  · rw [exec_ringInit he hrings, ringInit_raised (poolCheck_range hv hr)]

/-! ## The writes of `RING_INIT` -/

/-- The writes that set up the slots of a ring below `n`, each with its own buffer. -/
def slotWritesBelow (c : Cfg) (r : Ring) (n : Nat) : List SlotWrite :=
  (List.range n).flatMap fun i => setupWrites c.layout r i (bufDev c r i)

/-- The writes of one ring: every slot, then the wrap flag on the last (R194, R196). -/
def ringWrites (c : Cfg) (r : Ring) : List SlotWrite :=
  slotWritesBelow c r (ringDepth c r)
    ++ [⟨r, .control, ringDepth c r - 1, freshControl c.layout r ||| Field.bit 32 c.layout.wrap⟩]

/-- The writes of `RING_INIT`. -/
def ringInitWrites (c : Cfg) : List SlotWrite := ringWrites c .tx ++ ringWrites c .rx

theorem slotWritesBelow_succ (c : Cfg) (r : Ring) (n : Nat) :
    slotWritesBelow c r (n + 1) = slotWritesBelow c r n ++ setupWrites c.layout r n (bufDev c r n) := by
  simp [slotWritesBelow, List.range_succ]

theorem setupTxBelow_eq (n : Nat) (s : State) : setupTxBelow n s = writeSlots (slotWritesBelow s.cfg .tx n) s := by
  induction n with
  | zero => rfl
  | succ n ih =>
    rw [slotWritesBelow_succ, writeSlots_append, setupTxBelow, ih, writeSlots_cfg]
    rfl

theorem setupRxBelow_eq (n : Nat) (s : State) : setupRxBelow n s = writeSlots (slotWritesBelow s.cfg .rx n) s := by
  induction n with
  | zero => rfl
  | succ n ih =>
    rw [slotWritesBelow_succ, writeSlots_append, setupRxBelow, ih, writeSlots_cfg, setupRx, writeSlots_cfg]
    rfl

theorem initTxRing_eq (s : State) : initTxRing s = writeSlots (ringWrites s.cfg .tx) s := by
  rw [ringWrites, writeSlots_append, initTxRing, setupTxBelow_eq, freshControl_tx_or]
  rfl

theorem initRxRing_eq (s : State) : initRxRing s = writeSlots (ringWrites s.cfg .rx) s := by
  rw [ringWrites, writeSlots_append, initRxRing, setupRxBelow_eq]
  rfl

/-- With a usable pool `RING_INIT` makes its writes, sets its flag and answers `OK`. -/
theorem ringInit_usable {s : State} (h : poolCheck s.cfg = none) :
    ringInit s = (setRings (writeSlots (ringInitWrites s.cfg) s)).finish .ok 0 := by
  rw [ringInit, h, ringInitWrites, writeSlots_append, initTxRing_eq, initRxRing_eq, writeSlots_cfg]

/-- The writes are those of the pseudocode (R194). -/
theorem ringInitEvents_eq (c : Cfg) : ringInitEvents c = (ringInitWrites c).map (SlotWrite.event c) := by
  simp [ringInitEvents, ringInitWrites, ringWrites, slotWritesBelow, List.map_flatMap, setupWrites, SlotWrite.event,
    freshControl, ringDepth]

theorem length_slotWritesBelow (c : Cfg) (r : Ring) (n : Nat) :
    (slotWritesBelow c r n).length = n * (setupWrites c.layout r 0 0).length := by
  induction n with
  | zero => rw [Nat.zero_mul]; rfl
  | succ n ih => cases r <;> rw [slotWritesBelow_succ, List.length_append, ih, Nat.succ_mul] <;> rfl

theorem length_ringInitEvents (c : Cfg) : (ringInitEvents c).length = 2 * c.nTx + 1 + 4 * c.nRx + 1 := by
  simp only [ringInitEvents_eq, ringInitWrites, ringWrites, List.length_map, List.length_append, length_slotWritesBelow,
    ringDepth, setupWrites, List.length_cons, List.length_nil]
  omega

/-- Settles O17: a pool that is not usable fails one of the two checks of O16; with a usable pool the operation is its list
of writes, of which everything is said for any list. -/
theorem ringInitResult : Obligations.RingInitResult := by
  intro s he hrings usable
  obtain ⟨hinvalid, hrange⟩ := ringInitPoolCheck s he hrings
  refine ⟨fun hno => ?_, fun ⟨hv, hr⟩ => ?_⟩
  · cases hv : s.cfg.poolValid with
    | false => exact ⟨_, .inl rfl, hinvalid hv⟩
    | true => exact ⟨_, .inr rfl, hrange hv (Nat.not_le.1 fun hr => hno ⟨hv, hr⟩)⟩
  · refine ⟨_, by rw [exec_ringInit he hrings, ringInit_usable (poolCheck_usable hv hr)], ?_, ?_, ?_,
      length_ringInitEvents _, fun h => ?_, fun hq => ?_⟩
    · simp [setRings]
    · simp [setRings, resultWord_ok]
    · simp [observed, setRings, ringInitEvents_eq, writeSlots_trace]
    · exact (writeSlots_undisturbed _ h).2
    · obtain ⟨hdev, -, henv⟩ := writeSlots_quiet (ringInitWrites s.cfg) s hq
      refine ⟨henv, ?_⟩
      simp only [setRings, State.finish_dev, State.setBlk_dev, hdev]
      exact s.dev.putSlots_eq _

/-! ## The rings after `RING_INIT` -/

/-- What the slot set-ups of a ring below `n` leave in the descriptors. -/
theorem desc_putSlots_slotWritesBelow (c : Cfg) (r r' : Ring) (w : DescWord) (n j : Nat) (d : Device) :
    (d.putSlots (slotWritesBelow c r n)).desc r' w j
      = if r' = r ∧ j < n then freshWord c.layout r (bufDev c r j) w else d.desc r' w j := by
  induction n with
  | zero => simp [slotWritesBelow, Device.putSlots]
  | succ n ih =>
    rw [slotWritesBelow_succ, Device.putSlots_append, desc_putSlots_setupWrites, ih]
    by_cases hj : j = n
    · subst hj; simp
    · have hlt : j < n + 1 ↔ j < n := by omega
      simp [hj, hlt]

/-- What slot `i` of a ring holds after `RING_INIT` (R195). -/
def initWord (c : Cfg) (r : Ring) (i : Nat) : DescWord → Word
  | .control => if i + 1 = ringDepth c r then freshControl c.layout r ||| Field.bit 32 c.layout.wrap
      else freshControl c.layout r
  | .pointer => bufDev c r i

/-- What the writes of one ring leave in the descriptors. -/
theorem desc_putSlots_ringWrites (c : Cfg) (r r' : Ring) (w : DescWord) (j : Nat) (d : Device) :
    (d.putSlots (ringWrites c r)).desc r' w j
      = if r' = r ∧ j < ringDepth c r then initWord c r j w else d.desc r' w j := by
  have hdepth := (ringDepth_range c r).1
  have hlast : j = ringDepth c r - 1 ↔ j + 1 = ringDepth c r := by omega
  rw [ringWrites, Device.putSlots_append]
  refine (Device.desc_setDesc _ _ _ _ _ _ _ _).trans ?_
  simp only [desc_putSlots_slotWritesBelow, hlast]
  by_cases hr : r' = r
  · cases w with
    | pointer => simp [freshWord, initWord]
    | control =>
      by_cases hj : j + 1 = ringDepth c r
      · have hlt : j < ringDepth c r := by omega
        simp [initWord, hr, hj, hlt]
      · simp [freshWord, initWord, hr, hj]
  · simp [hr]

/-- What the writes of `RING_INIT` leave in the descriptors. -/
theorem desc_putSlots_ringInitWrites (c : Cfg) (r : Ring) (w : DescWord) (i : Nat) (d : Device) :
    (d.putSlots (ringInitWrites c)).desc r w i = if i < ringDepth c r then initWord c r i w else d.desc r w i := by
  rw [ringInitWrites, Device.putSlots_append, desc_putSlots_ringWrites, desc_putSlots_ringWrites]
  cases r <;> simp

/-- In a pool that lies below 2^32 a slot's device address fits the pointer word. -/
theorem bufDev_toNat {c : Cfg} (hpool : c.deviceBase.toNat + (c.nTx + c.nRx) * c.slotSize ≤ 2 ^ 32) {r : Ring} {i : Nat}
    (hi : i < ringDepth c r) : (bufDev c r i).toNat = c.deviceBase.toNat + poolSlot c r i * c.slotSize := by
  obtain ⟨-, -, ⟨hsize, -⟩, -⟩ := c.ranges
  have hslot : poolSlot c r i < c.nTx + c.nRx := by
    cases r <;> simp only [ringDepth] at hi <;> simp only [poolSlot] <;> omega
  have hlt : poolSlot c r i * c.slotSize < (c.nTx + c.nRx) * c.slotSize := Nat.mul_lt_mul_of_pos_right hslot hsize
  rw [bufDev, BitVec.toNat_ofNat, Nat.mod_eq_of_lt (by omega)]

/-- With the MAC off and a usable pool, the descriptors after `RING_INIT` are what its writes leave. -/
theorem desc_ringInit {s : State} (h : poolCheck s.cfg = none) (hoff : MacOff s) (r : Ring) (w : DescWord) (i : Nat) :
    (ringInit s).dev.desc r w i = if i < ringDepth s.cfg r then initWord s.cfg r i w else s.dev.desc r w i := by
  obtain ⟨hrings, -⟩ := writeSlots_macOff (ringInitWrites s.cfg) hoff
  rw [ringInit_usable h, State.finish_dev, setRings, State.setBlk_dev, hrings.desc, desc_putSlots_ringInitWrites]

/-- Settles O18: inside a ring each word is the last that `RING_INIT` wrote there; outside the rings none is written. -/
theorem ringsAfterRingInit : Obligations.RingsAfterRingInit := by
  intro s t he hrings hv hpool hoff hexec irq own wrap
  obtain rfl : ringInit s = t := by rw [exec_ringInit he hrings] at hexec; exact Host.Outcome.next.inj hexec
  have hdesc := desc_ringInit (poolCheck_usable hv hpool) hoff
  have hin (r w i) (hi : i < ringDepth s.cfg r) : (ringInit s).dev.desc r w i = initWord s.cfg r i w :=
    (hdesc r w i).trans (if_pos hi)
  refine ⟨fun i hi => ⟨?_, ?_⟩, fun j hj => ⟨hin .rx .control j hj, ?_⟩,
    fun r w i hi => (hdesc r w i).trans (if_neg (Nat.not_lt.2 hi))⟩
  · rw [hin .tx .control i hi, initWord, freshControl_tx_or]
    rfl
  · rw [hin .tx .pointer i hi]
    exact bufDev_toNat hpool hi
  · rw [hin .rx .pointer j hj]
    exact bufDev_toNat hpool hj

end Sys2Proof.Machine
end

section
/-! SUPPORT. Several fields of a word set one after another, and the descriptor word that `TRANSMIT` writes (rule R215). -/

namespace Sys2Proof.Machine

/-! ## A value that fits its field -/

/-- A value that fits a field is what the field holds once it is set. -/
theorem Field.and_mask_of_fits {n : Nat} (f : Field) {x : BitVec n} (hx : x.toNat < 2 ^ f.width) :
    x &&& Field.mask n f = x := by
  apply BitVec.eq_of_getLsbD_eq
  intro i hi
  rw [BitVec.getLsbD_and, Field.mask_getLsbD]
  by_cases h : i < f.width
  · simp [h, hi]
  · have hzero : x.getLsbD i = false := Nat.testBit_lt_two_pow (hx.trans_le (Nat.pow_le_pow_right two_pos (by omega)))
    simp [hzero]

/-- Setting a field leaves a field apart from it as it was. -/
theorem Field.get_set_apart {n : Nat} {f g : Field} (v x : BitVec n) (hn : f.lo + f.width ≤ n)
    (h : f.apart g = true) : Field.get f (Field.set g v x) = Field.get f v := by
  simp only [Field.apart, Bool.or_eq_true, decide_eq_true_eq] at h
  apply BitVec.eq_of_getLsbD_eq
  intro i hi
  rw [Field.get_getLsbD, Field.get_getLsbD]
  by_cases hif : i < f.width
  · have hout : ¬ (g.lo ≤ f.lo + i ∧ f.lo + i < g.lo + g.width) := by omega
    rw [Field.set_getLsbD g v x _ (by omega), if_neg hout]
  · simp [hif]

/-! ## A list of field values -/

/-- Sets the fields of a list to the values paired with them, in order. -/
def setFields (us : List (Field × Word)) (v : Word) : Word := us.foldl (fun v u => Field.set u.1 v u.2) v

/-- The values of the list, each shifted into its field. -/
def fieldBits (us : List (Field × Word)) : Word := us.foldr (fun u m => u.2 <<< u.1.lo ||| m) 0

/-- The field lies in a word, and the value paired with it fits. -/
def FitsField (u : Field × Word) : Prop := u.1.lo + u.1.width ≤ 32 ∧ u.2.toNat < 2 ^ u.1.width

/-- No two fields of the list share a bit. -/
def FieldsApart (us : List (Field × Word)) : Prop := us.Pairwise fun u u' => u.1.apart u'.1 = true

theorem setFields_cons (u : Field × Word) (us : List (Field × Word)) (v : Word) :
    setFields (u :: us) v = setFields us (Field.set u.1 v u.2) := rfl

/-- A bit outside the fields of the list stays as it was. -/
theorem setFields_getLsbD_outside {us : List (Field × Word)} {k : Nat} (hk : k < 32)
    (h : ∀ f ∈ us.map Prod.fst, ¬ (f.lo ≤ k ∧ k < f.lo + f.width)) (v : Word) :
    (setFields us v).getLsbD k = v.getLsbD k := by
  induction us generalizing v with
  | nil => rfl
  | cons u us ih =>
    rw [List.map_cons, List.forall_mem_cons] at h
    obtain ⟨hu, hus⟩ := h
    rw [setFields_cons, ih hus, Field.set_getLsbD _ _ _ _ hk, if_neg hu]

/-- A field apart from those of the list stays as it was. -/
theorem get_setFields_apart {us : List (Field × Word)} {f : Field} (hf : f.lo + f.width ≤ 32)
    (h : ∀ u ∈ us, f.apart u.1 = true) (v : Word) : Field.get f (setFields us v) = Field.get f v := by
  induction us generalizing v with
  | nil => rfl
  | cons u us ih =>
    obtain ⟨hu, hus⟩ := List.forall_mem_cons.1 h
    rw [setFields_cons, ih hus, Field.get_set_apart _ _ hf hu]

/-- Each field of the list ends with its value: no later one touches it. -/
theorem get_setFields {us : List (Field × Word)} (hapart : FieldsApart us) (hfits : ∀ u ∈ us, FitsField u) (v : Word) :
    ∀ u ∈ us, Field.get u.1 (setFields us v) = u.2 := by
  induction us generalizing v with
  | nil => exact fun _ hu => absurd hu List.not_mem_nil
  | cons u us ih =>
    obtain ⟨⟨hin, hval⟩, hfits⟩ := List.forall_mem_cons.1 hfits
    obtain ⟨hu, hus⟩ := List.pairwise_cons.1 hapart
    refine List.forall_mem_cons.2 ⟨?_, ih hus hfits _⟩
    rw [setFields_cons, get_setFields_apart hin hu, Field.get_set_self _ _ _ hin, Field.and_mask_of_fits _ hval]

/-- A value inside a field has no bit in the fields apart from it. -/
theorem shiftLeft_and_not_coveredBits {u : Field × Word} (hval : u.2.toNat < 2 ^ u.1.width) {fs : List Field}
    (h : ∀ f ∈ fs, u.1.apart f = true) : u.2 <<< u.1.lo &&& ~~~coveredBits fs = u.2 <<< u.1.lo := by
  apply BitVec.eq_of_getLsbD_eq
  intro i hi
  rw [BitVec.getLsbD_and, BitVec.getLsbD_not, coveredBits_getLsbD _ _ hi]
  by_cases hin : u.1.lo ≤ i ∧ i < u.1.lo + u.1.width
  · have hout : (fs.any fun f => decide (f.lo ≤ i) && decide (i < f.lo + f.width)) = false := by
      simp only [List.any_eq_false, Bool.and_eq_true, decide_eq_true_eq]
      intro f hf
      have hapart := h f hf
      simp only [Field.apart, Bool.or_eq_true, decide_eq_true_eq] at hapart
      omega
    simp [hout, hi]
  · have hzero : (u.2 <<< u.1.lo).getLsbD i = false := by
      rw [← Field.and_mask_of_fits u.1 hval]
      simp only [BitVec.getLsbD_shiftLeft, BitVec.getLsbD_and, Field.mask_getLsbD, Bool.and_eq_false_iff,
        Bool.not_eq_false', decide_eq_true_eq, decide_eq_false_iff_not]
      omega
    simp [hzero]

/-- Fields that share no bit can be set by one mask and one value. -/
theorem setFields_eq_mask {us : List (Field × Word)} (hapart : FieldsApart us) (hfits : ∀ u ∈ us, FitsField u)
    (v : Word) : setFields us v = (v &&& ~~~coveredBits (us.map Prod.fst)) ||| fieldBits us := by
  induction us generalizing v with
  | nil =>
    change v = (v &&& BitVec.allOnes 32) ||| 0#32
    rw [BitVec.and_allOnes, BitVec.or_zero]
  | cons u us ih =>
    obtain ⟨⟨-, hval⟩, hfits⟩ := List.forall_mem_cons.1 hfits
    obtain ⟨hu, hus⟩ := List.pairwise_cons.1 hapart
    have hkeep := shiftLeft_and_not_coveredBits hval (List.forall_mem_map.2 hu)
    have hcover : coveredBits ((u :: us).map Prod.fst)
        = Field.mask 32 u.1 <<< u.1.lo ||| coveredBits (us.map Prod.fst) := rfl
    have hbits : fieldBits (u :: us) = u.2 <<< u.1.lo ||| fieldBits us := rfl
    rw [setFields_cons, ih hus hfits, Field.set, Field.and_mask_of_fits _ hval, BitVec.and_or_distrib_right, hkeep,
      hcover, hbits, BitVec.not_or, BitVec.and_assoc, BitVec.or_assoc]

/-! ## The descriptor word of `TRANSMIT` -/

/-- The five fields that `TRANSMIT` replaces, with their values, in the order of R213. -/
def txControlFields (c : Cfg) (len : Nat) : List (Field × Word) :=
  [(c.layout.pad, 1), (c.layout.crc, bitOf 32 c.crcPolicy), (c.layout.len, BitVec.ofNat 32 len), (c.layout.own, 1),
    (c.layout.irq, 1)]

theorem txControlValue_eq_setFields (c : Cfg) (w : Word) (len : Nat) :
    txControlValue c w len = setFields (txControlFields c len) w := rfl

/-- The five fields are among those of word 0, of which no two share a bit (R9). -/
theorem txControlFields_apart (c : Cfg) (len : Nat) : FieldsApart (txControlFields c len) := by
  have hsub : List.Sublist ([c.layout.len, c.layout.own, c.layout.irq] ++ [c.layout.pad, c.layout.crc])
      c.layout.descFields := .cons_cons _ (.cons_cons _ (.cons_cons _ (.cons _ (.refl _))))
  have hfive := ((pairwise_apart c.desc_apart).sublist hsub).perm List.perm_append_comm
    fun h => Field.apart_comm _ _ ▸ h
  exact (List.pairwise_map (f := Prod.fst) (l := txControlFields c len)).1 hfive

theorem bitOf_toNat_lt (b : Bool) : (bitOf 32 b).toNat < 2 := by cases b <;> decide

/-- The five values fit their fields, a length up to `SLOT_SIZE` among them (R7, R9). -/
theorem txControlFields_fit (c : Cfg) {len : Nat} (h : len ≤ c.slotSize) :
    ∀ u ∈ txControlFields c len, FitsField u := by
  obtain ⟨-, -, ⟨-, hsize, -⟩, -⟩ := c.ranges
  obtain ⟨hlen, hlenIn⟩ := c.len_ok
  have hbit {f : Field} {x : Word} (hf : f.width = 1 ∧ f.lo + 1 ≤ 32) (hx : x.toNat < 2) : FitsField (f, x) := by
    simp only [FitsField, hf.1]
    exact ⟨hf.2, hx⟩
  have hlenFits : FitsField (c.layout.len, BitVec.ofNat 32 len) := by
    simp only [FitsField, hlen, BitVec.toNat_ofNat]
    omega
  simp only [txControlFields, List.forall_mem_cons]
  exact ⟨hbit c.pad_ok (by decide), hbit c.crc_ok (bitOf_toNat_lt _), hlenFits, hbit c.own_ok (by decide),
    hbit c.irq_ok (by decide), fun _ hu => absurd hu List.not_mem_nil⟩

/-- With the default layout the word is R215's formula. -/
theorem txControlValue_default {c : Cfg} (hlayout : c.layout = Layout.default c.nTx) (w : Word) {len : Nat}
    (h : len ≤ c.slotSize) : txControlValue c w len
      = (w &&& 0x000027FF#32) ||| (BitVec.ofNat 32 len <<< 16) ||| 0x0000D000#32 ||| (bitOf 32 c.crcPolicy <<< 11) := by
  have hcover : ~~~coveredBits ((txControlFields c len).map Prod.fst) = 0x000027FF#32 := by
    have hfive : ~~~coveredBits [⟨12, 1⟩, ⟨11, 1⟩, ⟨16, 16⟩, ⟨15, 1⟩, ⟨14, 1⟩] = 0x000027FF#32 := by decide
    rw [txControlFields, hlayout]
    exact hfive
  have hbits : fieldBits (txControlFields c len)
      = 1 <<< 12 ||| (bitOf 32 c.crcPolicy <<< 11
          ||| (BitVec.ofNat 32 len <<< 16 ||| (1 <<< 15 ||| (1 <<< 14 ||| 0)))) := by
    simp only [txControlFields, hlayout]
    rfl
  have hflags : (0x0000D000#32 : Word) = 1 <<< 12 ||| (1 <<< 15 ||| (1 <<< 14 ||| 0)) := by decide
  rw [txControlValue_eq_setFields, setFields_eq_mask (txControlFields_apart c len) (txControlFields_fit c h), hcover,
    hbits, hflags]
  ac_rfl

/-- Settles O38: the five fields share no bit and their values fit, so each ends with its value and no other bit changes;
the formula is their common mask and value in the default layout. -/
theorem transmitDescriptorWord : Obligations.TransmitDescriptorWord := by
  refine ⟨fun c w len k hlen hk => ?_, fun c w len hlayout hlen => txControlValue_default hlayout w hlen⟩
  have hget : ∀ u ∈ txControlFields c len, Field.get u.1 (txControlValue c w len) = u.2 :=
    get_setFields (txControlFields_apart c len) (txControlFields_fit c hlen) w
  simp only [txControlFields, List.forall_mem_cons] at hget
  obtain ⟨hpad, hcrc, hl, hown, hirq, -⟩ := hget
  obtain ⟨-, -, ⟨-, hsize, -⟩, -⟩ := c.ranges
  refine ⟨hpad, hcrc, ?_, hown, hirq, fun hout => ?_⟩
  · rw [hl, BitVec.toNat_ofNat, Nat.mod_eq_of_lt (by omega)]
  · exact setFields_getLsbD_outside (us := txControlFields c len) hk hout w

end Sys2Proof.Machine
end

section
/-! SUPPORT. The operations of the data path that read one descriptor word, or nothing, and answer (rules R214, R218, R219,
R225). -/

namespace Sys2Proof.Machine

/-- A read of a descriptor word is seen, and nothing else happens after the agents' turn before it (R12). -/
theorem State.mmioRead_desc (r : Ring) (x : DescWord) (i : Nat) (s : State) : s.mmioRead (.desc r x i)
    = { s.tick with trace := readEvent s.cfg (.desc r x i) (s.tick.dev.desc r x i) :: s.trace } := by
  rw [← s.tick_trace]
  rfl

/-- The value of a one-bit field is its flag. -/
theorem Field.get_eq_bitOf_test {f : Field} (hw : f.width = 1) (v : Word) :
    Field.get f v = bitOf 32 (Field.test f v) := by
  apply BitVec.eq_of_getLsbD_eq
  intro i hi
  rw [Field.get_getLsbD, Field.test_eq f v hw (by decide), hw]
  by_cases h0 : i = 0
  · subst h0
    cases v.getLsbD f.lo <;> simp [bitOf, *]
  · cases v.getLsbD f.lo <;> simp [bitOf, BitVec.getLsbD_one, h0]

/-- A frame is ready exactly when the empty bit's value is 0 (R218). -/
theorem frameReady_eq (c : Cfg) (w : Word) : frameReady c.layout w = decide (Field.get c.layout.own w = 0) := by
  rw [Field.get_eq_bitOf_test c.own_ok.1, frameReady]
  cases Field.test c.layout.own w <;> rfl

theorem resultWord_retry : resultWord .retry 0 = 0x0100000000000000#64 := by decide

/-- With a length from 1 to `SLOT_SIZE` `TRANSMIT` runs (R122). -/
theorem exec_transmit_good {s : State} {len : Nat} (he : s.blk.err = none) (hrun : s.blk.flg.run = true)
    (h : 1 ≤ len ∧ len ≤ s.cfg.slotSize) (src : Nat) :
    exec (.transmit len src) s = .next (transmit len (addrOf src) s) := by
  have hcheck : checkTransmitLength s.cfg len = .good := if_pos h
  rw [exec_runs (i := .transmit len src) he hrun, execBody, hcheck, checked]

/-- At a slot that is still ready `TRANSMIT` ends after its one read (R214). -/
theorem transmit_retry {s : State} (h : Field.test s.cfg.layout.own (s.mmioVal (txSlot s)) = true) (len : Nat)
    (src : Addr) : transmit len src s = answered 0x0100000000000000#64 (s.mmioRead (txSlot s)) := by
  simp only [transmit, h, if_true, State.finish_eq_answered, resultWord_retry]

/-- Settles O37: the length is good, and the word read shows the slot ready. -/
theorem transmitRetry : Obligations.TransmitRetry := by
  intro s len src he hrun hlo hhi loc w hown
  refine ⟨?_, s.tick_quiet⟩
  rw [exec_transmit_good he hrun ⟨hlo, hhi⟩, transmit_retry hown, txSlot, State.mmioRead_desc]

/-- Settles O41: the answer is one bit, that the word read shows a frame ready. -/
theorem receiveReadyResult : Obligations.ReceiveReadyResult := by
  intro s he hrun loc w
  refine ⟨?_, s.tick_quiet⟩
  have hword : okWord (bitOf 48 (frameReady s.cfg.layout w))
      = if Field.get s.cfg.layout.own w = 0 then okWord 1 else okWord 0 := by
    rw [frameReady_eq]
    by_cases h : Field.get s.cfg.layout.own w = 0
    · rw [if_pos h, decide_eq_true h]
      rfl
    · rw [if_neg h, decide_eq_false h]
      rfl
  rw [exec_runs (i := .receiveReady) he hrun, execBody, State.finish_eq_answered, resultWord_ok, rxSlot_val, hword,
    rxSlot, State.mmioRead_desc]

/-- Settles O42: the answer is the field of the word read. -/
theorem receiveLengthResult : Obligations.ReceiveLengthResult := by
  intro s he hrun loc w
  refine ⟨?_, s.tick_quiet⟩
  rw [exec_runs (i := .receiveLength) he hrun, execBody, State.finish_eq_answered, resultWord_ok, rxSlot_val, rxSlot,
    State.mmioRead_desc]

/-- Settles O44: no state is refused, and the answer comes from the configuration. -/
theorem macAddressResult : Obligations.MacAddressResult := by
  intro s he a
  rw [exec_runs (i := .macAddress) he rfl, execBody, State.finish_eq_answered, resultWord_ok, macValue]

end Sys2Proof.Machine
end

section
/-! SUPPORT. `MAC_ADDR_WRITE` (rules R71, R241): the packing of the MAC address; what a register write leaves of the driver's
registers, the rings and memory, for every schedule of the agents; and the two writes one after the other. -/

namespace Sys2Proof.Machine

/-! ## The packing of the MAC address -/

/-- A byte placed to the right of a word: the word makes room by a shift, and the byte is joined to it. -/
theorem setWidth_append_byte {n : Nat} (x : BitVec n) (b : Byte) (w : Nat) :
    (x ++ b).setWidth w = x.setWidth w <<< 8 ||| b.setWidth w := by
  apply BitVec.eq_of_getLsbD_eq
  intro i hi
  simp only [BitVec.getLsbD_append, BitVec.getLsbD_or, BitVec.getLsbD_shiftLeft, BitVec.getLsbD_setWidth]
  by_cases h : i < 8
  · simp [h, hi]
  · have hb : b.getLsbD i = false := b.getLsbD_of_ge i (Nat.not_lt.1 h)
    have hi' : i - 8 < w := by omega
    simp [h, hi, hb, hi']

/-- `MAC_ADDR0` by shifts, as R71 writes it. -/
theorem macAddr0Value_eq (m : MacAddr) : macAddr0Value m = m.m2.zeroExtend 32 <<< 24 ||| m.m3.zeroExtend 32 <<< 16
    ||| m.m4.zeroExtend 32 <<< 8 ||| m.m5.zeroExtend 32 := by
  rw [macAddr0Value, ← BitVec.setWidth_eq (_ ++ m.m5)]
  simp only [setWidth_append_byte, BitVec.shiftLeft_or_distrib, ← BitVec.shiftLeft_add, Nat.reduceAdd]

/-- `MAC_ADDR1` by shifts, as R71 writes it. -/
theorem macAddr1Value_eq (m : MacAddr) : macAddr1Value m = m.m0.zeroExtend 32 <<< 8 ||| m.m1.zeroExtend 32 := by
  rw [macAddr1Value, ← BitVec.setWidth_eq (_ ++ m.m1)]
  rw [setWidth_append_byte, setWidth_append_byte]
  simp

/-! ## A register write for every schedule of the agents -/

/-- Equal driver registers stay equal under the same register write. -/
theorem SameDriverRegs.put_reg {c : Cfg} {d e : Device} (h : SameDriverRegs c.layout d e) (r : Reg) (v : Word) :
    SameDriverRegs c.layout (d.put c (.reg r) v) (e.put c (.reg r) v) := by
  obtain ⟨hmask, hcmd, haddr, hdata, hmac0, hmac1, htp, hrp, htx, hrx⟩ := h
  cases r with
  | miiCommand =>
    obtain ⟨m, hd⟩ := d.miiCommandWrite_eq c v
    obtain ⟨n, he⟩ := e.miiCommandWrite_eq c v
    rw [Device.put_miiCommand, Device.put_miiCommand, hd, he]
    exact ⟨hmask, rfl, haddr, hdata, hmac0, hmac1, htp, hrp, htx, hrx⟩
  | moder => exact ⟨hmask, hcmd, haddr, hdata, hmac0, hmac1, htp, hrp, rfl, rfl⟩
  | intMask => exact ⟨rfl, hcmd, haddr, hdata, hmac0, hmac1, htp, hrp, htx, hrx⟩
  | miiAddress => exact ⟨hmask, hcmd, rfl, hdata, hmac0, hmac1, htp, hrp, htx, hrx⟩
  | miiTxData => exact ⟨hmask, hcmd, haddr, rfl, hmac0, hmac1, htp, hrp, htx, hrx⟩
  | macAddr0 => exact ⟨hmask, hcmd, haddr, hdata, rfl, hmac1, htp, hrp, htx, hrx⟩
  | macAddr1 => exact ⟨hmask, hcmd, haddr, hdata, hmac0, rfl, htp, hrp, htx, hrx⟩
  | intSource | miiRxData | miiStatus => exact ⟨hmask, hcmd, haddr, hdata, hmac0, hmac1, htp, hrp, htx, hrx⟩

/-- A write of a register other than `MODER` starts no DMA engine and changes no descriptor and no enable (R96, R99). -/
theorem Device.put_reg_keeps (c : Cfg) (d : Device) {r : Reg} (hr : r ≠ .moder) (v : Word) :
    SameRings d (d.put c (.reg r) v) ∧ (d.put c (.reg r) v).moder = d.moder := by
  cases r with
  | moder => exact absurd rfl hr
  | miiCommand =>
    obtain ⟨m, hd⟩ := d.miiCommandWrite_eq c v
    rw [Device.put_miiCommand, hd]
    exact ⟨⟨rfl, rfl, rfl, rfl, rfl, rfl⟩, rfl⟩
  | _ => exact ⟨⟨rfl, rfl, rfl, rfl, rfl, rfl⟩, rfl⟩

/-- The agents' turn before a register write adds nothing to what the write does to the driver's registers. -/
theorem SameDriverRegs.mmioWrite_reg {c : Cfg} {d : Device} {s : State} (h : SameDriverRegs c.layout d s.dev)
    (hc : s.cfg = c) (r : Reg) (v : Word) :
    SameDriverRegs c.layout (d.put c (.reg r) v) (s.mmioWrite (.reg r) v).dev := by
  subst hc
  exact (h.trans s.tick_sameDriverRegs).put_reg r v

/-- With the MAC off, a write of a register other than `MODER` leaves it off, and the rings and memory as they were. -/
theorem MacOff.mmioWrite_reg {s : State} (h : MacOff s) {r : Reg} (hr : r ≠ .moder) (v : Word) :
    MacOff (s.mmioWrite (.reg r) v) ∧ SameRings s.dev (s.mmioWrite (.reg r) v).dev
      ∧ (s.mmioWrite (.reg r) v).mem = s.mem := by
  obtain ⟨htick, hmem⟩ := s.tick_macOff h
  obtain ⟨hput, hmoder⟩ := s.tick.dev.put_reg_keeps s.cfg hr v
  obtain ⟨htx, hrx⟩ := h
  have hregs := s.tick_sameDriverRegs
  refine ⟨⟨?_, ?_⟩, htick.trans hput, hmem⟩
  · rw [State.mmioWrite_cfg, State.mmioWrite_dev, macTxOn, hmoder]
    exact hregs.txOn.trans htx
  · rw [State.mmioWrite_cfg, State.mmioWrite_dev, macRxOn, hmoder]
    exact hregs.rxOn.trans hrx

/-! ## The operation -/

/-- Until the block runs, `MAC_ADDR_WRITE` runs. -/
theorem exec_macAddrWrite {s : State} (he : s.blk.err = none) (hrun : s.blk.flg.run = false) :
    exec .macAddrWrite s = .next (macAddrWrite s) := by
  have hg : stateGate .macAddrWrite s.blk = true := by simp [stateGate, gateBeforeRun, hrun]
  rw [exec_runs he hg, execBody]

section MacAddrWrite
variable {s : State}

/-- After the second write the first one's value still stands: no agent changes a driver's register. -/
theorem macAddrWrite_sameDriverRegs : SameDriverRegs s.cfg.layout
    { s.dev with macAddr0 := macAddr0Value s.cfg.mac, macAddr1 := macAddr1Value s.cfg.mac } (macAddrWrite s).dev := by
  have hfirst := (SameDriverRegs.refl s.cfg.layout s.dev).mmioWrite_reg rfl .macAddr0 (macAddr0Value s.cfg.mac)
  exact hfirst.mmioWrite_reg (s.mmioWrite_cfg _ _) .macAddr1 (macAddr1Value s.cfg.mac)

theorem macAddrWrite_macOff (hoff : MacOff s) : SameRings s.dev (macAddrWrite s).dev ∧ (macAddrWrite s).mem = s.mem := by
  obtain ⟨hoff', hrings, hmem⟩ := hoff.mmioWrite_reg (r := .macAddr0) (by decide) (macAddr0Value s.cfg.mac)
  obtain ⟨-, hrings', hmem'⟩ := hoff'.mmioWrite_reg (r := .macAddr1) (by decide) (macAddr1Value s.cfg.mac)
  exact ⟨hrings.trans hrings', hmem'.trans hmem⟩

/-- With no agent acting, the two registers are all that changes outside the block. -/
theorem macAddrWrite_quiet (hq : Quiet s) :
    (macAddrWrite s).dev
        = { s.dev with macAddr0 := macAddr0Value s.cfg.mac, macAddr1 := macAddr1Value s.cfg.mac }
      ∧ (macAddrWrite s).mem = s.mem ∧ (macAddrWrite s).env = s.env := by
  have hq' := mmioWrite_quiet (.reg .macAddr0) (macAddr0Value s.cfg.mac) s hq
  rw [macAddrWrite, State.mmioWrite_quiet _ _ _ hq', State.mmioWrite_quiet _ _ _ hq]
  exact ⟨rfl, rfl, rfl⟩

end MacAddrWrite

/-- Settles O19: what the operation's two writes leave, with the values packed as R71 writes them. -/
theorem macAddrWriteResult : Obligations.MacAddrWriteResult := by
  intro s he hrun byte a v0 v1
  have h0 : macAddr0Value s.cfg.mac = v0 := macAddr0Value_eq s.cfg.mac
  have h1 : macAddr1Value s.cfg.mac = v1 := macAddr1Value_eq s.cfg.mac
  rw [← h0, ← h1]
  refine ⟨macAddrWrite s, exec_macAddrWrite he hrun, ?_, ?_, ?_, macAddrWrite_sameDriverRegs, macAddrWrite_macOff,
    macAddrWrite_quiet⟩
  · simp [macAddrWrite, setMacaddr]
  · simp [macAddrWrite, setMacaddr, resultWord_ok]
  · simp [observed, macAddrWrite, setMacaddr]

end Sys2Proof.Machine
end

section
/-! Fatal entry (R260, R262). -/

namespace Sys2Proof.Machine

/-- Settles O10: fatal entry acts by `State.raiseFatal_eq_raised`; the agents' turn before its log event keeps the block and
what has been seen; the codes and messages are the table of R260. -/
theorem fatalEntry : Obligations.FatalEntry := by
  refine ⟨fun e s => ?_, rfl, rfl, rfl, rfl, rfl, rfl, rfl, rfl⟩
  exact ⟨State.raiseFatal_eq_raised e s, s.tick_cfg, s.tick_blk, s.tick_trace, s.tick_quiet⟩

end Sys2Proof.Machine
end

section
/-! SUPPORT. The command word and its operation, in both directions (rules R112 to R118). -/

namespace Sys2Proof

/-! ## From the operation to the word and back -/

/-- The word of an operation that fits holds its opcode and its operands, each in its field (R112, R123). -/
theorem wordFields (i : Instr) : Laws.WordFields.Statement i := by
  cases i with
  | setupTxSlot i addr => exact Laws.WordFields.setupTxSlot i addr
  | setupRxSlot j addr => exact Laws.WordFields.setupRxSlot j addr
  | transmit len src => exact Laws.WordFields.transmit len src
  | receive maxLen dst => exact Laws.WordFields.receive maxLen dst
  | _ => exact Laws.WordFields.of_fit (by decide)

/-- The opcode map gives an operation back from its opcode and its operands (R115). -/
theorem decodeFields_opcode_operands (i : Instr) :
    decodeFields (opcode i).toNat (operands i).1 (operands i).2 = .ok i := by
  cases i <;> rfl

/-- Settles O1: the word's fields are the opcode and the operands, and the opcode map gives the operation back from them. -/
theorem decodeEncodeRoundTrip : Obligations.DecodeEncodeRoundTrip := by
  intro i hwf
  obtain ⟨hop, ha, hb⟩ := wordFields i hwf
  rw [decode, hop, ha, hb, decodeFields_opcode_operands]

/-- An operation whose operands fit the two fields is well-formed; in format Z they are 0. -/
theorem Instr.wf_of_operandsFit {i : Instr} (h : operandsFit (operands i).1 (operands i).2 = true) : i.wf = true := by
  cases i with
  | setupTxSlot i addr => exact h
  | setupRxSlot j addr => exact h
  | transmit len src => exact h
  | receive maxLen dst => exact h
  | _ => rfl

/-- Settles O2: the fields of a word that decodes are those of its operation, and a word is given by its fields. -/
theorem decodedWordEncodesBack : Obligations.DecodedWordEncodesBack := by
  intro w i hdecode
  obtain ⟨hop, ha, hb⟩ := fields_of_decode hdecode
  refine ⟨Instr.wf_of_operandsFit ?_, ?_⟩
  · rw [← ha, ← hb, operandsFit, decide_eq_true (aField w).isLt, decide_eq_true (bField w).isLt]
    rfl
  · rw [encode, ← hop, ← ha, ← hb, BitVec.ofNat_toNat, BitVec.ofNat_toNat, BitVec.setWidth_eq, BitVec.setWidth_eq,
      mkCmd_fields]

/-! ## The opcode table -/

/-- Masking a command word masks its three fields. -/
theorem mkCmd_and (op op' : BitVec 8) (a a' : BitVec 24) (b b' : BitVec 64) :
    mkCmd op a b &&& mkCmd op' a' b' = mkCmd (op &&& op') (a &&& a') (b &&& b') := by
  apply BitVec.eq_of_getLsbD_eq
  intro k _
  simp only [mkCmd, BitVec.getLsbD_and, BitVec.getLsbD_append]
  split
  · rfl
  · split <;> rfl

/-- Two command words are equal exactly when their fields are. -/
theorem mkCmd_inj {op op' : BitVec 8} {a a' : BitVec 24} {b b' : BitVec 64} :
    mkCmd op a b = mkCmd op' a' b' ↔ op = op' ∧ a = a' ∧ b = b' := by
  constructor
  · intro h
    exact ⟨by simpa using congrArg opField h, by simpa using congrArg aField h, by simpa using congrArg bField h⟩
  · rintro ⟨rfl, rfl, rfl⟩
    rfl

/-- A row of format Z fixes the opcode, and both operands at 0 (R113, R115). -/
theorem opRow_of_formatZ {i : Instr} (h : opcode i ∈ formatZOpcodes) : opRow i =
    ⟨mkCmd (opcode i) 0 0, mkCmd (BitVec.allOnes 8) (BitVec.allOnes 24) (BitVec.allOnes 64)⟩ := by
  cases i with
  | setupTxSlot _ _ | setupRxSlot _ _ | transmit _ _ | receive _ _ => simp [opcode, formatZOpcodes] at h
  | _ => rfl

/-- A row of another format fixes the opcode and leaves the operands free. -/
theorem opRow_of_not_formatZ {i : Instr} (h : opcode i ∉ formatZOpcodes) :
    opRow i = ⟨mkCmd (opcode i) 0 0, mkCmd (BitVec.allOnes 8) 0 0⟩ := by
  cases i with
  | setupTxSlot _ _ | setupRxSlot _ _ | transmit _ _ | receive _ _ =>
    simp only [opRow, opcode]
    decide
  | _ => exact absurd h (by decide)

/-- A word matches a row exactly when it has the row's opcode and, in format Z, no operands. -/
theorem opRow_matches_iff (i : Instr) (w : CmdWord) : (opRow i).matches w = true ↔
    opField w = opcode i ∧ (opcode i ∈ formatZOpcodes → aField w = 0 ∧ bField w = 0) := by
  rw [OpRow.matches, decide_eq_true_eq]
  by_cases hz : opcode i ∈ formatZOpcodes
  · conv_lhs => rw [opRow_of_formatZ hz, ← mkCmd_fields w]
    simp only [mkCmd_and, BitVec.and_allOnes, mkCmd_inj, hz, true_imp_iff]
  · conv_lhs => rw [opRow_of_not_formatZ hz, ← mkCmd_fields w]
    have hzero (n : Nat) (x : BitVec n) : x &&& 0 = 0 := BitVec.and_zero
    simp only [mkCmd_and, BitVec.and_allOnes, mkCmd_inj, hz, false_imp_iff, hzero, and_true]

/-- Settles O3: both sides say that the word is a legal one with the operation's opcode. -/
theorem decodeMatchesOpcodeTable : Obligations.DecodeMatchesOpcodeTable := by
  intro w i
  rw [opRow_matches_iff]
  constructor
  · rintro ⟨hop, hzero⟩
    have hlegal : LegalWord w := ⟨hop ▸ opcode_mem_opcodes i, fun hz => hzero (hop ▸ hz)⟩
    obtain ⟨j, hj⟩ := (exists_decode_iff_legalWord w).2 hlegal
    exact ⟨j, hj, (fields_of_decode hj).1.symm.trans hop⟩
  · rintro ⟨j, hj, hop⟩
    obtain ⟨-, hzero⟩ := (exists_decode_iff_legalWord w).1 ⟨j, hj⟩
    have hopField : opField w = opcode i := (fields_of_decode hj).1.trans hop
    exact ⟨hopField, fun hz => hzero (hopField.symm ▸ hz)⟩

/-- Settles O4: each word is evaluated. -/
theorem specWordsDecode : Obligations.SpecWordsDecode := by
  unfold Obligations.SpecWordsDecode
  decide

end Sys2Proof
end

section
/-! SUPPORT. What a step can do (rules R110, R300, R302, R306, R321), and what a pass leaves of the block (R270, R278). -/

namespace Sys2Proof.Machine

/-! ## The cases of a step -/

/-- What a step leads to: a dispatch pass goes on, or the host's next action is done, or there is none. -/
inductive StepTo (s : State) : State → Prop where
  | pass (v : Word) (hpass : s.pass = some v) : StepTo s (continuePass v s)
  | wait (hpass : s.pass = none) (hhost : s.env.host = []) : StepTo s s
  | operation {t : State} {w : CmdWord} {rest : List HostAct} {i : Instr} (hpass : s.pass = none)
      (hhost : s.env.host = .command w :: rest) (hdecode : decode w = .ok i)
      (hexec : exec i (acceptCommand w rest s) = .next t) : StepTo s t
  | illegal {w : CmdWord} {rest : List HostAct} (hpass : s.pass = none) (hhost : s.env.host = .command w :: rest) :
      StepTo s ((acceptCommand w rest s).finish .illegalOp 0)
  | reset {rest : List HostAct} (hpass : s.pass = none) (hhost : s.env.host = .reset :: rest) (hoff : MacOff s) :
      StepTo s (s.setEnv { s.env with host := rest }).blockReset
  | write {a : Addr} {b : Byte} {rest : List HostAct} (hpass : s.pass = none) (hhost : s.env.host = .write a b :: rest)
      (hpool : inPool s.cfg a = false) :
      StepTo s ((s.setEnv { s.env with host := rest }).setMem (Memory.write a b s.mem))

/-- While a dispatch pass goes on, a step continues it (R278, R321). -/
theorem step_of_pass_some {s : State} {v : Word} (hpass : s.pass = some v) : step s = .next (continuePass v s) := by
  simp only [step, hpass]

/-- With no action of the host coming, the block waits (R302). -/
theorem hostStep_wait {s : State} (hhost : s.env.host = []) : hostStep s = .next s := by
  simp only [hostStep, hhost]

/-- A reset while the MAC is enabled is refused (R301, U18). -/
theorem hostStep_reset_refused {s : State} {rest : List HostAct} (hhost : s.env.host = .reset :: rest)
    (hon : ¬ MacOff s) : hostStep s = .refused .resetWhileMacEnabled := by
  have hor : (macTxOn s.cfg.layout s.dev || macRxOn s.cfg.layout s.dev) = true := by
    rw [MacOff, not_and_or] at hon
    simpa using hon
  simp only [hostStep, hhost, hor, if_true]

/-- The host writes a byte of its own memory; one of the pool it is refused (R306, U19). -/
theorem hostStep_write {s : State} {a : Addr} {b : Byte} {rest : List HostAct} (hhost : s.env.host = .write a b :: rest) :
    hostStep s = if inPool s.cfg a then .refused .hostWritesPool
      else .next ((s.setEnv { s.env with host := rest }).setMem (Memory.write a b s.mem)) := by
  simp only [hostStep, hhost]

/-- Every step is one of the cases. -/
theorem stepTo_of_step {s t : State} (h : step s = .next t) : StepTo s t := by
  cases hpass : s.pass with
  | some v =>
    rw [step_of_pass_some hpass] at h
    cases h
    exact .pass v hpass
  | none =>
    rw [step_of_pass_none hpass] at h
    cases hhost : s.env.host with
    | nil =>
      rw [hostStep_wait hhost] at h
      cases h
      exact .wait hpass hhost
    | cons act rest =>
      cases act with
      | command w =>
        rw [← step_of_pass_none hpass, step_command hpass hhost, runCommand] at h
        cases hdecode : decode w with
        | ok i => exact .operation hpass hhost hdecode (by simpa only [hdecode] using h)
        | error r =>
          simp only [hdecode] at h
          cases h
          exact .illegal hpass hhost
      | reset =>
        by_cases hoff : MacOff s
        · rw [hostStep_reset hhost hoff] at h
          cases h
          exact .reset hpass hhost hoff
        · rw [hostStep_reset_refused hhost hoff] at h
          cases h
      | write a b =>
        rw [hostStep_write hhost] at h
        split at h
        · cases h
        · cases h
          exact .write hpass hhost (by simpa using ‹¬ inPool s.cfg a = true›)

/-- Settles O5: the command, the wait and the pass are three cases of a step. -/
theorem stepRunsDecodedCommand : Obligations.StepRunsDecodedCommand := by
  refine fun s => ⟨fun hpass => ⟨fun w rest i hhost hdecode => ?_, fun hhost => ?_⟩, fun v => step_of_pass_some⟩
  · rw [step_command hpass hhost, runCommand, hdecode]
    rfl
  · rw [step_of_pass_none hpass, hostStep_wait hhost]

/-- Settles O13: a host write changes one byte of memory, or is refused in the pool; a reset with the MAC on is refused. -/
theorem hostActions : Obligations.HostActions := by
  intro s rest hpass
  have hin (a : Addr) : inPool s.cfg a = true ↔ s.cfg.localBase.toNat ≤ a.toNat
      ∧ a.toNat < s.cfg.localBase.toNat + (s.cfg.nTx + s.cfg.nRx) * s.cfg.slotSize := by
    rw [inPool, Bool.and_eq_true, decide_eq_true_eq, decide_eq_true_eq, poolSize]
  rw [step_of_pass_none hpass]
  refine ⟨fun a b hhost => ?_, hostStep_reset_refused⟩
  rw [← hin, hostStep_write hhost]
  exact ⟨fun h => if_pos h, fun h => ⟨_, if_neg h, rfl, rfl, rfl, fun x => Memory.read_write a x b s.mem⟩⟩

/-! ## What a pass leaves of the block -/

/-- A pass from its drain on: the frames taken, and then its end after a ready check that sees an empty slot; or it goes on,
because frames arrive without end or the turns are used up. -/
theorem drainPass_cases (v : Word) (s : State) : ∃ frames u, Drained s u frames
    ∧ ((Field.test u.cfg.layout.own (u.mmioVal (rxSlot u)) = true
        ∧ drainPass v s = dispatchEnd v (u.mmioRead (rxSlot u)))
      ∨ ((arrivalsEndless u = true ∨ frames.length = s.cfg.nRx + arrivals s.env + 2)
        ∧ drainPass v s = u.setPass (some v))) := by
  obtain ⟨frames, u, hdrained, -, ⟨hturns, hown⟩ | ⟨hturns, hwhy⟩⟩ := drainTurns_spec (s.cfg.nRx + arrivals s.env + 2) s
  · exact ⟨frames, u, hdrained, .inl ⟨hown, by simp only [drainPass, rxDrain, hturns, if_true]⟩⟩
  · exact ⟨frames, u, hdrained, .inr ⟨hwhy, by simp [drainPass, rxDrain, hturns]⟩⟩

/-- Of the working registers, what `DISPATCH` and the steps that go on with a pass may have changed: the cursor of the RX ring,
and `RESULT` when the pass has ended, its result then the last thing seen (R31). -/
structure PassKept (s t : State) : Prop where
  blk    : t.blk = { s.blk with rxc := t.blk.rxc, result := t.blk.result }
  result : (t.blk.result = s.blk.result ∧ t.pass ≠ none) ∨ (t.pass = none ∧ t.trace.head? = some (.result t.blk.result))

theorem dispatchEnd_kept (v : Word) (s : State) : PassKept s (dispatchEnd v s) := by
  obtain ⟨-, hblk, hpass, htrace, -⟩ := dispatchEnd_spec v s
  exact ⟨by rw [hblk], .inr ⟨hpass, by rw [htrace, hblk]; rfl⟩⟩

/-- A pass that begins where the working registers are those of `s`, but for the RX cursor. -/
theorem PassKept.of_blk {s s' t : State} (h : PassKept s' t) (hblk : s'.blk = { s.blk with rxc := s'.blk.rxc }) :
    PassKept s t := by
  obtain ⟨htblk, hresult⟩ := h
  have hres : s'.blk.result = s.blk.result := by rw [hblk]
  exact ⟨by rw [htblk, hblk], hres ▸ hresult⟩

theorem drainPass_kept (v : Word) (s : State) : PassKept s (drainPass v s) := by
  obtain ⟨frames, u, hdrained, ⟨-, hend⟩ | ⟨-, hgoes⟩⟩ := drainPass_cases v s
  · rw [hend]
    exact (dispatchEnd_kept v _).of_blk (by rw [State.mmioRead_blk, hdrained.blk])
  · rw [hgoes]
    have hblk : (u.setPass (some v)).blk = u.blk := rfl
    exact ⟨by rw [hblk, hdrained.blk], .inl ⟨by rw [hblk, hdrained.blk], by simp⟩⟩

theorem continuePass_kept (v : Word) (s : State) : PassKept s (continuePass v s) := by
  refine (drainPass_kept v _).of_blk ?_
  split <;> rfl

theorem dispatchPass_kept (s : State) : PassKept s (dispatchPass s) := by
  have hblk : (s.mmioRead (.reg .intSource)).blk = s.blk := State.mmioRead_blk _ _
  simp only [dispatchPass]
  split
  · exact (drainPass_kept _ _).of_blk (by rw [hblk])
  · exact (dispatchEnd_kept _ _).of_blk (by rw [hblk])

/-- Settles O11: the fatal gate keeps every operation from running, and the other steps leave `ERR` alone, but for the reset. -/
theorem fatalStaysUntilReset : Obligations.FatalStaysUntilReset := by
  intro s t e he hstep
  cases stepTo_of_step hstep with
  | pass v hpass => exact .inl (by rw [(continuePass_kept v s).blk, he])
  | wait hpass hhost => exact .inl he
  | @operation t w rest i hpass hhost hdecode hexec =>
    rw [exec_fatal i (show (acceptCommand w rest s).blk.err = some e from he)] at hexec
    cases hexec
    exact .inl he
  | illegal hpass hhost => exact .inl he
  | reset hpass hhost hoff => exact .inr ⟨_, hhost⟩
  | write hpass hhost hpool => exact .inl he

end Sys2Proof.Machine
end

section
/-! SUPPORT. The MII transaction primitives (rules R90 to R95, R142 to R148): what the engine does with a command, and what the
two transactions see and leave. -/

namespace Sys2Proof.Machine

/-! ## The busy-wait and the write transaction, for every schedule of the agents -/

/-- Settles O23: more turns than one for each scheduled step and one more change nothing, and so many are enough. -/
theorem waitIdleHasNoBound : Obligations.WaitIdleHasNoBound := by
  refine fun s => ⟨fun n hn => ?_, waitIdleTurns_returns s, fun t ht => ?_⟩
  · obtain ⟨m, rfl⟩ := Nat.exists_eq_add_of_le hn
    exact waitIdleTurns_more m s
  · obtain ⟨hblk, -, hwait⟩ := waitIdleTurns_spec ht
    exact ⟨hblk, hwait⟩

/-- `MiiWrite` returns when every transaction completes (R93, R145). -/
theorem miiWrite_returns (reg : BitVec 5) (data : Half) {s : State} (hm : s.env.miiCompletes = true) :
    ∃ t, miiWrite reg data s = some t :=
  trigger_returns _ (by rw [mmioWrite_completes, miiSelect, mmioWrite_completes, hm])

/-- Settles O24: it returns because its waits do, and its events are those of `IsMiiWrite`. -/
theorem miiWriteSequence : Obligations.MiiWriteSequence := by
  intro s reg data L sel
  refine ⟨miiWrite_returns reg data, fun t ht => ?_⟩
  obtain ⟨hblk, hcfg, evs, ⟨r1, r2, hwait1, hwait2, rfl⟩, htrace⟩ := miiWrite_events ht
  exact ⟨hblk, hcfg, r1, r2, hwait1, hwait2, htrace⟩

/-! ## The PHY registers -/

/-- PHY registers are told apart by their numbers (R55). -/
theorem phyKey_inj {a a' r r' : BitVec 5} : phyKey a r = phyKey a' r' ↔ a = a' ∧ r = r' := by
  have := r.isLt
  have := r'.isLt
  constructor
  · intro h
    simp only [phyKey] at h
    exact ⟨BitVec.eq_of_toNat_eq (by omega), BitVec.eq_of_toNat_eq (by omega)⟩
  · rintro ⟨rfl, rfl⟩
    rfl

/-- A PHY register after a PHY register has been set. -/
theorem Device.phyReg_setPhyReg (d : Device) (a a' r r' : BitVec 5) (v : Half) :
    (d.setPhyReg a r v).phyReg a' r' = if a' = a ∧ r' = r then v else d.phyReg a' r' := by
  split
  · rename_i h
    obtain ⟨rfl, rfl⟩ := h
    simp [Device.phyReg, Device.setPhyReg]
  · rename_i h
    simp [Device.phyReg, Device.setPhyReg, Store.find?_insert_ne (mt phyKey_inj.1 h)]

/-- A write transaction sets one PHY register; of the device it may change the PHY of `SimEnv` beside that. -/
theorem Device.phyStore_eq_setPhyReg (c : Cfg) (d : Device) (a r : BitVec 5) (v : Half) :
    ∃ sim, d.phyStore c a r v = { d.setPhyReg a r v with phySim := sim } := by
  simp only [Device.phyStore]
  split
  · exact ⟨_, rfl⟩
  · split
    · exact ⟨_, rfl⟩
    · exact ⟨_, rfl⟩

/-- A read transaction leaves a PHY alone that has no behaviour of its own (R94, R95). -/
theorem Device.phyLoad_of_none (c : Cfg) {d : Device} (a r : BitVec 5) (h : d.phySim = none) : d.phyLoad c a r = d := by
  simp only [Device.phyLoad, h]

/-! ## A transaction while no agent acts -/

/-- Settles O26: the transaction sets one PHY register and leaves the engine idle. -/
theorem miiWriteReachesPhy : Obligations.MiiWriteReachesPhy := by
  intro s reg data hq hready
  obtain ⟨t, ht, -, -, hmem, henv, hlen, hdev⟩ := miiWrite_quiet reg data hq hready
  obtain ⟨sim, hstore⟩ := Device.phyStore_eq_setPhyReg s.cfg
    { s.dev with
      miiAddress := miiSelectValue s.cfg reg
      miiTxData := Field.set s.cfg.layout.ctrldata 0 (data.zeroExtend 32)
      miiCommand := 0 }
    s.cfg.phyAddr reg data
  rw [hstore] at hdev
  have hphy (a r : BitVec 5) : t.dev.phyReg a r = if a = s.cfg.phyAddr ∧ r = reg then data else s.dev.phyReg a r := by
    rw [hdev]
    exact Device.phyReg_setPhyReg _ _ _ _ _ _
  obtain ⟨hidle, hcompletes⟩ := hready
  refine ⟨t, ht, hlen, by rw [hphy, if_pos ⟨rfl, rfl⟩], ⟨by rw [hdev]; exact hidle, by rw [henv, hcompletes]⟩,
    fun a r hne => ?_, hmem, henv, by rw [hdev]; rfl⟩
  rw [hphy, if_neg (fun h => hne (Prod.ext h.1 h.2))]

/-- Settles O27: the word is what the register holds after the PHY has seen the read, and a PHY without behaviour of its own
does not change. -/
theorem miiReadReadsPhy : Obligations.MiiReadReadsPhy := by
  intro s reg hq hready
  obtain ⟨t, ht, -, hblk, hmem, henv, hlen, hdev⟩ := miiRead_quiet reg hq hready
  obtain ⟨hidle, hcompletes⟩ := hready
  obtain ⟨phy, sim, hload⟩ := Device.phyLoad_eq s.cfg
    { s.dev with miiAddress := miiSelectValue s.cfg reg, miiCommand := 0 } s.cfg.phyAddr reg
  refine ⟨t, ht, hlen, hblk, ⟨?_, by rw [henv, hcompletes]⟩, fun hnone => ?_, hmem, henv, ?_⟩
  · rw [hdev, hload]
    exact hidle
  · have hsame := Device.phyLoad_of_none s.cfg
      (d := { s.dev with miiAddress := miiSelectValue s.cfg reg, miiCommand := 0 }) s.cfg.phyAddr reg hnone
    rw [hsame] at hdev
    rw [hdev]
    exact ⟨rfl, hnone⟩
  · rw [hdev, hload]

/-! ## The engine -/

/-- A completed transaction leaves none (R90). -/
theorem Device.miiFinish_mii (c : Cfg) (other : Word) (d : Device) : (d.miiFinish c other).mii = none := by
  unfold Device.miiFinish
  split
  · assumption
  · split <;> rfl

/-- Cut to 5 bits a field is its value modulo 32. -/
theorem truncate_five_toNat (x : Word) : (x.truncate 5).toNat = x.toNat % 32 := by simp

/-- A 16-bit field loses nothing when it is cut to 16 bits. -/
theorem Field.truncate_get_toNat {f : Field} (hw : f.width = 16) (v : Word) :
    ((Field.get f v).truncate 16).toNat = (Field.get f v).toNat := by
  have hlt : (Field.get f v).toNat < 2 ^ 16 := by
    refine Nat.lt_pow_two_of_testBit _ fun i hi => ?_
    rw [BitVec.testBit_toNat, Field.get_getLsbD, hw]
    simp [show ¬ i < 16 by omega]
  simpa using hlt

/-- What the engine latches when it starts a transaction (R90). -/
def latched (c : Cfg) (d : Device) (dir : MiiDir) : MiiTxn where
  dir  := dir
  phy  := (Field.get c.layout.fiad d.miiAddress).truncate 5
  reg  := (Field.get c.layout.rgad d.miiAddress).truncate 5
  data := (Field.get c.layout.ctrldata d.miiTxData).truncate 16

section Command
variable {c : Cfg} {d : Device} {v : Word} (hidle : d.mii = none)
include hidle

theorem Device.miiCommandWrite_write (hwrite : Field.test c.layout.wctrldata v = true) :
    (d.miiCommandWrite c v).mii = some (latched c d .write) := by
  simp [Device.miiCommandWrite, hidle, hwrite, latched]

theorem Device.miiCommandWrite_read (hwrite : Field.test c.layout.wctrldata v = false)
    (hread : Field.test c.layout.rstat v = true) : (d.miiCommandWrite c v).mii = some (latched c d .read) := by
  simp [Device.miiCommandWrite, hidle, hwrite, hread, latched]

end Command

/-- Settles O51: the idle engine latches address and data at a command; a write of 0 is no command. -/
theorem miiEngineContract : Obligations.MiiEngineContract := by
  intro c d v L e
  have he : e = d.miiCommandWrite c v := rfl
  refine ⟨Field.test_set_bitOf _ _ c.busy_ok, fun hidle hwrite => ?_, fun hidle hwrite hread => ?_, ?_,
    fun other => d.miiFinish_mii c other⟩
  · refine ⟨_, Device.miiCommandWrite_write hidle hwrite, rfl, ?_⟩
    exact ⟨truncate_five_toNat _, truncate_five_toNat _, Field.truncate_get_toNat c.ctrldata_ok.1 _⟩
  · refine ⟨_, Device.miiCommandWrite_read hidle hwrite hread, rfl, ?_⟩
    exact ⟨truncate_five_toNat _, truncate_five_toNat _⟩
  · rintro rfl
    rw [he, miiCommandWrite_zero]

end Sys2Proof.Machine
end

section
/-! SUPPORT. `BRINGUP` by its phases (rules R160 to R174): the reset write and the polling of the reset bit; the configuration
writes and the polling of the link bit; the three ends. -/

namespace Sys2Proof.Machine

/-! ## The two phases -/

/-- The reset phase (R161 to R164), from `s` to `t`, the end of its polling loop: it read the words `ws`, the oldest first, and
`ok` says that the last showed the reset bit clear; `evs` is what has been seen, the newest first. -/
structure ResetPhase (s t : State) (ok : Bool) (ws : List Half) (evs : List Event) : Prop where
  cfg      : t.cfg = s.cfg
  blk      : t.blk = { s.blk with rt := BitVec.ofNat 32 ws.length, md := t.blk.md, pc := .resetPolling }
  trace    : t.trace = evs ++ s.trace
  summary  : MiiSummary s.cfg evs (List.replicate ws.length .read ++ [.write]) ws.reverse 0
  nonempty : 1 ≤ ws.length
  bound    : ws.length ≤ s.cfg.resetRetries
  last     : ws.getLast? = some t.blk.md
  before   : ∀ w ∈ ws.dropLast, resetting s.cfg w = true
  done     : ok = true → resetting s.cfg t.blk.md = false
  failed   : ok = false → ws.length = s.cfg.resetRetries ∧ ∀ w ∈ ws, resetting s.cfg w = true
  events   : ∃ reset polls rs, IsMiiWrite s.cfg s.cfg.layout.phyRegCtrl s.cfg.layout.phyResetCmd reset
    ∧ IsPolling (IsMiiRead s.cfg s.cfg.layout.phyRegCtrl) rs polls ∧ rs.length = ws.length ∧ evs = polls ++ reset

/-- The link phase (R165 to R170), as `ResetPhase`; `ok` says that the last word showed the link bit set. -/
structure LinkPhase (s t : State) (ok : Bool) (ws : List Half) (evs : List Event) : Prop where
  cfg      : t.cfg = s.cfg
  blk      : t.blk = { s.blk with lt := BitVec.ofNat 32 ws.length, md := t.blk.md, pc := .linkPolling }
  trace    : t.trace = evs ++ s.trace
  summary  : MiiSummary s.cfg evs (List.replicate ws.length .read ++ [.write, .write]) ws.reverse
    (if 0 < s.cfg.linkPollDelayUs then ws.length else 0)
  nonempty : 1 ≤ ws.length
  bound    : ws.length ≤ s.cfg.linkRetries
  last     : ws.getLast? = some t.blk.md
  before   : ∀ w ∈ ws.dropLast, linkOk s.cfg w = false
  done     : ok = true → linkOk s.cfg t.blk.md = true
  failed   : ok = false → ws.length = s.cfg.linkRetries ∧ ∀ w ∈ ws, linkOk s.cfg w = false
  events   : ∃ irq mode links ls, IsMiiWrite s.cfg s.cfg.phyRegIrq s.cfg.phyIrqValue irq
    ∧ IsMiiWrite s.cfg s.cfg.layout.phyRegCtrl s.cfg.layout.phyModeValue mode
    ∧ IsPolling (IsLinkAttempt s.cfg) ls links ∧ ls.length = ws.length ∧ evs = links ++ (mode ++ irq)

/-- A count below 2^32 comes back from the 32-bit register that holds it. -/
theorem ofNat32_inj {m n bound : Nat} (hm : m ≤ bound) (hn : n ≤ bound) (hbound : bound < 2 ^ 32)
    (h : BitVec.ofNat 32 m = BitVec.ofNat 32 n) : m = n := by
  have := congrArg BitVec.toNat h
  rw [BitVec.toNat_ofNat, BitVec.toNat_ofNat, Nat.mod_eq_of_lt (by omega), Nat.mod_eq_of_lt (by omega)] at this
  exact this

/-- What is seen of one write transaction, both by its events and by its summary. -/
theorem miiWrite_seen {reg : BitVec 5} {data : Half} {s t : State} (e : miiWrite reg data s = some t) :
    t.blk = s.blk ∧ t.cfg = s.cfg ∧ ∃ evs, IsMiiWrite s.cfg reg data evs ∧ MiiSummary s.cfg evs [.write] [] 0
      ∧ t.trace = evs ++ s.trace := by
  obtain ⟨hblk, hcfg, evs, hevents, htrace⟩ := miiWrite_events e
  obtain ⟨-, -, evs', htrace', hsummary⟩ := miiWrite_spec e
  obtain rfl : evs = evs' := List.append_cancel_right (htrace.symm.trans htrace')
  exact ⟨hblk, hcfg, evs, hevents, hsummary, htrace⟩

theorem resetPhase_of_run {s s1 t : State} {ok : Bool} (hissue : issueReset s = some s1)
    (hpoll : resetPoll s1.cfg.resetRetries s1 = some (ok, t)) : ∃ ws evs, ResetPhase s t ok ws evs := by
  obtain ⟨s0, hwrite, rfl⟩ := Option.map_eq_some_iff.1 hissue
  obtain ⟨hblk0, hcfg0, ev0, hev0, hsum0, htrace0⟩ := miiWrite_seen hwrite
  obtain ⟨hcfg, k, evs, ws, hk, hlen, htrace, hsum, hblk, hlast, hdone, hfail⟩ := resetPoll_spec hpoll
  obtain ⟨-, rs, evs', hpolling, hrs, hrt, htrace'⟩ := resetPoll_events hpoll
  obtain rfl : evs = evs' := List.append_cancel_right (htrace.symm.trans htrace')
  simp only [State.setBlk_cfg, State.setBlk_blk, State.setBlk_trace, hcfg0, hblk0, zero_add] at *
  subst hlen
  obtain ⟨-, -, -, ⟨hretries, hsmall⟩, -⟩ := s.cfg.ranges
  have hpos : 1 ≤ ws.length := by
    cases ok with
    | true => exact (hdone rfl).1
    | false => exact (hfail rfl).1 ▸ hretries
  refine ⟨ws, evs ++ ev0, hcfg, ?_, by rw [htrace, htrace0, List.append_assoc], by simpa using hsum.append hsum0, hpos, hk,
    hlast (by omega), ?_, fun hok => (hdone hok).2.2, fun hok => hfail hok, ev0, evs, rs, hev0, hpolling, ?_, rfl⟩
  · rw [hblk, if_neg (by omega)]
  · cases ok with
    | true => exact (hdone rfl).2.1
    | false => exact fun w hw => (hfail rfl).2 w (List.dropLast_subset _ hw)
  · rw [hblk] at hrt
    exact (ofNat32_inj hk hrs hsmall hrt).symm

theorem linkPhase_of_run {s s1 t : State} {ok : Bool} (hconfig : writeConfig s = some s1)
    (hpoll : linkPoll s1.cfg.linkRetries s1 = some (ok, t)) : ∃ ws evs, LinkPhase s t ok ws evs := by
  obtain ⟨a, hirq, hrest⟩ := Option.bind_eq_some_iff.1 hconfig
  obtain ⟨b, hmode, rfl⟩ := Option.map_eq_some_iff.1 hrest
  obtain ⟨hblka, hcfga, eva, heva, hsuma, htracea⟩ := miiWrite_seen hirq
  obtain ⟨hblkb, hcfgb, evb, hevb, hsumb, htraceb⟩ := miiWrite_seen hmode
  obtain ⟨hcfg, k, evs, ws, hk, hlen, htrace, hsum, hblk, hlast, hdone, hfail⟩ := linkPoll_spec hpoll
  obtain ⟨-, rs, evs', hpolling, hrs, hlt, htrace'⟩ := linkPoll_events hpoll
  obtain rfl : evs = evs' := List.append_cancel_right (htrace.symm.trans htrace')
  simp only [toState, State.setBlk_cfg, State.setBlk_blk, State.setBlk_trace, hcfga, hcfgb, hblka, hblkb, zero_add] at *
  subst hlen
  obtain ⟨-, -, -, -, ⟨hretries, hsmall⟩⟩ := s.cfg.ranges
  have hpos : 1 ≤ ws.length := by
    cases ok with
    | true => exact (hdone rfl).1
    | false => exact (hfail rfl).1 ▸ hretries
  refine ⟨ws, evs ++ (evb ++ eva), hcfg, ?_, by rw [htrace, htraceb, htracea]; simp, ?_, hpos, hk, hlast (by omega), ?_,
    fun hok => (hdone hok).2.2, fun hok => hfail hok, eva, evb, evs, rs, heva, hevb, hpolling, ?_, rfl⟩
  · exact hblk
  · simpa using hsum.append (hsumb.append hsuma)
  · cases ok with
    | true => exact (hdone rfl).2.1
    | false => exact fun w hw => (hfail rfl).2 w (List.dropLast_subset _ hw)
  · rw [hblk] at hlt
    exact (ofNat32_inj hk hrs hsmall hlt).symm

/-! ## The three ends -/

/-- What a `BRINGUP` that returns has done. -/
inductive BringupTo (s : State) : State → Prop where
  | resetFailed {u : State} {rs : List Half} {re : List Event} (reset : ResetPhase s u false rs re) :
      BringupTo s (u.raiseFatal .phyResetFailed)
  | linkUp {u v : State} {rs ls : List Half} {re le : List Event} (reset : ResetPhase s u true rs re)
      (link : LinkPhase u v true ls le) : BringupTo s (linkIsUp v)
  | linkFailed {u v : State} {rs ls : List Half} {re le : List Event} (reset : ResetPhase s u true rs re)
      (link : LinkPhase u v false ls le) : BringupTo s (v.raiseFatal .phyLinkFailed)

theorem bringupTo_of_bringup {s t : State} (h : bringup s = some t) : BringupTo s t := by
  obtain ⟨s1, hissue, hrest⟩ := Option.bind_eq_some_iff.1 h
  obtain ⟨⟨ok, s2⟩, hpoll, hrest⟩ := Option.bind_eq_some_iff.1 hrest
  obtain ⟨rs, re, reset⟩ := resetPhase_of_run hissue hpoll
  cases ok with
  | false =>
    cases hrest
    exact .resetFailed reset
  | true =>
    simp only [if_true] at hrest
    obtain ⟨s3, hconfig, hrest⟩ := Option.bind_eq_some_iff.1 hrest
    obtain ⟨⟨ok, s4⟩, hlink, rfl⟩ := Option.map_eq_some_iff.1 hrest
    obtain ⟨ls, le, link⟩ := linkPhase_of_run hconfig hlink
    cases ok with
    | false => exact .linkFailed reset link
    | true => exact .linkUp reset link

section LinkIsUp
variable (s : State)

@[simp] theorem linkIsUp_cfg : (linkIsUp s).cfg = s.cfg := by simp [linkIsUp, toState]

@[simp] theorem linkIsUp_blk :
    (linkIsUp s).blk = { s.blk with pc := .linkUp, result := okWord (s.blk.md.zeroExtend 48) } := by
  simp [linkIsUp, toState, resultWord_ok]

@[simp] theorem linkIsUp_trace : (linkIsUp s).trace = .result (okWord (s.blk.md.zeroExtend 48)) :: .linkStateUp
    :: .log "PHY link up, status" s.blk.md.toNat :: s.trace := by
  simp [linkIsUp, toState, resultWord_ok]

end LinkIsUp

/-! ## The operation -/

section ExecBringup
variable {s : State} (he : s.blk.err = none) (hpc : s.blk.pc = .idle)
include he hpc

theorem exec_bringup_eq : exec .bringup s = execBody .bringup s :=
  exec_runs he (decide_eq_true hpc)

theorem exec_bringup_of_some {t : State} (h : bringup s = some t) : exec .bringup s = .next t := by
  rw [exec_bringup_eq he hpc, execBody, h]

theorem exec_bringup_of_none (h : bringup s = none) : exec .bringup s = .fault .miiNeverCompletes := by
  rw [exec_bringup_eq he hpc, execBody, h]

theorem bringupTo_of_exec {t : State} (h : exec .bringup s = .next t) : BringupTo s t := by
  cases hb : bringup s with
  | none =>
    rw [exec_bringup_of_none he hpc hb] at h
    cases h
  | some u =>
    rw [exec_bringup_of_some he hpc hb] at h
    cases h
    exact bringupTo_of_bringup hb

end ExecBringup

/-! ## It returns when every transaction completes -/

theorem miiAllowed_bringup (s : State) : MiiAllowed (allowedFor s .bringup) :=
  ⟨.inl rfl, .inr rfl, .inl rfl, .inr (.inl rfl), .inr (.inr rfl)⟩

theorem miiWrite_completes {reg : BitVec 5} {data : Half} {s t : State} (h : miiWrite reg data s = some t) :
    t.env.miiCompletes = s.env.miiCompletes :=
  (runs_miiWrite (miiAllowed_bringup s) h).host.2.1

theorem miiRead_completes {reg : BitVec 5} {s t : State} (h : miiRead reg s = some t) :
    t.env.miiCompletes = s.env.miiCompletes :=
  (runs_miiRead (miiAllowed_bringup s) h).host.2.1

theorem pollDelay_completes (s : State) : (pollDelay s).env.miiCompletes = s.env.miiCompletes := by
  unfold pollDelay
  split
  · have hfixed := s.tick_fixed
    simp only [Env.fixed, Prod.mk.injEq] at hfixed
    exact hfixed.1
  · rfl

theorem resetPoll_returns (n : Nat) {s : State} (hm : s.env.miiCompletes = true) :
    ∃ p, resetPoll n s = some p ∧ p.2.env.miiCompletes = true := by
  induction n generalizing s with
  | zero => exact ⟨_, rfl, hm⟩
  | succ n ih =>
    obtain ⟨s1, hread⟩ := miiRead_returns s.cfg.layout.phyRegCtrl hm
    have hm1 : (countReset s1).env.miiCompletes = true := (miiRead_completes hread).trans hm
    simp only [resetPoll, hread, Option.bind_some]
    split
    · exact ih hm1
    · exact ⟨_, rfl, hm1⟩

theorem linkPoll_returns (n : Nat) {s : State} (hm : s.env.miiCompletes = true) : ∃ p, linkPoll n s = some p := by
  induction n generalizing s with
  | zero => exact ⟨_, rfl⟩
  | succ n ih =>
    have hm0 := (pollDelay_completes s).trans hm
    obtain ⟨s1, hread⟩ := miiRead_returns s.cfg.layout.phyRegStatus hm0
    have hm1 : (countLink s1).env.miiCompletes = true := (miiRead_completes hread).trans hm0
    simp only [linkPoll, hread, Option.bind_some]
    split
    · exact ⟨_, rfl⟩
    · exact ih hm1

theorem writeConfig_returns {s : State} (hm : s.env.miiCompletes = true) :
    ∃ t, writeConfig s = some t ∧ t.env.miiCompletes = true := by
  obtain ⟨a, ha⟩ := miiWrite_returns s.cfg.phyRegIrq s.cfg.phyIrqValue hm
  have hma := (miiWrite_completes ha).trans hm
  obtain ⟨b, hb⟩ := miiWrite_returns a.cfg.layout.phyRegCtrl a.cfg.layout.phyModeValue hma
  simp only [writeConfig, ha, Option.bind_some, hb, Option.map_some]
  exact ⟨_, rfl, (miiWrite_completes hb).trans hma⟩

/-- `BRINGUP` returns when every transaction completes (R93). -/
theorem bringup_returns {s : State} (hm : s.env.miiCompletes = true) : ∃ t, bringup s = some t := by
  obtain ⟨s0, hwrite⟩ := miiWrite_returns s.cfg.layout.phyRegCtrl s.cfg.layout.phyResetCmd hm
  have hm0 := (miiWrite_completes hwrite).trans hm
  obtain ⟨s1, hissue, hm1⟩ : ∃ s1, issueReset s = some s1 ∧ s1.env.miiCompletes = true :=
    ⟨_, Option.map_eq_some_iff.2 ⟨s0, hwrite, rfl⟩, hm0⟩
  obtain ⟨⟨ok, s2⟩, hpoll, hm2⟩ := resetPoll_returns s1.cfg.resetRetries hm1
  simp only [bringup, hissue, Option.bind_some, hpoll]
  cases ok with
  | false => exact ⟨_, rfl⟩
  | true =>
    obtain ⟨s3, hconfig, hm3⟩ := writeConfig_returns hm2
    obtain ⟨p, hlink⟩ := linkPoll_returns s3.cfg.linkRetries hm3
    exact ⟨_, by rw [if_pos rfl, hconfig, Option.bind_some, pollLink, hlink, Option.map_some]⟩

/-- A count of a phase, as its register holds it. -/
theorem ofNat32_toNat {k bound : Nat} (hk : k ≤ bound) (hbound : bound < 2 ^ 32) : (BitVec.ofNat 32 k).toNat = k := by
  rw [BitVec.toNat_ofNat, Nat.mod_eq_of_lt (by omega)]

section Counts
variable {s t : State} {ok : Bool} {ws : List Half} {evs : List Event}

theorem ResetPhase.rt (h : ResetPhase s t ok ws evs) : t.blk.rt.toNat = ws.length := by
  rw [h.blk]
  exact ofNat32_toNat h.bound s.cfg.ranges.2.2.2.1.2

theorem LinkPhase.lt (h : LinkPhase s t ok ws evs) : t.blk.lt.toNat = ws.length := by
  rw [h.blk]
  exact ofNat32_toNat h.bound s.cfg.ranges.2.2.2.2.2

theorem ResetPhase.rt_range (h : ResetPhase s t ok ws evs) :
    1 ≤ t.blk.rt.toNat ∧ t.blk.rt.toNat ≤ s.cfg.resetRetries := by
  rw [h.rt]
  exact ⟨h.nonempty, h.bound⟩

theorem LinkPhase.lt_range (h : LinkPhase s t ok ws evs) :
    1 ≤ t.blk.lt.toNat ∧ t.blk.lt.toNat ≤ s.cfg.linkRetries := by
  rw [h.lt]
  exact ⟨h.nonempty, h.bound⟩

/-- The link phase leaves the count of the reset phase alone. -/
theorem LinkPhase.rt (h : LinkPhase s t ok ws evs) : t.blk.rt = s.blk.rt := by rw [h.blk]

end Counts

/-- The two phases leave the cursors, the flags and `ERR` alone. -/
theorem blk_of_phases {s u v : State} {rs ls : List Half} {re le : List Event} {ok : Bool}
    (reset : ResetPhase s u true rs re) (link : LinkPhase u v ok ls le) :
    v.blk = { s.blk with rt := u.blk.rt, lt := v.blk.lt, md := v.blk.md, pc := .linkPolling } := by
  rw [link.blk, reset.blk]

theorem resultWord_phyResetFailed :
    resultWord .fatal ((fatalCode .phyResetFailed).zeroExtend 48) = 0xFF00000000000001#64 := by decide

theorem resultWord_phyLinkFailed :
    resultWord .fatal ((fatalCode .phyLinkFailed).zeroExtend 48) = 0xFF00000000000002#64 := by decide

/-- Settles O28: it returns, and each of the three ends has its registers from the phases it went through. -/
theorem bringupEndsInTerminalState : Obligations.BringupEndsInTerminalState := by
  intro s he hpc hm
  obtain ⟨t, ht⟩ := bringup_returns hm
  refine ⟨t, exec_bringup_of_some he hpc ht, ?_⟩
  cases bringupTo_of_bringup ht with
  | @resetFailed u rs re reset =>
    obtain ⟨hrtpos, hrtle⟩ := reset.rt_range
    have hblk := reset.blk
    rw [State.raiseFatal_cfg, State.raiseFatal_blk]
    refine ⟨reset.cfg, by rw [hblk], by rw [hblk], by rw [hblk], hrtpos, hrtle, .inr (.inl ⟨rfl, rfl, ?_, by rw [hblk],
      resultWord_phyResetFailed⟩)⟩
    exact reset.rt.trans (reset.failed rfl).1
  | @linkUp u v rs ls re le reset link =>
    obtain ⟨hrtpos, hrtle⟩ := link.rt ▸ reset.rt_range
    obtain ⟨hltpos, hltle⟩ := reset.cfg ▸ link.lt_range
    have hblk := blk_of_phases reset link
    rw [linkIsUp_cfg, linkIsUp_blk]
    exact ⟨link.cfg.trans reset.cfg, by rw [hblk], by rw [hblk], by rw [hblk], hrtpos, hrtle,
      .inl ⟨rfl, by rw [hblk, he], hltpos, hltle, rfl⟩⟩
  | @linkFailed u v rs ls re le reset link =>
    obtain ⟨hrtpos, hrtle⟩ := link.rt ▸ reset.rt_range
    have hblk := blk_of_phases reset link
    rw [State.raiseFatal_cfg, State.raiseFatal_blk]
    refine ⟨link.cfg.trans reset.cfg, by rw [hblk], by rw [hblk], by rw [hblk], hrtpos, hrtle,
      .inr (.inr ⟨rfl, rfl, ?_, resultWord_phyLinkFailed⟩)⟩
    exact link.lt.trans (reset.cfg ▸ (link.failed rfl).1)

end Sys2Proof.Machine
end

section
/-! SUPPORT. What is seen of `BRINGUP` (rules R160 to R174): its events in order, and the words it reads. -/

namespace Sys2Proof.Machine

/-! ## The summary of the whole -/

/-- The events of a phase with those of the end before them, the newest first. -/
theorem MiiSummary.ended {c : Cfg} {es evs : List Event} {tx : List MiiDir} {ws : List Half} {dl : Nat}
    (hend : MiiSummary c es [] [] 0) (h : MiiSummary c evs tx ws dl) : MiiSummary c (es ++ evs) tx ws dl := by
  simpa using hend.append h

/-- What is seen of a fatal error (R262). -/
def fatalEvents (e : FatalErr) : List Event :=
  [.result (resultWord .fatal ((fatalCode e).zeroExtend 48)), .log (fatalMessage e) (fatalCode e).toNat]

/-- What is seen of the link coming up (R169). -/
def linkUpEvents (md : Half) : List Event :=
  [.result (okWord (md.zeroExtend 48)), .linkStateUp, .log "PHY link up, status" md.toNat]

/-- The ends of `BRINGUP` start no transaction, read no word and are no delay. -/
theorem summary_fatalEvents (c : Cfg) (e : FatalErr) : MiiSummary c (fatalEvents e) [] [] 0 := ⟨rfl, rfl, rfl⟩

theorem summary_linkUpEvents (c : Cfg) (md : Half) : MiiSummary c (linkUpEvents md) [] [] 0 := ⟨rfl, rfl, rfl⟩

section Phases
variable {s u v : State} {rs ls : List Half} {re le : List Event} {ok : Bool}

/-- What is seen of a phase and of the fatal error that ends it. -/
theorem ResetPhase.fatal_trace (reset : ResetPhase s u ok rs re) (e : FatalErr) :
    (u.raiseFatal e).trace = (fatalEvents e ++ re) ++ s.trace := by
  rw [State.raiseFatal_trace, reset.trace]
  rfl

/-- What is seen of both phases. -/
theorem trace_phases (reset : ResetPhase s u true rs re) (link : LinkPhase u v ok ls le) :
    v.trace = le ++ re ++ s.trace := by
  rw [link.trace, reset.trace, List.append_assoc]

theorem trace_linkIsUp (reset : ResetPhase s u true rs re) (link : LinkPhase u v ok ls le) :
    (linkIsUp v).trace = (linkUpEvents v.blk.md ++ (le ++ re)) ++ s.trace := by
  rw [linkIsUp_trace, trace_phases reset link]
  rfl

theorem trace_linkFailed (reset : ResetPhase s u true rs re) (link : LinkPhase u v ok ls le) (e : FatalErr) :
    (v.raiseFatal e).trace = (fatalEvents e ++ (le ++ re)) ++ s.trace := by
  rw [State.raiseFatal_trace, trace_phases reset link]
  rfl

/-- The count of the reset phase, after the link phase. -/
theorem rt_phases (reset : ResetPhase s u true rs re) (link : LinkPhase u v ok ls le) : v.blk.rt.toNat = rs.length := by
  rw [link.rt, reset.rt]

/-- The summary of both phases. -/
theorem summary_phases (reset : ResetPhase s u true rs re) (link : LinkPhase u v ok ls le) :
    MiiSummary s.cfg (le ++ re)
      (List.replicate ls.length .read ++ [.write, .write] ++ List.replicate rs.length .read ++ [.write])
      (ls.reverse ++ rs.reverse) (if 0 < s.cfg.linkPollDelayUs then ls.length else 0) := by
  have hlink := link.summary
  rw [reset.cfg] at hlink
  simpa using hlink.append reset.summary

end Phases

/-- Settles O29: each end is the events of its phases and its own, and the summaries of the phases count them. -/
theorem bringupTransactions : Obligations.BringupTransactions := by
  intro s t he hpc hexec c L
  cases bringupTo_of_exec he hpc hexec with
  | @resetFailed u rs re reset =>
    obtain ⟨hlen, -⟩ := reset.failed rfl
    obtain ⟨htxns, -, hdelays⟩ := (summary_fatalEvents c .phyResetFailed).ended reset.summary
    obtain ⟨wr, polls, ps, hwr, hpolls, hps, hre⟩ := reset.events
    have htrace := reset.fatal_trace .phyResetFailed
    rw [State.raiseFatal_blk]
    refine ⟨⟨wr, polls, ps, hwr, hpolls, hps.trans reset.rt.symm, .inl ⟨rfl, ?_⟩⟩, _, htrace, fun h => ?_, fun _ => ?_,
      fun h => ?_⟩
    · rw [htrace, hre, ← List.append_assoc]
      rfl
    · cases h
    · exact ⟨by rw [htxns, hlen], hdelays⟩
    · cases h
  | @linkUp u v rs ls re le reset link =>
    obtain ⟨htxns, -, hdelays⟩ := (summary_linkUpEvents c v.blk.md).ended (summary_phases reset link)
    obtain ⟨wr, polls, ps, hwr, hpolls, hps, hre⟩ := reset.events
    obtain ⟨irq, mode, links, qs, hirq, hmode, hlinks, hqs, hle⟩ := link.events
    have htrace := trace_linkIsUp reset link
    have hrt := rt_phases reset link
    have hlt := link.lt
    have herr : v.blk.err = none := by rw [blk_of_phases reset link, he]
    rw [reset.cfg] at hirq hmode hlinks
    rw [linkIsUp_blk]
    refine ⟨⟨wr, polls, ps, hwr, hpolls, hps.trans hrt.symm, .inr ⟨irq, mode, links, qs, hirq, hmode, hlinks,
      hqs.trans hlt.symm, .inl ⟨rfl, ?_⟩⟩⟩, _, htrace, fun _ => ?_, fun h => ?_, fun h => ?_⟩
    · rw [htrace, hre, hle]
      simp only [List.append_assoc]
      rfl
    · exact ⟨by rw [htxns, hrt, hlt], by rw [hdelays, hlt]⟩
    · cases herr.symm.trans h
    · cases herr.symm.trans h
  | @linkFailed u v rs ls re le reset link =>
    obtain ⟨hlen, -⟩ := link.failed rfl
    obtain ⟨htxns, -, hdelays⟩ := (summary_fatalEvents c .phyLinkFailed).ended (summary_phases reset link)
    obtain ⟨wr, polls, ps, hwr, hpolls, hps, hre⟩ := reset.events
    obtain ⟨irq, mode, links, qs, hirq, hmode, hlinks, hqs, hle⟩ := link.events
    have htrace := trace_linkFailed reset link .phyLinkFailed
    have hrt := rt_phases reset link
    rw [reset.cfg] at hirq hmode hlinks hlen
    rw [State.raiseFatal_blk]
    refine ⟨⟨wr, polls, ps, hwr, hpolls, hps.trans hrt.symm, .inr ⟨irq, mode, links, qs, hirq, hmode, hlinks,
      hqs.trans link.lt.symm, .inr ⟨rfl, ?_⟩⟩⟩, _, htrace, fun h => ?_, fun h => ?_, fun _ => ?_⟩
    · rw [htrace, hre, hle]
      simp only [List.append_assoc]
      rfl
    · cases h
    · cases h
    · exact ⟨by rw [htxns, hrt, hlen], by rw [hdelays, hlen]⟩

/-- Settles O30: the words of each phase, with what its loop has seen of them. -/
theorem bringupFollowsWordsRead : Obligations.BringupFollowsWordsRead := by
  intro s t he hpc hexec resetting' linkUp'
  cases bringupTo_of_exec he hpc hexec with
  | @resetFailed u rs re reset =>
    obtain ⟨hlen, hall⟩ := reset.failed rfl
    obtain ⟨-, hwords, -⟩ := (summary_fatalEvents s.cfg .phyResetFailed).ended reset.summary
    rw [State.raiseFatal_blk]
    refine ⟨_, rs, [], reset.fatal_trace _, by rw [hwords]; simp, reset.rt.symm, reset.before, by simpa using reset.last,
      fun _ => ⟨rfl, hlen, hall⟩, fun h => absurd rfl h, fun h => ?_, fun h => ?_⟩
    · cases h
    · cases h
  | @linkUp u v rs ls re le reset link =>
    obtain ⟨-, hwords, -⟩ := (summary_linkUpEvents s.cfg v.blk.md).ended (summary_phases reset link)
    have herr : v.blk.err = none := by rw [blk_of_phases reset link, he]
    have hbefore := link.before
    have hup := link.done rfl
    rw [reset.cfg] at hbefore hup
    rw [linkIsUp_blk]
    refine ⟨_, rs, ls, trace_linkIsUp reset link, by rw [hwords]; simp, (rt_phases reset link).symm, reset.before,
      by simp [List.getLast?_append, link.last], fun h => ?_, fun _ => ⟨?_, link.lt.symm, hbefore⟩, fun h => ?_, fun _ => hup⟩
    · cases herr.symm.trans h
    · rw [reset.last]
      exact congrArg some (reset.done rfl)
    · cases herr.symm.trans h
  | @linkFailed u v rs ls re le reset link =>
    obtain ⟨-, hwords, -⟩ := (summary_fatalEvents s.cfg .phyLinkFailed).ended (summary_phases reset link)
    obtain ⟨hlen, hall⟩ := link.failed rfl
    have hbefore := link.before
    rw [reset.cfg] at hbefore hlen hall
    rw [State.raiseFatal_blk]
    refine ⟨_, rs, ls, trace_linkFailed reset link _, by rw [hwords]; simp, (rt_phases reset link).symm, reset.before,
      by simp [List.getLast?_append, link.last], fun h => ?_, fun _ => ⟨?_, link.lt.symm, hbefore⟩,
      fun _ => ⟨hlen, hall _ (List.mem_of_getLast? link.last)⟩, fun h => ?_⟩
    · cases h
    · rw [reset.last]
      exact congrArg some (reset.done rfl)
    · cases h

/-! ## An engine that never completes -/

/-- With nothing scheduled and an engine that never completes, a busy-wait on the idle engine is one read, and changes nothing
else (R316). -/
theorem waitIdle_idle {s : State} (hq : Quiet s) (hm : s.env.miiCompletes = false) (hidle : s.dev.mii = none) :
    waitIdle s = some (s.mmioRead (.reg .miiStatus)) := by
  unfold waitIdle
  rw [show s.env.schedule = [] from hq]
  simp [waitIdleTurns, busy_mmioVal, readTick_status_stuck hq hm, hidle]

/-- A transaction that is started on such an engine never ends: the wait after the pulse does not, nor does the one before it
when one is in progress already. -/
theorem trigger_stuck {c : Field} {s : State} (hq : Quiet s) (hm : s.env.miiCompletes = false)
    (hstarts : ∀ d : Device, d.mii = none → (d.miiCommandWrite s.cfg (Field.bit 32 c)).mii.isSome = true) :
    trigger c s = none := by
  cases hmii : s.dev.mii with
  | some x => rw [trigger, waitIdle, waitIdleTurns_stuck _ _ hq hm (by rw [hmii]; rfl), Option.bind_none]
  | none =>
    rw [trigger, waitIdle_idle hq hm hmii, Option.bind_some]
    have hread : (s.mmioRead (.reg .miiStatus)).dev = s.dev ∧ (s.mmioRead (.reg .miiStatus)).env = s.env := by
      rw [State.mmioRead_dev, State.mmioRead_env, readTick_status_stuck hq hm]
      exact ⟨rfl, rfl⟩
    obtain ⟨hdev, henv⟩ := hread
    have hq1 : Quiet (s.mmioRead (.reg .miiStatus)) := by rw [Quiet, henv]; exact hq
    have hq2 := mmioWrite_quiet (.reg .miiCommand) (Field.bit 32 c) _ hq1
    refine waitIdleTurns_stuck _ _ (mmioWrite_quiet _ _ _ hq2) ?_ ?_
    · rw [pulse, mmioWrite_completes, mmioWrite_completes, henv, hm]
    · simp only [pulse, State.mmioWrite_dev, State.mmioWrite_cfg, State.mmioRead_cfg, State.tick_quiet _ hq2,
        State.tick_quiet _ hq1, Device.put_miiCommand, hdev, miiCommandWrite_zero]
      exact hstarts s.dev hmii

/-- Settles O33: already the reset write never returns. -/
theorem bringupNeverReturns : Obligations.BringupNeverReturns := by
  intro s he hpc hq hm
  refine exec_bringup_of_none he hpc ?_
  have hq1 : Quiet (miiSelect s.cfg.layout.phyRegCtrl s) := mmioWrite_quiet _ _ _ hq
  have hcfg (t : State) (ht : t.cfg = s.cfg) (d : Device) (hidle : d.mii = none) :
      (d.miiCommandWrite t.cfg (Field.bit 32 s.cfg.layout.wctrldata)).mii.isSome = true := by
    obtain ⟨hw, hlo⟩ := s.cfg.wctrldata_ok
    rw [ht, Device.miiCommandWrite_write hidle (Field.test_bit_self _ hw hlo)]
    rfl
  have hstuck : miiWrite s.cfg.layout.phyRegCtrl s.cfg.layout.phyResetCmd s = none := by
    refine trigger_stuck (mmioWrite_quiet _ _ _ hq1) ?_ (hcfg _ ?_)
    · rw [mmioWrite_completes, miiSelect, mmioWrite_completes, hm]
    · rw [State.mmioWrite_cfg, miiSelect, State.mmioWrite_cfg]
  rw [bringup, issueReset, hstuck]
  rfl

end Sys2Proof.Machine
end

section
/-! SUPPORT. `BRINGUP` against the PHY of the reference environment `SimEnv` (rules R103, R164, R170, R173). -/

namespace Sys2Proof.Machine

/-! ## The PHY of `SimEnv` -/

section SimPhy
variable (c : Cfg) (p : PhySim) (d : Device)

/-- A read of the control register clears the reset bit from read number `r` on, and leaves it alone before (R103). -/
theorem Device.simReadCtrl_reset :
    Field.test c.layout.phyReset ((d.simReadCtrl c p).phyReg c.phyAddr c.layout.phyRegCtrl)
      = (!reached p.resetReads (p.ctrlReads + 1)
        && Field.test c.layout.phyReset (d.phyReg c.phyAddr c.layout.phyRegCtrl)) := by
  obtain ⟨⟨hw, hlo⟩, -, -⟩ := c.phyBits_ok
  cases hreached : reached p.resetReads (p.ctrlReads + 1) with
  | true =>
    simp only [Device.simReadCtrl, hreached, if_true, Device.phyReg_setPhyReg, and_self,
      Field.test_set_self _ _ _ hw hlo]
    rfl
  | false =>
    simp only [Device.simReadCtrl, hreached, Bool.not_false, Bool.true_and]
    rfl

theorem Device.simReadCtrl_phySim : (d.simReadCtrl c p).phySim = some { p with ctrlReads := p.ctrlReads + 1 } := by
  simp only [Device.simReadCtrl]
  split <;> rfl

theorem Device.simReadStatus_phySim :
    (d.simReadStatus c p).phySim = some { p with statusReads := p.statusReads + 1 } := rfl

/-- In a layout with one register for control and status, a read of the status leaves the reset bit alone (R9, R103). -/
theorem Device.simReadStatus_reset (h : c.layout.phyRegCtrl = c.layout.phyRegStatus) :
    Field.test c.layout.phyReset ((d.simReadStatus c p).phyReg c.phyAddr c.layout.phyRegCtrl)
      = Field.test c.layout.phyReset (d.phyReg c.phyAddr c.layout.phyRegCtrl) := by
  obtain ⟨⟨hw, hlo⟩, -, -⟩ := c.phyBits_ok
  rw [Device.simReadStatus, h, Device.phyReg_setPhyReg, if_pos ⟨rfl, rfl⟩,
    Field.test_set_apart _ _ _ _ hw hlo (c.phyBits_apart h), if_pos rfl]

/-- In a layout with two registers, a read of the status register gives its two words (R103). -/
theorem Device.simReadStatus_word (h : c.layout.phyRegCtrl ≠ c.layout.phyRegStatus) :
    (d.simReadStatus c p).phyReg c.phyAddr c.layout.phyRegStatus
      = Field.set c.layout.phyLink (if reached p.linkReads (p.statusReads + 1) then p.up else p.down)
        (bitOf 16 (reached p.linkReads (p.statusReads + 1))) := by
  simp only [Device.simReadStatus, Device.phyReg_setPhyReg, and_self, if_true, if_neg h.symm]

/-- A read of the control register, in every layout: its reset bit, and the PHY after it. -/
theorem Device.simRead_ctrl_spec :
    Field.test c.layout.phyReset ((d.simRead c p c.layout.phyRegCtrl).phyReg c.phyAddr c.layout.phyRegCtrl)
        = (!reached p.resetReads (p.ctrlReads + 1)
          && Field.test c.layout.phyReset (d.phyReg c.phyAddr c.layout.phyRegCtrl))
      ∧ ∃ n, (d.simRead c p c.layout.phyRegCtrl).phySim
          = some { p with ctrlReads := p.ctrlReads + 1, statusReads := n }
        ∧ (c.layout.phyRegCtrl ≠ c.layout.phyRegStatus → n = p.statusReads) := by
  by_cases h : c.layout.phyRegCtrl = c.layout.phyRegStatus
  · have hboth : d.simRead c p c.layout.phyRegCtrl
        = (d.simReadCtrl c p).simReadStatus c { p with ctrlReads := p.ctrlReads + 1 } := by
      simp only [Device.simRead, if_true, if_pos h, Device.simReadCtrl_phySim, Option.getD_some]
    rw [hboth]
    refine ⟨?_, _, Device.simReadStatus_phySim _ _ _, fun hne => absurd h hne⟩
    rw [Device.simReadStatus_reset _ _ _ h, Device.simReadCtrl_reset]
  · rw [Device.simRead_ctrl c p d h]
    exact ⟨d.simReadCtrl_reset c p, _, d.simReadCtrl_phySim c p, fun _ => rfl⟩

end SimPhy

/-! ## Transactions with it -/

/-- No agent acts, the MII engine is idle and completes, and the PHY is that of `SimEnv`, at `p`. -/
structure SimReady (s : State) (p : PhySim) : Prop where
  quiet : Quiet s
  ready : EngineReady s
  sim   : s.dev.phySim = some p

/-- The block's registers and what has been seen are no part of it. -/
theorem SimReady.of_eq {s t : State} {p : PhySim} (h : SimReady s p) (henv : t.env = s.env) (hdev : t.dev = s.dev) :
    SimReady t p := by
  obtain ⟨hq, ⟨hidle, hcompletes⟩, hsim⟩ := h
  refine ⟨?_, ⟨?_, ?_⟩, ?_⟩
  · rw [Quiet, henv]; exact hq
  · rw [hdev]; exact hidle
  · rw [henv]; exact hcompletes
  · rw [hdev]; exact hsim

/-- The reset bit of the control register. -/
def resetBit (s : State) : Bool := Field.test s.cfg.layout.phyReset (s.dev.phyReg s.cfg.phyAddr s.cfg.layout.phyRegCtrl)

/-- A read transaction, by what the PHY does about it. -/
theorem miiRead_sim {s : State} {p : PhySim} (h : SimReady s p) (reg : BitVec 5) :
    ∃ t, miiRead reg s = some t ∧ t.cfg = s.cfg ∧ t.blk = { s.blk with md := t.dev.phyReg s.cfg.phyAddr reg }
      ∧ Quiet t ∧ EngineReady t
      ∧ ∃ d : Device, d.phyReg = s.dev.phyReg ∧ d.phySim = some p ∧ t.dev.phyReg = (d.simRead s.cfg p reg).phyReg
        ∧ t.dev.phySim = (d.simRead s.cfg p reg).phySim := by
  obtain ⟨hq, hready, hsim⟩ := h
  obtain ⟨t, ht, hcfg, hblk, -, henv, -, hdev⟩ := miiRead_quiet reg hq hready
  set d : Device := { s.dev with miiAddress := miiSelectValue s.cfg reg, miiCommand := 0 } with hd
  have hload : d.phyLoad s.cfg s.cfg.phyAddr reg = d.simRead s.cfg p reg := by
    simp only [Device.phyLoad, show d.phySim = some p from hsim, if_true]
  obtain ⟨phy, sim, hsame⟩ := d.simRead_eq s.cfg p reg
  obtain ⟨hidle, hcompletes⟩ := hready
  rw [hload] at hdev
  refine ⟨t, ht, hcfg, hblk, ?_, ⟨?_, ?_⟩, d, rfl, hsim, ?_, ?_⟩
  · rw [Quiet, henv]
    exact hq
  · rw [hdev, hsame]
    exact hidle
  · rw [henv, hcompletes]
  · rw [hdev]
    rfl
  · rw [hdev]

/-- A read of the control register. -/
theorem miiRead_ctrl_sim {s : State} {p : PhySim} (h : SimReady s p) :
    ∃ t n, miiRead s.cfg.layout.phyRegCtrl s = some t ∧ t.cfg = s.cfg ∧ t.blk = { s.blk with md := t.blk.md }
      ∧ SimReady t { p with ctrlReads := p.ctrlReads + 1, statusReads := n }
      ∧ (s.cfg.layout.phyRegCtrl ≠ s.cfg.layout.phyRegStatus → n = p.statusReads)
      ∧ resetBit t = (!reached p.resetReads (p.ctrlReads + 1) && resetBit s)
      ∧ Field.test s.cfg.layout.phyReset t.blk.md = resetBit t := by
  obtain ⟨t, ht, hcfg, hblk, hq, hready, d, hphy, hsim, hphy', hsim'⟩ := miiRead_sim h s.cfg.layout.phyRegCtrl
  obtain ⟨hbit, n, hsim'', hn⟩ := d.simRead_ctrl_spec s.cfg p
  refine ⟨t, n, ht, hcfg, by rw [hblk], ⟨hq, hready, hsim'.trans hsim''⟩, hn, ?_, ?_⟩
  · rw [resetBit, hcfg, hphy', hbit, hphy, resetBit]
  · rw [resetBit, hcfg, hblk]

/-- A read of the status register, in a layout with two registers. -/
theorem miiRead_status_sim {s : State} {p : PhySim} (h : SimReady s p)
    (hne : s.cfg.layout.phyRegCtrl ≠ s.cfg.layout.phyRegStatus) :
    ∃ t, miiRead s.cfg.layout.phyRegStatus s = some t ∧ t.cfg = s.cfg ∧ SimReady t { p with statusReads := p.statusReads + 1 }
      ∧ t.blk = { s.blk with
          md := Field.set s.cfg.layout.phyLink (if reached p.linkReads (p.statusReads + 1) then p.up else p.down)
            (bitOf 16 (reached p.linkReads (p.statusReads + 1))) } := by
  obtain ⟨t, ht, hcfg, hblk, hq, hready, d, -, hsim, hphy', hsim'⟩ := miiRead_sim h s.cfg.layout.phyRegStatus
  rw [Device.simRead_status s.cfg p d hne hsim] at hphy' hsim'
  refine ⟨t, ht, hcfg, ⟨hq, hready, hsim'⟩, ?_⟩
  rw [hblk, hphy', Device.simReadStatus_word _ _ _ hne]

/-- A write transaction: it may start the count of the reset reads over, and a reset write does. -/
theorem miiWrite_sim {s : State} {p : PhySim} (h : SimReady s p) (reg : BitVec 5) (data : Half) :
    ∃ t n, miiWrite reg data s = some t ∧ t.cfg = s.cfg ∧ t.blk = s.blk ∧ SimReady t { p with ctrlReads := n }
      ∧ t.dev.phyReg s.cfg.phyAddr reg = data
      ∧ (reg = s.cfg.layout.phyRegCtrl → Field.test s.cfg.layout.phyReset data = true → n = 0) := by
  obtain ⟨hq, hready, hsim⟩ := h
  obtain ⟨t, ht, -, hphy, hready', -, -, henv, -⟩ := miiWriteReachesPhy s reg data hq hready
  obtain ⟨t', ht', hcfg, hblk, -, -, -, hdev⟩ := miiWrite_quiet reg data hq hready
  obtain rfl : t = t' := Option.some.inj (ht.symm.trans ht')
  have hq' : Quiet t := by rw [Quiet, henv]; exact hq
  have hstore : t.dev.phySim = some (if reg = s.cfg.layout.phyRegCtrl ∧ Field.test s.cfg.layout.phyReset data = true
      then { p with ctrlReads := 0 } else p) := by
    rw [hdev]
    simp only [Device.phyStore, Device.setPhyReg, hsim, true_and]
    split <;> rfl
  by_cases hreset : reg = s.cfg.layout.phyRegCtrl ∧ Field.test s.cfg.layout.phyReset data = true
  · rw [if_pos hreset] at hstore
    exact ⟨t, 0, ht, hcfg, hblk, ⟨hq', hready', hstore⟩, hphy, fun _ _ => rfl⟩
  · rw [if_neg hreset] at hstore
    exact ⟨t, p.ctrlReads, ht, hcfg, hblk, ⟨hq', hready', hstore⟩, hphy, fun h1 h2 => absurd ⟨h1, h2⟩ hreset⟩

/-! ## The polling loops -/

/-- Reset polling succeeds at exactly read number `r` (R103, R163). -/
theorem resetPoll_sim_done {n r : Nat} {s : State} {p : PhySim} (h : SimReady s p) (hbit : resetBit s = true)
    (hne : s.cfg.layout.phyRegCtrl ≠ s.cfg.layout.phyRegStatus) (hr : p.resetReads = some r) (hlo : p.ctrlReads < r)
    (hhi : r ≤ p.ctrlReads + n) :
    ∃ t, resetPoll n s = some (true, t) ∧ SimReady t { p with ctrlReads := r } ∧ t.cfg = s.cfg
      ∧ t.blk.rt = s.blk.rt + BitVec.ofNat 32 (r - p.ctrlReads) := by
  induction n generalizing s p with
  | zero => omega
  | succ n ih =>
    obtain ⟨t, m, hread, hcfg, hblk, hsim, hm, hbit', hmd⟩ := miiRead_ctrl_sim h
    obtain rfl := hm hne
    have hreached : reached p.resetReads (p.ctrlReads + 1) = decide (r ≤ p.ctrlReads + 1) := by rw [hr]; rfl
    have hrt : (countReset t).blk.rt = s.blk.rt + 1 := by
      rw [countReset, State.setBlk_blk, hblk]
    rw [hreached, hbit, Bool.and_true] at hbit'
    rw [← hcfg, hbit'] at hmd
    simp only [resetPoll, hread, Option.bind_some, hmd]
    by_cases hlast : r ≤ p.ctrlReads + 1
    · obtain rfl : r = p.ctrlReads + 1 := by omega
      rw [decide_eq_true hlast]
      exact ⟨countReset t, rfl, hsim.of_eq rfl rfl, hcfg, by rw [hrt, Nat.add_sub_cancel_left]; rfl⟩
    · simp only [hlast, decide_false, Bool.not_false, if_true]
      have hsim' : SimReady (countReset t) { p with ctrlReads := p.ctrlReads + 1 } := hsim.of_eq rfl rfl
      have hbit'' : resetBit (countReset t) = true := hbit'.trans (by simp [hlast])
      obtain ⟨u, hu, hu', hcfgu, hrtu⟩ := ih hsim' hbit'' (by rw [countReset, State.setBlk_cfg, hcfg]; exact hne) hr
        (show p.ctrlReads + 1 < r by omega) (show r ≤ p.ctrlReads + 1 + n by omega)
      refine ⟨u, hu, hu', hcfgu.trans hcfg, ?_⟩
      have hsteps : r - (p.ctrlReads + 1) + 1 = r - p.ctrlReads := by omega
      rw [hrtu, hrt, ofNat_succ]
      exact congrArg (fun m => s.blk.rt + BitVec.ofNat 32 m) hsteps

/-- Reset polling fails when the bound comes before read number `r` (R103, R164). -/
theorem resetPoll_sim_failed {n : Nat} {s : State} {p : PhySim} (h : SimReady s p) (hbit : resetBit s = true)
    (hr : ∀ r, p.resetReads = some r → p.ctrlReads + n < r) : ∃ t, resetPoll n s = some (false, t) := by
  induction n generalizing s p with
  | zero => exact ⟨s, rfl⟩
  | succ n ih =>
    obtain ⟨t, m, hread, hcfg, -, hsim, -, hbit', hmd⟩ := miiRead_ctrl_sim h
    have hreached : reached p.resetReads (p.ctrlReads + 1) = false := by
      cases hp : p.resetReads with
      | none => rfl
      | some r =>
        have := hr r hp
        simp only [reached, decide_eq_false_iff_not]
        omega
    rw [hreached, hbit] at hbit'
    rw [← hcfg, hbit'] at hmd
    simp only [resetPoll, hread, Option.bind_some, hmd, Bool.not_false, Bool.and_self, if_true]
    exact ih (s := countReset t) (p := { p with ctrlReads := p.ctrlReads + 1, statusReads := m }) (hsim.of_eq rfl rfl) hbit' fun r hp => by
      have := hr r hp
      show p.ctrlReads + 1 + n < r
      omega

theorem pollDelay_sim {s : State} {p : PhySim} (h : SimReady s p) :
    SimReady (pollDelay s) p ∧ (pollDelay s).cfg = s.cfg ∧ (pollDelay s).blk = s.blk := by
  obtain ⟨hblk, hcfg, -⟩ := pollDelay_spec s
  refine ⟨?_, hcfg, hblk⟩
  unfold pollDelay
  split
  · rw [State.delay, s.tick_quiet h.quiet]
    exact ⟨h.quiet, h.ready, h.sim⟩
  · exact h

/-- The word of a status read has the link bit of the read. -/
theorem linkOk_statusWord (c : Cfg) (v : Half) (up : Bool) :
    linkOk c (Field.set c.layout.phyLink v (bitOf 16 up)) = up := by
  obtain ⟨-, ⟨hw, hlo⟩, -⟩ := c.phyBits_ok
  rw [linkOk, Field.test_set_self _ _ _ hw hlo]
  cases up <;> rfl

/-- Link polling succeeds at exactly read number `k` (R103, R169). -/
theorem linkPoll_sim_done {n k : Nat} {s : State} {p : PhySim} (h : SimReady s p)
    (hne : s.cfg.layout.phyRegCtrl ≠ s.cfg.layout.phyRegStatus) (hk : p.linkReads = some k) (hlo : p.statusReads < k)
    (hhi : k ≤ p.statusReads + n) :
    ∃ t, linkPoll n s = some (true, t) ∧ t.blk.lt = s.blk.lt + BitVec.ofNat 32 (k - p.statusReads)
      ∧ t.blk.md = Field.set s.cfg.layout.phyLink p.up 1 := by
  induction n generalizing s p with
  | zero => omega
  | succ n ih =>
    obtain ⟨hsim0, hcfg0, hblk0⟩ := pollDelay_sim h
    obtain ⟨t, hread, hcfg, hsim, hblk⟩ := miiRead_status_sim hsim0 (by rw [hcfg0]; exact hne)
    rw [hcfg0] at hread hcfg hblk
    have hreached : reached p.linkReads (p.statusReads + 1) = decide (k ≤ p.statusReads + 1) := by rw [hk]; rfl
    have hok : Field.test t.cfg.layout.phyLink t.blk.md = decide (k ≤ p.statusReads + 1) := by
      rw [hcfg, hblk, ← hreached]
      exact linkOk_statusWord _ _ _
    have hlt : (countLink t).blk.lt = s.blk.lt + 1 := by rw [countLink, State.setBlk_blk, hblk, hblk0]
    simp only [linkPoll, hread, Option.bind_some, hok]
    by_cases hlast : k ≤ p.statusReads + 1
    · obtain rfl : k = p.statusReads + 1 := by omega
      rw [decide_eq_true hlast]
      refine ⟨countLink t, rfl, by rw [hlt, Nat.add_sub_cancel_left]; rfl, ?_⟩
      rw [countLink, State.setBlk_blk, hblk, hreached, decide_eq_true hlast]
      rfl
    · simp only [hlast, decide_false, Bool.false_eq_true, if_false]
      have hcfg1 : (countLink t).cfg = s.cfg := hcfg
      obtain ⟨u, hu, hltu, hmdu⟩ := ih (s := countLink t) (p := { p with statusReads := p.statusReads + 1 })
        (hsim.of_eq rfl rfl) (by rw [hcfg1]; exact hne) hk
        (show p.statusReads + 1 < k by omega) (show k ≤ p.statusReads + 1 + n by omega)
      refine ⟨u, hu, ?_, by rw [hmdu, hcfg1]⟩
      have hsteps : k - (p.statusReads + 1) + 1 = k - p.statusReads := by omega
      rw [hltu, hlt, ofNat_succ]
      exact congrArg (fun m => s.blk.lt + BitVec.ofNat 32 m) hsteps

/-- Link polling fails when the bound comes before read number `k` (R103, R170). -/
theorem linkPoll_sim_failed {n : Nat} {s : State} {p : PhySim} (h : SimReady s p)
    (hne : s.cfg.layout.phyRegCtrl ≠ s.cfg.layout.phyRegStatus)
    (hk : ∀ k, p.linkReads = some k → p.statusReads + n < k) : ∃ t, linkPoll n s = some (false, t) := by
  induction n generalizing s p with
  | zero => exact ⟨s, rfl⟩
  | succ n ih =>
    obtain ⟨hsim0, hcfg0, -⟩ := pollDelay_sim h
    obtain ⟨t, hread, hcfg, hsim, hblk⟩ := miiRead_status_sim hsim0 (by rw [hcfg0]; exact hne)
    rw [hcfg0] at hread hcfg hblk
    have hreached : reached p.linkReads (p.statusReads + 1) = false := by
      cases hp : p.linkReads with
      | none => rfl
      | some k =>
        have := hk k hp
        simp only [reached, decide_eq_false_iff_not]
        omega
    have hok : Field.test t.cfg.layout.phyLink t.blk.md = false := by
      rw [hcfg, hblk, ← hreached]
      exact linkOk_statusWord _ _ _
    simp only [linkPoll, hread, Option.bind_some, hok, Bool.false_eq_true, if_false]
    have hcfg1 : (countLink t).cfg = s.cfg := hcfg
    exact ih (s := countLink t) (p := { p with statusReads := p.statusReads + 1 }) (hsim.of_eq rfl rfl)
      (by rw [hcfg1]; exact hne) fun k hp => by
      have := hk k hp
      show p.statusReads + 1 + n < k
      omega

/-! ## The whole of `BRINGUP` -/

/-- The reset write sets the reset bit and starts the count of reads over (R94, R103, R161). -/
theorem issueReset_sim {s : State} {p : PhySim} (h : SimReady s p) :
    ∃ t, issueReset s = some t ∧ t.cfg = s.cfg ∧ SimReady t { p with ctrlReads := 0 } ∧ resetBit t = true ∧ t.blk.rt = 0 := by
  obtain ⟨⟨hw, hlo⟩, -, hcmd⟩ := s.cfg.phyBits_ok
  have hset : Field.test s.cfg.layout.phyReset s.cfg.layout.phyResetCmd = true := by
    rw [Field.test_eq _ _ hw (by decide), hcmd]
  obtain ⟨t, n, hwrite, hcfg, -, hsim, hphy, hn⟩ :=
    miiWrite_sim h s.cfg.layout.phyRegCtrl s.cfg.layout.phyResetCmd
  obtain rfl := hn rfl hset
  refine ⟨_, Option.map_eq_some_iff.2 ⟨t, hwrite, rfl⟩, hcfg, hsim.of_eq rfl rfl, ?_, rfl⟩
  rw [resetBit, State.setBlk_cfg, State.setBlk_dev, hcfg, hphy, hset]

/-- The configuration writes leave the PHY's behaviour alone but for the count of its reset reads. -/
theorem writeConfig_sim {s : State} {p : PhySim} (h : SimReady s p) :
    ∃ t n, writeConfig s = some t ∧ t.cfg = s.cfg ∧ SimReady t { p with ctrlReads := n } ∧ t.blk.lt = 0 := by
  obtain ⟨a, m, ha, hcfga, -, hsima, -⟩ := miiWrite_sim h s.cfg.phyRegIrq s.cfg.phyIrqValue
  obtain ⟨b, n, hb, hcfgb, -, hsimb, -⟩ := miiWrite_sim hsima a.cfg.layout.phyRegCtrl a.cfg.layout.phyModeValue
  refine ⟨_, n, Option.bind_eq_some_iff.2 ⟨a, ha, Option.map_eq_some_iff.2 ⟨b, hb, rfl⟩⟩, hcfgb.trans hcfga,
    hsimb.of_eq rfl rfl, rfl⟩

/-- With the reset bit clear at read `r`, within the bound: the state after both the reset phase and the configuration
writes. -/
theorem bringup_sim_configured {s : State} {p : PhySim} {r : Nat} (h : SimReady s p)
    (hne : s.cfg.layout.phyRegCtrl ≠ s.cfg.layout.phyRegStatus) (hr : p.resetReads = some r) (hlo : 1 ≤ r)
    (hhi : r ≤ s.cfg.resetRetries) :
    ∃ u v n, writeConfig u = some v ∧ v.cfg = s.cfg ∧ SimReady v { p with ctrlReads := n } ∧ v.blk.lt = 0
      ∧ u.blk.rt = BitVec.ofNat 32 r ∧ bringup s = pollLink v
      ∧ ∃ rs re, ResetPhase s u true rs re := by
  obtain ⟨s1, hissue, hcfg1, hsim1, hbit1, hrt1⟩ := issueReset_sim h
  obtain ⟨u, hpoll, hsimu, hcfgu, hrtu⟩ := resetPoll_sim_done (n := s1.cfg.resetRetries) hsim1 hbit1
    (by rw [hcfg1]; exact hne) hr (show 0 < r by omega) (by rw [hcfg1]; show r ≤ 0 + _; omega)
  obtain ⟨v, n, hconfig, hcfgv, hsimv, hltv⟩ := writeConfig_sim hsimu
  refine ⟨u, v, n, hconfig, hcfgv.trans (hcfgu.trans hcfg1), hsimv, hltv, ?_, ?_, resetPhase_of_run hissue hpoll⟩
  · rw [hrtu, hrt1, zero_add]
    rfl
  · rw [bringup, hissue, Option.bind_some, hpoll, Option.bind_some, if_pos rfl, hconfig, Option.bind_some]

/-- Settles O31: the polling loops end at reads `r` and `k`, and the registers are those of the phases. -/
theorem bringupSucceedsInSimEnv : Obligations.BringupSucceedsInSimEnv := by
  intro s p r k he hpc hq hready hsim hr hk hstatus hrlo hrhi hklo hkhi hne
  obtain ⟨u, v, n, hconfig, hcfgv, hsimv, hltv, hrtu, hbringup, rs, re, reset⟩ :=
    bringup_sim_configured ⟨hq, hready, hsim⟩ hne hr hrlo hrhi
  obtain ⟨t, hpoll, hltt, hmdt⟩ := linkPoll_sim_done (n := v.cfg.linkRetries) hsimv (by rw [hcfgv]; exact hne) hk
    (by show p.statusReads < k; omega) (by rw [hcfgv]; show k ≤ p.statusReads + _; omega)
  obtain ⟨ls, le, link⟩ := linkPhase_of_run hconfig hpoll
  obtain ⟨-, -, -, ⟨-, hrsmall⟩, -, hksmall⟩ := s.cfg.ranges
  have hdone : bringup s = some (linkIsUp t) := by rw [hbringup, pollLink, hpoll]; rfl
  refine ⟨linkIsUp t, exec_bringup_of_some he hpc hdone, ?_⟩
  rw [linkIsUp_blk, linkIsUp_trace]
  refine ⟨rfl, by rw [blk_of_phases reset link, he], ?_, ?_, by rw [hmdt, hcfgv], rfl, _, rfl⟩
  · show t.blk.rt.toNat = r
    rw [link.rt, hrtu, ofNat32_toNat hrhi hrsmall]
  · show t.blk.lt.toNat = k
    rw [hltt, hltv, zero_add]
    show (BitVec.ofNat 32 (k - p.statusReads)).toNat = k
    rw [hstatus, Nat.sub_zero, ofNat32_toNat hkhi hksmall]

/-- Against a PHY that does not leave reset within the bound `BRINGUP` ends with that error. -/
theorem bringup_sim_resetFailed {s : State} {p : PhySim} (h : SimReady s p)
    (hr : ∀ r, p.resetReads = some r → s.cfg.resetRetries < r) :
    ∃ u rs re, bringup s = some (u.raiseFatal .phyResetFailed) ∧ ResetPhase s u false rs re := by
  obtain ⟨s1, hissue, hcfg1, hsim1, hbit1, hrt1⟩ := issueReset_sim h
  obtain ⟨u, hpoll⟩ := resetPoll_sim_failed (n := s1.cfg.resetRetries) hsim1 hbit1 fun r hp => by
    rw [hcfg1]
    show 0 + s.cfg.resetRetries < r
    rw [Nat.zero_add]
    exact hr r hp
  obtain ⟨rs, re, reset⟩ := resetPhase_of_run hissue hpoll
  refine ⟨u, rs, re, ?_, reset⟩
  rw [bringup, hissue, Option.bind_some, hpoll]
  rfl

/-- Against a PHY whose link does not come up within the bound `BRINGUP` ends with that error. -/
theorem bringup_sim_linkFailed {s : State} {p : PhySim} {r : Nat} (h : SimReady s p)
    (hne : s.cfg.layout.phyRegCtrl ≠ s.cfg.layout.phyRegStatus) (hr : p.resetReads = some r) (hlo : 1 ≤ r)
    (hhi : r ≤ s.cfg.resetRetries) (hstatus : p.statusReads = 0)
    (hk : ∀ k, p.linkReads = some k → s.cfg.linkRetries < k) :
    ∃ u v rs ls re le, bringup s = some (v.raiseFatal .phyLinkFailed) ∧ ResetPhase s u true rs re
      ∧ LinkPhase u v false ls le ∧ u.blk.rt = BitVec.ofNat 32 r := by
  obtain ⟨u, v, n, hconfig, hcfgv, hsimv, -, hrtu, hbringup, rs, re, reset⟩ := bringup_sim_configured h hne hr hlo hhi
  obtain ⟨t, hpoll⟩ := linkPoll_sim_failed (n := v.cfg.linkRetries) hsimv (by rw [hcfgv]; exact hne) fun k hp => by
    rw [hcfgv]
    show p.statusReads + s.cfg.linkRetries < k
    rw [hstatus, Nat.zero_add]
    exact hk k hp
  obtain ⟨ls, le, link⟩ := linkPhase_of_run hconfig hpoll
  exact ⟨u, t, rs, ls, re, le, by rw [hbringup, pollLink, hpoll]; rfl, reset, link, hrtu⟩

/-- Settles O32: a polling loop that fails has made all its attempts. -/
theorem bringupTimesOutInSimEnv : Obligations.BringupTimesOutInSimEnv := by
  intro s p he hpc hq hready hsim
  refine ⟨fun hr => ?_, fun r hr hlo hhi hstatus hk hne => ?_⟩
  · obtain ⟨u, rs, re, hfail, reset⟩ := bringup_sim_resetFailed ⟨hq, hready, hsim⟩ hr
    refine ⟨_, u.trace, exec_bringup_of_some he hpc hfail, ?_⟩
    rw [State.raiseFatal_blk, State.raiseFatal_trace, resultWord_phyResetFailed]
    exact ⟨rfl, rfl, reset.rt.trans (reset.failed rfl).1, by rw [reset.blk], rfl⟩
  · obtain ⟨u, v, rs, ls, re, le, hfail, reset, link, hrt⟩ :=
      bringup_sim_linkFailed ⟨hq, hready, hsim⟩ hne hr hlo hhi hstatus hk
    obtain ⟨-, -, -, ⟨-, hsmall⟩, -⟩ := s.cfg.ranges
    refine ⟨_, v.trace, exec_bringup_of_some he hpc hfail, ?_⟩
    rw [State.raiseFatal_blk, State.raiseFatal_trace, resultWord_phyLinkFailed]
    refine ⟨rfl, rfl, ?_, link.lt.trans (reset.cfg ▸ (link.failed rfl).1), rfl⟩
    show v.blk.rt.toNat = r
    rw [link.rt, hrt, ofNat32_toNat hhi hsmall]

end Sys2Proof.Machine
end

section
/-! SUPPORT. Operations of a few bus events: `IRQ_MASK_SET`, `MAC_ENABLE`, and the accepted cases of `TRANSMIT` and
`RECEIVE`, which are one read of a descriptor word, a frame copy and one write of it (rules R213, R222, R243, R246). -/

namespace Sys2Proof.Machine

/-! ## `INT_SOURCE` and the interrupt line -/

/-- Settles O46: what the write leaves is the old word without the bits written 1. -/
theorem intSourceIsWriteOneToClear : Obligations.IntSourceIsWriteOneToClear := by
  intro s v k hk
  rw [State.mmioWrite_dev, Device.put_intSource, BitVec.getLsbD_and, BitVec.getLsbD_not]
  simp [hk]

/-- A word meets one of two masks exactly when it meets their union. -/
theorem and_or_ne_zero (v m n : Word) : v &&& (m ||| n) ≠ 0 ↔ v &&& m ≠ 0 ∨ v &&& n ≠ 0 := by
  rw [BitVec.and_or_distrib_left]
  exact BitVec.or_eq_zero_iff.not.trans not_and_or

/-! ## `IRQ_MASK_SET` -/

/-- Until the block runs, `IRQ_MASK_SET` runs. -/
theorem exec_irqMaskSet {s : State} (he : s.blk.err = none) (hrun : s.blk.flg.run = false) :
    exec .irqMaskSet s = .next (irqMaskSet s) := by
  have hg : stateGate .irqMaskSet s.blk = true := by simp [stateGate, gateBeforeRun, hrun]
  rw [exec_runs he hg, execBody]

theorem irqMaskValue_eq (c : Cfg) : irqMaskValue c
    = if c.irqPolicy = .txrx then c.layout.rxPendingMask ||| c.layout.txPendingMask else c.layout.rxPendingMask := by
  unfold irqMaskValue
  cases c.irqPolicy <;> rfl

/-- With no agent acting, the mask register is all that changes outside the block. -/
theorem irqMaskSet_quiet {s : State} (hq : Quiet s) : (irqMaskSet s).dev = { s.dev with intMask := irqMaskValue s.cfg }
    ∧ (irqMaskSet s).mem = s.mem ∧ (irqMaskSet s).env = s.env := by
  rw [irqMaskSet, State.mmioWrite_quiet _ _ _ hq]
  exact ⟨rfl, rfl, rfl⟩

/-- Settles O20: one write of the mask register, and which bits of the source the mask lets through. -/
theorem irqMaskSetResult : Obligations.IrqMaskSetResult := by
  intro s he hrun L m
  have hm : irqMaskValue s.cfg = m := irqMaskValue_eq s.cfg
  have hregs : SameDriverRegs L { s.dev with intMask := m } (irqMaskSet s).dev := by
    rw [← hm]
    exact (SameDriverRegs.refl s.cfg.layout s.dev).mmioWrite_reg rfl .intMask (irqMaskValue s.cfg)
  refine ⟨irqMaskSet s, exec_irqMaskSet he hrun, ?_, ?_, ?_, hregs, fun hoff => ?_, hm ▸ irqMaskSet_quiet, fun v => ?_⟩
  · simp [irqMaskSet]
  · simp [irqMaskSet, resultWord_ok]
  · simp [observed, irqMaskSet, hm]
  · exact (hoff.mmioWrite_reg (r := .intMask) (by decide) _).2
  · have hline : irqLine { (irqMaskSet s).dev with intSource := v } = decide (v &&& m ≠ 0) := by
      rw [irqLine, hregs.intMask]
    rw [hline, decide_eq_true_eq]
    by_cases hp : s.cfg.irqPolicy = .txrx
    · rw [show m = L.rxPendingMask ||| L.txPendingMask from if_pos hp, and_or_ne_zero]
      simp [hp, L]
    · rw [show m = L.rxPendingMask from if_neg hp]
      simp [hp, L]

/-! ## `MAC_ENABLE` -/

/-- With its gate open, `MAC_ENABLE` runs. -/
theorem exec_macEnable {s : State} (he : s.blk.err = none) (hg : gateEnable s.blk = true) :
    exec .macEnable s = .next (macEnable s) := by
  rw [exec_runs he (by exact hg), execBody]

/-- The word written has both enables set and every other bit as read (R246). -/
theorem enabledModer_getLsbD (c : Cfg) (v : Word) {k : Nat} (hk : k < 32) :
    (enabledModer c.layout v).getLsbD k
      = (v.getLsbD k || decide (k = c.layout.txen.lo) || decide (k = c.layout.rxen.lo)) := by
  obtain ⟨htw, -⟩ := c.txen_ok
  obtain ⟨hrw, -⟩ := c.rxen_ok
  have hin : ∀ lo : Nat, (lo ≤ k ∧ k < lo + 1) ↔ k = lo := fun lo => by omega
  rw [enabledModer, Field.set_getLsbD _ _ _ _ hk, Field.set_getLsbD _ _ _ _ hk, htw, hrw]
  simp only [hin]
  by_cases hr : k = c.layout.rxen.lo
  · simp [hr]
  · rw [if_neg hr]
    by_cases ht : k = c.layout.txen.lo
    · simp [ht]
    · simp [hr, ht]

/-- Both enables of that word read 1. -/
theorem enabledModer_on (c : Cfg) (v : Word) : Field.test c.layout.txen (enabledModer c.layout v) = true
    ∧ Field.test c.layout.rxen (enabledModer c.layout v) = true := by
  obtain ⟨htw, htl⟩ := c.txen_ok
  obtain ⟨hrw, hrl⟩ := c.rxen_ok
  rw [Field.test_eq _ _ htw (by decide), Field.test_eq _ _ hrw (by decide), enabledModer_getLsbD c v (by omega),
    enabledModer_getLsbD c v (by omega)]
  simp

section MacEnable
variable (s : State)

/-- The word that `MAC_ENABLE` writes. -/
def moderWritten : Word := enabledModer s.cfg.layout s.tick.dev.moder

/-- The two bus events of `MAC_ENABLE`, and what it does to the block. -/
theorem macEnable_eq : macEnable s
    = (setRun ((s.mmioRead (.reg .moder)).mmioWrite (.reg .moder) (moderWritten s))).finish .ok 0 := rfl

@[simp] theorem macEnable_cfg : (macEnable s).cfg = s.cfg := by simp [macEnable_eq, setRun]

theorem macEnable_blk : (macEnable s).blk
    = { s.blk with flg := { s.blk.flg with run := true }, result := okWord 0 } := by
  simp [macEnable_eq, setRun, resultWord_ok]

theorem macEnable_dev : (macEnable s).dev
    = (s.mmioRead (.reg .moder)).tick.dev.put s.cfg (.reg .moder) (moderWritten s) := by
  simp [macEnable_eq, setRun]

theorem macEnable_moder : (macEnable s).dev.moder = moderWritten s := by
  rw [macEnable_dev]
  rfl

/-- Both directions of the MAC are enabled. -/
theorem macEnable_on : macTxOn s.cfg.layout (macEnable s).dev = true ∧ macRxOn s.cfg.layout (macEnable s).dev = true := by
  rw [macTxOn, macRxOn, macEnable_moder]
  exact enabledModer_on s.cfg _

variable {s}

/-- From a state with the MAC off the rings and memory stay, and both engines start at slot 0 (R96, R99). -/
theorem macEnable_macOff (hoff : MacOff s) : SameRings { s.dev with txPos := 0, rxPos := 0 } (macEnable s).dev
    ∧ (macEnable s).mem = s.mem := by
  obtain ⟨hrings, hmem⟩ := s.readTick_macOff (.reg .moder) hoff
  have hregs := s.readTick_sameDriverRegs (.reg .moder)
  have hoff' : MacOff (s.mmioRead (.reg .moder)) := by
    rw [MacOff, State.mmioRead_cfg, State.mmioRead_dev, hregs.txOn, hregs.rxOn]
    exact hoff
  obtain ⟨hrings', hmem'⟩ := State.tick_macOff _ hoff'
  have hregs' := (s.mmioRead (.reg .moder)).tick_sameDriverRegs
  rw [State.mmioRead_cfg] at hregs'
  obtain ⟨htc, htp, hrc, hrp, -, -⟩ := hrings.trans hrings'
  obtain ⟨htx, hrx⟩ := hoff
  obtain ⟨htest, hrest⟩ := enabledModer_on s.cfg s.tick.dev.moder
  refine ⟨?_, hmem'.trans hmem⟩
  rw [macEnable_dev]
  refine ⟨htc, htp, hrc, hrp, ?_, ?_⟩
  · refine if_pos ?_
    rw [hregs'.txOn, State.mmioRead_dev, hregs.txOn, htx, moderWritten, htest]
    rfl
  · refine if_pos ?_
    rw [hregs'.rxOn, State.mmioRead_dev, hregs.rxOn, hrx, moderWritten, hrest]
    rfl

/-- With no agent acting, `MODER` and the engines' positions are all that changes outside the block. -/
theorem macEnable_quiet (hq : Quiet s) : (macEnable s).mem = s.mem ∧ (macEnable s).env = s.env
    ∧ (macEnable s).dev = { s.dev with
        moder := moderWritten s, txPos := (macEnable s).dev.txPos, rxPos := (macEnable s).dev.rxPos } := by
  obtain ⟨hread, -⟩ := s.mmioRead_quiet (.reg .moder) hq rfl
  have hq' : Quiet (s.mmioRead (.reg .moder)) := by rw [hread]; exact hq
  rw [macEnable_eq, State.mmioWrite_quiet _ _ _ hq', hread]
  exact ⟨rfl, rfl, rfl⟩

end MacEnable

/-- Settles O21: the word written has both enables, and setting an enable starts that engine. -/
theorem macEnableResult : Obligations.MacEnableResult := by
  intro s he hpc hflg L v
  have hg : gateEnable s.blk = true := by simp [gateEnable, hpc, hflg]
  obtain ⟨htx, hrx⟩ := macEnable_on s
  refine ⟨macEnable s, moderWritten s, exec_macEnable he hg, macEnable_cfg s, fun k hk => enabledModer_getLsbD s.cfg _ hk,
    ?_, ?_, macEnable_moder s, htx, hrx, macEnable_macOff, fun hq => ?_⟩
  · rw [macEnable_blk, hflg]
  · simp only [observed, macEnable_eq, setRun, State.finish_trace, State.finish_blk, State.setBlk_trace,
      State.mmioWrite_trace, State.mmioRead_trace, State.mmioRead_cfg]
    rfl
  · obtain ⟨hmem, henv, hdev⟩ := macEnable_quiet hq
    exact ⟨by rw [show v = s.tick.dev.moder from rfl, s.tick_quiet hq], hmem, henv, hdev⟩

/-! ## A frame copy between a read and a write of a descriptor word -/

/-- Word 0 of a slot is read, `n` bytes are copied, and word 0 is written: the bus events of `TRANSMIT` and of the receive
procedure (R213, R222). -/
def slotCopy (r : Ring) (i : Nat) (src dst : Addr) (n : Nat) (v : Word) (s : State) : State :=
  ((s.mmioRead (.desc r .control i)).copyBytes src dst n).mmioWrite (.desc r .control i) v

section SlotCopy
variable (r : Ring) (i : Nat) (src dst : Addr) (n : Nat) (v : Word) (s : State)

@[simp] theorem slotCopy_cfg : (slotCopy r i src dst n v s).cfg = s.cfg := by simp [slotCopy]

theorem slotCopy_trace : ∃ bytes : List Byte, bytes.length = n ∧ (slotCopy r i src dst n v s).trace
    = (writeEvent s.cfg (.desc r .control i) v
        :: (copyEvents src dst 0 bytes ++ [readEvent s.cfg (.desc r .control i) (s.tick.dev.desc r .control i)])) ++ s.trace := by
  obtain ⟨bytes, hlen, htrace⟩ := (s.mmioRead (.desc r .control i)).copyBytes_trace src dst n
  refine ⟨bytes, hlen, ?_⟩
  rw [slotCopy, State.mmioWrite_trace, htrace, State.mmioRead_trace, State.copyBytes_cfg, State.mmioRead_cfg]
  simp [State.mmioVal, Device.get]

theorem slotCopy_sameDriverRegs : SameDriverRegs s.cfg.layout s.dev (slotCopy r i src dst n v s).dev := by
  have hread := s.readTick_sameDriverRegs (.desc r .control i)
  have hcopy := (s.mmioRead (.desc r .control i)).copyBytes_sameDriverRegs src dst n
  have htick := ((s.mmioRead (.desc r .control i)).copyBytes src dst n).tick_sameDriverRegs
  rw [State.mmioRead_cfg] at hcopy
  rw [State.copyBytes_cfg, State.mmioRead_cfg] at htick
  refine (hread.trans (hcopy.trans htick)).trans ?_
  rw [slotCopy, State.mmioWrite_dev]
  constructor <;> simp

variable {s}

theorem slotCopy_quiet (hq : Quiet s) : (slotCopy r i src dst n v s).env = s.env
    ∧ (slotCopy r i src dst n v s).mem = copiedMem src dst n s.mem
    ∧ (slotCopy r i src dst n v s).dev = s.dev.setDesc r .control i v := by
  obtain ⟨hread, -⟩ := s.mmioRead_quiet (.desc r .control i) hq rfl
  have hq1 : Quiet (s.mmioRead (.desc r .control i)) := by rw [hread]; exact hq
  obtain ⟨hmem, hdev, henv⟩ := (s.mmioRead (.desc r .control i)).copyBytes_quiet src dst n hq1
  have hq2 : Quiet ((s.mmioRead (.desc r .control i)).copyBytes src dst n) := by rw [Quiet, henv]; exact hq1
  rw [slotCopy, State.mmioWrite_quiet _ _ _ hq2]
  simp only [State.log_env, State.log_mem, State.log_dev, State.setDev_env, State.setDev_mem, State.setDev_dev, hmem, hdev, henv]
  simp [hread]

/-- With no agent acting: memory outside the bytes copied, and the descriptor words. -/
theorem slotCopy_frame (hq : Quiet s) :
    (∀ a, (∀ k, k < n → a ≠ byteAt dst k) → Memory.read (slotCopy r i src dst n v s).mem a = Memory.read s.mem a)
      ∧ ∀ r' x j, (slotCopy r i src dst n v s).dev.desc r' x j
        = if r' = r ∧ x = .control ∧ j = i then v else s.dev.desc r' x j := by
  obtain ⟨-, hmem, hdev⟩ := slotCopy_quiet r i src dst n v hq
  refine ⟨fun a ha => ?_, fun r' x j => ?_⟩
  · rw [hmem, copiedMem_outside src dst n s.mem a ha]
  · rw [hdev, Device.desc_setDesc]

end SlotCopy

/-! ## `TRANSMIT` and `RECEIVE` -/

/-- The accepted case of `TRANSMIT` (R213). -/
theorem transmit_accepted {s : State} {len : Nat} {src : Addr}
    (h : Field.test s.cfg.layout.own (s.mmioVal (txSlot s)) = false) :
    transmit len src s = ((slotCopy .tx s.blk.txc.toNat src (bufLocal s.cfg .tx s.blk.txc.toNat) len
      (txControlValue s.cfg (s.mmioVal (txSlot s)) len) s).setBlk
        { s.blk with txc := ringNext s.blk.txc s.cfg.nTx }).finish .ok (s.blk.txc.zeroExtend 48) := by
  have hframe : transmit len src s = transmitFrame (s.mmioVal (txSlot s)) len src (s.mmioRead (txSlot s)) := by
    simp [transmit, h]
  simp only [hframe, transmitFrame, slotCopy, txSlot, State.mmioRead_cfg, State.mmioRead_blk, State.mmioWrite_cfg, State.mmioWrite_blk, State.copyBytes_cfg, State.copyBytes_blk]

/-- Settles O36: the accepted case is a slot copy out of `src`, with the cursor moved. -/
theorem transmitAccepted : Obligations.TransmitAccepted := by
  intro s len src he hrun hlo hhi L slot w hown buf w2
  obtain ⟨bytes, hlen, htrace⟩ := slotCopy_trace .tx slot (addrOf src) buf len w2 s
  have hexec : exec (.transmit len src) s = .next (((slotCopy .tx slot (addrOf src) buf len w2 s).setBlk
      { s.blk with txc := ringNext s.blk.txc s.cfg.nTx }).finish .ok (s.blk.txc.zeroExtend 48)) := by
    rw [exec_transmit_good he hrun ⟨hlo, hhi⟩, transmit_accepted hown]
    rfl
  refine ⟨_, bytes, hexec, ?_, hlen, ?_, ?_, ?_, fun hq => ?_⟩
  · rw [State.finish_cfg, State.setBlk_cfg, slotCopy_cfg]
  · rw [State.finish_blk, resultWord_ok]
    rfl
  · rw [observed, State.finish_trace, State.setBlk_trace, htrace]
    rfl
  · exact slotCopy_sameDriverRegs .tx slot (addrOf src) buf len w2 s
  · obtain ⟨henv, hmem, hdev⟩ := slotCopy_quiet .tx slot (addrOf src) buf len w2 hq
    obtain ⟨hout, hdesc⟩ := slotCopy_frame .tx slot (addrOf src) buf len w2 hq
    refine ⟨henv, hmem, hout, hdesc, ?_⟩
    rw [State.finish_dev, State.setBlk_dev, hdev]
    rfl

/-- The receive procedure (R222). -/
theorem rxReceive_eq (dst : Addr) (cap : Nat) (s : State) : rxReceive dst cap s
    = (slotCopy .rx s.blk.rxc.toNat (bufLocal s.cfg .rx s.blk.rxc.toNat) dst (receiveCount s cap)
        (Field.set s.cfg.layout.own (s.mmioVal (rxSlot s)) 1) s).setBlk { s.blk with rxc := ringNext s.blk.rxc s.cfg.nRx } := by
  simp only [rxReceive, slotCopy, rxSlot, State.mmioWrite_cfg, State.mmioWrite_blk, State.copyBytes_cfg,
    State.copyBytes_blk, State.mmioRead_cfg, State.mmioRead_blk]

/-- While the block runs, `RECEIVE` runs. -/
theorem exec_receive {s : State} (he : s.blk.err = none) (hrun : s.blk.flg.run = true) (maxLen dst : Nat) :
    exec (.receive maxLen dst) s
      = .next ((rxReceive (addrOf dst) maxLen s).finish .ok (BitVec.ofNat 48 (receiveCount s maxLen))) := by
  rw [exec_runs he (by exact hrun), execBody]

/-- Settles O43: the receive procedure is a slot copy to `dst`, with the cursor moved. -/
theorem receiveResult : Obligations.ReceiveResult := by
  intro s maxLen dst he hrun _ L slot w _ n buf w2
  obtain ⟨bytes, hlen, htrace⟩ := slotCopy_trace .rx slot buf (addrOf dst) n w2 s
  have hexec : exec (.receive maxLen dst) s = .next (((slotCopy .rx slot buf (addrOf dst) n w2 s).setBlk
      { s.blk with rxc := ringNext s.blk.rxc s.cfg.nRx }).finish .ok (BitVec.ofNat 48 n)) := by
    rw [exec_receive he hrun, rxReceive_eq]
    rfl
  refine ⟨_, bytes, hexec, ?_, hlen, ?_, ?_, ?_, fun hq => ?_⟩
  · rw [State.finish_cfg, State.setBlk_cfg, slotCopy_cfg]
  · rw [State.finish_blk, resultWord_ok]
    rfl
  · rw [observed, State.finish_trace, State.setBlk_trace, htrace]
    rfl
  · exact slotCopy_sameDriverRegs .rx slot buf (addrOf dst) n w2 s
  · obtain ⟨henv, hmem, hdev⟩ := slotCopy_quiet .rx slot buf (addrOf dst) n w2 hq
    obtain ⟨hout, hdesc⟩ := slotCopy_frame .rx slot buf (addrOf dst) n w2 hq
    refine ⟨henv, hmem, hout, hdesc, ?_⟩
    rw [State.finish_dev, State.setBlk_dev, hdev]
    rfl

/-! ## The start state -/

/-- The MAC is off at the start: both enables are among the bits that reset clears (R305). -/
theorem macOff_reset : MacOff State.reset := by
  have hbit : ∀ f : Field, f.width = 1 → f.lo < 2 → Field.test f State.reset.dev.moder = false := fun f hw hlo => by
    rw [Field.test_eq _ _ hw (by decide)]
    show (Config.resetReg .moder &&& 0xFFFFFFFC#32).getLsbD f.lo = false
    rw [BitVec.getLsbD_and]
    have : f.lo = 0 ∨ f.lo = 1 := by omega
    rcases this with h | h <;> simp [h]
  exact ⟨hbit _ (by decide) (by decide), hbit _ (by decide) (by decide)⟩

/-- Settles O56: the registers are those of R62, the rings are not yet set up, and the MAC is off. -/
theorem safeAtReset : Obligations.SafeAtReset where
  block :=
    { txc_lt := by decide
      rxc_lt := by decide
      cursors_zero := fun _ => ⟨rfl, rfl⟩
      rt_le := by decide
      lt_le := by decide
      at_rest := .inl rfl
      failed_iff := by decide
      run_constructed := fun h => by cases h
      result_reserved := by decide }
  rings :=
    { single_wrap := fun h => by cases h
      pointers := fun h => by cases h }
  mac :=
    { enabled_iff := fun on h => by
        cases h
        exact macOff_reset
      owned_tx := fun h => by cases h
      owned_rx := fun h => by cases h }

end Sys2Proof.Machine
end

section
/-! SUPPORT. What the runs of primitives say of every operation: where its register accesses go, and what it leaves of the
outside world (rules R64, R73, R110, R247). -/

namespace Sys2Proof.Machine

/-! ## The locations of the register block -/

/-- A named register, or a word of one of the two rings' descriptors. -/
def LocIn (c : Cfg) : Loc → Prop
  | .reg _ => True
  | .desc r _ k => k < ringDepth c r

/-- An operation with its cursors in range reads and writes inside the register block. -/
theorem locIn_of_allowed {s : State} (hcur : CursorsIn s) {i : Instr} {l : Loc}
    (h : (allowedFor s i).read l ∨ (allowedFor s i).write l) : LocIn s.cfg l := by
  have hslot : ∀ {r : Ring} {w : DescWord}, SlotWord s r w l → LocIn s.cfg l := by
    rintro r w ⟨k, hk, rfl⟩
    exact hk hcur
  have hreg : ∀ {r : Reg}, l = .reg r → LocIn s.cfg l := by
    rintro r rfl
    trivial
  cases i with
  | ringInit =>
    obtain h | ⟨r, w, h⟩ := h
    · exact h.elim
    · exact hslot h
  | setupTxSlot | setupRxSlot =>
    obtain h | ⟨w, h⟩ := h
    · exact h.elim
    · exact hslot h
  | macAddrWrite =>
    obtain h | h | h := h
    · exact h.elim
    · exact hreg h
    · exact hreg h
  | irqMaskSet =>
    obtain h | h := h
    · exact h.elim
    · exact hreg h
  | bringup =>
    obtain (h | h) | h | h | h := h
    all_goals exact hreg h
  | macEnable =>
    obtain h | h := h
    all_goals exact hreg h
  | transmit | receive =>
    obtain h | h := h
    all_goals exact hslot h
  | receiveReady | receiveLength =>
    obtain h | h := h
    · exact hslot h
    · exact h.elim
  | macAddress => exact (or_self_iff.1 h).elim
  | dispatch =>
    obtain (h | h) | h | h := h
    · exact hreg h
    · exact hslot h
    · exact hreg h
    · exact hslot h

/-- Where a ring's descriptors begin. -/
def descBase (L : Layout) : Ring → Nat
  | .tx => L.txDescBase
  | .rx => L.rxDescBase

/-- The offset of each word in its slot. -/
def wordOffset : DescWord → Nat
  | .control => 0
  | .pointer => 4

theorem descOffset_eq (L : Layout) (r : Ring) (w : DescWord) (k : Nat) :
    descOffset L r w k = descBase L r + L.descStride * k + wordOffset w := by
  cases r <;> cases w <;> rfl

theorem mem_regOffsets (L : Layout) {r : Reg} : locOffset L (.reg r) ∈ L.regOffsets := by
  cases r <;> simp [locOffset, Layout.regOffsets]

/-- A descriptor word of a slot in range lies inside its ring's area. -/
theorem descOffset_range (c : Cfg) {r : Ring} {w : DescWord} {k : Nat} (hk : k < ringDepth c r) :
    descBase c.layout r ≤ descOffset c.layout r w k
      ∧ descOffset c.layout r w k + 4 ≤ descBase c.layout r + c.layout.descStride * ringDepth c r := by
  obtain ⟨-, -, -, hdisjoint, -⟩ := c.wf_parts
  have hstride : 8 ≤ c.layout.descStride := by
    simp only [Layout.disjoint, Bool.and_eq_true, decide_eq_true_eq] at hdisjoint
    exact hdisjoint.1.1.1.1
  have hslot : c.layout.descStride * k + c.layout.descStride ≤ c.layout.descStride * ringDepth c r := by
    rw [← Nat.mul_succ]
    exact Nat.mul_le_mul_left _ hk
  have hword : wordOffset w ≤ 4 := by cases w <;> decide
  rw [descOffset_eq]
  omega

/-- A register lies outside both descriptor areas (R9). -/
theorem reg_outside (c : Cfg) (r : Reg) (ring : Ring) : locOffset c.layout (.reg r) + 4 ≤ descBase c.layout ring
    ∨ descBase c.layout ring + c.layout.descStride * ringDepth c ring ≤ locOffset c.layout (.reg r) := by
  obtain ⟨-, -, -, hdisjoint, -⟩ := c.wf_parts
  simp only [Layout.disjoint, Bool.and_eq_true, List.all_eq_true] at hdisjoint
  obtain ⟨⟨⟨-, htx⟩, hrx⟩, -⟩ := hdisjoint
  have hall : Layout.outside (descBase c.layout ring) (c.layout.descStride * ringDepth c ring)
      (locOffset c.layout (.reg r)) = true := by
    cases ring with
    | tx => exact htx _ (mem_regOffsets _)
    | rx => exact hrx _ (mem_regOffsets _)
  simpa only [Layout.outside, Bool.or_eq_true, decide_eq_true_eq] using hall

/-- A register's offset names that register alone. -/
theorem loc_eq_of_offset {c : Cfg} {l : Loc} (hl : LocIn c l) {r : Reg}
    (h : locOffset c.layout l = locOffset c.layout (.reg r)) : l = .reg r := by
  cases l with
  | reg r' =>
    by_contra hne
    exact reg_offset_ne c (fun e => hne (congrArg Loc.reg e)) h
  | desc ring w k =>
    obtain ⟨hlo, hhi⟩ := descOffset_range c (w := w) hl
    have hout := reg_outside c r ring
    rw [← h] at hout
    change descOffset c.layout ring w k + 4 ≤ _ ∨ _ ≤ descOffset c.layout ring w k at hout
    omega

/-! ## Alignment -/

/-- Every location of the block is a whole aligned word of it (R9, R73). -/
theorem locOffset_aligned {c : Cfg} {l : Loc} (hl : LocIn c l) :
    locOffset c.layout l % 4 = 0 ∧ locOffset c.layout l + 4 ≤ c.mmioSize := by
  obtain ⟨-, -, haligned, -, hbelow, -⟩ := c.wf_parts
  simp only [Layout.aligned, Layout.below, Bool.and_eq_true, List.all_eq_true, beq_iff_eq, decide_eq_true_eq]
    at haligned hbelow
  obtain ⟨⟨⟨hregs, htx⟩, hrx⟩, hstride⟩ := haligned
  obtain ⟨⟨hregs', htx'⟩, hrx'⟩ := hbelow
  cases l with
  | reg r => exact ⟨hregs _ (mem_regOffsets _), hregs' _ (mem_regOffsets _)⟩
  | desc ring w k =>
    obtain ⟨-, hhi⟩ := descOffset_range c (w := w) hl
    have hbase : descBase c.layout ring % 4 = 0
        ∧ descBase c.layout ring + c.layout.descStride * ringDepth c ring ≤ c.mmioSize := by
      cases ring with
      | tx => exact ⟨htx, htx'⟩
      | rx => exact ⟨hrx, hrx'⟩
    have hword : wordOffset w % 4 = 0 := by cases w <;> decide
    refine ⟨?_, hhi.trans hbase.2⟩
    show descOffset c.layout ring w k % 4 = 0
    rw [descOffset_eq, Nat.add_mod, Nat.add_mod (descBase _ _), Nat.mul_mod, hbase.1, hstride, hword]
    simp

/-- The address of an aligned offset is aligned: the block's base is (R7, R73). -/
theorem mmioAddr_aligned (c : Cfg) {off : Nat} (h : off % 4 = 0) : (mmioAddr c off).toNat % 4 = 0 := by
  obtain ⟨-, hbases, -⟩ := c.wf_parts
  simp only [CfgData.basesOk, Bool.and_eq_true, beq_iff_eq] at hbases
  obtain ⟨⟨⟨hbase, -⟩, -⟩, -⟩ := hbases
  rw [mmioAddr, BitVec.toNat_add, BitVec.toNat_ofNat]
  omega

theorem accessAligned_of_locIn {c : Cfg} {l : Loc} (hl : LocIn c l) (v : Word) :
    accessAligned c (readEvent c l v) ∧ accessAligned c (writeEvent c l v) := by
  obtain ⟨haligned, hbelow⟩ := locOffset_aligned hl
  exact ⟨⟨mmioAddr_aligned c haligned, hbelow⟩, mmioAddr_aligned c haligned, hbelow⟩

/-- What a run seen from `u` for the operation `i` adds to the trace is aligned, when the cursors of `s` are in range. -/
theorem aligned_of_runs {s u t : State} {i : Instr} (hcur : CursorsIn s) (hcfg : u.cfg = s.cfg)
    (h : Runs (allowedFor s i) u t) : ∃ evs, t.trace = evs ++ u.trace ∧ ∀ e ∈ evs, accessAligned s.cfg e := by
  obtain ⟨evs, htrace, hevs⟩ := h.trace
  rw [hcfg] at hevs
  refine ⟨evs, htrace, fun e he => ?_⟩
  obtain ⟨l, v, hl, rfl⟩ | ⟨l, v, hl, rfl⟩ | ⟨-, ⟨a, b, rfl | rfl⟩ | ⟨n, a, c, rfl⟩⟩ | hevent := hevs e he
  · exact (accessAligned_of_locIn (locIn_of_allowed hcur (.inl hl)) v).1
  · exact (accessAligned_of_locIn (locIn_of_allowed hcur (.inr hl)) v).2
  · trivial
  · trivial
  · trivial
  · cases e with
    | mmioRead | mmioWrite => exact hevent.elim
    | _ => trivial

theorem BlockSafe.cursorsIn {s : State} (h : BlockSafe s.cfg s.blk) : CursorsIn s := ⟨h.txc_lt, h.rxc_lt⟩

/-- What a continued pass does is a run of `DISPATCH`, from a state with the same registers. -/
theorem continuePass_runs (v : Word) (s : State) : ∃ u : State, u.cfg = s.cfg ∧ u.trace = s.trace
    ∧ u.env.host = s.env.host ∧ u.env.miiCompletes = s.env.miiCompletes ∧ u.env.rxEndless = s.env.rxEndless
    ∧ u.dev = s.dev ∧ u.mem = s.mem ∧ Runs (allowedFor s .dispatch) u (continuePass v s) := by
  obtain ⟨u, rfl | ⟨-, rfl⟩, hrun⟩ := runs_continuePass v s
  · exact ⟨u, rfl, rfl, rfl, rfl, rfl, rfl, rfl, hrun⟩
  · exact ⟨s.withArrival, rfl, rfl, rfl, rfl, rfl, rfl, rfl, hrun⟩

/-- Settles O54: the accesses of an operation go to locations of the block, and those are aligned. -/
theorem registerAccessesAligned : Obligations.RegisterAccessesAligned := by
  intro s t hsafe h
  have hcur := hsafe.cursorsIn
  obtain ⟨i, hexec⟩ | hstep := h
  · exact aligned_of_runs hcur rfl (runs_exec hexec)
  · cases stepTo_of_step hstep with
    | pass v hpass =>
      obtain ⟨u, hcfg, htrace, -, -, -, -, -, hrun⟩ := continuePass_runs v s
      exact htrace ▸ aligned_of_runs hcur hcfg hrun
    | wait hpass hhost => exact ⟨[], rfl, by simp⟩
    | @operation t w rest i hpass hhost hdecode hexec =>
      obtain ⟨evs, htrace, hevs⟩ := aligned_of_runs (s := acceptCommand w rest s) hcur rfl (runs_exec hexec)
      refine ⟨evs ++ [.command w], by simpa [acceptCommand] using htrace, fun e he => ?_⟩
      obtain he | he := List.mem_append.1 he
      · exact hevs e he
      · rw [List.mem_singleton.1 he]
        trivial
    | @illegal w rest hpass hhost =>
      refine ⟨[.result (resultWord .illegalOp 0), .command w], rfl, fun e he => ?_⟩
      rcases List.mem_pair.1 he with rfl | rfl <;> trivial
    | reset hpass hhost hoff => exact ⟨[], rfl, by simp⟩
    | write hpass hhost hpool => exact ⟨[], rfl, by simp⟩

/-! ## `MODER` -/

/-- Among the events of a run for the operation `i`, a write of `MODER` is one of `MAC_ENABLE`. -/
theorem writesModer {s u t : State} {i : Instr} (hcur : CursorsIn s) (hcfg : u.cfg = s.cfg)
    (h : Runs (allowedFor s i) u t) : ∃ evs, t.trace = evs ++ u.trace
      ∧ ∀ v, writeEvent s.cfg (.reg .moder) v ∈ evs → (allowedFor s i).write (.reg .moder) := by
  obtain ⟨evs, htrace, hevs⟩ := h.trace
  rw [hcfg] at hevs
  refine ⟨evs, htrace, fun v hv => ?_⟩
  obtain ⟨l, v', -, he⟩ | ⟨l, v', hl, he⟩ | ⟨-, ⟨a, b, he | he⟩ | ⟨n, a, c, he⟩⟩ | hevent := hevs _ hv
  · cases he
  · obtain ⟨hoff, -⟩ := Event.mmioWrite.inj he
    rwa [loc_eq_of_offset (locIn_of_allowed hcur (.inr hl)) hoff.symm] at hl
  · cases he
  · cases he
  · cases he
  · exact hevent.elim

/-- Only `MAC_ENABLE` may write `MODER` (R247). -/
theorem eq_macEnable_of_write {s : State} {i : Instr} (h : (allowedFor s i).write (.reg .moder)) : i = .macEnable := by
  have hslot : ∀ {r : Ring} {w : DescWord}, ¬ SlotWord s r w (.reg .moder) := by
    rintro r w ⟨k, -, hk⟩
    cases hk
  cases i with
  | macEnable => rfl
  | ringInit =>
    obtain ⟨r, w, h⟩ := h
    exact (hslot h).elim
  | setupTxSlot | setupRxSlot =>
    obtain ⟨w, h⟩ := h
    exact (hslot h).elim
  | transmit | receive => exact (hslot h).elim
  | dispatch =>
    obtain h | h := h
    · cases h
    · exact (hslot h).elim
  | macAddrWrite =>
    obtain h | h := h
    all_goals cases h
  | bringup =>
    obtain h | h | h := h
    all_goals cases h
  | irqMaskSet => cases h
  | receiveReady | receiveLength | macAddress => exact h.elim

/-- Settles O22: an operation that does not run makes no bus event, and the enable gate is that of `MAC_ENABLE`. -/
theorem moderWrittenOnlyByEnable : Obligations.ModerWrittenOnlyByEnable := by
  intro s t hsafe
  have hcur := hsafe.cursorsIn
  refine ⟨fun i hexec => ?_, fun hpass hstep => ?_⟩
  · obtain ⟨st, w, hfinish⟩ | ⟨he, hgate, hbody⟩ := exec_cases i s
    · obtain rfl : s.finish st w = t := Host.Outcome.next.inj (hfinish.symm.trans hexec)
      refine ⟨[.result (resultWord st w)], rfl, fun v hv => ?_⟩
      cases List.mem_singleton.1 hv
    · obtain ⟨evs, htrace, hevs⟩ := writesModer hcur rfl (runs_exec hexec)
      refine ⟨evs, htrace, fun v hv => ?_⟩
      obtain rfl := eq_macEnable_of_write (hevs v hv)
      obtain ⟨hpc, -, -, hrun⟩ := (gateEnable_eq_true_iff s.blk).1 hgate
      obtain rfl : macEnable s = t := Host.Outcome.next.inj (hbody.symm.trans hexec)
      exact ⟨rfl, hpc, he, hrun, by rw [macEnable_blk]⟩
  · obtain ⟨v, hv⟩ := Option.ne_none_iff_exists'.1 hpass
    obtain rfl : continuePass v s = t := Host.Outcome.next.inj ((step_of_pass_some hv).symm.trans hstep)
    obtain ⟨u, hcfg, hu, -, -, -, -, -, hrun⟩ := continuePass_runs v s
    obtain ⟨evs, htrace, hevs⟩ := writesModer hcur hcfg hrun
    refine ⟨evs, hu ▸ htrace, fun v hv => ?_⟩
    cases eq_macEnable_of_write (hevs v hv)

/-! ## What stays of the outside world -/

/-- One frame's events are at least one. -/
theorem drainEvents_length_pos {c : Cfg} {slot : Nat} {frames : List DrainedFrame} (h : frames ≠ []) :
    0 < (drainEvents c slot frames).length := by
  cases frames with
  | nil => exact absurd rfl h
  | cons f fs => simp [drainEvents, DrainedFrame.events]

/-- A pass that goes on from a schedule of one turn has used it up: it has taken a frame, or its last ready check. -/
theorem drainPass_quiet {v : Word} {s : State} (h : s.env.schedule.length ≤ 1) : Quiet (drainPass v s) := by
  obtain ⟨frames, u, hdrained, ⟨-, hend⟩ | ⟨hwhy, hgoes⟩⟩ := drainPass_cases v s
  · rw [hend]
    refine (runs_dispatchEnd (s0 := s) v .refl).quiet ?_
    rw [Quiet, State.mmioRead_env, State.readTick_schedule, hdrained.sched, ← List.drop_one, List.drop_drop,
      List.drop_eq_nil_iff]
    omega
  · rw [hgoes, Quiet, State.setPass_env]
    obtain hendless | hlength := hwhy
    · simp only [arrivalsEndless, Bool.and_eq_true, List.isEmpty_iff] at hendless
      exact hendless.1.1.2
    · have hpos := drainEvents_length_pos (c := s.cfg) (slot := s.blk.rxc.toNat) (frames := frames)
        (by rintro rfl; simp at hlength)
      rw [hdrained.sched, List.drop_eq_nil_iff]
      omega

theorem continuePass_schedule (v : Word) (s : State) : (continuePass v s).env.schedule <:+ s.env.schedule := by
  unfold continuePass
  split
  · have hquiet : Quiet (drainPass v s.withArrival) := drainPass_quiet (by simp [State.withArrival])
    rw [show _ = [] from hquiet]
    exact List.nil_suffix
  · exact (runs_drainPass (s0 := s) v rfl rfl).schedule

/-- Settles O53: what a run of primitives leaves alone; of the arrival that a continued pass begins with, nothing is left. -/
theorem configurationAndHostUntouched : Obligations.ConfigurationAndHostUntouched := by
  intro s t h
  have hpass : ∀ i, exec i s = .next t → i = .dispatch ∨ t.pass = s.pass := fun i hexec => by
    by_cases hi : i = .dispatch
    · exact .inl hi
    · exact .inr ((runs_exec hexec).pass hi)
  obtain ⟨i, hexec⟩ | ⟨hgoing, hstep⟩ := h
  · have hrun := runs_exec hexec
    obtain ⟨hhost, hmii, hendless⟩ := hrun.host
    obtain ⟨evs, htrace, -⟩ := hrun.trace
    exact ⟨hrun.cfg, hpass, hhost, hmii, hendless, hrun.schedule, evs, htrace.symm⟩
  · obtain ⟨v, hv⟩ := Option.ne_none_iff_exists'.1 hgoing
    obtain rfl : continuePass v s = t := Host.Outcome.next.inj ((step_of_pass_some hv).symm.trans hstep)
    obtain ⟨u, hcfg, hu, hhostu, hmiiu, hendlessu, -, -, hrun⟩ := continuePass_runs v s
    obtain ⟨hhost, hmii, hendless⟩ := hrun.host
    obtain ⟨evs, htrace, -⟩ := hrun.trace
    exact ⟨hrun.cfg.trans hcfg, hpass, hhost.trans hhostu, hmii.trans hmiiu, hendless.trans hendlessu,
      continuePass_schedule v s, evs, (hu ▸ htrace).symm⟩

end Sys2Proof.Machine
end

section
/-! SUPPORT. What the runs of primitives leave: the frame of `BRINGUP`, the table of the working registers, and the canonical
form of the stores (rules R31, R55, R174). -/

namespace Sys2Proof.Machine

/-! ## The frame of `BRINGUP` -/

/-- The MII registers of a device replaced by those of another. -/
def Device.withMiiOf (d e : Device) : Device :=
  { d with miiCommand := e.miiCommand, miiAddress := e.miiAddress, miiTxData := e.miiTxData }

/-- A write of another register leaves `INT_SOURCE` alone. -/
theorem Device.put_reg_intSource (c : Cfg) (d : Device) {r : Reg} (hr : r ≠ .intSource) (v : Word) :
    (d.put c (.reg r) v).intSource = d.intSource := by
  cases r with
  | intSource => exact absurd rfl hr
  | miiCommand =>
    obtain ⟨m, hm⟩ := d.miiCommandWrite_eq c v
    rw [Device.put_miiCommand, hm]
  | _ => rfl

section BringupRuns
variable {s t : State}

/-- Each register that `BRINGUP` writes is one of the MII engine's. -/
theorem miiReg_of_write {l : Loc} (h : (allowedFor s .bringup).write l) :
    ∃ r : Reg, l = .reg r ∧ r ≠ .moder ∧ r ≠ .intSource
      ∧ ∀ (c : Cfg) (d e : Device) (v : Word), SameDriverRegs c.layout (d.withMiiOf e) e →
        SameDriverRegs c.layout (d.withMiiOf (e.put c (.reg r) v)) (e.put c (.reg r) v) := by
  obtain rfl | rfl | rfl := h
  · refine ⟨.miiAddress, rfl, by decide, by decide, fun c d e v hregs => ?_⟩
    obtain ⟨hmask, hcmd, -, hdata, hmac0, hmac1, htp, hrp, htx, hrx⟩ := hregs
    exact ⟨hmask, hcmd, rfl, hdata, hmac0, hmac1, htp, hrp, htx, hrx⟩
  · refine ⟨.miiTxData, rfl, by decide, by decide, fun c d e v hregs => ?_⟩
    obtain ⟨hmask, hcmd, haddr, -, hmac0, hmac1, htp, hrp, htx, hrx⟩ := hregs
    exact ⟨hmask, hcmd, haddr, rfl, hmac0, hmac1, htp, hrp, htx, hrx⟩
  · refine ⟨.miiCommand, rfl, by decide, by decide, fun c d e v hregs => ?_⟩
    obtain ⟨hmask, -, haddr, hdata, hmac0, hmac1, htp, hrp, htx, hrx⟩ := hregs
    obtain ⟨m, hm⟩ := e.miiCommandWrite_eq c v
    rw [Device.put_miiCommand, hm]
    exact ⟨hmask, rfl, haddr, hdata, hmac0, hmac1, htp, hrp, htx, hrx⟩

variable (h : Runs (allowedFor s .bringup) s t)
include h

/-- Beside the MII registers, `BRINGUP` leaves the driver's registers as they were. -/
theorem bringup_sameDriverRegs : SameDriverRegs s.cfg.layout (s.dev.withMiiOf t.dev) t.dev := by
  refine h.induct (P := fun d _ => SameDriverRegs s.cfg.layout (s.dev.withMiiOf d) d) (fun a d m hd => ?_)
    (fun l v d m hl hd => ?_) (fun _ _ _ _ => False.elim) (.refl _ _)
  · obtain ⟨hmask, -, -, -, hmac0, hmac1, htp, hrp, htx, hrx⟩ := hd.trans (devAct_sameDriverRegs s.cfg a d m)
    exact ⟨hmask, rfl, rfl, rfl, hmac0, hmac1, htp, hrp, htx, hrx⟩
  · obtain ⟨r, rfl, -, -, hput⟩ := miiReg_of_write hl
    exact hput s.cfg s.dev d v hd

/-- With the MAC off, `BRINGUP` leaves the rings and memory as they were. -/
theorem bringup_macOff (hoff : MacOff s) : SameRings s.dev t.dev ∧ t.mem = s.mem := by
  have hkept : (macTxOn s.cfg.layout t.dev = false ∧ macRxOn s.cfg.layout t.dev = false)
      ∧ SameRings s.dev t.dev ∧ t.mem = s.mem := by
    refine h.induct (P := fun d m => (macTxOn s.cfg.layout d = false ∧ macRxOn s.cfg.layout d = false)
      ∧ SameRings s.dev d ∧ m = s.mem) (fun a d m hd => ?_) (fun l v d m hl hd => ?_) (fun _ _ _ _ => False.elim)
      ⟨hoff, .refl _, rfl⟩
    · obtain ⟨⟨htx, hrx⟩, hrings, hmem⟩ := hd
      have hregs := devAct_sameDriverRegs s.cfg a d m
      obtain ⟨hrings', hmem'⟩ := devAct_macOff s.cfg a d m htx hrx
      exact ⟨⟨hregs.txOn.trans htx, hregs.rxOn.trans hrx⟩, hrings.trans hrings', hmem'.trans hmem⟩
    · obtain ⟨⟨htx, hrx⟩, hrings, hmem⟩ := hd
      obtain ⟨r, rfl, hmoder, -⟩ := miiReg_of_write hl
      obtain ⟨hrings', heq⟩ := d.put_reg_keeps s.cfg hmoder v
      refine ⟨⟨?_, ?_⟩, hrings.trans hrings', hmem⟩
      · rw [macTxOn, heq]; exact htx
      · rw [macRxOn, heq]; exact hrx
  exact hkept.2

/-- With no agent acting, `BRINGUP` leaves `MODER`, `INT_SOURCE`, the rings and memory as they were. -/
theorem bringup_quiet (hq : Quiet s) : t.dev.moder = s.dev.moder ∧ t.dev.intSource = s.dev.intSource
    ∧ SameRings s.dev t.dev ∧ t.mem = s.mem := by
  refine h.induct_quiet (P := fun d m => d.moder = s.dev.moder ∧ d.intSource = s.dev.intSource ∧ SameRings s.dev d
    ∧ m = s.mem) (fun d m hd => ?_) (fun l v d m hl hd => ?_) (fun _ _ _ _ => False.elim) hq ⟨rfl, rfl, .refl _, rfl⟩
  · obtain ⟨hmoder, hsource, hrings, hmem⟩ := hd
    obtain ⟨rx, x, st, sim, heq⟩ := d.miiFinish_eq s.cfg 0
    exact ⟨by rw [heq]; exact hmoder, by rw [heq]; exact hsource, hrings.trans (d.miiFinish_sameRings s.cfg 0), hmem⟩
  · obtain ⟨hmoder, hsource, hrings, hmem⟩ := hd
    obtain ⟨r, rfl, hm, hs, -⟩ := miiReg_of_write hl
    obtain ⟨hrings', heq⟩ := d.put_reg_keeps s.cfg hm v
    exact ⟨heq.trans hmoder, (d.put_reg_intSource s.cfg hs v).trans hsource, hrings.trans hrings', hmem⟩

/-- Its writes go to the MII registers. -/
theorem bringup_writes : ∃ evs, t.trace = evs ++ s.trace ∧ ∀ off v, Event.mmioWrite off v ∈ evs →
    off = s.cfg.layout.miiAddress ∨ off = s.cfg.layout.miiTxData ∨ off = s.cfg.layout.miiCommand := by
  obtain ⟨evs, htrace, hevs⟩ := h.trace
  refine ⟨evs, htrace, fun off v hv => ?_⟩
  obtain ⟨l, v', -, he⟩ | ⟨l, v', hl, he⟩ | ⟨hm, -⟩ | hevent := hevs _ hv
  · cases he
  · obtain ⟨rfl, -⟩ := Event.mmioWrite.inj he
    obtain rfl | rfl | rfl := hl
    · exact .inl rfl
    · exact .inr (.inl rfl)
    · exact .inr (.inr rfl)
  · exact hm.elim
  · exact hevent.elim

end BringupRuns

/-- Settles O34: `BRINGUP` is a run whose writes go to the MII registers. -/
theorem bringupFrame : Obligations.BringupFrame := by
  intro s t hexec L
  have hrun := runs_exec hexec
  obtain ⟨hmask, -, -, -, hmac0, hmac1, htp, hrp, htx, hrx⟩ := bringup_sameDriverRegs hrun
  refine ⟨bringup_writes hrun, hmask, hmac0, hmac1, htp, hrp, htx, hrx, bringup_macOff hrun, fun hq => ?_⟩
  obtain ⟨hmoder, hsource, hrings, hmem⟩ := bringup_quiet hrun hq
  exact ⟨hmoder, hsource, hrings, hmem, hrun.env_quiet id hq⟩

/-! ## The table of the working registers -/

/-- The rows of R31 for an operation, of the registers before and after it. -/
structure RegistersKept (i : Instr) (b b' : Block) : Prop where
  txc     : b'.txc = b.txc ∨ ∃ len src, i = .transmit len src
  rxc     : b'.rxc = b.rxc ∨ i = .dispatch ∨ ∃ n dst, i = .receive n dst
  seq     : (b'.rt = b.rt ∧ b'.lt = b.lt ∧ b'.md = b.md ∧ b'.pc = b.pc) ∨ i = .bringup
  err     : b'.err = b.err ∨ i = .ringInit ∨ i = .bringup ∨ ∃ k a, i = .setupTxSlot k a ∨ i = .setupRxSlot k a
  rings   : b'.flg.rings = b.flg.rings ∨ i = .ringInit
  run     : b'.flg.run = b.flg.run ∨ i = .macEnable
  macaddr : b'.flg.macaddr = b.flg.macaddr ∨ i = .macAddrWrite

/-- An operation that writes `RESULT` alone is in every row. -/
theorem RegistersKept.result (i : Instr) {b b' : Block} (h : b' = { b with result := b'.result }) :
    RegistersKept i b b' := by
  rw [h]
  exact ⟨.inl rfl, .inl rfl, .inl ⟨rfl, rfl, rfl, rfl⟩, .inl rfl, .inl rfl, .inl rfl, .inl rfl⟩

/-- The last thing seen is the result. -/
def EndsWithResult (t : State) : Prop := t.trace.head? = some (.result t.blk.result)

theorem finish_endsWithResult (st : Status) (v : BitVec 48) (s : State) : EndsWithResult (s.finish st v) := rfl

theorem raiseFatal_endsWithResult (e : FatalErr) (s : State) : EndsWithResult (s.raiseFatal e) := by
  rw [EndsWithResult, State.raiseFatal_trace, State.raiseFatal_blk]
  rfl

/-- An error of the pool leaves the sequencer's state alone (R262). -/
theorem raiseFatal_poolError (s : State) : (s.raiseFatal .deviceAddrRange).blk
    = { s.blk with err := some .deviceAddrRange, result := (s.raiseFatal .deviceAddrRange).blk.result } := by
  rw [State.raiseFatal_blk]
  rfl

/-- `RING_INIT` raises no error but the two of the pool, so `pc` stays. -/
theorem ringInit_row (s : State) : RegistersKept .ringInit s.blk (ringInit s).blk ∧ EndsWithResult (ringInit s) := by
  cases hcheck : poolCheck s.cfg with
  | none =>
    rw [ringInit_usable hcheck]
    refine ⟨?_, finish_endsWithResult _ _ _⟩
    have hblk : (writeSlots (ringInitWrites s.cfg) s).blk = s.blk := writeSlots_blk _ _
    rw [State.finish_blk, setRings, State.setBlk_blk, hblk]
    exact ⟨.inl rfl, .inl rfl, .inl ⟨rfl, rfl, rfl, rfl⟩, .inl rfl, .inr rfl, .inl rfl, .inl rfl⟩
  | some e =>
    have hpool : fatalOfPhy e = false := by
      unfold poolCheck at hcheck
      split at hcheck
      · cases hcheck; rfl
      · split at hcheck
        · cases hcheck; rfl
        · cases hcheck
    have hraise : ringInit s = s.raiseFatal e := by simp [ringInit, hcheck]
    rw [hraise]
    refine ⟨?_, raiseFatal_endsWithResult e s⟩
    rw [State.raiseFatal_blk, hpool]
    exact ⟨.inl rfl, .inl rfl, .inl ⟨rfl, rfl, rfl, rfl⟩, .inr (.inl rfl), .inl rfl, .inl rfl, .inl rfl⟩

/-- The slot set-ups: an error of the operands, or the result alone. -/
theorem setupSlot_row {r : Ring} {i addr : Nat} {s t : State} (h : execBody (setupSlot r i addr) s = .next t) :
    RegistersKept (setupSlot r i addr) s.blk t.blk ∧ EndsWithResult t := by
  rw [execBody_setupSlot] at h
  obtain ⟨-, hrun⟩ | ⟨-, hrun⟩ | ⟨-, hrun⟩ := checked_cases (checkSlotOperands s.cfg r i addr)
    (fun s => (setupSlotRun r i (BitVec.ofNat 32 addr) s).finish .ok 0) s
  all_goals
    rw [hrun] at h
    cases h
  · refine ⟨.result _ ?_, finish_endsWithResult _ _ _⟩
    rw [setupSlotRun_eq, State.finish_blk, writeSlots_blk]
  · exact ⟨.result _ rfl, finish_endsWithResult _ _ _⟩
  · refine ⟨?_, raiseFatal_endsWithResult _ s⟩
    rw [raiseFatal_poolError]
    refine ⟨.inl rfl, .inl rfl, .inl ⟨rfl, rfl, rfl, rfl⟩, .inr (.inr (.inr ⟨i, addr, ?_⟩)), .inl rfl, .inl rfl, .inl rfl⟩
    cases r
    · exact .inl rfl
    · exact .inr rfl

/-- `BRINGUP` touches neither the cursors nor the flags. -/
theorem bringup_row {s t : State} (h : bringup s = some t) : RegistersKept .bringup s.blk t.blk ∧ EndsWithResult t := by
  have hrow : ∀ {b : Block}, b.txc = s.blk.txc → b.rxc = s.blk.rxc → b.flg = s.blk.flg →
      RegistersKept .bringup s.blk b := fun htx hrx hflg =>
    ⟨.inl htx, .inl hrx, .inr rfl, .inr (.inr (.inl rfl)), .inl (by rw [hflg]), .inl (by rw [hflg]), .inl (by rw [hflg])⟩
  cases bringupTo_of_bringup h with
  | resetFailed reset =>
    refine ⟨?_, raiseFatal_endsWithResult _ _⟩
    rw [State.raiseFatal_blk, reset.blk]
    exact hrow rfl rfl rfl
  | linkUp reset link =>
    refine ⟨?_, ?_⟩
    · rw [linkIsUp_blk, blk_of_phases reset link]
      exact hrow rfl rfl rfl
    · rw [EndsWithResult, linkIsUp_trace, linkIsUp_blk]
      rfl
  | linkFailed reset link =>
    refine ⟨?_, raiseFatal_endsWithResult _ _⟩
    rw [State.raiseFatal_blk, blk_of_phases reset link]
    exact hrow rfl rfl rfl

/-- `TRANSMIT` writes its cursor, if any but `RESULT`. -/
theorem transmit_row (len src : Nat) (a : Addr) (s : State) :
    RegistersKept (.transmit len src) s.blk (transmit len a s).blk ∧ EndsWithResult (transmit len a s) := by
  cases hown : Field.test s.cfg.layout.own (s.mmioVal (txSlot s)) with
  | true =>
    rw [transmit_retry hown]
    refine ⟨.result _ ?_, rfl⟩
    show ({ (s.mmioRead (txSlot s)).blk with result := _ } : Block) = _
    rw [State.mmioRead_blk]
    rfl
  | false =>
    rw [transmit_accepted hown]
    exact ⟨⟨.inr ⟨len, src, rfl⟩, .inl rfl, .inl ⟨rfl, rfl, rfl, rfl⟩, .inl rfl, .inl rfl, .inl rfl, .inl rfl⟩,
      finish_endsWithResult _ _ _⟩

/-- An operation's row of the table, when its gates are open. -/
theorem body_row {i : Instr} {s t : State} (h : execBody i s = .next t) :
    RegistersKept i s.blk t.blk ∧ (EndsWithResult t ∨ (i = .dispatch ∧ t.pass ≠ none ∧ t.blk.result = s.blk.result)) := by
  have hended : RegistersKept i s.blk t.blk ∧ EndsWithResult t → RegistersKept i s.blk t.blk
      ∧ (EndsWithResult t ∨ (i = .dispatch ∧ t.pass ≠ none ∧ t.blk.result = s.blk.result)) := And.imp_right .inl
  cases i with
  | ringInit =>
    cases h
    exact hended (ringInit_row s)
  | setupTxSlot i addr => exact hended (setupSlot_row (r := .tx) h)
  | setupRxSlot j addr => exact hended (setupSlot_row (r := .rx) h)
  | macAddrWrite =>
    cases h
    refine hended ⟨?_, finish_endsWithResult _ _ _⟩
    simp only [macAddrWrite, setMacaddr, State.finish_blk, State.setBlk_blk, State.mmioWrite_blk]
    exact ⟨.inl rfl, .inl rfl, .inl ⟨rfl, rfl, rfl, rfl⟩, .inl rfl, .inl rfl, .inl rfl, .inr rfl⟩
  | irqMaskSet =>
    cases h
    refine hended ⟨.result _ ?_, finish_endsWithResult _ _ _⟩
    rw [irqMaskSet, State.finish_blk, State.mmioWrite_blk]
  | bringup =>
    simp only [execBody] at h
    split at h
    · cases h
    · cases h
      exact hended (bringup_row ‹_›)
  | macEnable =>
    cases h
    refine hended ⟨?_, finish_endsWithResult _ _ _⟩
    rw [macEnable_blk]
    exact ⟨.inl rfl, .inl rfl, .inl ⟨rfl, rfl, rfl, rfl⟩, .inl rfl, .inl rfl, .inr rfl, .inl rfl⟩
  | transmit len src =>
    rw [execBody, checkTransmitLength] at h
    split at h
    · cases h
      exact hended (transmit_row len src _ s)
    · cases h
      exact hended ⟨.result _ rfl, finish_endsWithResult _ _ _⟩
  | receiveReady | receiveLength =>
    cases h
    refine hended ⟨.result _ ?_, finish_endsWithResult _ _ _⟩
    rw [State.finish_blk, State.mmioRead_blk]
  | receive maxLen dst =>
    cases h
    refine hended ⟨?_, finish_endsWithResult _ _ _⟩
    rw [State.finish_blk, rxReceive_blk]
    exact ⟨.inl rfl, .inr (.inr ⟨maxLen, dst, rfl⟩), .inl ⟨rfl, rfl, rfl, rfl⟩, .inl rfl, .inl rfl, .inl rfl, .inl rfl⟩
  | macAddress =>
    cases h
    exact hended ⟨.result _ rfl, finish_endsWithResult _ _ _⟩
  | dispatch =>
    cases h
    obtain ⟨hblk, hresult⟩ := dispatchPass_kept s
    refine ⟨?_, ?_⟩
    · rw [hblk]
      exact ⟨.inl rfl, .inr (.inl rfl), .inl ⟨rfl, rfl, rfl, rfl⟩, .inl rfl, .inl rfl, .inl rfl, .inl rfl⟩
    · obtain ⟨hres, hpass⟩ | ⟨-, hhead⟩ := hresult
      · exact .inr ⟨rfl, hpass, hres⟩
      · exact .inl hhead

/-- Settles O52: an operation that does not run writes `RESULT` alone, one that runs is in its row. -/
theorem workingRegisterTable : Obligations.WorkingRegisterTable := by
  refine ⟨fun i s t hexec => ?_, fun s t hpass hstep => ?_⟩
  · obtain ⟨⟨htxc, hrxc, hseq, herr, hrings, hrun, hmac⟩, hend⟩ : RegistersKept i s.blk t.blk
        ∧ (EndsWithResult t ∨ (i = .dispatch ∧ t.pass ≠ none ∧ t.blk.result = s.blk.result)) := by
      obtain ⟨st, v, hfinish⟩ | ⟨-, -, hbody⟩ := exec_cases i s
      · obtain rfl : s.finish st v = t := Host.Outcome.next.inj (hfinish.symm.trans hexec)
        exact ⟨.result i rfl, .inl (finish_endsWithResult st v s)⟩
      · exact body_row (hbody.symm.trans hexec)
    exact ⟨hend, htxc, hrxc, hseq, herr, hrings, hrun, hmac⟩
  · obtain ⟨v, hv⟩ := Option.ne_none_iff_exists'.1 hpass
    obtain rfl : continuePass v s = t := Host.Outcome.next.inj ((step_of_pass_some hv).symm.trans hstep)
    obtain ⟨hblk, hresult⟩ := continuePass_kept v s
    exact ⟨hblk, hresult.imp_left And.left⟩

end Sys2Proof.Machine
end

section
/-! SUPPORT. The device-side agents: the two DMA engines' steps (rules R97, R100), and the canonical form of the stores, which
every step keeps (rule R55). -/

namespace Sys2Proof.Machine

/-! ## Word 0 after the engines -/

section Control
variable (c : Cfg) (w other : Word) (len : Half)

/-- The TX engine clears `OWN` and keeps the other fields (R97). -/
theorem get_consumedControl {f : Field} (hf : f ∈ [c.layout.len, c.layout.irq, c.layout.wrap, c.layout.pad, c.layout.crc]) :
    Field.get f (consumedControl c.layout w other) = Field.get f w := by
  have hlen : c.layout.len.lo + c.layout.len.width ≤ 32 := by rw [c.len_ok.1]; exact c.len_ok.2
  have hlenown : c.layout.len.apart c.layout.own = true := by rw [Field.apart_comm]; exact own_apart_len c
  have hbit : ∀ g : Field, g.width = 1 ∧ g.lo + 1 ≤ 32 → g.lo + g.width ≤ 32 := fun g hg => by rw [hg.1]; exact hg.2
  have happart := pairwise_apart c.desc_apart
  simp only [Layout.descFields, List.pairwise_cons, List.mem_cons, forall_eq_or_imp] at happart
  obtain ⟨-, ⟨-, -, hpad, hcrc, -⟩, -⟩ := happart
  have hin : f.lo + f.width ≤ 32 ∧ f.apart c.layout.own = true ∧ f ∈ controlFields c.layout .tx := by
    simp only [List.mem_cons, List.not_mem_nil, or_false] at hf
    obtain rfl | rfl | rfl | rfl | rfl := hf
    · exact ⟨hlen, hlenown, by simp [controlFields]⟩
    · exact ⟨hbit _ c.irq_ok, own_apart_irq c, by simp [controlFields]⟩
    · exact ⟨hbit _ c.wrap_ok, own_apart_wrap c, by simp [controlFields]⟩
    · exact ⟨hbit _ c.pad_ok, by rw [Field.apart_comm]; exact hpad, by simp [controlFields]⟩
    · exact ⟨hbit _ c.crc_ok, by rw [Field.apart_comm]; exact hcrc, by simp [controlFields]⟩
  obtain ⟨hf32, happ, hmem⟩ := hin
  rw [consumedControl, get_withOtherBits hmem hf32, Field.get_set_apart _ _ hf32 happ]

/-- The RX engine stores the length reported (R100). -/
theorem get_len_filledControl :
    Field.get c.layout.len (filledControl c.layout w len other) = len.zeroExtend 32 := by
  obtain ⟨hw, hlo⟩ := c.len_ok
  have h32 : c.layout.len.lo + c.layout.len.width ≤ 32 := by rw [hw]; exact hlo
  rw [filledControl, get_withOtherBits (by simp [controlFields]) h32,
    Field.get_set_apart _ _ h32 (by rw [Field.apart_comm]; exact own_apart_len c), Field.get_set_self _ _ _ h32,
    Field.and_mask_of_fits]
  rw [hw, BitVec.zeroExtend, BitVec.toNat_setWidth]
  exact lt_of_le_of_lt (Nat.mod_le _ _) len.isLt

/-- The RX engine keeps `IRQ` and `WRAP` (R100). -/
theorem get_filledControl {f : Field} (hf : f ∈ [c.layout.irq, c.layout.wrap]) :
    Field.get f (filledControl c.layout w len other) = Field.get f w := by
  have hin : (f.width = 1 ∧ f.lo + 1 ≤ 32) ∧ f.apart c.layout.own = true ∧ f.apart c.layout.len = true
      ∧ f ∈ controlFields c.layout .rx := by
    simp only [List.mem_cons, List.not_mem_nil, or_false] at hf
    obtain rfl | rfl := hf
    · exact ⟨c.irq_ok, own_apart_irq c, irq_apart_len c, by simp [controlFields]⟩
    · exact ⟨c.wrap_ok, own_apart_wrap c, wrap_apart_len c, by simp [controlFields]⟩
  obtain ⟨⟨hw, hlo⟩, hown, hlen, hmem⟩ := hin
  have h32 : f.lo + f.width ≤ 32 := by rw [hw]; exact hlo
  rw [filledControl, get_withOtherBits hmem h32, Field.get_set_apart _ _ h32 hown, Field.get_set_apart _ _ h32 hlen]

end Control

/-! ## The TX engine -/

/-- The TX engine at a slot it owns, with transmit enabled (R96, R97). -/
theorem Device.txConsume_owned {c : Cfg} {d : Device} (other : Word) (hon : macTxOn c.layout d = true)
    (hown : Field.test c.layout.own (d.desc .tx .control d.txPos) = true) : d.txConsume c other
      = { d.setDesc .tx .control d.txPos (consumedControl c.layout (d.desc .tx .control d.txPos) other) with
          intSource :=
            if Field.test c.layout.irq (d.desc .tx .control d.txPos) then d.intSource ||| c.layout.txPendingMask
            else d.intSource
          txPos := posAfter c.layout (d.desc .tx .control d.txPos) d.txPos } := by
  simp [Device.txConsume, hon, hown]

theorem Device.txConsume_idle {c : Cfg} {d : Device} (other : Word)
    (h : macTxOn c.layout d = false ∨ Field.test c.layout.own (d.desc .tx .control d.txPos) = false) :
    d.txConsume c other = d := by
  refine if_neg ?_
  rw [Bool.and_eq_true]
  obtain h | h := h <;> simp [h]

/-- Settles O49: the engine consumes the slot, or does nothing. -/
theorem txEngineContract : Obligations.TxEngineContract := by
  intro c other d m L w e w2
  by_cases h : macTxOn c.layout d = true ∧ Field.test c.layout.own w = true
  · obtain ⟨hon, hown⟩ := h
    have he : e = _ := Device.txConsume_owned other hon hown
    have hw2 : w2 = consumedControl L w other := by
      show e.desc .tx .control d.txPos = _
      rw [he]
      exact Device.desc_setDesc_self d .tx .control d.txPos _
    refine ⟨rfl, by rw [he]; rfl, by rw [he]; rfl, by rw [he]; rfl, by rw [he]; rfl, fun i hi => ?_, fun _ _ => ?_,
      fun hoff => ?_⟩
    · rw [he]
      exact Device.desc_setDesc_slot d .tx .control hi _
    · refine ⟨?_, fun f hf => ?_, by rw [he], by rw [he]; rfl⟩
      · rw [hw2]
        exact own_consumedControl ..
      · rw [hw2]
        exact get_consumedControl c w other hf
    · rw [hon, hown] at hoff
      simp at hoff
  · have hidle : macTxOn c.layout d = false ∨ Field.test c.layout.own w = false := by
      simpa only [not_and_or, Bool.not_eq_true] using h
    have he : e = d := Device.txConsume_idle other hidle
    refine ⟨rfl, by rw [he], by rw [he], by rw [he], by rw [he], fun i _ => by rw [he], fun hon hown => ?_, fun _ => he⟩
    exact absurd ⟨hon, hown⟩ h

/-! ## The RX engine -/

theorem byteAt_inj {base : Addr} {j k : Nat} (hj : j < 2 ^ 64) (hk : k < 2 ^ 64) (h : byteAt base j = byteAt base k) :
    j = k := by
  have := congrArg BitVec.toNat (add_left_cancel h)
  rwa [BitVec.toNat_ofNat, BitVec.toNat_ofNat, Nat.mod_eq_of_lt hj, Nat.mod_eq_of_lt hk] at this

/-- The bytes at other addresses stay. -/
theorem Memory.read_writeBytes_outside {base a : Addr} (bs : List Byte) (j : Nat) (m : Memory)
    (h : ∀ k, k < bs.length → a ≠ byteAt base (j + k)) :
    Memory.read (Memory.writeBytes base j bs m) a = Memory.read m a := by
  induction bs generalizing j m with
  | nil => rfl
  | cons b bs ih =>
    have hrest : ∀ k, k < bs.length → a ≠ byteAt base (j + 1 + k) := fun k hk => by
      rw [Nat.add_assoc, Nat.add_comm 1 k]
      exact h (k + 1) (Nat.succ_lt_succ hk)
    rw [Memory.writeBytes, ih (j + 1) _ hrest, Memory.read_write_ne (show a ≠ byteAt base j from h 0 (Nat.succ_pos _))]

/-- Each byte of the list is read back at its own address. -/
theorem Memory.read_writeBytes_inside {base : Addr} {bs : List Byte} {j k : Nat} {b : Byte} (m : Memory)
    (hfits : j + bs.length ≤ 2 ^ 64) (hb : bs[k]? = some b) :
    Memory.read (Memory.writeBytes base j bs m) (byteAt base (j + k)) = b := by
  induction bs generalizing j k m with
  | nil => cases hb
  | cons b' bs ih =>
    rw [List.length_cons] at hfits
    rw [Memory.writeBytes]
    cases k with
    | zero =>
      obtain rfl : b' = b := Option.some.inj hb
      rw [Memory.read_writeBytes_outside, Nat.add_zero, Memory.read_write_self]
      intro k hk heq
      have := byteAt_inj (by omega) (by omega) heq
      omega
    | succ k =>
      rw [show j + (k + 1) = j + 1 + k by omega]
      exact ih _ (by omega) (by simpa using hb)

/-- The RX engine with a frame, at a slot it owns, with receive enabled (R99, R100). -/
theorem devAct_rxFill_owned {c : Cfg} {d : Device} (frame : List Byte) (len : Half) (other : Word) (m : Memory)
    (hon : macRxOn c.layout d = true) (hown : Field.test c.layout.own (d.desc .rx .control d.rxPos) = true) :
    devAct c (.rxFill frame len other) d m = (d.rxHandOver c len other,
      Memory.writeBytes (localOfDevice c (d.desc .rx .pointer d.rxPos)) 0 (frame.take c.slotSize) m) := by
  simp [devAct, Device.rxMayFill, hon, hown]

theorem devAct_rxFill_idle {c : Cfg} {d : Device} (frame : List Byte) (len : Half) (other : Word) (m : Memory)
    (h : macRxOn c.layout d = false ∨ Field.test c.layout.own (d.desc .rx .control d.rxPos) = false) :
    devAct c (.rxFill frame len other) d m = (d, m) := by
  refine if_neg ?_
  rw [Device.rxMayFill, Bool.and_eq_true]
  obtain h | h := h <;> simp [h]

/-- Settles O50: the engine stores the frame and hands the slot over, or does nothing. -/
theorem rxEngineContract : Obligations.RxEngineContract := by
  intro c frame len other d m hlen L w out e w2 buf
  by_cases h : macRxOn c.layout d = true ∧ Field.test c.layout.own w = true
  · obtain ⟨hon, hown⟩ := h
    have hout : out = (d.rxHandOver c len other, Memory.writeBytes buf 0 frame m) := by
      rw [← List.take_of_length_le hlen]
      exact devAct_rxFill_owned frame len other m hon hown
    have he : e = d.rxHandOver c len other := congrArg Prod.fst hout
    have hw2 : w2 = filledControl L w len other := by
      show e.desc .rx .control d.rxPos = _
      rw [he]
      exact Device.desc_setDesc_self d .rx .control d.rxPos _
    obtain ⟨-, -, ⟨-, hslot, -⟩, -⟩ := c.ranges
    refine ⟨by rw [he]; rfl, by rw [he]; rfl, by rw [he]; rfl, by rw [he]; rfl, fun i hi => ?_, fun _ _ => ?_,
      fun hoff => ?_⟩
    · rw [he]
      exact Device.desc_setDesc_slot d .rx .control hi _
    · refine ⟨fun k b hb => ?_, fun a ha => ?_, ?_, ?_, fun f hf => ?_, by rw [he]; rfl, by rw [he]; rfl⟩
      · rw [hout]
        have hread := Memory.read_writeBytes_inside (base := buf) (j := 0) m (by omega) hb
        rwa [Nat.zero_add] at hread
      · rw [hout]
        refine Memory.read_writeBytes_outside frame 0 m fun k hk => ?_
        rw [Nat.zero_add]
        exact ha k hk
      · rw [hw2]
        exact own_filledControl ..
      · rw [hw2]
        exact get_len_filledControl ..
      · rw [hw2]
        exact get_filledControl c w other len hf
    · rw [hon, hown] at hoff
      simp at hoff
  · have hidle : macRxOn c.layout d = false ∨ Field.test c.layout.own w = false := by
      simpa only [not_and_or, Bool.not_eq_true] using h
    have hout : out = (d, m) := devAct_rxFill_idle frame len other m hidle
    have he : e = d := congrArg Prod.fst hout
    refine ⟨by rw [he], by rw [he], by rw [he], by rw [he], fun i _ => by rw [he], fun hon hown => ?_, fun _ => hout⟩
    exact absurd ⟨hon, hown⟩ h

/-! ## The canonical form -/

/-- The five stores of a device are in their canonical form. -/
structure DeviceCanonical (d : Device) : Prop where
  txControl : Store.wf d.txControl = true
  txPointer : Store.wf d.txPointer = true
  rxControl : Store.wf d.rxControl = true
  rxPointer : Store.wf d.rxPointer = true
  phy       : Store.wf d.phy = true

theorem storesCanonical_iff (s : State) : StoresCanonical s ↔ DeviceCanonical s.dev ∧ Memory.wf s.mem = true :=
  ⟨fun ⟨hmem, htc, htp, hrc, hrp, hphy⟩ => ⟨⟨htc, htp, hrc, hrp, hphy⟩, hmem⟩,
    fun ⟨⟨htc, htp, hrc, hrp, hphy⟩, hmem⟩ => ⟨hmem, htc, htp, hrc, hrp, hphy⟩⟩

section Canonical
variable {d : Device} (h : DeviceCanonical d)
include h

theorem DeviceCanonical.setDesc (r : Ring) (w : DescWord) (i : Nat) (v : Word) : DeviceCanonical (d.setDesc r w i v) := by
  obtain ⟨htc, htp, hrc, hrp, hphy⟩ := h
  cases r <;> cases w
  · exact ⟨Store.wf_insert _ _ _ htc, htp, hrc, hrp, hphy⟩
  · exact ⟨htc, Store.wf_insert _ _ _ htp, hrc, hrp, hphy⟩
  · exact ⟨htc, htp, Store.wf_insert _ _ _ hrc, hrp, hphy⟩
  · exact ⟨htc, htp, hrc, Store.wf_insert _ _ _ hrp, hphy⟩

/-- Only the stores count. -/
theorem DeviceCanonical.of_eq {e : Device} (htc : e.txControl = d.txControl) (htp : e.txPointer = d.txPointer)
    (hrc : e.rxControl = d.rxControl) (hrp : e.rxPointer = d.rxPointer) (hphy : e.phy = d.phy) : DeviceCanonical e := by
  obtain ⟨h1, h2, h3, h4, h5⟩ := h
  exact ⟨htc ▸ h1, htp ▸ h2, hrc ▸ h3, hrp ▸ h4, hphy ▸ h5⟩

theorem DeviceCanonical.setPhyReg (a r : BitVec 5) (v : Half) : DeviceCanonical (d.setPhyReg a r v) := by
  obtain ⟨htc, htp, hrc, hrp, hphy⟩ := h
  exact ⟨htc, htp, hrc, hrp, Store.wf_insert _ _ _ hphy⟩

theorem DeviceCanonical.phyStore (c : Cfg) (a r : BitVec 5) (v : Half) : DeviceCanonical (d.phyStore c a r v) := by
  obtain ⟨sim, hsim⟩ := d.phyStore_eq_setPhyReg c a r v
  rw [hsim]
  exact (h.setPhyReg a r v).of_eq rfl rfl rfl rfl rfl

theorem DeviceCanonical.simReadCtrl (c : Cfg) (p : PhySim) : DeviceCanonical (d.simReadCtrl c p) := by
  have hcount : ∀ sim, DeviceCanonical { d with phySim := sim } := fun sim => h.of_eq rfl rfl rfl rfl rfl
  simp only [Device.simReadCtrl]
  split
  · exact (hcount _).setPhyReg _ _ _
  · exact hcount _

theorem DeviceCanonical.simReadStatus (c : Cfg) (p : PhySim) : DeviceCanonical (d.simReadStatus c p) := by
  have hcount : ∀ sim, DeviceCanonical { d with phySim := sim } := fun sim => h.of_eq rfl rfl rfl rfl rfl
  exact (hcount _).setPhyReg _ _ _

theorem DeviceCanonical.phyLoad (c : Cfg) (a r : BitVec 5) : DeviceCanonical (d.phyLoad c a r) := by
  have hctrl : ∀ p, DeviceCanonical (if r = c.layout.phyRegCtrl then d.simReadCtrl c p else d) := fun p => by
    split
    · exact h.simReadCtrl c p
    · exact h
  unfold Device.phyLoad
  split
  · exact h
  · split
    · simp only [Device.simRead]
      split
      · exact (hctrl _).simReadStatus c _
      · exact hctrl _
    · exact h

theorem DeviceCanonical.miiFinish (c : Cfg) (other : Word) : DeviceCanonical (d.miiFinish c other) := by
  unfold Device.miiFinish
  split
  · exact h
  · split
    · exact (h.phyStore c _ _ _).of_eq rfl rfl rfl rfl rfl
    · exact (h.phyLoad c _ _).of_eq rfl rfl rfl rfl rfl

/-- A write of a location keeps the form. -/
theorem DeviceCanonical.put (c : Cfg) (l : Loc) (v : Word) : DeviceCanonical (d.put c l v) := by
  cases l with
  | desc r w i => exact h.setDesc r w i v
  | reg r =>
    cases r with
    | miiCommand =>
      obtain ⟨m, hm⟩ := d.miiCommandWrite_eq c v
      rw [Device.put_miiCommand, hm]
      exact h.of_eq rfl rfl rfl rfl rfl
    | _ => exact h.of_eq rfl rfl rfl rfl rfl

/-- An agent's step keeps it, of the device and of memory. -/
theorem DeviceCanonical.devAct (c : Cfg) (a : DevAct) {m : Memory} (hmem : Memory.wf m = true) :
    DeviceCanonical (devAct c a d m).1 ∧ Memory.wf (devAct c a d m).2 = true := by
  cases a with
  | miiComplete other => exact ⟨h.miiFinish c other, hmem⟩
  | miiStatusBits v | moderBits v | intRaise v => exact ⟨h.of_eq rfl rfl rfl rfl rfl, hmem⟩
  | phySet phy reg v => exact ⟨h.setPhyReg phy reg v, hmem⟩
  | txConsume other =>
    refine ⟨?_, hmem⟩
    show DeviceCanonical (d.txConsume c other)
    simp only [Device.txConsume]
    split
    · exact (h.setDesc _ _ _ _).of_eq rfl rfl rfl rfl rfl
    · exact h
  | rxByte k b =>
    simp only [Machine.devAct]
    split
    · exact ⟨h, Memory.wf_write _ _ _ hmem⟩
    · exact ⟨h, hmem⟩
  | rxFill frame len other =>
    simp only [Machine.devAct]
    split
    · exact ⟨(h.setDesc _ _ _ _).of_eq rfl rfl rfl rfl rfl, Memory.wf_writeBytes _ _ _ _ hmem⟩
    · exact ⟨h, hmem⟩

end Canonical

/-- Every run of primitives keeps the canonical form. -/
theorem Runs.canonical {A : Allowed} {s t : State} (h : Runs A s t)
    (h0 : DeviceCanonical s.dev ∧ Memory.wf s.mem = true) : DeviceCanonical t.dev ∧ Memory.wf t.mem = true :=
  h.induct (P := fun d m => DeviceCanonical d ∧ Memory.wf m = true) (fun a _ _ hd => hd.1.devAct s.cfg a hd.2)
    (fun l v _ _ _ hd => ⟨hd.1.put s.cfg l v, hd.2⟩) (fun a b _ _ _ hd => ⟨hd.1, Memory.wf_write a b _ hd.2⟩) h0

/-- Settles O59: the stores are empty at the start, and a step is a run of primitives or leaves them, but for a host write. -/
theorem storesStayCanonical : Obligations.StoresStayCanonical := by
  refine ⟨⟨rfl, rfl, rfl, rfl, rfl, rfl⟩, fun s t hs hstep => ?_⟩
  rw [storesCanonical_iff] at hs ⊢
  cases stepTo_of_step hstep with
  | pass v hpass =>
    obtain ⟨u, -, -, -, -, -, hdev, hmem, hrun⟩ := continuePass_runs v s
    exact hrun.canonical (by rw [hdev, hmem]; exact hs)
  | wait hpass hhost => exact hs
  | @operation t w rest i hpass hhost hdecode hexec => exact (runs_exec hexec).canonical hs
  | illegal hpass hhost => exact hs
  | reset hpass hhost hoff => exact hs
  | write hpass hhost hpool => exact ⟨hs.1, Memory.wf_write _ _ _ hs.2⟩

end Sys2Proof.Machine
end

section
/-! SUPPORT. `INIT`: the five operations of construction, one after another (rules R124, R247, R317). -/

namespace Sys2Proof.Machine

/-! ## The host's loop -/

section RunWhileOk
variable {i : Instr} {is : List Instr} {s t : State} (hexec : exec i s = .next t)
include hexec

theorem runWhileOk_ok {v : BitVec 48} (hresult : t.blk.result = okWord v) :
    runWhileOk (i :: is) s = runWhileOk is t := by
  have hok : statusIsOk t = true := by
    rw [statusIsOk, hresult, okWord_status]
    rfl
  simp only [runWhileOk, hexec, hok, if_true]

theorem runWhileOk_stop (hstatus : statusIsOk t = false) : runWhileOk (i :: is) s = .next t := by
  simp [runWhileOk, hexec, hstatus]

end RunWhileOk

/-- A fatal error stops the host. -/
theorem statusIsOk_raised (e : FatalErr) (s : State) : statusIsOk (raised e s) = false := by
  have hword : (0xFF#8 ++ 0x000000000000#48 ++ fatalCode e).extractLsb' 56 8 ≠ statusCode .ok := by
    cases e <;> decide
  exact decide_eq_false hword

/-! ## Up to the bring-up -/

/-- No agent acts, the MII engine is ready and the MAC is off. -/
structure AtRest (s : State) : Prop where
  quiet : Quiet s
  ready : EngineReady s
  off   : MacOff s

/-- What an operation leaves that changes neither the MII engine nor `MODER` nor the PHY, with no agent acting. -/
theorem AtRest.of_eq {s t : State} (h : AtRest s) (hcfg : t.cfg = s.cfg) (henv : t.env = s.env)
    (hmii : t.dev.mii = s.dev.mii) (hmoder : t.dev.moder = s.dev.moder) : AtRest t := by
  obtain ⟨hq, ⟨hidle, hcompletes⟩, htx, hrx⟩ := h
  refine ⟨?_, ⟨?_, ?_⟩, ?_, ?_⟩
  · rw [Quiet, henv]; exact hq
  · rw [hmii]; exact hidle
  · rw [henv]; exact hcompletes
  · rw [hcfg, macTxOn, hmoder]; exact htx
  · rw [hcfg, macRxOn, hmoder]; exact hrx

/-- The block's registers once the rings, the address and the mask are set up. -/
def Block.prepared : Block := { Block.reset with flg := ⟨true, false, true⟩, result := okWord 0 }

/-- With a usable pool the first three operations succeed, and leave the machine ready for the bring-up. -/
theorem runInit_prepared {s : State} (hblk : s.blk = Block.reset) (h : AtRest s) (hvalid : s.cfg.poolValid = true)
    (hfits : s.cfg.deviceBase.toNat + (s.cfg.nTx + s.cfg.nRx) * s.cfg.slotSize ≤ 2 ^ 32) :
    ∃ u, runInit s = runWhileOk [.bringup, .macEnable] u ∧ u.cfg = s.cfg ∧ u.blk = Block.prepared ∧ AtRest u
      ∧ u.dev.phySim = s.dev.phySim := by
  obtain ⟨a, hrings, hcfga, hblka, -, -, -, hquieta⟩ :=
    (ringInitResult s (by rw [hblk]; rfl) (by rw [hblk]; rfl)).2 ⟨hvalid, hfits⟩
  obtain ⟨henva, hdeva⟩ := hquieta h.quiet
  have ha : AtRest a := h.of_eq hcfga henva (by rw [hdeva]) (by rw [hdeva])
  rw [hblk] at hblka
  obtain ⟨b, hmac, hcfgb, hblkb, -, -, -, hquietb⟩ :=
    macAddrWriteResult a (by rw [hblka]; rfl) (by rw [hblka]; rfl)
  obtain ⟨hdevb, -, henvb⟩ := hquietb ha.quiet
  have hb : AtRest b := ha.of_eq hcfgb henvb (by rw [hdevb]) (by rw [hdevb])
  rw [hblka] at hblkb
  obtain ⟨u, hmask, hcfgu, hblku, -, -, -, hquietu, -⟩ :=
    irqMaskSetResult b (by rw [hblkb]; rfl) (by rw [hblkb]; rfl)
  obtain ⟨hdevu, -, henvu⟩ := hquietu hb.quiet
  refine ⟨u, ?_, hcfgu.trans (hcfgb.trans hcfga), by rw [hblku, hblkb]; rfl,
    hb.of_eq hcfgu henvu (by rw [hdevu]) (by rw [hdevu]), by rw [hdevu, hdevb, hdeva]⟩
  rw [runInit, initOps, runWhileOk_ok hrings (v := 0) (by rw [hblka]), runWhileOk_ok hmac (v := 0) (by rw [hblkb]),
    runWhileOk_ok hmask (v := 0) (by rw [hblku])]

/-- `BRINGUP` leaves the MAC as it was. -/
theorem MacOff.bringup {s t : State} (h : MacOff s) (hexec : exec .bringup s = .next t) : MacOff t := by
  obtain ⟨-, -, -, -, -, -, htx, hrx, -⟩ := bringupFrame s t hexec
  obtain ⟨hoff, hoff'⟩ := h
  rw [MacOff, (runs_exec hexec).cfg]
  exact ⟨htx.trans hoff, hrx.trans hoff'⟩

/-- `BRINGUP` leaves the cursors and the flags as they were. -/
theorem bringup_flags {s t : State} (hexec : exec .bringup s = .next t) : t.blk.txc = s.blk.txc ∧ t.blk.rxc = s.blk.rxc
    ∧ t.blk.flg = s.blk.flg := by
  obtain ⟨-, htx, hrx, -, -, hrings, hrun, hmac⟩ := workingRegisterTable.1 .bringup s t hexec
  have hno : ∀ {p : Prop} {j : Instr}, j ≠ .bringup → p ∨ Instr.bringup = j → p := fun hj h =>
    h.resolve_right fun e => hj e.symm
  refine ⟨htx.resolve_right (by simp), hrx.resolve_right (by simp), ?_⟩
  cases hflg : t.blk.flg with
  | mk r n m =>
    rw [hflg] at hrings hrun hmac
    cases hflg' : s.blk.flg with
    | mk r' n' m' =>
      rw [hflg'] at hrings hrun hmac
      rw [Flags.mk.injEq]
      exact ⟨hno (by simp) hrings, hno (by simp) hrun, hno (by simp) hmac⟩

/-- A bring-up that fails stops the host, with the MAC off. -/
theorem runInit_bringupFails {s u t : State} {e : FatalErr} (hinit : runInit s = runWhileOk [.bringup, .macEnable] u)
    (hblk : u.blk = Block.prepared) (hoff : MacOff u) (hexec : exec .bringup u = .next t) (herr : t.blk.err = some e)
    (hstatus : statusIsOk t = false) :
    runInit s = .next t ∧ t.blk.err = some e ∧ t.blk.flg.run = false ∧ MacOff t := by
  obtain ⟨-, -, hflg⟩ := bringup_flags hexec
  refine ⟨hinit.trans (runWhileOk_stop hexec hstatus), herr, ?_, hoff.bringup hexec⟩
  rw [hflg, hblk]
  rfl

/-- An operation that ends with a fatal result word stops the host. -/
theorem statusIsOk_of_head {t : State} {w : BitVec 64} {rest : List Event} (hend : EndsWithResult t)
    (htrace : t.trace = .result w :: rest) (hw : w.extractLsb' 56 8 ≠ statusCode .ok) : statusIsOk t = false := by
  rw [EndsWithResult, htrace, List.head?_cons, Option.some.injEq, Event.result.injEq] at hend
  rw [statusIsOk, ← hend]
  exact decide_eq_false hw

/-- `BRINGUP` ends with its result. -/
theorem bringup_endsWithResult {s t : State} (hexec : exec .bringup s = .next t) : EndsWithResult t :=
  (workingRegisterTable.1 .bringup s t hexec).1.resolve_right (by simp)

/-- Settles O35: construction runs operation by operation, and the first error stops it. -/
theorem initConstructsDriverOrStops : Obligations.InitConstructsDriverOrStops := by
  intro s hblk hq hready hoff poolFits
  have hrest : AtRest s := ⟨hq, hready, hoff⟩
  have hcheck := ringInitPoolCheck s (by rw [hblk]; rfl) (by rw [hblk]; rfl)
  rw [s.tick_quiet hq] at hcheck
  refine ⟨fun p r k hvalid hfits hsim hr hk hstatus hrlo hrhi hklo hkhi hne => ?_, fun hinvalid => ⟨?_, hoff⟩,
    fun hvalid hrange => ⟨?_, hoff⟩, fun hvalid hfits p hsim hr => ?_,
    fun hvalid hfits p r hsim hr hlo hhi hstatus hk hne => ?_⟩
  · obtain ⟨u, hinit, hcfg, hblku, ⟨hqu, hreadyu, hoffu⟩, hsimu⟩ := runInit_prepared hblk hrest hvalid hfits
    obtain ⟨t, hexec, hpc, herr, -, -, -, hresult, -⟩ := bringupSucceedsInSimEnv u p r k (by rw [hblku]; rfl)
      (by rw [hblku]; rfl) hqu hreadyu (hsimu.trans hsim) hr hk hstatus hrlo (by rw [hcfg]; exact hrhi) hklo
      (by rw [hcfg]; exact hkhi) (by rw [hcfg]; exact hne)
    obtain ⟨htxc, hrxc, hflg⟩ := bringup_flags hexec
    rw [hblku] at htxc hrxc hflg
    obtain ⟨x, v', henable, hcfgx, -, hblkx, -, -, htx, hrx, -⟩ := macEnableResult t herr hpc hflg
    have hcfgt : t.cfg = s.cfg := (runs_exec hexec).cfg.trans hcfg
    rw [hcfgt] at htx hrx
    refine ⟨x, ?_, by rw [hblkx], by rw [hblkx]; exact hpc, by rw [hblkx]; exact herr, by rw [hblkx]; exact htxc,
      by rw [hblkx]; exact hrxc, htx, hrx⟩
    rw [hinit, runWhileOk_ok hexec hresult, runWhileOk_ok henable (v := 0) (by rw [hblkx])]
    rfl
  · rw [runInit, initOps, runWhileOk_stop (hcheck.1 hinvalid) (statusIsOk_raised _ _)]
  · rw [runInit, initOps, runWhileOk_stop (hcheck.2 hvalid (Nat.lt_of_not_le hrange)) (statusIsOk_raised _ _)]
  · obtain ⟨u, hinit, hcfg, hblku, ⟨hqu, hreadyu, hoffu⟩, hsimu⟩ := runInit_prepared hblk hrest hvalid hfits
    obtain ⟨t, rest, hexec, -, herr, -, -, htrace⟩ := (bringupTimesOutInSimEnv u p (by rw [hblku]; rfl)
      (by rw [hblku]; rfl) hqu hreadyu (hsimu.trans hsim)).1 (by rw [hcfg]; exact hr)
    exact ⟨t, runInit_bringupFails hinit hblku hoffu hexec herr
      (statusIsOk_of_head (bringup_endsWithResult hexec) htrace (by decide))⟩
  · obtain ⟨u, hinit, hcfg, hblku, ⟨hqu, hreadyu, hoffu⟩, hsimu⟩ := runInit_prepared hblk hrest hvalid hfits
    obtain ⟨t, rest, hexec, -, herr, -, -, htrace⟩ := (bringupTimesOutInSimEnv u p (by rw [hblku]; rfl)
      (by rw [hblku]; rfl) hqu hreadyu (hsimu.trans hsim)).2 r hr hlo (by rw [hcfg]; exact hhi) hstatus
      (by rw [hcfg]; exact hk) (by rw [hcfg]; exact hne)
    exact ⟨t, runInit_bringupFails hinit hblku hoffu hexec herr
      (statusIsOk_of_head (bringup_endsWithResult hexec) htrace (by decide))⟩

end Sys2Proof.Machine
end

section
/-! SUPPORT. The order of the rings (rules R217, R224): stretches of slots in ring order, and that the agents' steps and the
operations only lengthen them at the end and shorten them at the front. -/

namespace Sys2Proof.Machine

/-! ## Stretches of a ring -/

/-- The slots of a ring of `n` that `M` marks are a stretch that begins at slot `first` and ends just before slot `last`. -/
def IsStretch (n first last : Nat) (M : Nat → Prop) : Prop :=
  first < n ∧ ∃ p, p ≤ n ∧ last = (first + p) % n ∧ ∀ i, i < n → (M i ↔ inStretch n first p i)

/-- The way from slot `a` to slot `i`, in ring order. -/
def ringDist (n a i : Nat) : Nat := if a ≤ i then i - a else i + n - a

/-- At most one turn of the ring. -/
theorem add_mod_ring {n a p : Nat} (ha : a < n) (hp : p ≤ n) : (a + p) % n = if a + p < n then a + p else a + p - n := by
  split
  · exact Nat.mod_eq_of_lt ‹_›
  · rw [Nat.mod_eq_sub_mod (by omega), Nat.mod_eq_of_lt (by omega)]

theorem inStretch_iff {n a p i : Nat} (ha : a < n) (hp : p ≤ n) (hi : i < n) : inStretch n a p i ↔ ringDist n a i < p := by
  unfold inStretch ringDist
  constructor
  · rintro ⟨k, hk, rfl⟩
    rw [add_mod_ring ha (by omega)]
    split <;> split <;> omega
  · intro h
    refine ⟨_, h, ?_⟩
    have hle : (if a ≤ i then i - a else i + n - a) ≤ n := by split <;> omega
    rw [add_mod_ring ha hle]
    split <;> split <;> omega

section Stretch
variable {n first last : Nat} {M M' : Nat → Prop}

theorem IsStretch.congr (h : IsStretch n first last M) (hM : ∀ i, i < n → (M' i ↔ M i)) : IsStretch n first last M' := by
  obtain ⟨hfirst, p, hp, hlast, hiff⟩ := h
  exact ⟨hfirst, p, hp, hlast, fun i hi => (hM i hi).trans (hiff i hi)⟩

/-- The end of a stretch is a slot of the ring. -/
theorem IsStretch.last_lt (h : IsStretch n first last M) : last < n := by
  obtain ⟨hfirst, p, -, rfl, -⟩ := h
  exact Nat.mod_lt _ (by omega)

/-- No slot marked: the empty stretch. -/
theorem isStretch_empty (hfirst : first < n) (hM : ∀ i, i < n → ¬ M i) : IsStretch n first first M := by
  refine ⟨hfirst, 0, Nat.zero_le _, (Nat.mod_eq_of_lt hfirst).symm, fun i hi => iff_of_false (hM i hi) ?_⟩
  rintro ⟨k, hk, -⟩
  omega

/-- One slot more at the end. -/
theorem IsStretch.grow (h : IsStretch n first last M) (hfree : ¬ M last) :
    IsStretch n first ((last + 1) % n) fun i => M i ∨ i = last := by
  have hlt := h.last_lt
  obtain ⟨hfirst, p, hp, hlast, hiff⟩ := h
  rw [hiff last hlt, inStretch_iff hfirst hp hlt] at hfree
  have hmod := add_mod_ring hfirst hp
  unfold ringDist at hfree
  have hp' : p + 1 ≤ n := by
    split at hfree <;> split at hmod <;> omega
  refine ⟨hfirst, p + 1, hp', ?_, fun i hi => ?_⟩
  · rw [hlast, Nat.mod_add_mod, Nat.add_assoc]
  · show M i ∨ i = last ↔ _
    rw [hiff i hi, inStretch_iff hfirst hp hi, inStretch_iff hfirst hp' hi]
    unfold ringDist
    split at hmod <;> split <;> omega

/-- The first slot of a stretch, and the stretch after it. -/
theorem inStretch_succ {a p i : Nat} (ha : a < n) (hp : p + 1 ≤ n) (hi : i < n) :
    inStretch n ((a + 1) % n) p i ↔ inStretch n a (p + 1) i ∧ i ≠ a := by
  have hnext : (a + 1) % n < n := Nat.mod_lt _ (by omega)
  rw [inStretch_iff ha hp hi, inStretch_iff hnext (by omega) hi, add_mod_ring ha (by omega : 1 ≤ n)]
  unfold ringDist
  split <;> split <;> split <;> omega

/-- One slot less at the front. -/
theorem IsStretch.shrink (h : IsStretch n first last M) (hmarked : M first) :
    IsStretch n ((first + 1) % n) last fun i => M i ∧ i ≠ first := by
  obtain ⟨hfirst, p, hp, hlast, hiff⟩ := h
  rw [hiff first hfirst, inStretch_iff hfirst hp hfirst] at hmarked
  obtain ⟨p, rfl⟩ : ∃ q, p = q + 1 := ⟨p - 1, by omega⟩
  refine ⟨Nat.mod_lt _ (by omega), p, by omega, ?_, fun i hi => ?_⟩
  · rw [hlast, Nat.mod_add_mod, Nat.add_assoc, Nat.add_comm 1 p]
  · show M i ∧ i ≠ first ↔ _
    rw [hiff i hi, inStretch_succ hfirst hp hi]

/-- The slot at the end is marked only in a full ring. -/
theorem IsStretch.full_iff (h : IsStretch n first last M) : M last ↔ ∀ i, i < n → M i := by
  have hlt := h.last_lt
  refine ⟨fun hmarked i hi => ?_, fun hall => hall last hlt⟩
  by_contra hfree
  obtain ⟨hfirst, p, hp, hlast, hiff⟩ := h
  rw [hiff last hlt, inStretch_iff hfirst hp hlt] at hmarked
  rw [hiff i hi, inStretch_iff hfirst hp hi] at hfree
  have hmod := add_mod_ring hfirst hp
  unfold ringDist at hmarked hfree
  split at hmod <;> split at hmarked <;> split at hfree <;> omega

/-- The slot at the front is free only in an empty ring. -/
theorem IsStretch.marked_iff (h : IsStretch n first last M) : M first ↔ ∃ i, i < n ∧ M i := by
  obtain ⟨hfirst, p, hp, -, hiff⟩ := h
  refine ⟨fun hmarked => ⟨first, hfirst, hmarked⟩, fun ⟨i, hi, hmarked⟩ => ?_⟩
  rw [hiff i hi, inStretch_iff hfirst hp hi] at hmarked
  rw [hiff first hfirst, inStretch_iff hfirst hp hfirst]
  simp only [ringDist, le_refl, if_true, Nat.sub_self]
  omega

end Stretch

/-! ## The rings of a device -/

/-- The slot belongs to the hardware, in a device. -/
def Device.owns (c : Cfg) (d : Device) (r : Ring) (i : Nat) : Bool := Field.test c.layout.own (d.desc r .control i)

/-- Exactly the last slot of a ring carries the wrap flag (R52). -/
def Device.singleWrap (c : Cfg) (d : Device) (r : Ring) : Prop :=
  ∀ i, i < ringDepth c r → Field.test c.layout.wrap (d.desc r .control i) = decide (i + 1 = ringDepth c r)

/-- The order of a device's ring, with the block's cursor: on TX the ready slots run from the hardware's position to the
cursor (R217), on RX the slots with a frame from the cursor to the hardware's position (R224). -/
def Device.ordered (c : Cfg) (d : Device) (cursor : Nat) : Ring → Prop
  | .tx => IsStretch c.nTx d.txPos cursor fun i => d.owns c .tx i = true
  | .rx => IsStretch c.nRx cursor d.rxPos fun i => d.owns c .rx i = false

/-- A ring in order, with its single wrap flag. -/
structure Device.RingOk (c : Cfg) (d : Device) (r : Ring) (cursor : Nat) : Prop where
  wrap  : d.singleWrap c r
  order : d.ordered c cursor r

/-- The control words of a ring and the hardware's position in it decide its order. -/
theorem Device.RingOk.of_eq {c : Cfg} {d e : Device} {r : Ring} {cursor : Nat} (h : d.RingOk c r cursor)
    (hdesc : ∀ i, e.desc r .control i = d.desc r .control i) (htx : r = .tx → e.txPos = d.txPos)
    (hrx : r = .rx → e.rxPos = d.rxPos) : e.RingOk c r cursor := by
  obtain ⟨hwrap, horder⟩ := h
  have howns : ∀ i, e.owns c r i = d.owns c r i := fun i => by rw [Device.owns, Device.owns, hdesc]
  refine ⟨fun i hi => by rw [hdesc]; exact hwrap i hi, ?_⟩
  cases r with
  | tx =>
    rw [Device.ordered, htx rfl]
    exact horder.congr fun i _ => by rw [howns]
  | rx =>
    rw [Device.ordered, hrx rfl]
    exact horder.congr fun i _ => by rw [howns]

/-- Under the single wrap flag, a DMA engine goes round its ring (R96, R99). -/
theorem posAfter_ring {c : Cfg} {d : Device} {r : Ring} (hwrap : d.singleWrap c r) {i : Nat} (hi : i < ringDepth c r) :
    posAfter c.layout (d.desc r .control i) i = (i + 1) % ringDepth c r := by
  rw [posAfter, hwrap i hi]
  by_cases hlast : i + 1 = ringDepth c r
  · rw [decide_eq_true hlast, if_pos rfl, hlast, Nat.mod_self]
  · rw [decide_eq_false hlast, if_neg Bool.false_ne_true, Nat.mod_eq_of_lt (by omega)]

/-- A word written to a slot that keeps the wrap flag keeps the single wrap. -/
theorem Device.singleWrap.setDesc {c : Cfg} {d : Device} {r : Ring} (h : d.singleWrap c r) {k : Nat} {v : Word}
    (hv : Field.test c.layout.wrap v = Field.test c.layout.wrap (d.desc r .control k)) :
    (d.setDesc r .control k v).singleWrap c r := by
  intro i hi
  rw [Device.desc_setDesc]
  split
  · obtain ⟨-, -, rfl⟩ := ‹_ ∧ _ ∧ _›
    rw [hv]
    exact h i hi
  · exact h i hi

theorem Device.owns_setDesc (c : Cfg) (d : Device) (r : Ring) (k : Nat) (v : Word) (i : Nat) :
    (d.setDesc r .control k v).owns c r i = if i = k then Field.test c.layout.own v else d.owns c r i := by
  rw [Device.owns, Device.desc_setDesc]
  by_cases hi : i = k
  · simp [hi]
  · simp [hi, Device.owns]

/-! ## The agents' steps -/

/-- The TX engine takes the first slot off the ready ones. -/
theorem Device.RingOk.txConsume {c : Cfg} {d : Device} {cursor : Nat} (h : d.RingOk c .tx cursor) (other : Word) :
    (d.txConsume c other).RingOk c .tx cursor := by
  by_cases hact : macTxOn c.layout d = true ∧ Field.test c.layout.own (d.desc .tx .control d.txPos) = true
  · obtain ⟨hon, hown⟩ := hact
    obtain ⟨hwrap, horder⟩ := h
    have hpos : d.txPos < ringDepth c .tx := horder.1
    rw [Device.txConsume_owned other hon hown]
    refine ⟨hwrap.setDesc (wrap_consumedControl c _ other), ?_⟩
    show IsStretch c.nTx (posAfter c.layout _ d.txPos) cursor _
    rw [posAfter_ring hwrap hpos]
    refine (horder.shrink hown).congr fun i _ => ?_
    show (d.setDesc .tx .control d.txPos (consumedControl c.layout _ other)).owns c .tx i = true ↔ _
    rw [Device.owns_setDesc, own_consumedControl]
    by_cases hi : i = d.txPos <;> simp [hi]
  · rw [Device.txConsume_idle other (by simpa only [not_and_or, Bool.not_eq_true] using hact)]
    exact h

/-- The RX engine puts its slot behind those with a frame. -/
theorem Device.RingOk.rxHandOver {c : Cfg} {d : Device} {cursor : Nat} (h : d.RingOk c .rx cursor)
    (hown : Field.test c.layout.own (d.desc .rx .control d.rxPos) = true) (len : Half) (other : Word) :
    (d.rxHandOver c len other).RingOk c .rx cursor := by
  obtain ⟨hwrap, horder⟩ := h
  have hpos : d.rxPos < ringDepth c .rx := horder.last_lt
  refine ⟨hwrap.setDesc (wrap_filledControl c _ other len), ?_⟩
  show IsStretch c.nRx cursor (posAfter c.layout _ d.rxPos) _
  rw [posAfter_ring hwrap hpos]
  refine (horder.grow (by rw [Device.owns, hown]; decide)).congr fun i _ => ?_
  show (d.setDesc .rx .control d.rxPos (filledControl c.layout _ len other)).owns c .rx i = false ↔ _
  rw [Device.owns_setDesc, own_filledControl]
  by_cases hi : i = d.rxPos <;> simp [hi]

/-- An agent's step keeps a ring in order. -/
theorem Device.RingOk.devAct {c : Cfg} {d : Device} {r : Ring} {cursor : Nat} (h : d.RingOk c r cursor) (a : DevAct)
    (m : Memory) : (devAct c a d m).1.RingOk c r cursor := by
  cases a with
  | miiComplete other =>
    have hsame := d.miiFinish_sameRings c other
    exact h.of_eq (fun i => hsame.desc r .control i) (fun _ => hsame.txPos) fun _ => hsame.rxPos
  | miiStatusBits v | moderBits v | intRaise v | phySet phy reg v => exact h.of_eq (fun _ => rfl) (fun _ => rfl) fun _ => rfl
  | txConsume other =>
    cases r with
    | tx => exact h.txConsume other
    | rx =>
      obtain ⟨-, -, hrc, -, hpos, -⟩ := txEngineContract c other d m
      refine h.of_eq (fun i => ?_) (fun hr => by cases hr) fun _ => hpos
      simp only [Device.desc]
      rw [hrc]
  | rxByte k b =>
    simp only [Machine.devAct]
    split
    all_goals exact h
  | rxFill frame len other =>
    simp only [Machine.devAct]
    split
    · have hmay := ‹Device.rxMayFill c d = true›
      rw [Device.rxMayFill, Bool.and_eq_true] at hmay
      cases r with
      | tx => exact h.of_eq (fun _ => rfl) (fun _ => rfl) fun hr => by cases hr
      | rx => exact h.rxHandOver hmay.2 len other
    · exact h

section Spares
variable {r : Ring} {l : Loc} (hmoder : l ≠ .reg .moder) (hcontrol : ∀ k, l ≠ .desc r .control k)
include hmoder hcontrol

/-- A write anywhere but in the ring's control words and in `MODER` leaves them and the hardware's positions alone. -/
theorem Device.put_spares (c : Cfg) (d : Device) (v : Word) : (∀ i, (d.put c l v).desc r .control i = d.desc r .control i)
    ∧ (d.put c l v).txPos = d.txPos ∧ (d.put c l v).rxPos = d.rxPos := by
  cases l with
  | reg reg =>
    obtain ⟨hsame, -⟩ := d.put_reg_keeps c (fun e => hmoder (congrArg Loc.reg e)) v
    exact ⟨hsame.desc r .control, hsame.txPos, hsame.rxPos⟩
  | desc r' w k =>
    refine ⟨fun i => Device.desc_setDesc_word d ?_ k i v, Device.setDesc_txPos .., Device.setDesc_rxPos ..⟩
    rintro ⟨rfl, rfl⟩
    exact hcontrol k rfl

/-- Such a write keeps the ring in order. -/
theorem Device.RingOk.put {c : Cfg} {d : Device} {cursor : Nat} (h : d.RingOk c r cursor) (v : Word) :
    (d.put c l v).RingOk c r cursor := by
  obtain ⟨hdesc, htx, hrx⟩ := d.put_spares hmoder hcontrol c v
  exact h.of_eq hdesc (fun _ => htx) fun _ => hrx

end Spares

/-! ## Runs -/

section Runs
variable {A : Allowed} {s t : State} {r : Ring}

/-- Nothing of the run writes a control word of the ring, or `MODER`. -/
def Allowed.sparesRing (A : Allowed) (r : Ring) : Prop :=
  ∀ l, A.write l → l ≠ .reg .moder ∧ ∀ k, l ≠ .desc r .control k

/-- Such a run keeps the ring in order, whatever the agents do. -/
theorem Runs.ringOk {c : Cfg} {cursor : Nat} (h : Runs A s t) (hspares : A.sparesRing r) (hc : s.cfg = c)
    (h0 : s.dev.RingOk c r cursor) : t.dev.RingOk c r cursor := by
  subst hc
  exact h.induct (P := fun d _ => d.RingOk s.cfg r cursor) (fun a d m hd => hd.devAct a m)
    (fun l v d m hl hd => hd.put (hspares l hl).1 (hspares l hl).2 v) (fun _ _ _ _ _ hd => hd) h0

/-- It leaves the word of a slot that is the block's as it was. -/
theorem Runs.notOwned {i : Nat} (h : Runs A s t) (hspares : A.sparesRing r) (hfree : owned s r i = false) :
    t.dev.desc r .control i = s.dev.desc r .control i := by
  refine h.induct (P := fun d _ => d.desc r .control i = s.dev.desc r .control i) (fun a d m hd => ?_)
    (fun l v d m hl hd => ?_) (fun _ _ _ _ _ hd => hd) rfl
  · obtain ⟨-, hkeeps⟩ := devAct_desc s.cfg a d m r i
    rw [hkeeps (by rw [hd]; exact hfree), hd]
  · exact ((d.put_spares (hspares l hl).1 (hspares l hl).2 s.cfg v).1 i).trans hd

/-- It leaves every wrap flag of the ring as it was. -/
theorem Runs.wraps (h : Runs A s t) (hspares : A.sparesRing r) (i : Nat) : wraps t r i = wraps s r i := by
  rw [Machine.wraps, h.cfg]
  refine h.induct (P := fun d _ => Field.test s.cfg.layout.wrap (d.desc r .control i) = Machine.wraps s r i)
    (fun a d m hd => ?_) (fun l v d m hl hd => ?_) (fun _ _ _ _ _ hd => hd) rfl
  · exact (devAct_desc s.cfg a d m r i).1.trans hd
  · rw [(d.put_spares (hspares l hl).1 (hspares l hl).2 s.cfg v).1 i]
    exact hd

end Runs

/-- A run that copies bytes and writes no register. -/
def copying : Allowed where
  read _ := True
  write _ := False
  mem := True
  event _ := True
  pass := False

theorem copying_sparesRing (r : Ring) : copying.sparesRing r := fun _ h => h.elim

/-- The agents' turn keeps a ring in order. -/
theorem Device.RingOk.tick {s : State} {r : Ring} {cursor : Nat} (h : s.dev.RingOk s.cfg r cursor) :
    s.tick.dev.RingOk s.cfg r cursor :=
  (Runs.refl (A := copying).tick).ringOk (copying_sparesRing r) rfl h

/-- A slot copy at a slot that its read shows to be the block's: it ends with the write of its word, in a state in which the
ring is in order and the word as it was read. -/
theorem slotCopy_dev {r : Ring} {i cursor : Nat} (src dst : Addr) (n : Nat) (v : Word) {s : State}
    (hfree : s.tick.dev.owns s.cfg r i = false) (hok : s.dev.RingOk s.cfg r cursor) :
    ∃ d : Device, (slotCopy r i src dst n v s).dev = d.setDesc r .control i v ∧ d.RingOk s.cfg r cursor
      ∧ d.desc r .control i = s.tick.dev.desc r .control i := by
  set u := s.mmioRead (.desc r .control i)
  have hcfg : u.cfg = s.cfg := State.mmioRead_cfg _ _
  have hrun : Runs copying u (u.copyBytes src dst n).tick := (runs_copyBytes trivial src dst n u).tick
  refine ⟨(u.copyBytes src dst n).tick.dev, rfl, hrun.ringOk (copying_sparesRing r) hcfg hok.tick, ?_⟩
  refine hrun.notOwned (copying_sparesRing r) ?_
  rw [owned, hcfg]
  exact hfree

/-- `TRANSMIT`'s copy puts the slot at the cursor behind the ready ones, and the cursor after it. -/
theorem slotCopy_txOk {cursor : Nat} (src dst : Addr) (n : Nat) {v : Word} {s : State}
    (hok : s.dev.RingOk s.cfg .tx cursor) (hfree : s.tick.dev.owns s.cfg .tx cursor = false)
    (hown : Field.test s.cfg.layout.own v = true)
    (hwrap : Field.test s.cfg.layout.wrap v = Field.test s.cfg.layout.wrap (s.tick.dev.desc .tx .control cursor)) :
    (slotCopy .tx cursor src dst n v s).dev.RingOk s.cfg .tx ((cursor + 1) % s.cfg.nTx) := by
  obtain ⟨d, hd, ⟨hwrapd, horder⟩, hword⟩ := slotCopy_dev src dst n v hfree hok
  have hfree' : d.owns s.cfg .tx cursor = false := by rw [Device.owns, hword]; exact hfree
  rw [hd]
  refine ⟨hwrapd.setDesc (by rw [hword]; exact hwrap), ?_⟩
  refine (IsStretch.grow horder (by rw [hfree']; decide)).congr fun i _ => ?_
  rw [Device.owns_setDesc, hown]
  by_cases hi : i = cursor <;> simp [hi]

/-- The receive procedure takes the slot at the cursor off those with a frame. -/
theorem slotCopy_rxOk {cursor : Nat} (src dst : Addr) (n : Nat) {v : Word} {s : State}
    (hok : s.dev.RingOk s.cfg .rx cursor) (hfree : s.tick.dev.owns s.cfg .rx cursor = false)
    (hown : Field.test s.cfg.layout.own v = true)
    (hwrap : Field.test s.cfg.layout.wrap v = Field.test s.cfg.layout.wrap (s.tick.dev.desc .rx .control cursor)) :
    (slotCopy .rx cursor src dst n v s).dev.RingOk s.cfg .rx ((cursor + 1) % s.cfg.nRx) := by
  obtain ⟨d, hd, ⟨hwrapd, horder⟩, hword⟩ := slotCopy_dev src dst n v hfree hok
  have hfree' : d.owns s.cfg .rx cursor = false := by rw [Device.owns, hword]; exact hfree
  rw [hd]
  refine ⟨hwrapd.setDesc (by rw [hword]; exact hwrap), ?_⟩
  refine (IsStretch.shrink horder hfree').congr fun i _ => ?_
  rw [Device.owns_setDesc, hown]
  by_cases hi : i = cursor <;> simp [hi]

end Sys2Proof.Machine
end

section
/-! SUPPORT. The order of the rings through operations and steps (rules R217, R224), and the answers that rest on it. -/

namespace Sys2Proof.Machine

/-! ## The order as a fact about the device -/

section Safe
variable {s : State} (hsafe : Safe s) (hrun : s.blk.flg.run = true)
include hsafe hrun

theorem singleWrap_of_safe (r : Ring) : s.dev.singleWrap s.cfg r :=
  hsafe.rings.single_wrap (hsafe.block.run_constructed hrun).2.1 r

theorem ringOk_tx_of_safe (h : TxRingOrdered s) : s.dev.RingOk s.cfg .tx s.blk.txc.toNat :=
  ⟨singleWrap_of_safe hsafe hrun .tx, h hrun⟩

theorem ringOk_rx_of_safe (h : RxRingOrdered s) : s.dev.RingOk s.cfg .rx s.blk.rxc.toNat :=
  ⟨singleWrap_of_safe hsafe hrun .rx, hsafe.block.rxc_lt, (h hrun).2⟩

end Safe

theorem txRingOrdered_of_ringOk {s : State} (h : s.dev.RingOk s.cfg .tx s.blk.txc.toNat) : TxRingOrdered s :=
  fun _ => h.order

theorem rxRingOrdered_of_ringOk {s : State} (h : s.dev.RingOk s.cfg .rx s.blk.rxc.toNat) : RxRingOrdered s :=
  fun _ => ⟨h.order.last_lt, h.order.2⟩

/-! ## Which operations write a ring's control words -/

/-- The operations that set up slots. -/
def setsUpSlots (i : Instr) : Prop := i = .ringInit ∨ ∃ k a, i = .setupTxSlot k a ∨ i = .setupRxSlot k a

/-- The operations of the data path that hand over slots of a ring. -/
def usesRing (i : Instr) : Ring → Prop
  | .tx => ∃ len src, i = .transmit len src
  | .rx => i = .dispatch ∨ ∃ n dst, i = .receive n dst

/-- A named register other than `MODER` is no control word. -/
theorem sparesRing_of_reg {A : Allowed} {r : Ring} (h : ∀ l, A.write l → ∃ reg : Reg, reg ≠ .moder ∧ l = .reg reg) :
    A.sparesRing r := fun l hl => by
  obtain ⟨reg, hreg, rfl⟩ := h l hl
  refine ⟨fun e => hreg (Loc.reg.inj e), fun k e => ?_⟩
  cases e

/-- The slots of one ring are no slots of the other. -/
theorem SlotWord.spares {s : State} {r r' : Ring} {w : DescWord} {l : Loc} (h : SlotWord s r' w l) (hne : r' ≠ r) :
    l ≠ .reg .moder ∧ ∀ k, l ≠ .desc r .control k := by
  obtain ⟨j, -, rfl⟩ := h
  constructor
  · intro e
    cases e
  · intro k e
    cases e
    exact hne rfl

/-- Every other operation but `MAC_ENABLE` spares the ring. -/
theorem allowedFor_sparesRing (s : State) (i : Instr) (r : Ring) :
    (allowedFor s i).sparesRing r ∨ setsUpSlots i ∨ i = .macEnable ∨ usesRing i r := by
  cases i with
  | ringInit => exact .inr (.inl (.inl rfl))
  | setupTxSlot k a => exact .inr (.inl (.inr ⟨k, a, .inl rfl⟩))
  | setupRxSlot k a => exact .inr (.inl (.inr ⟨k, a, .inr rfl⟩))
  | macEnable => exact .inr (.inr (.inl rfl))
  | macAddrWrite =>
    refine .inl (sparesRing_of_reg fun l hl => ?_)
    obtain hl | hl := hl
    · exact ⟨_, by decide, hl⟩
    · exact ⟨_, by decide, hl⟩
  | irqMaskSet => exact .inl (sparesRing_of_reg fun l hl => ⟨.intMask, by decide, hl⟩)
  | bringup =>
    refine .inl (sparesRing_of_reg fun l hl => ?_)
    obtain ⟨reg, hreg, hmoder, -⟩ := miiReg_of_write hl
    exact ⟨reg, hmoder, hreg⟩
  | receiveReady | receiveLength | macAddress => exact .inl fun l hl => hl.elim
  | transmit len src =>
    cases r with
    | tx => exact .inr (.inr (.inr ⟨len, src, rfl⟩))
    | rx => exact .inl fun l hl => SlotWord.spares hl (by decide)
  | receive n dst =>
    cases r with
    | tx => exact .inl fun l hl => SlotWord.spares hl (by decide)
    | rx => exact .inr (.inr (.inr (.inr ⟨n, dst, rfl⟩)))
  | dispatch =>
    cases r with
    | tx =>
      refine .inl fun l hl => ?_
      obtain rfl | hl := hl
      · exact ⟨by decide, fun k e => by cases e⟩
      · exact SlotWord.spares hl (by decide)
    | rx => exact .inr (.inr (.inr (.inl rfl)))

theorem dispatch_sparesTx (s : State) : (allowedFor s .dispatch).sparesRing .tx := by
  obtain h | (h | ⟨k, a, h | h⟩) | h | ⟨len, src, h⟩ := allowedFor_sparesRing s .dispatch .tx
  · exact h
  all_goals cases h

/-- While the block runs, no slot is set up: the rings have been (R121). -/
theorem not_setsUpSlots {i : Instr} {s : State} (hsafe : Safe s) (hg : stateGate i s.blk = true)
    (hrun : s.blk.flg.run = true) : ¬ setsUpSlots i := by
  have hrings : gateRingsOpen s.blk = false := by
    rw [gateRingsOpen, (hsafe.block.run_constructed hrun).2.1]
    rfl
  rintro (rfl | ⟨k, a, rfl | rfl⟩)
  all_goals
    rw [stateGate, hrings] at hg
    cases hg

/-! ## `MAC_ENABLE` -/

/-- When the MAC is enabled, both engines start at slot 0, where the cursors stand, with every TX slot the block's and every
RX slot the hardware's (R96, R99, R195). -/
theorem macEnable_ringOk {s : State} (hsafe : Safe s) (hg : gateEnable s.blk = true) :
    (macEnable s).dev.RingOk s.cfg .tx (macEnable s).blk.txc.toNat
      ∧ (macEnable s).dev.RingOk s.cfg .rx (macEnable s).blk.rxc.toNat := by
  obtain ⟨-, hrings, -, hrun⟩ := (gateEnable_eq_true_iff s.blk).1 hg
  obtain ⟨htxc, hrxc⟩ := hsafe.block.cursors_zero hrun
  obtain ⟨hsame, -⟩ := macEnable_macOff (hsafe.mac.enabled_iff false hrun)
  have hok : ∀ r, ({ s.dev with txPos := 0, rxPos := 0 } : Device).RingOk s.cfg r 0 := fun r => by
    refine ⟨hsafe.rings.single_wrap hrings r, ?_⟩
    cases r with
    | tx =>
      refine isStretch_empty s.cfg.ranges.1.1 fun i hi hown => ?_
      exact Bool.false_ne_true ((hsafe.mac.owned_tx hrings hrun i hi).symm.trans hown)
    | rx =>
      refine isStretch_empty s.cfg.ranges.2.1.1 fun i hi hown => ?_
      exact Bool.false_ne_true (hown.symm.trans (hsafe.mac.owned_rx hrings hrun i hi))
  rw [macEnable_blk, htxc, hrxc]
  exact ⟨(hok .tx).of_eq (hsame.desc .tx .control) (fun _ => hsame.txPos) fun _ => hsame.rxPos,
    (hok .rx).of_eq (hsame.desc .rx .control) (fun _ => hsame.txPos) fun _ => hsame.rxPos⟩

/-! ## The words that the data path writes -/

/-- `TRANSMIT` marks the slot ready (R215). -/
theorem own_txControlValue (c : Cfg) (w : Word) {len : Nat} (hlen : len ≤ c.slotSize) :
    Field.test c.layout.own (txControlValue c w len) = true := by
  obtain ⟨-, -, -, hown, -⟩ := transmitDescriptorWord.1 c w len 0 hlen (by decide)
  rw [Field.test, hown]
  rfl

/-- `TRANSMIT` keeps the wrap flag (R52). -/
theorem wrap_txControlValue (c : Cfg) (w : Word) (len : Nat) :
    Field.test c.layout.wrap (txControlValue c w len) = Field.test c.layout.wrap w := by
  obtain ⟨hw, hlo⟩ := c.wrap_ok
  rw [txControlValue, Field.test_set_apart _ _ _ _ hw hlo (irq_apart_wrap c),
    Field.test_set_apart _ _ _ _ hw hlo (own_apart_wrap c), Field.test_set_apart _ _ _ _ hw hlo (wrap_apart_len c),
    Field.test_set_apart _ _ _ _ hw hlo (wrap_apart_crc c), Field.test_set_apart _ _ _ _ hw hlo (wrap_apart_pad c)]

/-- So does the receive procedure. -/
theorem wrap_set_own (c : Cfg) (w x : Word) :
    Field.test c.layout.wrap (Field.set c.layout.own w x) = Field.test c.layout.wrap w :=
  Field.test_set_apart _ _ _ _ c.wrap_ok.1 c.wrap_ok.2 (own_apart_wrap c)

/-! ## `TRANSMIT` and the receive procedure -/

/-- `TRANSMIT` keeps the order of the TX ring. -/
theorem transmit_ringOk {s : State} {len : Nat} (src : Addr) (hlen : len ≤ s.cfg.slotSize)
    (h : s.dev.RingOk s.cfg .tx s.blk.txc.toNat) :
    (transmit len src s).dev.RingOk s.cfg .tx (transmit len src s).blk.txc.toNat := by
  cases hown : Field.test s.cfg.layout.own (s.mmioVal (txSlot s)) with
  | true =>
    rw [transmit_retry hown]
    show s.tick.dev.RingOk s.cfg .tx (s.mmioRead (txSlot s)).blk.txc.toNat
    rw [State.mmioRead_blk]
    exact h.tick
  | false =>
    rw [transmit_accepted hown, State.finish_dev, State.setBlk_dev, State.finish_blk, State.setBlk_blk]
    show Device.RingOk s.cfg _ .tx (ringNext s.blk.txc s.cfg.nTx).toNat
    rw [ringNext_toNat _ _ s.cfg.ranges.1.1 s.cfg.ranges.1.2]
    exact slotCopy_txOk _ _ _ h hown (own_txControlValue _ _ hlen) (wrap_txControlValue _ _ _)

theorem rxReceive_cfg (dst : Addr) (cap : Nat) (s : State) : (rxReceive dst cap s).cfg = s.cfg := by
  rw [rxReceive_eq, State.setBlk_cfg, slotCopy_cfg]

/-- The receive procedure, at a slot that its read shows to hold a frame, keeps the order of the RX ring. -/
theorem rxReceive_ringOk {s : State} (dst : Addr) (cap : Nat) (h : s.dev.RingOk s.cfg .rx s.blk.rxc.toNat)
    (hfree : Field.test s.cfg.layout.own (s.mmioVal (rxSlot s)) = false) :
    (rxReceive dst cap s).dev.RingOk s.cfg .rx (rxReceive dst cap s).blk.rxc.toNat := by
  rw [rxReceive_eq, State.setBlk_dev, State.setBlk_blk]
  show Device.RingOk s.cfg _ .rx (ringNext s.blk.rxc s.cfg.nRx).toNat
  rw [ringNext_toNat _ _ s.cfg.ranges.2.1.1 s.cfg.ranges.2.1.2]
  exact slotCopy_rxOk _ _ _ h hfree (test_own_set _ _) (wrap_set_own _ _ _)

/-! ## The drain -/

/-- The RX ring is in order, with the block's cursor. -/
def RxOk (s : State) : Prop := s.dev.RingOk s.cfg .rx s.blk.rxc.toNat

/-- A run that spares the RX ring and leaves the cursor keeps it in order. -/
theorem RxOk.runs {A : Allowed} {s t : State} (h : RxOk s) (hrun : Runs A s t) (hspares : A.sparesRing .rx)
    (hrxc : t.blk.rxc = s.blk.rxc) : RxOk t := by
  rw [RxOk, hrun.cfg, hrxc]
  exact hrun.ringOk hspares rfl h

/-- One frame of a drain, after a ready check that saw it. -/
theorem drainFrame_rxOk {s : State} (h : RxOk s) (hready : Field.test s.cfg.layout.own (s.mmioVal (rxSlot s)) = false) :
    RxOk (drainFrame (s.mmioVal (rxSlot s)) (s.mmioRead (rxSlot s))) := by
  set w := s.mmioVal (rxSlot s)
  set s1 := s.mmioRead (rxSlot s)
  set s2 := s1.askRxBuffer (Field.get s1.cfg.layout.len w).toNat
  have hcfg : s2.cfg = s.cfg := by rw [State.askRxBuffer_cfg, State.mmioRead_cfg]
  have hblk : s2.blk = s.blk := by rw [State.askRxBuffer_blk, State.mmioRead_blk]
  have hrun : Runs copying s s2 := (Runs.refl.mmioRead _ trivial).ask _ trivial
  have hok : RxOk s2 := h.runs hrun (copying_sparesRing .rx) (by rw [hblk])
  have hword : s2.tick.dev.desc .rx .control s.blk.rxc.toNat = w := by
    have hfree : owned s1 .rx s.blk.rxc.toNat = false := by
      rw [owned, State.mmioRead_cfg]
      exact hready
    exact (((Runs.refl (A := copying)).ask _ trivial).tick).notOwned (copying_sparesRing .rx) hfree
  have hfree : Field.test s2.cfg.layout.own (s2.mmioVal (rxSlot s2)) = false := by
    rw [rxSlot_val, hblk, hword, hcfg]
    exact hready
  have hreceive := rxReceive_ringOk s1.rxBufferAnswer.1 s1.rxBufferAnswer.2 hok hfree
  set s3 := rxReceive s1.rxBufferAnswer.1 s1.rxBufferAnswer.2 s2
  have hcfg3 : s3.cfg = s2.cfg := rxReceive_cfg _ _ _
  have hok3 : RxOk s3 := by
    rw [RxOk, hcfg3]
    exact hreceive
  exact hok3.runs ((Runs.refl (A := copying)).emit _ trivial) (copying_sparesRing .rx) (congrArg Block.rxc s3.tick_blk)

/-- The drain keeps the ring in order, turn by turn. -/
theorem drainTurns_rxOk (n : Nat) {s : State} (h : RxOk s) : RxOk (drainTurns n s).2 := by
  induction n generalizing s with
  | zero => exact h
  | succ n ih =>
    rw [drainTurns]
    split
    · exact h
    · split
      · exact h.runs (Runs.refl.mmioRead (A := copying) _ trivial) (copying_sparesRing .rx) (by rw [State.mmioRead_blk])
      · exact ih (drainFrame_rxOk h (by simpa using ‹¬ Field.test _ _ = true›))

/-- What the end of a pass may do: it writes `INT_SOURCE`. -/
def ending : Allowed where
  read _ := False
  write l := l = .reg .intSource
  mem := False
  event _ := True
  pass := True

theorem ending_sparesRing (r : Ring) : ending.sparesRing r :=
  sparesRing_of_reg fun _ hl => ⟨.intSource, by decide, hl⟩

theorem runs_ending (v : Word) (s : State) : Runs ending s (dispatchEnd v s) := by
  refine .setPass _ trivial (.log _ trivial (.setBlk _ (.emit _ trivial (.mmioWrite _ _ rfl ?_))))
  split
  · exact .emit _ trivial .refl
  · exact .refl

theorem dispatchEnd_rxOk (v : Word) {s : State} (h : RxOk s) : RxOk (dispatchEnd v s) :=
  h.runs (runs_ending v s) (ending_sparesRing .rx) (by rw [(dispatchEnd_spec v s).2.1])

theorem drainPass_rxOk (v : Word) {s : State} (h : RxOk s) : RxOk (drainPass v s) := by
  have hdrain := drainTurns_rxOk (s.cfg.nRx + arrivals s.env + 2) h
  unfold drainPass
  split
  · exact dispatchEnd_rxOk v hdrain
  · exact hdrain

theorem continuePass_rxOk (v : Word) {s : State} (h : RxOk s) : RxOk (continuePass v s) := by
  unfold continuePass
  split
  · exact drainPass_rxOk v (s := s.withArrival) h
  · exact drainPass_rxOk v h

theorem dispatchPass_rxOk {s : State} (h : RxOk s) : RxOk (dispatchPass s) := by
  have hread : RxOk (s.mmioRead (.reg .intSource)) :=
    h.runs (Runs.refl.mmioRead (A := copying) _ trivial) (copying_sparesRing .rx) (by rw [State.mmioRead_blk])
  simp only [dispatchPass]
  split
  · exact drainPass_rxOk _ hread
  · exact dispatchEnd_rxOk _ hread

/-! ## Operations and steps -/

/-- The flag that the block runs is set by `MAC_ENABLE` alone. -/
theorem run_of_exec {i : Instr} {s t : State} (hexec : exec i s = .next t) (hi : i ≠ .macEnable)
    (hrun : t.blk.flg.run = true) : s.blk.flg.run = true := by
  obtain ⟨-, -, -, -, -, -, hkept, -⟩ := workingRegisterTable.1 i s t hexec
  rw [← hkept.resolve_right hi]
  exact hrun

/-- The RX cursor is moved by `RECEIVE` and `DISPATCH` alone, the TX cursor by `TRANSMIT`. -/
theorem cursor_of_exec {i : Instr} {s t : State} (hexec : exec i s = .next t) :
    (¬ usesRing i .tx → t.blk.txc = s.blk.txc) ∧ (¬ usesRing i .rx → t.blk.rxc = s.blk.rxc) := by
  obtain ⟨-, htx, hrx, -⟩ := workingRegisterTable.1 i s t hexec
  exact ⟨htx.resolve_right, hrx.resolve_right⟩

/-- An operation that runs, from a safe state, and leaves the block running: it spares the ring, or is `MAC_ENABLE`, or uses
the ring. -/
theorem exec_ring_cases {i : Instr} {s t : State} (hsafe : Safe s) (hexec : exec i s = .next t)
    (hg : stateGate i s.blk = true) (hrun : t.blk.flg.run = true) (r : Ring) :
    i = .macEnable ∨ (s.blk.flg.run = true ∧ (usesRing i r ∨ (¬ usesRing i r ∧ (allowedFor s i).sparesRing r))) := by
  by_cases hi : i = .macEnable
  · exact .inl hi
  · have hs := run_of_exec hexec hi hrun
    refine .inr ⟨hs, ?_⟩
    by_cases huses : usesRing i r
    · exact .inl huses
    · refine .inr ⟨huses, ?_⟩
      obtain h | h | h | h := allowedFor_sparesRing s i r
      · exact h
      · exact (not_setsUpSlots hsafe hg hs h).elim
      · exact (hi h).elim
      · exact (huses h).elim

/-- Every operation keeps the order of the TX ring. -/
theorem exec_txOrdered {i : Instr} {s t : State} (hsafe : Safe s) (hord : TxRingOrdered s) (hexec : exec i s = .next t) :
    TxRingOrdered t := by
  obtain ⟨st, v, hfinish⟩ | ⟨he, hg, hbody⟩ := exec_cases i s
  · obtain rfl : s.finish st v = t := Host.Outcome.next.inj (hfinish.symm.trans hexec)
    exact hord
  · intro hrun
    refine txRingOrdered_of_ringOk ?_ hrun
    rw [(runs_exec hexec).cfg]
    obtain rfl | ⟨hs, ⟨len, src, rfl⟩ | ⟨huses, hspares⟩⟩ := exec_ring_cases hsafe hexec hg hrun .tx
    · obtain rfl : macEnable s = t := Host.Outcome.next.inj (hbody.symm.trans hexec)
      exact (macEnable_ringOk hsafe hg).1
    · have hok := ringOk_tx_of_safe hsafe hs hord
      rw [hexec, execBody, checkTransmitLength] at hbody
      split at hbody
      · cases hbody
        exact transmit_ringOk _ (‹1 ≤ len ∧ len ≤ s.cfg.slotSize›).2 hok
      · cases hbody
        exact hok
    · rw [(cursor_of_exec hexec).1 huses]
      exact (runs_exec hexec).ringOk hspares rfl (ringOk_tx_of_safe hsafe hs hord)

/-- Every operation given within the host's duty keeps the order of the RX ring. -/
theorem exec_rxOrdered {i : Instr} {s t : State} (hsafe : Safe s) (hord : RxRingOrdered s) (hduty : dutyKept i s)
    (hexec : exec i s = .next t) : RxRingOrdered t := by
  obtain ⟨st, v, hfinish⟩ | ⟨he, hg, hbody⟩ := exec_cases i s
  · obtain rfl : s.finish st v = t := Host.Outcome.next.inj (hfinish.symm.trans hexec)
    exact hord
  · intro hrun
    refine rxRingOrdered_of_ringOk ?_ hrun
    obtain rfl | ⟨hs, (rfl | ⟨n, dst, rfl⟩) | ⟨huses, hspares⟩⟩ := exec_ring_cases hsafe hexec hg hrun .rx
    · rw [(runs_exec hexec).cfg]
      obtain rfl : macEnable s = t := Host.Outcome.next.inj (hbody.symm.trans hexec)
      exact (macEnable_ringOk hsafe hg).2
    · obtain rfl : dispatchPass s = t := Host.Outcome.next.inj (hbody.symm.trans hexec)
      exact dispatchPass_rxOk (ringOk_rx_of_safe hsafe hs hord)
    · rw [(runs_exec hexec).cfg]
      obtain rfl := Host.Outcome.next.inj (hbody.symm.trans hexec)
      refine rxReceive_ringOk _ _ (ringOk_rx_of_safe hsafe hs hord) ?_
      rw [rxSlot_val, s.tick_notOwned .rx _ hduty]
      exact hduty
    · rw [(runs_exec hexec).cfg, (cursor_of_exec hexec).2 huses]
      exact (runs_exec hexec).ringOk hspares rfl (ringOk_rx_of_safe hsafe hs hord)

/-- A command taken changes nothing that the invariant speaks of. -/
theorem Safe.acceptCommand {s : State} (h : Safe s) (w : CmdWord) (rest : List HostAct) :
    Safe (acceptCommand w rest s) :=
  ⟨h.block, ⟨h.rings.single_wrap, h.rings.pointers⟩, ⟨h.mac.enabled_iff, h.mac.owned_tx, h.mac.owned_rx⟩⟩

/-- A continued pass is one of a running block, if the block still runs after it. -/
theorem run_of_continuePass {v : Word} {s : State} (hrun : (continuePass v s).blk.flg.run = true) :
    s.blk.flg.run = true := by
  rw [(continuePass_kept v s).blk] at hrun
  exact hrun

/-- Settles O57: the agents take ready slots off the front, `TRANSMIT` puts one behind, and nothing else touches the ring. -/
theorem txRingOrderKeptByStep : Obligations.TxRingOrderKeptByStep := by
  intro s t hsafe hord hstep
  cases stepTo_of_step hstep with
  | pass v hpass =>
    intro hrun
    refine txRingOrdered_of_ringOk ?_ hrun
    obtain ⟨u, hcfg, -, -, -, -, hdev, -, hruns⟩ := continuePass_runs v s
    rw [hruns.cfg, hcfg, show (continuePass v s).blk.txc = s.blk.txc by rw [(continuePass_kept v s).blk]]
    refine hruns.ringOk (dispatch_sparesTx s) hcfg ?_
    rw [hdev]
    exact ringOk_tx_of_safe hsafe (run_of_continuePass hrun) hord
  | wait hpass hhost => exact hord
  | @operation t w rest i hpass hhost hdecode hexec =>
    exact exec_txOrdered (hsafe.acceptCommand w rest) (fun hrun => hord hrun) hexec
  | illegal hpass hhost => exact hord
  | reset hpass hhost hoff => exact fun hrun => by cases hrun
  | write hpass hhost hpool => exact hord

/-- Settles O58: the agents put a frame behind the others, `RECEIVE` and the drain take the first, and nothing else touches the
ring. -/
theorem rxRingOrderKeptByStep : Obligations.RxRingOrderKeptByStep := by
  intro s t hsafe hord hduty hstep
  cases stepTo_of_step hstep with
  | pass v hpass =>
    intro hrun
    have hok : RxOk s := ringOk_rx_of_safe hsafe (run_of_continuePass hrun) hord
    exact rxRingOrdered_of_ringOk (continuePass_rxOk v hok) hrun
  | wait hpass hhost => exact hord
  | @operation t w rest i hpass hhost hdecode hexec =>
    have hduty' : dutyKept i (acceptCommand w rest s) := hduty w rest i hhost hdecode
    exact exec_rxOrdered (hsafe.acceptCommand w rest) (fun hrun => hord hrun) hduty' hexec
  | illegal hpass hhost => exact hord
  | reset hpass hhost hoff => exact fun hrun => by cases hrun
  | write hpass hhost hpool => exact hord

/-! ## The answers -/

/-- `OK` and `RETRY` are different results. -/
theorem okWord_ne_retry (v : BitVec 48) : okWord v ≠ 0x0100000000000000#64 := fun h => by
  have hstatus := okWord_status v
  rw [h] at hstatus
  revert hstatus
  decide

/-- Settles O40: the slot at the end of the ready stretch is ready only in a full ring; the slot at the front of those with a
frame is empty only in an empty one. -/
theorem ringAnswersAreExact : Obligations.RingAnswersAreExact := by
  intro s t hsafe hrun
  have he : s.blk.err = none := (hsafe.block.run_constructed hrun).2.2.2
  have howned : ∀ r i, owned s.tick r i = s.tick.dev.owns s.cfg r i := fun r i => by
    rw [owned, State.tick_cfg]
    rfl
  refine ⟨fun len src hord hlo hhi hexec => ?_, fun hord hexec => ?_⟩
  · have hok : s.tick.dev.RingOk s.cfg .tx s.blk.txc.toNat := (ringOk_tx_of_safe hsafe hrun hord).tick
    simp only [howned]
    rw [← hok.order.full_iff]
    obtain rfl := Host.Outcome.next.inj ((exec_transmit_good he hrun ⟨hlo, hhi⟩ src).symm.trans hexec)
    cases hown : Field.test s.cfg.layout.own (s.mmioVal (txSlot s)) with
    | true => exact iff_of_true (by rw [transmit_retry hown]; rfl) hown
    | false =>
      refine iff_of_false ?_ fun h => Bool.false_ne_true (hown.symm.trans h)
      rw [transmit_accepted hown]
      exact okWord_ne_retry _
  · have hok : s.tick.dev.RingOk s.cfg .rx s.blk.rxc.toNat := (ringOk_rx_of_safe hsafe hrun hord).tick
    have hempty : (∀ j, j < s.cfg.nRx → owned s.tick .rx j = true)
        ↔ Field.test s.cfg.layout.own (s.tick.dev.desc .rx .control s.blk.rxc.toNat) = true := by
      have hmarked := hok.order.marked_iff
      simp only [howned]
      refine ⟨fun hall => hall _ hok.order.1, fun hfirst j hj => ?_⟩
      by_contra hfree
      have := hmarked.2 ⟨j, hj, by simpa using hfree⟩
      exact Bool.false_ne_true (this.symm.trans hfirst)
    rw [hempty]
    obtain rfl := Host.Outcome.next.inj ((receiveReadyResult s he hrun).1.symm.trans hexec)
    set w := s.tick.dev.desc .rx .control s.blk.rxc.toNat
    rw [Field.get_eq_bitOf_test s.cfg.own_ok.1]
    cases hown : Field.test s.cfg.layout.own w with
    | true => exact iff_of_true (by rfl) rfl
    | false =>
      have hone : (if bitOf 32 false = 0 then okWord 1 else okWord 0) ≠ 0 := by decide
      exact iff_of_false hone Bool.false_ne_true

end Sys2Proof.Machine
end

section
/-! SUPPORT. That the drain ends (rule R278): each turn uses up a frame, of those in the ring and those still to arrive; and the
whole of a dispatch pass (rules R270 to R275). -/

namespace Sys2Proof.Machine

/-! ## The frames that a drain can find -/

/-- The RX slots that hold a frame. -/
def frameSlots (c : Cfg) (d : Device) : Finset Nat := (Finset.range c.nRx).filter fun j => d.owns c .rx j = false

theorem mem_frameSlots {c : Cfg} {d : Device} {j : Nat} : j ∈ frameSlots c d ↔ j < c.nRx ∧ d.owns c .rx j = false := by
  rw [frameSlots, Finset.mem_filter, Finset.mem_range]

/-- The agent's step brings a frame. -/
def bringsFrame : DevAct → Bool
  | .rxFill _ _ _ => true
  | _ => false

theorem arrivals_eq (e : Env) : arrivals e = (e.schedule.map (List.countP bringsFrame)).sum := by
  refine congrArg (fun p => (e.schedule.map (List.countP p)).sum) (funext fun a => ?_)
  cases a <;> rfl

/-- The frames that there are and those that are still to arrive. -/
def pending (s : State) : Nat := (frameSlots s.cfg s.dev).card + arrivals s.env

theorem pending_le (s : State) : pending s ≤ s.cfg.nRx + arrivals s.env := by
  have hcard : (frameSlots s.cfg s.dev).card ≤ s.cfg.nRx := (Finset.card_filter_le _ _).trans_eq (Finset.card_range _)
  exact Nat.add_le_add_right hcard _

/-- The configuration, the RX control words and the schedule decide it. -/
theorem pending_congr {s t : State} (hcfg : t.cfg = s.cfg) (hdesc : ∀ j, t.dev.desc .rx .control j = s.dev.desc .rx .control j)
    (hsched : t.env.schedule = s.env.schedule) : pending t = pending s := by
  have hslots : frameSlots t.cfg t.dev = frameSlots s.cfg s.dev := by
    ext j
    rw [mem_frameSlots, mem_frameSlots, hcfg, Device.owns, Device.owns, hdesc]
  rw [pending, pending, hslots, arrivals_eq, arrivals_eq, hsched]

/-! ## The agents' turn -/

/-- A step that brings no frame leaves the RX control words alone. -/
theorem devAct_rxControl (c : Cfg) {a : DevAct} (h : bringsFrame a = false) (d : Device) (m : Memory) :
    (devAct c a d m).1.rxControl = d.rxControl := by
  cases a with
  | miiComplete other => exact (d.miiFinish_sameRings c other).rxControl
  | miiStatusBits v | moderBits v | intRaise v | phySet phy reg v => rfl
  | txConsume other =>
    obtain ⟨-, -, hrc, -⟩ := txEngineContract c other d m
    exact hrc
  | rxByte k b =>
    simp only [devAct]
    split
    all_goals rfl
  | rxFill frame len other => cases h

/-- A step fills at most one slot, and none if it brings no frame. -/
theorem frameSlots_devAct (c : Cfg) (a : DevAct) (d : Device) (m : Memory) :
    (frameSlots c (devAct c a d m).1).card ≤ (frameSlots c d).card + (if bringsFrame a then 1 else 0) := by
  cases hbrings : bringsFrame a with
  | false =>
    have hslots : frameSlots c (devAct c a d m).1 = frameSlots c d := by
      ext j
      rw [mem_frameSlots, mem_frameSlots, Device.owns, Device.owns, Device.desc, Device.desc,
        devAct_rxControl c hbrings]
    rw [hslots]
    exact Nat.le_add_right _ _
  | true =>
    cases a with
    | rxFill frame len other =>
      have hsub : frameSlots c (devAct c (.rxFill frame len other) d m).1 ⊆ insert d.rxPos (frameSlots c d) := by
        intro j hj
        rw [Finset.mem_insert, mem_frameSlots]
        rw [mem_frameSlots] at hj
        by_cases hpos : j = d.rxPos
        · exact .inl hpos
        · refine .inr ⟨hj.1, ?_⟩
          rw [← hj.2, Device.owns, Device.owns]
          simp only [devAct]
          split
          · exact congrArg _ (Device.desc_setDesc_slot d .rx .control hpos _).symm
          · rfl
      exact (Finset.card_le_card hsub).trans (Finset.card_insert_le _ _)
    | _ => cases hbrings

theorem frameSlots_devActs (c : Cfg) (as : List DevAct) (d : Device) (m : Memory) :
    (frameSlots c (devActs c as d m).1).card ≤ (frameSlots c d).card + as.countP bringsFrame := by
  induction as generalizing d m with
  | nil => exact Nat.le_refl _
  | cons a as ih =>
    have hstep := frameSlots_devAct c a d m
    have hrest := ih (devAct c a d m).1 (devAct c a d m).2
    rw [devActs, List.countP_cons]
    omega

/-- The agents' turn turns arrivals into frames, at most. -/
theorem pending_tick (s : State) : pending s.tick ≤ pending s := by
  unfold State.tick
  split
  · exact Nat.le_refl _
  · rename_i acts rest hsched
    have hslots := frameSlots_devActs s.cfg acts s.dev s.mem
    have hnow : arrivals s.env = acts.countP bringsFrame + (rest.map (List.countP bringsFrame)).sum := by
      rw [arrivals_eq, hsched, List.map_cons, List.sum_cons]
    show (frameSlots s.cfg (devActs s.cfg acts s.dev s.mem).1).card + arrivals { s.env with schedule := rest } ≤ _
    rw [arrivals_eq, pending, hnow]
    show _ + (rest.map (List.countP bringsFrame)).sum ≤ _
    omega

/-- A run that writes no register adds no frame but those that arrive. -/
theorem Runs.pending_le {A : Allowed} {s t : State} (h : Runs A s t) (hwrite : ∀ l, ¬ A.write l) :
    pending t ≤ pending s := by
  induction h with
  | refl => exact Nat.le_refl _
  | @mmioRead t l _ _ ih =>
    refine le_trans ?_ ih
    show pending (t.readTick l) ≤ pending t
    obtain htick | ⟨-, -, -, hsettle⟩ := t.readTick_cases l
    · rw [htick]
      exact pending_tick t
    · rw [hsettle]
      exact le_of_eq (pending_congr rfl ((t.dev.miiFinish_sameRings t.cfg 0).desc .rx .control) rfl)
  | mmioWrite l v hl _ _ => exact (hwrite l hl).elim
  | @memRead t a _ _ ih => exact (pending_tick t).trans ih
  | @memWrite t a b _ _ ih => exact (pending_tick t).trans ih
  | @ask t len _ _ ih =>
    refine le_trans (le_of_eq ?_) ((pending_tick t).trans ih)
    exact pending_congr rfl (fun _ => rfl) (Env.answered_keeps t.tick.env).1
  | @tick t _ ih => exact (pending_tick t).trans ih
  | setBlk b _ ih => exact ih
  | log e _ _ ih => exact ih
  | setPass p _ _ ih => exact ih

/-! ## One turn -/

/-- One frame of a drain, after a ready check that saw it: bytes are copied, and then the slot is given back with only its
empty bit changed. -/
theorem drainFrame_shape {s : State} (hready : Field.test s.cfg.layout.own (s.mmioVal (rxSlot s)) = false) :
    ∃ x e, Runs copying (s.mmioRead (rxSlot s)) x ∧ drainFrame (s.mmioVal (rxSlot s)) (s.mmioRead (rxSlot s))
      = ((x.mmioWrite (rxSlot s) (Field.set s.cfg.layout.own (s.mmioVal (rxSlot s)) 1)).setBlk
          { s.blk with rxc := ringNext s.blk.rxc s.cfg.nRx }).emit e := by
  set w := s.mmioVal (rxSlot s)
  set s1 := s.mmioRead (rxSlot s)
  set s2 := s1.askRxBuffer (Field.get s1.cfg.layout.len w).toNat
  have hcfg : s2.cfg = s.cfg := by rw [State.askRxBuffer_cfg, State.mmioRead_cfg]
  have hblk : s2.blk = s.blk := by rw [State.askRxBuffer_blk, State.mmioRead_blk]
  have hword : s2.mmioVal (rxSlot s2) = w := by
    have hfree : owned s1 .rx s.blk.rxc.toNat = false := by
      rw [owned, State.mmioRead_cfg]
      exact hready
    rw [rxSlot_val, hblk]
    exact (((Runs.refl (A := copying)).ask _ trivial).tick).notOwned (copying_sparesRing .rx) hfree
  refine ⟨(s2.mmioRead (rxSlot s)).copyBytes (bufLocal s.cfg .rx s.blk.rxc.toNat) s1.rxBufferAnswer.1
    (receiveCount s2 s1.rxBufferAnswer.2), .frameReceived s1.rxBufferAnswer.1 (receiveCount s2 s1.rxBufferAnswer.2), ?_, ?_⟩
  · exact (((Runs.refl (A := copying)).ask _ trivial).mmioRead _ trivial).trans (runs_copyBytes trivial _ _ _ _)
  · show (rxReceive s1.rxBufferAnswer.1 s1.rxBufferAnswer.2 s2).emit _ = _
    rw [rxReceive_eq, hword, hcfg, hblk]
    rfl

/-- Giving a slot of the ring back takes one frame off. -/
theorem frameSlots_giveBack {c : Cfg} {d : Device} {j : Nat} {v : Word} (hown : Field.test c.layout.own v = true) :
    frameSlots c (d.setDesc .rx .control j v) = (frameSlots c d).erase j := by
  ext i
  rw [Finset.mem_erase, mem_frameSlots, mem_frameSlots, Device.owns_setDesc, hown]
  by_cases hi : i = j
  · simp [hi]
  · simp [hi]

/-- A turn of the drain uses up a frame, if its slot is one of the ring. -/
theorem drainFrame_pending {s : State} (hready : Field.test s.cfg.layout.own (s.mmioVal (rxSlot s)) = false) :
    pending (drainFrame (s.mmioVal (rxSlot s)) (s.mmioRead (rxSlot s))) + (if s.blk.rxc.toNat < s.cfg.nRx then 1 else 0)
      ≤ pending s := by
  obtain ⟨x, e, hrun, hshape⟩ := drainFrame_shape hready
  have hcfg : x.cfg = s.cfg := by rw [hrun.cfg, State.mmioRead_cfg]
  have hrun' : Runs copying s x.tick := ((Runs.refl.mmioRead _ trivial).trans hrun).tick
  have hfree : x.tick.dev.owns s.cfg .rx s.blk.rxc.toNat = false := by
    have hfree1 : owned (s.mmioRead (rxSlot s)) .rx s.blk.rxc.toNat = false := by
      rw [owned, State.mmioRead_cfg]
      exact hready
    rw [Device.owns, hrun.tick.notOwned (copying_sparesRing .rx) hfree1]
    exact hready
  set y := x.mmioWrite (rxSlot s) (Field.set s.cfg.layout.own (s.mmioVal (rxSlot s)) 1)
  have hafter : pending (drainFrame (s.mmioVal (rxSlot s)) (s.mmioRead (rxSlot s))) ≤ pending y := by
    rw [hshape]
    exact pending_tick (y.setBlk _)
  have hbefore : pending x.tick ≤ pending s := hrun'.pending_le fun _ h => h
  have hslots : frameSlots y.cfg y.dev = (frameSlots x.tick.cfg x.tick.dev).erase s.blk.rxc.toNat := by
    rw [State.mmioWrite_cfg, State.tick_cfg, hcfg]
    exact frameSlots_giveBack (test_own_set _ _)
  have hwrite : pending y + (if s.blk.rxc.toNat < s.cfg.nRx then 1 else 0) ≤ pending x.tick := by
    have henv : y.env = x.tick.env := rfl
    rw [pending, pending, hslots, henv]
    split
    · have hmem : s.blk.rxc.toNat ∈ frameSlots x.tick.cfg x.tick.dev := by
        rw [mem_frameSlots, State.tick_cfg, hcfg]
        exact ⟨‹_›, hfree⟩
      have := Finset.card_erase_add_one hmem
      omega
    · have := Finset.card_erase_le (s := frameSlots x.tick.cfg x.tick.dev) (a := s.blk.rxc.toNat)
      omega
  omega

/-! ## The loop -/

/-- The turns that a drain can take: one for each frame, and one more when it begins outside the ring. -/
def drainBound (s : State) : Nat := pending s + (if s.blk.rxc.toNat < s.cfg.nRx then 0 else 1)

theorem drainBound_lt (s : State) : drainBound s < s.cfg.nRx + arrivals s.env + 2 := by
  have := pending_le s
  unfold drainBound
  split <;> omega

theorem drainFrame_bound {s : State} (hready : Field.test s.cfg.layout.own (s.mmioVal (rxSlot s)) = false) :
    drainBound (drainFrame (s.mmioVal (rxSlot s)) (s.mmioRead (rxSlot s))) + 1 ≤ drainBound s := by
  have hpending := drainFrame_pending hready
  obtain ⟨f, -, -, -, hcfg, hblk, -⟩ := drainFrame_spec hready
  have hin : (drainFrame (s.mmioVal (rxSlot s)) (s.mmioRead (rxSlot s))).blk.rxc.toNat < s.cfg.nRx := by
    rw [hblk]
    exact ringNext_lt _ _ s.cfg.ranges.2.1.1 s.cfg.ranges.2.1.2
  unfold drainBound
  rw [hcfg, if_pos hin]
  split at hpending <;> split <;> omega

/-- With turns enough the loop stops by itself. -/
theorem drainTurns_stops {n : Nat} {s : State} (h : drainBound s < n) :
    (drainTurns n s).1 = true ∨ arrivalsEndless (drainTurns n s).2 = true := by
  induction n generalizing s with
  | zero => omega
  | succ n ih =>
    rw [drainTurns]
    split
    · exact .inr ‹_›
    · split
      · exact .inl rfl
      · have := drainFrame_bound (s := s) (by simpa using ‹¬ Field.test _ _ = true›)
        exact ih (by omega)

/-- More turns than enough change nothing. -/
theorem drainTurns_enough {n m : Nat} {s : State} (hn : drainBound s < n) (hm : drainBound s < m) :
    drainTurns n s = drainTurns m s := by
  induction n generalizing m s with
  | zero => omega
  | succ n ih =>
    obtain ⟨m, rfl⟩ : ∃ k, m = k + 1 := ⟨m - 1, by omega⟩
    rw [drainTurns, drainTurns]
    split
    · rfl
    · split
      · rfl
      · have := drainFrame_bound (s := s) (by simpa using ‹¬ Field.test _ _ = true›)
        exact ih (by omega) (by omega)

/-- Whether arrivals are endless does not change. -/
theorem Drained.rxEndless {s u : State} {frames : List DrainedFrame} (h : Drained s u frames) :
    u.env.rxEndless = s.env.rxEndless := by
  have hfixed := h.fixed
  simp only [Env.fixed, Prod.mk.injEq] at hfixed
  exact hfixed.2.1

/-- Unless arrivals are endless, the drain ends. -/
theorem rxDrain_ends {s : State} (h : s.env.rxEndless = false) : ∃ t, rxDrain s = (true, t) := by
  obtain ⟨frames, u, hdrained, -, ⟨hturns, -⟩ | ⟨hturns, -⟩⟩ := drainTurns_spec (s.cfg.nRx + arrivals s.env + 2) s
  · exact ⟨_, hturns⟩
  · exfalso
    have hstops := drainTurns_stops (drainBound_lt s)
    rw [hturns] at hstops
    simp [arrivalsEndless, hdrained.rxEndless, h] at hstops

/-- Unless arrivals are endless, a pass from its drain on takes frames, and ends after a ready check that sees an empty slot. -/
theorem drainPass_ends (v : Word) {s : State} (h : s.env.rxEndless = false) : ∃ frames u, Drained s u frames
    ∧ Field.test u.cfg.layout.own (u.mmioVal (rxSlot u)) = true ∧ drainPass v s = dispatchEnd v (u.mmioRead (rxSlot u)) := by
  obtain ⟨t, ht⟩ := rxDrain_ends h
  obtain ⟨frames, u, hdrained, rfl, hown⟩ := drainTurns_ended ht
  exact ⟨frames, u, hdrained, hown, by rw [drainPass, ht]; rfl⟩

/-! ## The end of a pass -/

section PassEnd
variable {s u : State} {v : Word} {drain : List Event}

/-- What a pass is seen to do, and what it leaves, when `u` is where its end begins. -/
theorem dispatchEnd_pass (hcfg : u.cfg = s.cfg) (htrace : u.trace = drain ++ readEvent s.cfg (.reg .intSource) v :: s.trace)
    (hsched : u.env.schedule = s.env.schedule.drop (drain.length + 1)) (hregs : SameDriverRegs s.cfg.layout s.dev u.dev) :
    (dispatchEnd v u).cfg = s.cfg ∧ (dispatchEnd v u).pass = none
      ∧ observed s (.irqAck s.cfg.irqLine :: writeEvent s.cfg (.reg .intSource) v
          :: ((if v &&& s.cfg.layout.txPendingMask ≠ 0 then [.txSlotFreed] else []) ++ drain
            ++ [readEvent s.cfg (.reg .intSource) v])) (dispatchEnd v u)
      ∧ SameDriverRegs s.cfg.layout s.dev (dispatchEnd v u).dev
      ∧ (turnBefore (drain.length + if v &&& s.cfg.layout.txPendingMask ≠ 0 then 3 else 2) s = [] →
        (dispatchEnd v u).dev.intSource &&& v = 0) := by
  obtain ⟨hcfg', hblk, hpass, htrace', hregs', hclear, -⟩ := dispatchEnd_spec v u
  rw [hcfg] at hcfg' htrace' hregs' hclear
  refine ⟨hcfg', hpass, ?_, hregs.trans hregs', fun hidle => hclear ?_⟩
  · rw [observed, htrace', hblk, htrace]
    simp
  · rw [turnBefore, hsched, List.getElem?_drop, ← hidle, turnBefore]
    congr 2
    split <;> omega

end PassEnd

/-- The word that a pass reads from the source. -/
theorem mmioVal_intSource (s : State) : s.mmioVal (.reg .intSource) = s.tick.dev.intSource := rfl

/-- While the block runs, `DISPATCH` runs. -/
theorem exec_dispatch {s : State} (he : s.blk.err = none) (hrun : s.blk.flg.run = true) :
    exec .dispatch s = .next (dispatchPass s) := by
  rw [exec_runs he (by exact hrun), execBody]

theorem dispatchPass_noDrain {s : State} (h : s.tick.dev.intSource &&& s.cfg.layout.rxPendingMask = 0) :
    dispatchPass s = dispatchEnd s.tick.dev.intSource (s.mmioRead (.reg .intSource)) := by
  simp only [dispatchPass, mmioVal_intSource, rxPending, h, ne_eq, not_true_eq_false, decide_false, Bool.false_eq_true,
    if_false]

theorem dispatchPass_drain {s : State} (h : s.tick.dev.intSource &&& s.cfg.layout.rxPendingMask ≠ 0) :
    dispatchPass s = drainPass s.tick.dev.intSource (s.mmioRead (.reg .intSource)) := by
  simp only [dispatchPass, mmioVal_intSource, rxPending, h, ne_eq, not_false_eq_true, decide_true, if_true]

section SourceRead
variable (s : State)

/-- The state after the read of the source. -/
abbrev sourceRead : State := s.mmioRead (.reg .intSource)

theorem sourceRead_trace :
    (sourceRead s).trace = readEvent s.cfg (.reg .intSource) s.tick.dev.intSource :: s.trace := State.mmioRead_trace _ _

theorem sourceRead_schedule : (sourceRead s).env.schedule = s.env.schedule.drop 1 := by
  rw [State.mmioRead_env, State.readTick_schedule, List.drop_one]

theorem sourceRead_fixed : (sourceRead s).env.fixed = s.env.fixed := State.readTick_fixed s _

variable {s}

theorem sourceRead_quiet (hq : Quiet s) : (sourceRead s).dev = s.dev ∧ (sourceRead s).mem = s.mem
    ∧ (sourceRead s).env = s.env := by
  obtain ⟨hread, -⟩ := s.mmioRead_quiet (.reg .intSource) hq rfl
  rw [sourceRead, hread]
  exact ⟨rfl, rfl, rfl⟩

end SourceRead

/-- Settles O60: without RX-pending the end of the pass follows the read of the source. -/
theorem dispatchWithoutRxPending : Obligations.DispatchWithoutRxPending := by
  intro s he hrun L v hnone
  have hexec : exec .dispatch s = .next (dispatchEnd v (sourceRead s)) := by
    rw [exec_dispatch he hrun, dispatchPass_noDrain hnone]
  obtain ⟨hcfg, hpass, htrace, hregs, hclear⟩ := dispatchEnd_pass (v := v) (drain := []) (State.mmioRead_cfg _ s)
    (sourceRead_trace s) (sourceRead_schedule s) (s.readTick_sameDriverRegs _)
  obtain ⟨-, hblk, -, -, -, -, hquiet⟩ := dispatchEnd_spec v (sourceRead s)
  rw [State.mmioRead_blk] at hblk
  refine ⟨_, hexec, hcfg, hpass, hblk, ?_, hregs, fun hidle k hk => ?_, fun hq => ?_⟩
  · rw [htrace, hblk]
    simp [L]
  · have hbit := congrArg (BitVec.getLsbD · k) (hclear (by simpa using hidle))
    rw [BitVec.getLsbD_and, hk, Bool.and_true] at hbit
    exact hbit.trans BitVec.getLsbD_zero
  · obtain ⟨hdev, hmem, henv⟩ := sourceRead_quiet hq
    obtain ⟨hdev', hmem', henv'⟩ := hquiet (by rw [Quiet, henv]; exact hq)
    rw [hdev', hmem', henv', hdev, hmem, henv]
    refine ⟨?_, rfl, rfl⟩
    have hv : v = s.dev.intSource := by
      show s.tick.dev.intSource = _
      rw [s.tick_quiet hq]
    rw [hv, BitVec.and_not_self]

/-- Memory outside the buffers of a drain. -/
theorem drainedMem_outside (c : Cfg) (slot : Nat) (frames : List DrainedFrame) (m : Memory) (a : Addr)
    (h : ∀ f ∈ frames, ∀ k, k < f.bytes.length → a ≠ byteAt f.dst k) :
    Memory.read (drainedMem c slot frames m) a = Memory.read m a := by
  induction frames generalizing slot m with
  | nil => rfl
  | cons f fs ih =>
    obtain ⟨hf, hfs⟩ := List.forall_mem_cons.1 h
    rw [drainedMem, ih _ _ hfs, copiedMem_outside _ _ _ _ _ hf]

/-- A slot after some others is a cursor's value. -/
theorem slotAfter_lt (c : Cfg) {slot : Nat} (h : slot < 2 ^ 24) (n : Nat) : slotAfter c slot n < 2 ^ 24 := by
  induction n generalizing slot with
  | zero => exact h
  | succ n ih =>
    obtain ⟨-, ⟨hpos, hmax⟩, -⟩ := c.ranges
    have hmod : (slot + 1) % c.nRx < c.nRx := Nat.mod_lt _ hpos
    exact ih (by omega)

section DispatchResult
variable {s u x : State} {frames : List DrainedFrame}

/-- The frames of a drain that begins after the read of the source, where the pass begins. -/
theorem Drained.since_sourceRead (h : Drained (sourceRead s) u frames) : u.cfg = s.cfg
    ∧ u.blk = { s.blk with rxc := BitVec.ofNat 24 (slotAfter s.cfg s.blk.rxc.toNat frames.length) }
    ∧ u.trace = drainEvents s.cfg s.blk.rxc.toNat frames
        ++ readEvent s.cfg (.reg .intSource) s.tick.dev.intSource :: s.trace
    ∧ (∀ f ∈ frames, f.fits s.cfg)
    ∧ frames.map (fun f => (f.dst, f.cap)) = (List.range frames.length).map (hostAnswer s.env)
    ∧ SameDriverRegs s.cfg.layout s.dev u.dev
    ∧ u.env.schedule = s.env.schedule.drop ((drainEvents s.cfg s.blk.rxc.toNat frames).length + 1) := by
  have hcfg : (sourceRead s).cfg = s.cfg := State.mmioRead_cfg _ _
  have hblk : (sourceRead s).blk = s.blk := State.mmioRead_blk _ _
  have htrace := h.trace
  have hfits := h.fits
  have hanswers := h.answers
  have hregs := h.regs
  have hsched := h.sched
  rw [hcfg, hblk, sourceRead_trace] at htrace
  rw [hcfg] at hfits
  rw [hostAnswer_fixed (sourceRead_fixed s)] at hanswers
  rw [hcfg] at hregs
  rw [hcfg, hblk, sourceRead_schedule, List.drop_drop, Nat.add_comm] at hsched
  exact ⟨h.cfg.trans hcfg, by rw [h.blk, hcfg, hblk], htrace, hfits, hanswers,
    (s.readTick_sameDriverRegs _).trans hregs, hsched⟩

/-- With no agent acting: what a pass leaves of memory, the device and the outside world, when its end begins at `x`. -/
theorem dispatchEnd_quiet (hq : Quiet s) (h : Drained (sourceRead s) u frames) (hdev : x.dev = u.dev) (hmem : x.mem = u.mem)
    (henv : x.env = u.env) :
    frames.map (·.word) = (slotsFrom s.cfg s.blk.rxc.toNat frames.length).map (s.dev.desc .rx .control)
      ∧ (dispatchEnd s.tick.dev.intSource x).mem = drainedMem s.cfg s.blk.rxc.toNat frames s.mem
      ∧ (∀ a, (∀ f ∈ frames, ∀ k, k < f.bytes.length → a ≠ byteAt f.dst k) →
        Memory.read (dispatchEnd s.tick.dev.intSource x).mem a = Memory.read s.mem a)
      ∧ (∀ r w j, (dispatchEnd s.tick.dev.intSource x).dev.desc r w j =
          if r = .rx ∧ w = .control ∧ j ∈ slotsFrom s.cfg s.blk.rxc.toNat frames.length then
            Field.set s.cfg.layout.own (s.dev.desc .rx .control j) 1
          else s.dev.desc r w j)
      ∧ (dispatchEnd s.tick.dev.intSource x).dev
        = { s.dev with rxControl := (dispatchEnd s.tick.dev.intSource x).dev.rxControl, intSource := 0 }
      ∧ (dispatchEnd s.tick.dev.intSource x).env = afterAnswers frames.length s.env := by
  have hcfg : (sourceRead s).cfg = s.cfg := State.mmioRead_cfg _ _
  have hblk : (sourceRead s).blk = s.blk := State.mmioRead_blk _ _
  obtain ⟨hdev1, hmem1, henv1⟩ := sourceRead_quiet hq
  have hq1 : Quiet (sourceRead s) := by rw [Quiet, henv1]; exact hq
  have hwords := h.words hq1
  have hdesc := h.desc hq1
  have hkept := h.dev hq1
  have hmemu := h.mem hq1
  have henvu := h.env hq1
  rw [hcfg, hblk, hdev1] at hwords
  rw [hcfg, hblk, hdev1] at hdesc
  rw [hdev1] at hkept
  rw [hcfg, hblk, hmem1] at hmemu
  rw [henv1] at henvu
  have hqx : Quiet x := by rw [Quiet, henv, henvu]; exact hq
  obtain ⟨-, -, -, -, -, -, hquiet⟩ := dispatchEnd_spec s.tick.dev.intSource x
  obtain ⟨hdev2, hmem2, henv2⟩ := hquiet hqx
  rw [hdev] at hdev2
  rw [hmem, hmemu] at hmem2
  rw [henv, henvu] at henv2
  have hsource : u.dev.intSource &&& ~~~s.tick.dev.intSource = 0 := by
    rw [hkept, s.tick_quiet hq]
    exact BitVec.and_not_self _
  rw [hsource] at hdev2
  refine ⟨hwords, hmem2, fun a ha => ?_, fun r w j => ?_, ?_, henv2⟩
  · rw [hmem2]
    exact drainedMem_outside _ _ _ _ _ ha
  · rw [hdev2]
    cases r with
    | tx =>
      rw [if_neg (by simp), hkept]
      cases w
      all_goals rfl
    | rx =>
      cases w with
      | pointer =>
        rw [if_neg (by simp), hkept]
        rfl
      | control =>
        simp only [true_and]
        exact hdesc j
  · rw [hdev2, hkept]

end DispatchResult

/-- Settles O45: the drain, when there is one, and then the end of the pass. -/
theorem dispatchResult : Obligations.DispatchResult := by
  intro s he hrun c L v first hends
  by_cases hnone : v &&& L.rxPendingMask = 0
  · obtain ⟨hcfg, hpass, htrace, hregs, hclear⟩ := dispatchEnd_pass (v := v) (drain := []) (State.mmioRead_cfg _ s)
      (sourceRead_trace s) (sourceRead_schedule s) (s.readTick_sameDriverRegs _)
    obtain ⟨-, hblk, -⟩ := dispatchEnd_spec v (sourceRead s)
    refine ⟨dispatchEnd v (sourceRead s), [], [], by rw [exec_dispatch he hrun, dispatchPass_noDrain hnone], hcfg, hpass,
      ?_, htrace, fun _ => ⟨rfl, rfl⟩, fun hrx => absurd hnone hrx, by simp, rfl, hregs, hclear,
      fun hq => dispatchEnd_quiet hq (.nil _) rfl rfl rfl⟩
    rw [hblk, State.mmioRead_blk]
    simp [slotAfter, first]
  · have hendless : (sourceRead s).env.rxEndless = false := by
      have hfixed := sourceRead_fixed s
      simp only [Env.fixed, Prod.mk.injEq] at hfixed
      exact hfixed.2.1.trans (hends hnone)
    obtain ⟨frames, u, hdrained, hown, hpassEq⟩ := drainPass_ends v hendless
    obtain ⟨hcfgu, hblku, htraceu, hfits, hanswers, hregsu, hschedu⟩ := hdrained.since_sourceRead
    rw [hcfgu] at hown
    set w := u.mmioVal (rxSlot u)
    have hrxc : u.blk.rxc.toNat = slotAfter c first frames.length := by
      rw [hblku]
      exact Nat.mod_eq_of_lt (slotAfter_lt c s.blk.rxc.isLt _)
    have hslot : rxSlot u = .desc .rx .control (slotAfter c first frames.length) := by rw [rxSlot, hrxc]
    have hread : (u.mmioRead (rxSlot u)).trace
        = (readEvent c (.desc .rx .control (slotAfter c first frames.length)) w :: drainEvents c first frames)
          ++ readEvent s.cfg (.reg .intSource) v :: s.trace := by
      rw [State.mmioRead_trace, hcfgu, htraceu]
      show readEvent c (rxSlot u) w :: _ = _
      rw [hslot]
      rfl
    obtain ⟨hcfg, hpass, htrace, hregs, hclear⟩ := dispatchEnd_pass (v := v) ((u.mmioRead_cfg _).trans hcfgu) hread
      (by rw [State.mmioRead_env, State.readTick_schedule, hschedu, List.tail_drop]; rfl)
      (hregsu.trans (hcfgu ▸ u.readTick_sameDriverRegs _))
    obtain ⟨-, hblk, -⟩ := dispatchEnd_spec v (u.mmioRead (rxSlot u))
    refine ⟨dispatchEnd v (u.mmioRead (rxSlot u)), frames, _, by rw [exec_dispatch he hrun, dispatchPass_drain hnone, hpassEq],
      hcfg, hpass, ?_, htrace, fun h => absurd h hnone, fun _ => ⟨w, hown, rfl⟩, hfits, hanswers, hregs,
      hclear, fun hq => ?_⟩
    · rw [hblk, State.mmioRead_blk, hblku]
    · have hqu : Quiet u := by rw [Quiet, hschedu, show s.env.schedule = [] from hq, List.drop_nil]
      obtain ⟨hlog, -⟩ := u.mmioRead_quiet (rxSlot u) hqu rfl
      rw [hlog]
      exact dispatchEnd_quiet hq hdrained rfl rfl rfl

end Sys2Proof.Machine
end

section
/-! SUPPORT. A drain while no agent acts takes exactly the frames that are there (rule R271), and a pass under endless arrivals
takes them one by one, for ever (rules R278, R321). -/

namespace Sys2Proof.Machine

/-! ## One turn -/

/-- Frames without end keep a drain from its next turn. -/
theorem drainTurns_endless {s : State} (h : arrivalsEndless s = true) (n : Nat) : drainTurns n s = (false, s) := by
  cases n with
  | zero => rfl
  | succ n => simp [drainTurns, h]

/-- A turn that finds a frame. -/
theorem drainTurns_frame {s : State} (hfinite : arrivalsEndless s = false)
    (hready : Field.test s.cfg.layout.own (s.mmioVal (rxSlot s)) = false) (n : Nat) :
    drainTurns (n + 1) s = drainTurns n (drainFrame (s.mmioVal (rxSlot s)) (s.mmioRead (rxSlot s))) := by
  simp [drainTurns, hfinite, hready]

/-- A turn that finds an empty slot. -/
theorem drainTurns_empty {s : State} (hfinite : arrivalsEndless s = false)
    (hempty : Field.test s.cfg.layout.own (s.mmioVal (rxSlot s)) = true) (n : Nat) :
    drainTurns (n + 1) s = (true, s.mmioRead (rxSlot s)) := by
  simp [drainTurns, hfinite, hempty]

/-- Arrivals are endless only where the RX engine stands at an empty slot. -/
theorem not_arrivalsEndless {s : State} (h : owned s .rx s.blk.rxc.toNat = false) : arrivalsEndless s = false := by
  by_contra hendless
  simp only [Bool.not_eq_false, arrivalsEndless, Bool.and_eq_true, decide_eq_true_eq, Device.rxMayFill] at hendless
  obtain ⟨⟨-, -, hown⟩, hhere⟩ := hendless
  rw [hhere] at hown
  exact Bool.false_ne_true (h.symm.trans hown)

/-- The turn of a drain leaves the wrap flags of both rings. -/
theorem drainFrame_wraps {s : State} (hready : Field.test s.cfg.layout.own (s.mmioVal (rxSlot s)) = false) (r : Ring)
    (i : Nat) : wraps (drainFrame (s.mmioVal (rxSlot s)) (s.mmioRead (rxSlot s))) r i = wraps s r i := by
  obtain ⟨x, e, hrun, hshape⟩ := drainFrame_shape hready
  set w := s.mmioVal (rxSlot s)
  set y := x.mmioWrite (rxSlot s) (Field.set s.cfg.layout.own w 1)
  have hread : Runs copying s (s.mmioRead (rxSlot s)) := Runs.refl.mmioRead _ trivial
  have hcfg : x.tick.cfg = s.cfg := by rw [State.tick_cfg, hrun.cfg, State.mmioRead_cfg]
  have hword : x.tick.dev.desc .rx .control s.blk.rxc.toNat = w := by
    refine hrun.tick.notOwned (copying_sparesRing .rx) ?_
    rw [owned, State.mmioRead_cfg]
    exact hready
  have hwrite : wraps y r i = wraps x.tick r i := by
    rw [wraps, wraps, State.mmioWrite_cfg, State.tick_cfg]
    show Field.test x.cfg.layout.wrap ((x.tick.dev.setDesc .rx .control s.blk.rxc.toNat _).desc r .control i) = _
    rw [Device.desc_setDesc]
    split
    · obtain ⟨rfl, -, rfl⟩ := ‹_ ∧ _ ∧ _›
      rw [hword, show x.cfg = s.cfg by rw [← hcfg, State.tick_cfg], wrap_set_own]
    · rfl
  calc wraps (drainFrame w (s.mmioRead (rxSlot s))) r i
      = wraps (y.setBlk { s.blk with rxc := ringNext s.blk.rxc s.cfg.nRx }).tick r i := by rw [hshape]; rfl
    _ = wraps y r i := State.tick_wrap _ r i
    _ = wraps x.tick r i := hwrite
    _ = wraps s r i := (hread.trans hrun).tick.wraps (copying_sparesRing r) i

/-! ## A drain while no agent acts -/

/-- With `p` frames from `RXC` on and no agent acting, the drain takes exactly those, in `p` turns, and leaves the ring empty. -/
theorem drainTurns_takes (p : Nat) {s : State} (hq : Quiet s) (hin : s.blk.rxc.toNat < s.cfg.nRx) (hp : p ≤ s.cfg.nRx)
    (hframes : ∀ j, j < s.cfg.nRx → (owned s .rx j = false ↔ inStretch s.cfg.nRx s.blk.rxc.toNat p j)) :
    ∃ frames u, (∀ n, drainTurns (p + n) s = drainTurns n u) ∧ Drained s u frames ∧ frames.length = p
      ∧ (∀ j, j < s.cfg.nRx → owned u .rx j = true) ∧ ∀ r i, wraps u r i = wraps s r i := by
  induction p generalizing s with
  | zero =>
    refine ⟨[], s, fun n => by rw [Nat.zero_add], .nil s, rfl, fun j hj => ?_, fun _ _ => rfl⟩
    rw [← Bool.not_eq_false, hframes j hj]
    rintro ⟨k, hk, -⟩
    omega
  | succ p ih =>
    have hfree : owned s .rx s.blk.rxc.toNat = false := by
      rw [hframes _ hin, inStretch_iff hin hp hin]
      simp [ringDist]
    have hready : Field.test s.cfg.layout.own (s.mmioVal (rxSlot s)) = false := by
      rw [rxSlot_val, s.tick_quiet hq]
      exact hfree
    obtain ⟨f, -, -, -, hcfg, hblk, -, -, -, -, hquiet⟩ := drainFrame_spec hready
    obtain ⟨henv, -, hdev⟩ := hquiet hq
    have hwraps := drainFrame_wraps hready
    have hcons := @Drained.cons s
    have hturn := drainTurns_frame (not_arrivalsEndless hfree) hready
    generalize hu : drainFrame (s.mmioVal (rxSlot s)) (s.mmioRead (rxSlot s)) = v at *
    have hrxc : v.blk.rxc.toNat = (s.blk.rxc.toNat + 1) % s.cfg.nRx := by
      rw [hblk]
      exact ringNext_toNat _ _ s.cfg.ranges.2.1.1 s.cfg.ranges.2.1.2
    have howned : ∀ j, owned v .rx j = if j = s.blk.rxc.toNat then true else owned s .rx j := fun j => by
      have hset := s.dev.owns_setDesc s.cfg .rx s.blk.rxc.toNat (Field.set s.cfg.layout.own f.word 1) j
      rw [test_own_set] at hset
      rw [owned, hcfg, hdev]
      exact hset
    obtain ⟨frames, u, hturns, hdrained, hlen, hempty, hwraps'⟩ := ih (s := v) (by rw [Quiet, henv]; exact hq)
      (by rw [hrxc, hcfg]; exact Nat.mod_lt _ s.cfg.ranges.2.1.1) (by rw [hcfg]; omega) (fun j hj => by
        rw [hcfg] at hj ⊢
        rw [hrxc, inStretch_succ hin hp hj, ← hframes j hj, howned]
        by_cases hj' : j = s.blk.rxc.toNat <;> simp [hj'])
    obtain ⟨g, -, hdrained'⟩ := hcons hready hdrained
    refine ⟨g :: frames, u, fun n => ?_, hdrained', by rw [List.length_cons, hlen], fun j hj => ?_, fun r i => ?_⟩
    · rw [Nat.add_right_comm, hturn, hturns]
    · exact hempty j (by rw [hcfg]; exact hj)
    · rw [hwraps', hwraps]

/-- The cursor goes round the ring. -/
theorem slotAfter_eq (c : Cfg) {slot : Nat} (h : slot < c.nRx) (n : Nat) : slotAfter c slot n = (slot + n) % c.nRx := by
  induction n generalizing slot with
  | zero => exact (Nat.mod_eq_of_lt h).symm
  | succ n ih =>
    rw [slotAfter, ih (Nat.mod_lt _ c.ranges.2.1.1), Nat.mod_add_mod, Nat.add_assoc, Nat.add_comm 1 n]

theorem Drained.rxc {s u : State} {frames : List DrainedFrame} (h : Drained s u frames)
    (hin : s.blk.rxc.toNat < s.cfg.nRx) : u.blk.rxc.toNat = (s.blk.rxc.toNat + frames.length) % s.cfg.nRx := by
  rw [h.blk, slotAfter_eq s.cfg hin]
  obtain ⟨-, ⟨hpos, hmax⟩, -⟩ := s.cfg.ranges
  have hlt : (s.blk.rxc.toNat + frames.length) % s.cfg.nRx < s.cfg.nRx := Nat.mod_lt _ hpos
  exact Nat.mod_eq_of_lt (by omega)

theorem Drained.quiet {s u : State} {frames : List DrainedFrame} (h : Drained s u frames) (hq : Quiet s) : Quiet u := by
  rw [Quiet, h.env hq]
  exact hq

/-! ## What a pass delivers -/

theorem countP_copyEvents (src dst : Addr) (k : Nat) (bs : List Byte) :
    (copyEvents src dst k bs).countP isFrameReceived = 0 := by
  induction bs generalizing k with
  | nil => rfl
  | cons b bs ih => simp [copyEvents, ih, isFrameReceived]

/-- Each frame of a drain is delivered once. -/
theorem countP_drainEvents (c : Cfg) (slot : Nat) (frames : List DrainedFrame) :
    (drainEvents c slot frames).countP isFrameReceived = frames.length := by
  induction frames generalizing slot with
  | nil => rfl
  | cons f fs ih =>
    simp [drainEvents, DrainedFrame.events, List.countP_cons, ih, countP_copyEvents, isFrameReceived, readEvent, writeEvent]

/-- Settles O48: the drain takes the frames that are there, and the source is cleared after it. -/
theorem dispatchDeliversEveryFrame : Obligations.DispatchDeliversEveryFrame := by
  intro s p he hrun hq hfinite hin hp hframes hrx
  obtain ⟨hdev1, -, henv1⟩ := sourceRead_quiet hq
  have hcfg1 : (sourceRead s).cfg = s.cfg := State.mmioRead_cfg _ _
  have hblk1 : (sourceRead s).blk = s.blk := State.mmioRead_blk _ _
  have hq1 : Quiet (sourceRead s) := by rw [Quiet, henv1]; exact hq
  obtain ⟨frames, u, hturns, hdrained, hlen, hempty, -⟩ := drainTurns_takes p hq1 (by rw [hcfg1, hblk1]; exact hin)
    (by rw [hcfg1]; exact hp) (by rw [hcfg1, hblk1]; simpa only [owned, hcfg1, hdev1] using hframes)
  have hrxc := hdrained.rxc (by rw [hcfg1, hblk1]; exact hin)
  obtain ⟨hcfgu, -, htraceu, -⟩ := hdrained.since_sourceRead
  rw [hcfg1] at hempty hrxc
  rw [hblk1, hlen] at hrxc
  have hqu := hdrained.quiet hq1
  have hfiniteu : arrivalsEndless u = false := by
    rw [arrivalsEndless, hdrained.rxEndless, henv1, hfinite]
    rfl
  have hown : Field.test u.cfg.layout.own (u.mmioVal (rxSlot u)) = true := by
    rw [rxSlot_val, u.tick_quiet hqu]
    exact hempty _ (by rw [hrxc]; exact Nat.mod_lt _ s.cfg.ranges.2.1.1)
  have hdrain : rxDrain (sourceRead s) = (true, u.mmioRead (rxSlot u)) := by
    have hbound : (sourceRead s).cfg.nRx + arrivals (sourceRead s).env + 2
        = p + ((s.cfg.nRx - p + arrivals (sourceRead s).env + 1) + 1) := by
      rw [hcfg1]
      omega
    rw [rxDrain, hbound, hturns, drainTurns_empty hfiniteu hown]
  set v := s.tick.dev.intSource
  have hv : v = s.dev.intSource := by
    show s.tick.dev.intSource = _
    rw [s.tick_quiet hq]
  have hexec : exec .dispatch s = .next (dispatchEnd v (u.mmioRead (rxSlot u))) := by
    rw [exec_dispatch he hrun, dispatchPass_drain (by rw [show s.tick.dev.intSource = v from rfl, hv]; exact hrx), drainPass,
      hdrain]
    rfl
  obtain ⟨hread, -⟩ := u.mmioRead_quiet (rxSlot u) hqu rfl
  obtain ⟨-, -, -, -, hdevt, -⟩ := dispatchEnd_quiet (x := u.mmioRead (rxSlot u)) hq hdrained (by rw [hread]; rfl)
    (by rw [hread]; rfl) (by rw [hread]; rfl)
  obtain ⟨hcfgt, hblkt, -, htracet, -, -, hquiett⟩ := dispatchEnd_spec v (u.mmioRead (rxSlot u))
  obtain ⟨hdevt', -⟩ := hquiett (by rw [hread]; exact hqu)
  refine ⟨_, frames, [readEvent s.cfg (.reg .intSource) v],
    .result (okWord 0) :: .irqAck s.cfg.irqLine :: writeEvent s.cfg (.reg .intSource) v
      :: ((if v &&& s.cfg.layout.txPendingMask ≠ 0 then [.txSlotFreed] else [])
        ++ [readEvent s.cfg (rxSlot u) (u.mmioVal (rxSlot u))]), hexec, hlen, ?_, ?_, ?_, fun j hj => ?_, ?_⟩
  · rw [htracet, State.mmioRead_trace, State.mmioRead_cfg, htraceu, hcfgu]
    simp
  · rw [List.countP_append, List.countP_append, countP_drainEvents, hlen]
    split <;> simp [isFrameReceived, readEvent, writeEvent]
  · rw [hblkt, State.mmioRead_blk]
    exact hrxc
  · have hj' := hempty j hj
    rw [owned, hcfgt, State.mmioRead_cfg, hdevt', hread]
    exact hj'
  · rw [hdevt]
    exact BitVec.zero_and

/-! ## Endless arrivals -/

/-- A pass that goes on keeps the invariant of the machine: it moves the RX cursor and changes word 0 of RX slots, not their
wrap flags. -/
theorem Safe.of_drain {s t : State} (hsafe : Safe s) (hrun : s.blk.flg.run = true) (hcfg : t.cfg = s.cfg)
    (hblk : t.blk = { s.blk with rxc := t.blk.rxc }) (hrxc : t.blk.rxc.toNat < s.cfg.nRx)
    (hregs : SameDriverRegs s.cfg.layout s.dev t.dev) (hwraps : ∀ r i, wraps t r i = wraps s r i) : Safe t := by
  obtain ⟨⟨htx, -, hzero, hrt, hlt, hrest, hfailed, hconstructed, hreserved⟩, ⟨hsingle, hpointers⟩, ⟨henabled, -, -⟩⟩ :=
    hsafe
  have hrun' : t.blk.flg.run = true := by rw [hblk]; exact hrun
  have hstopped : ∀ {p : Prop}, t.blk.flg.run = false → p := fun h => absurd (h.symm.trans hrun') Bool.false_ne_true
  have hrings : s.blk.flg.rings = true := (hconstructed hrun).2.1
  refine ⟨⟨?_, ?_, fun h => hstopped h, ?_, ?_, ?_, ?_, fun _ => ?_, ?_⟩, ⟨fun _ r i hi => ?_, fun _ r i hi => ?_⟩,
    ⟨fun on hon => ?_, fun _ h => hstopped h, fun _ h => hstopped h⟩⟩
  · rw [hcfg, hblk]; exact htx
  · rw [hcfg]; exact hrxc
  · rw [hcfg, hblk]; exact hrt
  · rw [hcfg, hblk]; exact hlt
  · rw [hblk]; exact hrest
  · rw [hblk]; exact hfailed
  · rw [hblk]; exact hconstructed hrun
  · rw [hblk]; exact hreserved
  · rw [hcfg] at hi ⊢
    rw [hwraps]
    exact hsingle hrings r i hi
  · rw [hcfg] at hi ⊢
    rw [← hpointers hrings r i hi]
    cases r with
    | tx => exact congrArg (fun st => (Store.find? i st).getD (Config.resetDesc .tx .pointer i)) hregs.txPointer
    | rx => exact congrArg (fun st => (Store.find? i st).getD (Config.resetDesc .rx .pointer i)) hregs.rxPointer
  · obtain rfl : true = on := hrun'.symm.trans hon
    obtain ⟨htxon, hrxon⟩ := henabled true hrun
    rw [hcfg, hregs.txOn, hregs.rxOn]
    exact ⟨htxon, hrxon⟩

/-- Where the RX engine may fill the slot that the next ready check reads, arrivals without end keep the pass going. -/
theorem arrivalsEndless_of_here {s : State} (hendless : s.env.rxEndless = true) (hq : Quiet s)
    (hon : macRxOn s.cfg.layout s.dev = true) (hhere : s.dev.rxPos = s.blk.rxc.toNat)
    (hown : owned s .rx s.blk.rxc.toNat = true) : arrivalsEndless s = true := by
  have hmay : s.dev.rxMayFill s.cfg = true := by
    rw [Device.rxMayFill, hon, hhere]
    exact hown
  have hempty : s.env.schedule.isEmpty = true := by rw [show s.env.schedule = [] from hq]; rfl
  rw [arrivalsEndless, hendless, hempty, hmay, decide_eq_true hhere]
  rfl

/-- A pass that waits for the next of the frames without end. -/
theorem PassWithoutEnd.of_drain {s t : State} (v : Word) (hsafe : Safe s) (hrun : s.blk.flg.run = true)
    (hcfg : t.cfg = s.cfg) (hblk : t.blk = { s.blk with rxc := t.blk.rxc })
    (hregs : SameDriverRegs s.cfg.layout s.dev t.dev) (hwraps : ∀ r i, wraps t r i = wraps s r i) (hq : Quiet t)
    (hendless : t.env.rxEndless = true) (hempty : ∀ j, j < s.cfg.nRx → owned t .rx j = true)
    (hrxc : t.blk.rxc.toNat < s.cfg.nRx) (hhere : t.dev.rxPos = t.blk.rxc.toNat) :
    PassWithoutEnd (t.setPass (some v)) ∧ arrivalsEndless t = true := by
  have hrun' : t.blk.flg.run = true := by rw [hblk]; exact hrun
  have hsafe' : Safe t := hsafe.of_drain hrun hcfg hblk hrxc hregs hwraps
  refine ⟨⟨⟨hsafe'.block, ⟨hsafe'.rings.single_wrap, hsafe'.rings.pointers⟩,
      ⟨hsafe'.mac.enabled_iff, hsafe'.mac.owned_tx, hsafe'.mac.owned_rx⟩⟩, hrun', rfl, hq, hendless,
      fun j hj => hempty j (by rw [← hcfg]; exact hj), hhere⟩, ?_⟩
  exact arrivalsEndless_of_here hendless hq (hsafe'.mac.enabled_iff true hrun').2 hhere (hempty _ hrxc)

/-- Under endless arrivals a pass takes the frames that are there and goes on (R278). -/
theorem dispatch_endless {s : State} (hsafe : Safe s) (hord : RxRingOrdered s) (hrun : s.blk.flg.run = true)
    (hq : Quiet s) (hendless : s.env.rxEndless = true) (hrx : s.dev.intSource &&& s.cfg.layout.rxPendingMask ≠ 0) :
    ∃ t frames, exec .dispatch s = .next t ∧ PassWithoutEnd t ∧ t.pass = some s.dev.intSource
      ∧ t.blk = { s.blk with rxc := t.blk.rxc }
      ∧ t.trace = drainEvents s.cfg s.blk.rxc.toNat frames ++ readEvent s.cfg (.reg .intSource) s.dev.intSource :: s.trace := by
  obtain ⟨-, p, hp, hpos, hframes⟩ := hord hrun
  have hin := hsafe.block.rxc_lt
  obtain ⟨hdev1, -, henv1⟩ := sourceRead_quiet hq
  have hcfg1 : (sourceRead s).cfg = s.cfg := State.mmioRead_cfg _ _
  have hblk1 : (sourceRead s).blk = s.blk := State.mmioRead_blk _ _
  have hq1 : Quiet (sourceRead s) := by rw [Quiet, henv1]; exact hq
  obtain ⟨frames, u, hturns, hdrained, hlen, hempty, hwraps⟩ := drainTurns_takes p hq1 (by rw [hcfg1, hblk1]; exact hin)
    (by rw [hcfg1]; exact hp) (by rw [hcfg1, hblk1]; simpa only [owned, hcfg1, hdev1] using hframes)
  have hrxc := hdrained.rxc (by rw [hcfg1, hblk1]; exact hin)
  have hposu : u.dev.rxPos = s.dev.rxPos := by rw [hdrained.dev hq1, hdev1]
  obtain ⟨hcfgu, hblku, htraceu, -, -, hregsu, -⟩ := hdrained.since_sourceRead
  rw [hcfg1] at hempty hrxc
  rw [hblk1, hlen] at hrxc
  have hwrapsu : ∀ r i, wraps u r i = wraps s r i := fun r i => by
    rw [hwraps, wraps, wraps, hcfg1, hdev1]
  obtain ⟨hpass, hgoes⟩ := PassWithoutEnd.of_drain s.dev.intSource hsafe hrun hcfgu (by rw [hblku]) hregsu hwrapsu
    (hdrained.quiet hq1) (by rw [hdrained.rxEndless, henv1]; exact hendless) hempty
    (by rw [hrxc]; exact Nat.mod_lt _ s.cfg.ranges.2.1.1) (by rw [hposu, hrxc]; exact hpos)
  have hdrain : rxDrain (sourceRead s) = (false, u) := by
    have hbound : (sourceRead s).cfg.nRx + arrivals (sourceRead s).env + 2
        = p + (s.cfg.nRx - p + arrivals (sourceRead s).env + 2) := by
      rw [hcfg1]
      omega
    rw [rxDrain, hbound, hturns, drainTurns_endless hgoes]
  have hv : s.tick.dev.intSource = s.dev.intSource := by rw [s.tick_quiet hq]
  refine ⟨_, frames, ?_, hpass, rfl, by rw [State.setPass_blk, hblku], by rw [State.setPass_trace, htraceu, hv]⟩
  rw [exec_dispatch (hsafe.block.run_constructed hrun).2.2.2 hrun, dispatchPass_drain (by rw [hv]; exact hrx), drainPass, hdrain,
    hv]
  rfl

/-- A ring of which no slot is marked is an empty stretch. -/
theorem IsStretch.last_eq_first {n first last : Nat} {M : Nat → Prop} (h : IsStretch n first last M)
    (hM : ∀ i, i < n → ¬ M i) : last = first := by
  obtain ⟨hfirst, p, hp, hlast, hiff⟩ := h
  have hfree := hM first hfirst
  rw [hiff first hfirst, inStretch_iff hfirst hp hfirst, ringDist, if_pos (le_refl _), Nat.sub_self, Nat.not_lt,
    Nat.le_zero] at hfree
  rw [hlast, hfree, Nat.add_zero, Nat.mod_eq_of_lt hfirst]

/-- Where a pass goes on, the frame that arrives is the next one that the drain takes. -/
theorem withArrival_ready {s : State} (h : PassWithoutEnd s) :
    Field.test s.withArrival.cfg.layout.own (s.withArrival.mmioVal (rxSlot s.withArrival)) = false := by
  obtain ⟨hsafe, hrun, -, -, -, hempty, hhere⟩ := h
  have hown : Field.test s.cfg.layout.own (s.dev.desc .rx .control s.dev.rxPos) = true := by
    rw [hhere]
    exact hempty _ hsafe.block.rxc_lt
  have hfill := congrArg Prod.fst (devAct_rxFill_owned (Config.arrivingFrame s.env.freeTick)
    (Config.arrivingLength s.env.freeTick) (Config.arrivingBits s.env.freeTick) s.mem
    (hsafe.mac.enabled_iff true hrun).2 hown)
  rw [rxSlot_val]
  show Field.test s.cfg.layout.own ((devAct s.cfg _ s.dev s.mem).1.desc .rx .control s.blk.rxc.toNat) = false
  rw [hfill, ← hhere]
  have hword : (s.dev.rxHandOver s.cfg (Config.arrivingLength s.env.freeTick) (Config.arrivingBits s.env.freeTick)).desc
      .rx .control s.dev.rxPos = filledControl s.cfg.layout (s.dev.desc .rx .control s.dev.rxPos)
        (Config.arrivingLength s.env.freeTick) (Config.arrivingBits s.env.freeTick) :=
    Device.desc_setDesc_self s.dev .rx .control s.dev.rxPos _
  rw [hword, own_filledControl]

/-- In an empty ring, the one frame that arrives is all there is. -/
theorem pending_withArrival {s : State} (h : ∀ j, j < s.cfg.nRx → owned s .rx j = true) : pending s.withArrival = 1 := by
  have hnone : frameSlots s.cfg s.dev = ∅ := Finset.eq_empty_of_forall_notMem fun j hj => by
    obtain ⟨hlt, hfree⟩ := mem_frameSlots.1 hj
    exact Bool.false_ne_true (hfree.symm.trans (h j hlt))
  show (frameSlots s.cfg s.dev).card + arrivals s.withArrival.env = 1
  rw [hnone, arrivals_eq]
  rfl

/-- From a pass that goes on, a step takes one frame and leaves such a pass (R278, R321). -/
theorem step_passWithoutEnd {s : State} (h : PassWithoutEnd s) : ∃ t f, step s = .next t ∧ PassWithoutEnd t
    ∧ t.pass = s.pass ∧ t.cfg = s.cfg
    ∧ t.blk = { s.blk with rxc := BitVec.ofNat 24 ((s.blk.rxc.toNat + 1) % s.cfg.nRx) } ∧ t.env.host = s.env.host
    ∧ DrainedFrame.fits s.cfg f ∧ t.trace = f.events s.cfg s.blk.rxc.toNat ++ s.trace := by
  have hready := withArrival_ready h
  obtain ⟨hsafe, hrun, hgoing, hq, hendless, hempty, hhere⟩ := h
  obtain ⟨v, hv⟩ := Option.isSome_iff_exists.1 hgoing
  have hin := hsafe.block.rxc_lt
  have harrives : arrivalsEndless s = true :=
    arrivalsEndless_of_here hendless hq (hsafe.mac.enabled_iff true hrun).2 hhere (hempty _ hin)
  have hfinite : arrivalsEndless s.withArrival = false := by
    rw [arrivalsEndless, show s.withArrival.env.schedule.isEmpty = false from rfl]
    simp
  have hok : RxOk s.withArrival := by
    refine ⟨singleWrap_of_safe hsafe hrun .rx, ?_⟩
    show IsStretch s.cfg.nRx s.blk.rxc.toNat s.dev.rxPos _
    rw [hhere]
    exact isStretch_empty hin fun j hj hfree => Bool.false_ne_true (hfree.symm.trans (hempty j hj))
  obtain ⟨f, hfits, -, -, hcfg, hblk, htrace, hregs, hfixed, hsched, -⟩ := drainFrame_spec hready
  have hpending := drainFrame_pending hready
  rw [if_pos (show s.withArrival.blk.rxc.toNat < s.withArrival.cfg.nRx from hin), pending_withArrival hempty] at hpending
  have hok' := drainFrame_rxOk hok hready
  have hwraps := drainFrame_wraps hready
  have hturn := drainTurns_frame hfinite hready
  generalize drainFrame (s.withArrival.mmioVal (rxSlot s.withArrival)) (s.withArrival.mmioRead (rxSlot s.withArrival)) = u
    at *
  simp only [Env.fixed, Prod.mk.injEq] at hfixed
  obtain ⟨-, hendlessu, hhostu, -⟩ := hfixed
  have hcfgu : u.cfg = s.cfg := hcfg
  have hemptyu : ∀ j, j < s.cfg.nRx → owned u .rx j = true := fun j hj => by
    by_contra hfree
    have hmem : j ∈ frameSlots u.cfg u.dev := by
      rw [Bool.not_eq_true, owned] at hfree
      exact mem_frameSlots.2 ⟨by rw [hcfgu]; exact hj, hfree⟩
    have := Finset.card_pos.2 ⟨j, hmem⟩
    unfold pending at hpending
    omega
  have hhereu : u.dev.rxPos = u.blk.rxc.toNat := by
    refine hok'.order.last_eq_first fun j hj hfree => ?_
    rw [hcfgu] at hj
    exact Bool.false_ne_true (hfree.symm.trans (hemptyu j hj))
  have hquietu : Quiet u := by
    rw [Quiet, hsched]
    exact List.drop_eq_nil_of_le (by simp [State.withArrival, DrainedFrame.events])
  obtain ⟨hpass, hgoes⟩ := PassWithoutEnd.of_drain v hsafe hrun hcfgu (by rw [hblk]; rfl) hregs hwraps hquietu
    (hendlessu.trans hendless) hemptyu (by rw [← hcfgu]; exact hok'.order.1) hhereu
  refine ⟨u.setPass (some v), f, ?_, hpass, hv.symm, hcfgu, hblk, hhostu, hfits, htrace⟩
  have hdrain : rxDrain s.withArrival = (false, u) := by
    rw [rxDrain, hturn, drainTurns_endless hgoes]
  rw [step_of_pass_some hv, continuePass, if_pos harrives, drainPass, hdrain]
  rfl

/-- Settles O47: every turn uses up a frame, so turns enough end the drain or meet frames without end, and then each step takes
one frame more. -/
theorem drainHasNoBound : Obligations.DrainHasNoBound := by
  intro s
  exact ⟨fun n hn => drainTurns_enough (Nat.lt_of_lt_of_le (drainBound_lt s) hn) (drainBound_lt s), rxDrain_ends,
    dispatch_endless, step_passWithoutEnd⟩

end Sys2Proof.Machine
end
